-- ==== Sys2Proof/Word.lean ====
section
/-! DEFINITION. The word types of CHA-CORE: the command word, bytes, symbols, handles (spec R82, R41, R28). -/

namespace Sys2Proof

/-- A command word (`CMD_W` = 32, spec R82). -/
abbrev Word := BitVec 32

/-- A byte of a stream (spec R41, R50). -/
abbrev Byte := BitVec 8

/-- A symbol, held in 9 bits (spec R41). -/
abbrev Sym := BitVec 9

/-- A handle into the tree arena, held in 10 bits (spec R28). -/
abbrev Handle := BitVec 10

/-- An opcode, bits 31:26 of the command word (spec R83). -/
abbrev Opcode := BitVec 6

end Sys2Proof
end

