-- ==== Sys2Proof/Config.lean ====
section
/-! DEFINITION. The parameters of CHA-CORE (spec R9, R10). The source fixes those of R9; those of R10 stand at the
value R10 states (entry 11). `NAME_MAX`, which R10 leaves OPEN, is no constant here: it is held in State (entry 3). -/

namespace Sys2Proof.Config

/-- `NSYM`: the number of symbol values, 0 to 258 (R9). -/
def nsym : Nat := 259

/-- `FILENAME_END` (R9). -/
def filenameEnd : Nat := 256

/-- `ONE_MORE_FILE` (R9). -/
def oneMoreFile : Nat := 257

/-- `ARCHIVE_END` (R9). -/
def archiveEnd : Nat := 258

/-- `SYM_W`: the width of every header field (R9). -/
def symW : Nat := 9

/-- `NAME_TERM`: the bytes of `.txt` (R9, G1). -/
def nameTerm : List Byte := [0x2E#8, 0x74#8, 0x78#8, 0x74#8]

/-- `LMAX`: the largest code length handled (R10). -/
def lmax : Nat := 258

/-- `NNODE`: the size of the tree arena (R10). -/
def nnode : Nat := 517

/-- `HN_MAX`: the largest alphabet size a header can state (R10). -/
def hnMax : Nat := 511

/-- `IMM_W`: the largest bit count of WBITS, WINT, RBITS, RINT (R10). -/
def immW : Nat := 16

end Sys2Proof.Config
end

