-- ==== Sys2Proof/Machine/Operands.lean ====
section
/-! DEFINITION. Operand forms: the legal ranges of R87, and the two ways a number becomes a sequence of bits
(a value, R56; a code, R15 and R58). -/

namespace Sys2Proof.Machine

/-- A symbol operand (RDFREQ, LDLEN, RDLEN, RDCODE, WSYM): 0 to 258 (R87). -/
def symInRange (a : Sym) : Bool := decide (a.toNat < Config.nsym)

/-- The length operand of LDLEN: 0 to 258 (R87). -/
def lenInRange (b : BitVec 9) : Bool := decide (b.toNat ≤ Config.lmax)

/-- The bit count of WBITS and RBITS: 0 to 16 (R87). -/
def bitCountInRange (n : BitVec 5) : Bool := decide (n.toNat ≤ Config.immW)

/-- The field width of WINT and RINT: 1 to 16 (R87). -/
def fieldWidthInRange (n : BitVec 5) : Bool := decide (1 ≤ n.toNat) && decide (n.toNat ≤ Config.immW)

/-- ENCFILE's operand: 0 or 1 (R87). -/
def lastInRange (a : BitVec 9) : Bool := decide (a.toNat ≤ 1)

/-- RDSR's operand: 0 to 3 (R87). -/
def srInRange (a : BitVec 9) : Bool := decide (a.toNat ≤ 3)

/-- CLOSE's operand: 0 to 2 (R87). -/
def streamInRange (a : BitVec 9) : Bool := decide (a.toNat ≤ 2)

/-- COMPRESS's operand: 1 to 65535 (R87). -/
def countInRange (idx : BitVec 16) : Bool := decide (1 ≤ idx.toNat)

/-- The `n` low bits of a value in the order `WriteBits` emits them: bit 0 first (R56, R101). -/
def valueBits (v n : Nat) : List Bool := (List.range n).map v.testBit

/-- `bitstr(c, L)`: the `L`-bit rendering of `c`, most significant bit first (R15, R58). -/
def bitstr (c L : Nat) : List Bool := (List.range L).map fun j => c.testBit (L - 1 - j)

end Sys2Proof.Machine
end

