-- ==== Sys2Proof/Syntax.lean ====
section
/-! DEFINITION. The 32 commands of CHA-CORE, one constructor per row of the opcode map (spec R84), with the raw operand
fields of their formats (spec R83). -/

namespace Sys2Proof

/-- A command with its operand fields as they stand in the word: unsigned, unscaled (spec R83). -/
inductive Instr where
  /-- R200 -/
  | nop
  /-- R104: write the `n` low bits of `v` -/
  | wbits (n : BitVec 5) (v : BitVec 16)
  /-- R105: write `v` as an `n`-bit field -/
  | wint (n : BitVec 5) (v : BitVec 16)
  /-- R106 -/
  | wflush
  /-- R107 -/
  | rbit
  /-- R108 -/
  | rbits (n : BitVec 5)
  /-- R109 -/
  | rint (n : BitVec 5)
  /-- R120 -/
  | scan
  /-- R123 -/
  | build
  /-- R126 -/
  | walk
  /-- R128: `a` is a symbol -/
  | rdfreq (a : Sym)
  /-- R141: `a` is a symbol, `b` a length -/
  | ldlen (a : Sym) (b : BitVec 9)
  /-- R142 -/
  | canon
  /-- R145: `a` is a symbol -/
  | rdlen (a : Sym)
  /-- R146: `a` is a symbol -/
  | rdcode (a : Sym)
  /-- R147 -/
  | whdr
  /-- R160 -/
  | rhdr
  /-- R162 -/
  | tbuild
  /-- R165 -/
  | getsym
  /-- R166: `a` is a symbol -/
  | wsym (a : Sym)
  /-- R181: `a` is 1 for the last file, 0 otherwise -/
  | encfile (a : BitVec 9)
  /-- R183 -/
  | decfile
  /-- R188: `idx` is the number of input files -/
  | compress (idx : BitVec 16)
  /-- R189 -/
  | decompress
  /-- R201 -/
  | reset
  /-- R202: `a` is a status register number -/
  | rdsr (a : BitVec 9)
  /-- R203 -/
  | aopenw
  /-- R204 -/
  | aopenr
  /-- R205: `idx` is an index into the host's inputs -/
  | sopen (idx : BitVec 16)
  /-- R206 -/
  | srewind
  /-- R207 -/
  | dopen
  /-- R208: `a` selects the stream -/
  | close (a : BitVec 9)
  deriving DecidableEq, Repr

end Sys2Proof
end

