-- ==== Sys2Proof/WellFormed.lean ====
section
/-! DEFINITION. Well-formed commands: every operand inside the range R87 gives it. -/

namespace Sys2Proof

open Machine

/-- The operand checks of R87. SOPEN takes any index; WBITS and WINT take any `v`. -/
def Instr.wf : Instr → Bool
  | .nop => true
  | .wbits n _ => bitCountInRange n
  | .wint n _ => fieldWidthInRange n
  | .wflush => true
  | .rbit => true
  | .rbits n => bitCountInRange n
  | .rint n => fieldWidthInRange n
  | .scan => true
  | .build => true
  | .walk => true
  | .rdfreq a => symInRange a
  | .ldlen a b => symInRange a && lenInRange b
  | .canon => true
  | .rdlen a => symInRange a
  | .rdcode a => symInRange a
  | .whdr => true
  | .rhdr => true
  | .tbuild => true
  | .getsym => true
  | .wsym a => symInRange a
  | .encfile a => lastInRange a
  | .decfile => true
  | .compress idx => countInRange idx
  | .decompress => true
  | .reset => true
  | .rdsr a => srInRange a
  | .aopenw => true
  | .aopenr => true
  | .sopen _ => true
  | .srewind => true
  | .dopen => true
  | .close a => streamInRange a

end Sys2Proof
end

