-- ==== Sys2Proof/Decode.lean ====
section
/-! DEFINITION. Command decode (spec R82 to R86, R91 steps 1 and 2), total on all 2^32 words, rejecting by name, and the
encoder. An operand out of range decodes to its command: the range check R87 is step 3 of R91 and belongs to the
command's meaning (entry 8). -/

namespace Sys2Proof

/-- What the decoder answers. -/
inductive Decoded where
  /-- the word's command -/
  | ok (i : Instr)
  /-- a reserved opcode (R85) -/
  | reservedOpcode (op : Opcode)
  /-- a 1 in a bit the opcode's format marks 0 (R86) -/
  | mustBeZero (op : Opcode)
  deriving DecidableEq, Repr

/-- Bits 31:26 (R83). -/
def opField (w : Word) : Opcode := w.extractLsb' 26 6

/-- Operand `a` of formats A and AB, bits 25:17 (R83). -/
def aField (w : Word) : BitVec 9 := w.extractLsb' 17 9

/-- Operand `b` of format AB, bits 16:8 (R83). -/
def bField (w : Word) : BitVec 9 := w.extractLsb' 8 9

/-- Operand `n` of format V, bits 25:21 (R83). -/
def nField (w : Word) : BitVec 5 := w.extractLsb' 21 5

/-- Operand `v` of format V and `idx` of format I, bits 15:0 (R83). -/
def vField (w : Word) : BitVec 16 := w.extractLsb' 0 16

/-- The bits format Z marks 0 (R83). -/
def mbzZ : Word := 0x03FFFFFF#32

/-- The bits format A marks 0 (R83). -/
def mbzA : Word := 0x0001FFFF#32

/-- The bits format AB marks 0 (R83). -/
def mbzAB : Word := 0x000000FF#32

/-- The bits format V marks 0 (R83). -/
def mbzV : Word := 0x001F0000#32

/-- The bits of RBITS and RINT that must be 0: format V's and the `v` field (R83, R86). -/
def mbzVn : Word := 0x001FFFFF#32

/-- The bits format I marks 0 (R83). -/
def mbzI : Word := 0x03FF0000#32

/-- Step 2 of R91: the must-be-zero bits of the opcode's format. -/
def checkZero (w mbz : Word) (i : Instr) : Decoded :=
  if w &&& mbz = 0#32 then .ok i else .mustBeZero (opField w)

/-- Steps 1 and 2 of R91 over the opcode map of R84. -/
def decode (w : Word) : Decoded :=
  match (opField w).toNat with
  | 0x00 => checkZero w mbzZ .nop
  | 0x01 => checkZero w mbzV (.wbits (nField w) (vField w))
  | 0x02 => checkZero w mbzV (.wint (nField w) (vField w))
  | 0x03 => checkZero w mbzZ .wflush
  | 0x04 => checkZero w mbzZ .rbit
  | 0x05 => checkZero w mbzVn (.rbits (nField w))
  | 0x06 => checkZero w mbzVn (.rint (nField w))
  | 0x08 => checkZero w mbzZ .scan
  | 0x09 => checkZero w mbzZ .build
  | 0x0A => checkZero w mbzZ .walk
  | 0x0B => checkZero w mbzA (.rdfreq (aField w))
  | 0x0C => checkZero w mbzAB (.ldlen (aField w) (bField w))
  | 0x0D => checkZero w mbzZ .canon
  | 0x0E => checkZero w mbzA (.rdlen (aField w))
  | 0x0F => checkZero w mbzA (.rdcode (aField w))
  | 0x10 => checkZero w mbzZ .whdr
  | 0x11 => checkZero w mbzZ .rhdr
  | 0x12 => checkZero w mbzZ .tbuild
  | 0x13 => checkZero w mbzZ .getsym
  | 0x14 => checkZero w mbzA (.wsym (aField w))
  | 0x15 => checkZero w mbzA (.encfile (aField w))
  | 0x16 => checkZero w mbzZ .decfile
  | 0x17 => checkZero w mbzI (.compress (vField w))
  | 0x18 => checkZero w mbzZ .decompress
  | 0x19 => checkZero w mbzZ .reset
  | 0x1A => checkZero w mbzA (.rdsr (aField w))
  | 0x1B => checkZero w mbzZ .aopenw
  | 0x1C => checkZero w mbzZ .aopenr
  | 0x1D => checkZero w mbzI (.sopen (vField w))
  | 0x1E => checkZero w mbzZ .srewind
  | 0x1F => checkZero w mbzZ .dopen
  | 0x20 => checkZero w mbzA (.close (aField w))
  | _ => .reservedOpcode (opField w)

/-- A command's opcode (R84). -/
def Instr.opcode : Instr → Opcode
  | .nop => 0x00#6
  | .wbits _ _ => 0x01#6
  | .wint _ _ => 0x02#6
  | .wflush => 0x03#6
  | .rbit => 0x04#6
  | .rbits _ => 0x05#6
  | .rint _ => 0x06#6
  | .scan => 0x08#6
  | .build => 0x09#6
  | .walk => 0x0A#6
  | .rdfreq _ => 0x0B#6
  | .ldlen _ _ => 0x0C#6
  | .canon => 0x0D#6
  | .rdlen _ => 0x0E#6
  | .rdcode _ => 0x0F#6
  | .whdr => 0x10#6
  | .rhdr => 0x11#6
  | .tbuild => 0x12#6
  | .getsym => 0x13#6
  | .wsym _ => 0x14#6
  | .encfile _ => 0x15#6
  | .decfile => 0x16#6
  | .compress _ => 0x17#6
  | .decompress => 0x18#6
  | .reset => 0x19#6
  | .rdsr _ => 0x1A#6
  | .aopenw => 0x1B#6
  | .aopenr => 0x1C#6
  | .sopen _ => 0x1D#6
  | .srewind => 0x1E#6
  | .dopen => 0x1F#6
  | .close _ => 0x20#6

/-- Format Z (R83). -/
def wordZ (op : Opcode) : Word := op ++ 0#26

/-- Format A (R83). -/
def wordA (op : Opcode) (a : BitVec 9) : Word := op ++ (a ++ 0#17)

/-- Format AB (R83). -/
def wordAB (op : Opcode) (a b : BitVec 9) : Word := op ++ (a ++ (b ++ 0#8))

/-- Format V (R83). -/
def wordV (op : Opcode) (n : BitVec 5) (v : BitVec 16) : Word := op ++ (n ++ (0#5 ++ v))

/-- Format I (R83). -/
def wordI (op : Opcode) (idx : BitVec 16) : Word := op ++ (0#10 ++ idx)

/-- The command word of a command: `op << 26` OR its operand fields (R84). -/
def encode (i : Instr) : Word :=
  match i with
  | .wbits n v | .wint n v => wordV i.opcode n v
  | .rbits n | .rint n => wordV i.opcode n 0#16
  | .rdfreq a | .rdlen a | .rdcode a | .wsym a | .encfile a | .rdsr a | .close a => wordA i.opcode a
  | .ldlen a b => wordAB i.opcode a b
  | .compress idx | .sopen idx => wordI i.opcode idx
  | .nop | .wflush | .rbit | .scan | .build | .walk | .canon | .whdr | .rhdr | .tbuild | .getsym | .decfile
  | .decompress | .reset | .aopenw | .aopenr | .srewind | .dopen => wordZ i.opcode

/-- The command the decoder reads from the word whose bits are `w`, as the opcode table numbers them (all rows have 32
bits). -/
def decodeTableWord (nbits w : Nat) : Option Instr :=
  match decode (BitVec.ofNat 32 (w % 2 ^ nbits)) with
  | .ok i => some i
  | .reservedOpcode _ => none
  | .mustBeZero _ => none

end Sys2Proof
end

