-- ==== Sys2Proof/Machine/State.lean ====
section
/-! DEFINITION. The state of CHA-CORE (spec R20 to R36), the host's side of it as data (spec R51), the reasons a step can
stop, and the state after reset (spec R39). -/

namespace Sys2Proof.Machine

/-- Why a step stops. Every reason is for a state no run reaches, in which the spec's pseudocode has no next statement
or does not end; stopping there is safe (entry 7). -/
inductive Fault where
  /-- BUILD with an all-zero FREQ: "the one element of PQ" does not exist. Raised by BUILD, ENCFILE and COMPRESS's tree
  builder only; R121 and R123 rule it out after a SCAN. Safe. -/
  | emptyQueue
  /-- WALK's Visit leaves the arena or never ends, because NODE holds a cycle. Raised by the code-length walk only; R125
  rules it out after a BUILD. Safe. -/
  | walkDiverges
  /-- A decode loop that goes on without consuming a bit of ARC. Raised by DECFILE and DECOMPRESS only; R261 rules it
  out. Safe. -/
  | loopDiverges
  deriving DecidableEq, Repr

/-- Why a step has no meaning. -/
inductive Refusal where
  /-- A command that has no meaning in this model yet. Raised by `exec`'s refused arms only (there is none). Safe. -/
  | notModelled (mnemonic : String)
  deriving DecidableEq, Repr

/-- One entry of the tree arena (R28). -/
structure Node where
  leaf : Bool
  sym : Sym
  freq : BitVec 73
  left : Handle
  right : Handle
  deriving DecidableEq, Repr

/-- The arena entry after reset (R28, R39). -/
def Node.zero : Node := ⟨false, 0#9, 0#73, 0#10, 0#10⟩

/-- The binary trie of R34 as a tree: `nil` is "no node", `val` is `sym` where `has` = 1 (entry 6). -/
inductive Trie where
  | nil
  | node (c0 c1 : Trie) (val : Option Sym)
  deriving DecidableEq, Repr

/-- One entry of the host's input list (R51). -/
inductive InputFile where
  | unopenable
  | file (name content : List Byte)
  deriving DecidableEq, Repr

/-- The host's `dst_ok` (R51) as plain data: the answer for every name but the listed ones (entry 4). -/
structure DstPolicy where
  acceptOthers : Bool
  exceptions : List (List Byte)
  deriving DecidableEq, Repr

/-- The host's record (R51) and the command words it is going to issue (entry 2). -/
structure HostSide where
  /-- the input files -/
  inputs : List InputFile
  /-- the archive's bytes -/
  arc : List Byte
  /-- may ARC be opened for writing -/
  arcWOk : Bool
  /-- may ARC be opened for reading -/
  arcROk : Bool
  /-- ARC's read cursor -/
  arcPos : Nat
  /-- SRC's read cursor -/
  srcPos : Nat
  /-- may an output of a name be opened -/
  dst : DstPolicy
  /-- the outputs, in order of opening -/
  outputs : List (List Byte × List Byte)
  /-- the command words to come, next one first -/
  cmds : List Word
  deriving DecidableEq, Repr

/-- The machine's state: the core's registers and tables, `NAME_MAX`, and the host's side. -/
structure State where
  /-- R21; its writers are those of the pseudocode (entry 18) -/
  wbuf : BitVec 8
  /-- R21 -/
  wcnt : BitVec 4
  /-- R22; its writers are those of the pseudocode (entry 18) -/
  rbuf : BitVec 8
  /-- R22 -/
  rcnt : BitVec 4
  /-- R23 -/
  res : BitVec 258
  /-- R23 -/
  rlen : BitVec 9
  /-- R24 -/
  status : BitVec 16
  /-- R25 -/
  fault : BitVec 4
  /-- R26 -/
  finfo : BitVec 16
  /-- R27 -/
  freq : Vector (BitVec 64) 259
  /-- R28 -/
  node : Vector Node 517
  /-- R28 -/
  ncnt : BitVec 10
  /-- R28 -/
  root : Handle
  /-- R29, ascending (entry 17) -/
  pq : List Handle
  /-- R30 -/
  len : Vector (BitVec 9) 259
  /-- R31 -/
  hn : BitVec 10
  /-- R31 -/
  ord : Vector Sym 511
  /-- R32, `CNTL[L]` at index `L - 1` -/
  cntl : Vector (BitVec 9) 258
  /-- R32 -/
  maxl : BitVec 9
  /-- R33 -/
  cl : Vector (BitVec 9) 511
  /-- R33 -/
  cc : Vector (BitVec 258) 511
  /-- R34 -/
  tn : Trie
  /-- R35; `NLEN` is its length (entry 6) -/
  name : List Byte
  /-- R36 -/
  sidx : BitVec 16
  /-- `NAME_MAX` (R10), `none` where unbounded (entry 3); no command writes it -/
  nameMax : Option Nat
  /-- the host's side (R51) -/
  host : HostSide
  deriving DecidableEq, Repr

/-- The host at power-on: willing, with nothing to read and nothing to say yet (entry 1, DESIGN CHOICE). -/
def HostSide.atPowerOn : HostSide where
  inputs := []
  arc := []
  arcWOk := true
  arcROk := true
  arcPos := 0
  srcPos := 0
  dst := ⟨true, []⟩
  outputs := []
  cmds := []

/-- The machine right after power-on reset (R39, R251). -/
def State.reset : State where
  wbuf := 0#8
  wcnt := 0#4
  rbuf := 0#8
  rcnt := 0#4
  res := 0#258
  rlen := 0#9
  status := 0#16
  fault := 0#4
  finfo := 0#16
  freq := Vector.replicate 259 0#64
  node := Vector.replicate 517 Node.zero
  ncnt := 0#10
  root := 0#10
  pq := []
  len := Vector.replicate 259 0#9
  hn := 0#10
  ord := Vector.replicate 511 0#9
  cntl := Vector.replicate 258 0#9
  maxl := 0#9
  cl := Vector.replicate 511 0#9
  cc := Vector.replicate 511 0#258
  tn := .nil
  name := []
  sidx := 0#16
  nameMax := none
  host := HostSide.atPowerOn

end Sys2Proof.Machine
end

