-- ==== Sys2Proof/Machine/Flags.lean ====
section
/-! DEFINITION. The STATUS flags (spec R24) and the validity-flag discipline (spec R40). These are the block's only
condition codes. -/

namespace Sys2Proof.Machine

/-- The flags of STATUS (R24). -/
inductive Flag where
  | faulted
  | awOpen
  | arOpen
  | sOpen
  | dOpen
  | fValid
  | tValid
  | lValid
  | hValid
  | cValid
  | trValid
  deriving DecidableEq, Repr

/-- The flag's bit of STATUS (R24). -/
def Flag.bit : Flag → Nat
  | .faulted => 0
  | .awOpen => 1
  | .arOpen => 2
  | .sOpen => 3
  | .dOpen => 4
  | .fValid => 5
  | .tValid => 6
  | .lValid => 7
  | .hValid => 8
  | .cValid => 9
  | .trValid => 10

/-- Is the flag 1? -/
def State.flag (s : State) (f : Flag) : Bool := s.status.getLsbD f.bit

/-- STATUS with one flag written. -/
def statusWith (w : BitVec 16) (f : Flag) (b : Bool) : BitVec 16 :=
  if b then w ||| 1#16 <<< f.bit else w &&& ~~~(1#16 <<< f.bit)

/-- `FLAG <- b`. -/
def State.setFlag (s : State) (f : Flag) (b : Bool) : State := { s with status := statusWith s.status f b }

/-- `FLAG <- 0` for each flag listed. -/
def State.clearFlags (s : State) (fs : List Flag) : State := fs.foldl (fun t f => t.setFlag f false) s

/-- What SCAN clears at its start (R24, R40): the whole chain. -/
def chainFromFreq : List Flag := [.fValid, .tValid, .lValid, .hValid, .cValid, .trValid]

/-- What BUILD clears at its start (R24, R40). -/
def chainFromTree : List Flag := [.tValid, .lValid, .hValid, .cValid, .trValid]

/-- What WALK clears at its start (R24, R40). -/
def chainFromLen : List Flag := [.lValid, .hValid, .cValid, .trValid]

/-- What CANON and RHDR clear at their start, and LDLEN (R24, R40, R141). -/
def chainFromHeader : List Flag := [.hValid, .cValid, .trValid]

/-- What TBUILD clears at its start (R24, R40). -/
def chainFromCodes : List Flag := [.cValid, .trValid]

end Sys2Proof.Machine
end

