-- ==== Sys2Proof/Machine/Ops.lean ====
section
/-! DEFINITION. The shared operations: tables, the running of a command and its fault entry (spec R225 to R230), reset,
the stream primitives (spec R52, R53), the bit writer and reader (spec R100 to R103, R106), the fetch of a command word. -/

namespace Sys2Proof.Machine

/-! ### Tables -/

/-- Entry `i` of a table; `d` for an index the table does not have, which no run asks for (entry 12). -/
def tget {α : Type} {n : Nat} (t : Vector α n) (i : Nat) (d : α) : α := t.toList.getD i d

/-- `t[i] <- x`; nothing for an index the table does not have, which no run writes (entry 12). -/
def tset {α : Type} {n : Nat} (t : Vector α n) (i : Nat) (x : α) : Vector α n :=
  ⟨⟨t.toList.set i x⟩, by simp⟩

/-- `t[0..] <- xs`: the first entries written, the others kept (entry 15). -/
def tsetPrefix {α : Type} {n : Nat} (t : Vector α n) (xs : List α) : Vector α n :=
  ⟨⟨(xs ++ t.toList.drop xs.length).take n⟩, by simp; omega⟩

/-- `FREQ[x]` (R27). -/
def State.freqAt (s : State) (x : Nat) : BitVec 64 := tget s.freq x 0#64

/-- `LEN[x]` (R30). -/
def State.lenAt (s : State) (x : Nat) : BitVec 9 := tget s.len x 0#9

/-- `NODE[h]` (R28). -/
def State.nodeAt (s : State) (h : Handle) : Node := tget s.node h.toNat Node.zero

/-- `ORD[i]` (R31). -/
def State.ordAt (s : State) (i : Nat) : Sym := tget s.ord i 0#9

/-- `CNTL[L]`, L from 1 (R32). -/
def State.cntlAt (s : State) (L : Nat) : BitVec 9 := tget s.cntl (L - 1) 0#9

/-- `CL[i]` (R33). -/
def State.clAt (s : State) (i : Nat) : BitVec 9 := tget s.cl i 0#9

/-- `CC[i]` (R33). -/
def State.ccAt (s : State) (i : Nat) : BitVec 258 := tget s.cc i 0#258

/-- The number of nodes of a trie; `TCNT` is that of TN (R34, entry 6). -/
def Trie.size : Trie → Nat
  | .nil => 0
  | .node c0 c1 _ => c0.size + c1.size + 1

/-- `TCNT` (R34). -/
def State.tcnt (s : State) : Nat := s.tn.size

/-- `NLEN` (R35). -/
def State.nlen (s : State) : Nat := s.name.length

/-- `RES <- zext_258(v)` (R23). -/
def State.setRes {w : Nat} (s : State) (v : BitVec w) : State := { s with res := v.setWidth 258 }

/-! ### Faults -/

/-- The fault kinds (R220). -/
inductive FaultKind where
  | openFailure
  | unexpectedEndOfStream
  | malformedCode
  | framingError
  | illegalOperation
  | countOverflow
  deriving DecidableEq, Repr

/-- The code of a fault kind (R220). -/
def FaultKind.code : FaultKind → BitVec 4
  | .openFailure => 1#4
  | .unexpectedEndOfStream => 2#4
  | .malformedCode => 3#4
  | .framingError => 4#4
  | .illegalOperation => 5#4
  | .countOverflow => 6#4

/-- FINFO of an IllegalOperation: the host command's opcode in 15:8, the sub-code in 3:0 (R221). -/
def illegalInfo (op : Opcode) (sub : BitVec 4) : BitVec 16 := (op.setWidth 16 <<< 8) ||| sub.setWidth 16

/-- FINFO of a CountOverflow: the symbol in 15:7 (R221). -/
def overflowInfo (x : Nat) : BitVec 16 := (BitVec.ofNat 9 x).setWidth 16 <<< 7

/-- Fault entry `raise K(info)`, what it writes (R225): the first fault is recorded, nothing else changes. -/
def State.raise (s : State) (k : FaultKind) (info : BitVec 16) : State :=
  if s.flag .faulted then s else { s with fault := k.code, finfo := info }.setFlag .faulted true

/-- The exit from FAULTED, and the power-on state of the core: every register and table at its value of R39, the host's
side untouched (R201, R229, R250 to R252). -/
def State.resetCore (s : State) : State := { State.reset with nameMax := s.nameMax, host := s.host }

/-! ### Running a command's pseudocode -/

/-- How a stretch of pseudocode ends: with a value, with a recorded fault that ends the command (R225), or not at all
(entry 7). -/
inductive Run (α : Type) where
  | done (a : α) (s : State)
  | raised (s : State)
  | stuck (r : Fault)
  deriving Repr

/-- Sequence: nothing after a `raise` executes (R18, R230). -/
def Run.bind {α β : Type} (r : Run α) (k : α → State → Run β) : Run β :=
  match r with
  | .done a s => k a s
  | .raised s => .raised s
  | .stuck f => .stuck f

/-- `bind` where the first part returns nothing. -/
def Run.andThen {β : Type} (r : Run Unit) (k : State → Run β) : Run β := r.bind fun _ s => k s

/-- `raise K(info)` as a stretch of pseudocode (R225). -/
def Run.raise {α : Type} (k : FaultKind) (info : BitVec 16) (s : State) : Run α := .raised (s.raise k info)

/-- The command completes, with or without a fault (R222). -/
def Run.outcome (r : Run Unit) : Host.Outcome State Fault Refusal :=
  match r with
  | .done _ s => .next s
  | .raised s => .next s
  | .stuck f => .fault f

/-- Steps 0, 3, 4, 5 of R91 (R226): the FAULTED state refuses without effect (R227); operand range; preconditions;
execution. `always` says that the command is accepted while FAULTED (RESET, RDSR). -/
def runCommand (op : Opcode) (always inRange pre : Bool) (body : State → Run Unit) (s : State) :
    Host.Outcome State Fault Refusal :=
  if s.flag .faulted && !(always && inRange) then .next s
  else if !inRange then .next (s.raise .illegalOperation (illegalInfo op 3))
  else if !pre then .next (s.raise .illegalOperation (illegalInfo op 4))
  else (body s).outcome

/-- A word the decoder rejects (R85, R86): refused while FAULTED (R227), IllegalOperation(1) or (2) otherwise. -/
def rejectWord (op : Opcode) (sub : BitVec 4) (s : State) : Host.Outcome State Fault Refusal :=
  .next (s.raise .illegalOperation (illegalInfo op sub))

/-- The next command word the host issues, taken off its list; `none` while the host issues none (entry 2). -/
def fetch (s : State) : Option (Word × State) :=
  match s.host.cmds with
  | [] => none
  | w :: rest => some (w, { s with host.cmds := rest })

/-- `s` with `w` as the next word the host issues (entry 2). -/
def issue (s : State) (w : Word) : State := { s with host.cmds := w :: s.host.cmds }

/-! ### Stream primitives -/

/-- `MemRead(ARC, 1)`; `none` is EOD (R52). -/
def memReadArc (s : State) : Option Byte × State :=
  match s.host.arc[s.host.arcPos]? with
  | some x => (some x, { s with host.arcPos := s.host.arcPos + 1 })
  | none => (none, s)

/-- `MemWrite(ARC, 1, v)` (R52). -/
def memWriteArc (s : State) (v : Byte) : State := { s with host.arc := s.host.arc ++ [v] }

/-- An input's content; none where it cannot be opened. -/
def InputFile.content : InputFile → List Byte
  | .unopenable => []
  | .file _ c => c

/-- The content of the open input, the one SIDX names (R36, R51, entry 5). -/
def State.srcContent (s : State) : List Byte :=
  match s.host.inputs[s.sidx.toNat]? with
  | some f => f.content
  | none => []

/-- The bytes of the open input not read yet. -/
def State.srcRest (s : State) : List Byte := s.srcContent.drop s.host.srcPos

/-- `MemRead(SRC, 1)`; `none` is EOD (R52). -/
def memReadSrc (s : State) : Option Byte × State :=
  match s.srcContent[s.host.srcPos]? with
  | some x => (some x, { s with host.srcPos := s.host.srcPos + 1 })
  | none => (none, s)

/-- Append a byte to the content of the last output. -/
def appendToLast (v : Byte) : List (List Byte × List Byte) → List (List Byte × List Byte)
  | [] => []
  | [o] => [(o.1, o.2 ++ [v])]
  | o :: p :: rest => o :: appendToLast v (p :: rest)

/-- `MemWrite(DST, 1, v)` (R52). -/
def memWriteDst (s : State) (v : Byte) : State := { s with host.outputs := appendToLast v s.host.outputs }

/-- `dst_ok(name)` (R51, entry 4). -/
def DstPolicy.ok (d : DstPolicy) (name : List Byte) : Bool :=
  if d.exceptions.contains name then !d.acceptOthers else d.acceptOthers

/-- `HostOpenArcW()`; `none` is `fail` (R53). -/
def hostOpenArcW (s : State) : Option State :=
  if s.host.arcWOk then some { s with host.arc := [] } else none

/-- `HostOpenArcR()` (R53). -/
def hostOpenArcR (s : State) : Option State :=
  if s.host.arcROk then some { s with host.arcPos := 0 } else none

/-- `HostOpenSrc(i)`: the display name on `ok` (R53). -/
def hostOpenSrc (i : Nat) (s : State) : Option (List Byte × State) :=
  match s.host.inputs[i]? with
  | some (.file name _) => some (name, { s with host.srcPos := 0 })
  | some .unopenable => none
  | none => none

/-- `HostOpenDst(name)` (R53). -/
def hostOpenDst (name : List Byte) (s : State) : Option State :=
  if s.host.dst.ok name then some { s with host.outputs := s.host.outputs ++ [(name, [])] } else none

/-- `HostRewind(SRC)` (R53). -/
def hostRewindSrc (s : State) : State := { s with host.srcPos := 0 }

/-! ### The bit writer and the bit reader -/

/-- `WriteBit(b)` (R100). -/
def writeBit (s : State) (b : Bool) : State :=
  let wbuf := s.wbuf ||| (BitVec.ofBool b).setWidth 8 <<< s.wcnt.toNat
  let wcnt := s.wcnt + 1#4
  if wcnt = 8#4 then { memWriteArc s wbuf with wbuf := 0#8, wcnt := 0#4 }
  else { s with wbuf := wbuf, wcnt := wcnt }

/-- One `WriteBit` per bit, in order. -/
def writeBitList (s : State) (bs : List Bool) : State := bs.foldl writeBit s

/-- `WriteBits(value, n)` (R101). -/
def writeBits (s : State) (v n : Nat) : State := writeBitList s (valueBits v n)

/-- `Flush()` (R106). -/
def flush (s : State) : State :=
  if s.wcnt = 0#4 then s else { memWriteArc s s.wbuf with wbuf := 0#8, wcnt := 0#4 }

/-- `ReadBit()` once the cache holds a bit (R102). -/
def takeBit (s : State) : Run Bool :=
  .done (s.rbuf.getLsbD 0) { s with rbuf := s.rbuf >>> 1, rcnt := s.rcnt - 1#4 }

/-- `ReadBit()` (R102). -/
def readBit (s : State) : Run Bool :=
  if s.rcnt = 0#4 then
    match memReadArc s with
    | (none, s) => .raise .unexpectedEndOfStream 0#16 s
    | (some x, s) => takeBit { s with rbuf := x, rcnt := 8#4 }
  else takeBit s

/-- `ReadBits(n)` (R103): the i-th bit read is bit i of the result. -/
def readBits : Nat → State → Run Nat
  | 0, s => .done 0 s
  | n + 1, s => (readBit s).bind fun b s => (readBits n s).bind fun v s => .done (b.toNat + 2 * v) s

/-- How many bits `ReadBit` can still deliver; a bound on the decode loops (R261). -/
def State.bitsLeft (s : State) : Nat := s.rcnt.toNat + 8 * (s.host.arc.length - s.host.arcPos)

end Sys2Proof.Machine
end

