-- ==== Sys2Proof/Machine/Canonical.lean ====
section
/-! DEFINITION. Canonical code generator (spec R140 to R148). -/

namespace Sys2Proof.Machine

/-- `CanonCodes` from position `i` on (R140): `prev` is the length before, `code` the running integer (259 bits hold it,
R148). At position 0 the running integer is 0, which a shift leaves 0. -/
def canonFrom (i prev code : Nat) : List Nat → State → Run Unit
  | [], s => .done () s
  | l :: ls, s =>
    let c := code <<< (l - prev)
    if c ≥ 2 ^ l then .raise .malformedCode 4#16 s
    else canonFrom (i + 1) l (c + 1) ls { s with cc := tset s.cc i (BitVec.ofNat 258 c) }

/-- `CanonCodes(m)` over `CL[0..m-1]` (R140). -/
def canonCodes (m : Nat) (s : State) : Run Unit :=
  canonFrom 0 0 0 ((s.cl.toList.take m).map BitVec.toNat) s

/-- The symbols with a code, in ascending order (R143). -/
def State.alphabet (s : State) : List Nat := (List.range Config.nsym).filter fun x => 1 ≤ (s.lenAt x).toNat

/-- "code length ascending, symbol value ascending" (R143). -/
abbrev sortedBefore (s : State) (x y : Nat) : Prop :=
  (s.lenAt x).toNat < (s.lenAt y).toNat ∨ ((s.lenAt x).toNat = (s.lenAt y).toNat ∧ x ≤ y)

/-- The alphabet in sorted order (R143). -/
def State.sortedAlphabet (s : State) : List Nat := s.alphabet.insertionSort (sortedBefore s)

/-- The count list `CNTL[1..258]` of the lengths used (R142, R32). -/
def countList (ls : List (BitVec 9)) : Vector (BitVec 9) 258 :=
  ⟨⟨(List.range Config.lmax).map fun k => BitVec.ofNat 9 (ls.count (BitVec.ofNat 9 (k + 1)))⟩, by simp [Config.lmax]⟩

/-- The body of CANON (R142); `op` is the host command's opcode (R221). -/
def canonBody (op : Opcode) (s : State) : Run Unit :=
  let s := s.clearFlags chainFromHeader
  let order := s.sortedAlphabet
  let s := { s with hn := BitVec.ofNat 10 order.length }
  if order.isEmpty then .raise .illegalOperation (illegalInfo op 6#4) s
  else
    let lens := order.map s.lenAt
    let s := { s with ord := tsetPrefix s.ord (order.map (BitVec.ofNat 9)), cl := tsetPrefix s.cl lens }
    let s := { s with maxl := lens.getLastD 0#9, cntl := countList lens }
    (canonCodes order.length s).andThen fun s => .done () ((s.setFlag .hValid true).setFlag .cValid true)

/-- CANON (R142). -/
def execCanon (s : State) : Host.Outcome State Fault Refusal :=
  runCommand 0x0D#6 false true (s.flag .lValid) (canonBody 0x0D#6) s

/-- The body of LDLEN (R141). It clears all of LEN where L_VALID was 0, though R30 says that LDLEN writes one entry (entry
18, DEDUCED). -/
def ldlenBody (a : Sym) (b : BitVec 9) (s : State) : State :=
  let s := if s.flag .lValid then s else { s with len := Vector.replicate 259 0#9 }
  let s := s.clearFlags chainFromHeader
  { s with len := tset s.len a.toNat b }.setFlag .lValid true

/-- LDLEN (R141). -/
def execLdlen (a : Sym) (b : BitVec 9) (s : State) : Host.Outcome State Fault Refusal :=
  runCommand 0x0C#6 false (symInRange a && lenInRange b) true (fun s => .done () (ldlenBody a b s)) s

/-- RDLEN (R145). -/
def execRdlen (a : Sym) (s : State) : Host.Outcome State Fault Refusal :=
  runCommand 0x0E#6 false (symInRange a) (s.flag .lValid)
    (fun s => .done () (s.setRes (s.lenAt a.toNat))) s

/-- The least index in `0..HN-1` with `ORD[i] = a` (R146, R166). -/
def State.position (s : State) (a : Sym) : Option Nat := (s.ord.toList.take s.hn.toNat).findIdx? (· == a)

/-- The body of RDCODE (R146). -/
def rdcodeBody (op : Opcode) (a : Sym) (s : State) : Run Unit :=
  match s.position a with
  | none => .raise .illegalOperation (illegalInfo op 5#4) s
  | some i => .done () { s.setRes (s.ccAt i) with rlen := s.clAt i }

/-- RDCODE (R146). -/
def execRdcode (a : Sym) (s : State) : Host.Outcome State Fault Refusal :=
  runCommand 0x0F#6 false (symInRange a) (s.flag .cValid) (rdcodeBody 0x0F#6 a) s

/-- The fields of the Canonical Header: size, symbols, counts (R71, R147). -/
def State.headerFields (s : State) : List Nat :=
  s.hn.toNat :: ((s.ord.toList.take s.hn.toNat).map BitVec.toNat ++ (s.cntl.toList.take s.maxl.toNat).map BitVec.toNat)

/-- The body of WHDR (R147): one 9-bit field after another. -/
def whdrBody (s : State) : State := s.headerFields.foldl (fun s v => writeBits s v Config.symW) s

/-- WHDR (R147). -/
def execWhdr (s : State) : Host.Outcome State Fault Refusal :=
  runCommand 0x10#6 false true (s.flag .hValid && s.flag .awOpen) (fun s => .done () (whdrBody s)) s

end Sys2Proof.Machine
end

