-- ==== Sys2Proof/Machine/Codec.lean ====
section
/-! DEFINITION. Header reader, binary-trie decode automaton, symbol writer (spec R160 to R167). -/

namespace Sys2Proof.Machine

/-- The symbol fields of RHDR from position `i` on, `k` of them (R160). -/
def rhdrSymbols (i : Nat) : Nat → State → Run Unit
  | 0, s => .done () s
  | k + 1, s =>
    (readBits Config.symW s).bind fun x s =>
    if x > 258 then .raise .malformedCode 1#16 s
    else rhdrSymbols (i + 1) k { s with ord := tset s.ord i (BitVec.ofNat 9 x) }

/-- The count fields of RHDR (R160): `room` is 258 - MAXL, `sum` the running sum. -/
def rhdrCounts (sum : Nat) : Nat → State → Run Unit
  | 0, s => if sum < s.hn.toNat then .raise .malformedCode 3#16 s else .done () s
  | room + 1, s =>
    if sum < s.hn.toNat then
      let s := { s with maxl := s.maxl + 1#9 }
      (readBits Config.symW s).bind fun c s =>
      let s := { s with cntl := tset s.cntl (s.maxl.toNat - 1) (BitVec.ofNat 9 c) }
      if sum + c > s.hn.toNat then .raise .malformedCode 2#16 s
      else rhdrCounts (sum + c) room s
    else .done () s

/-- The body of RHDR (R160, R161). -/
def rhdrBody (s : State) : Run Unit :=
  let s := s.clearFlags chainFromHeader
  (readBits Config.symW s).bind fun n s =>
  let s := { s with hn := BitVec.ofNat 10 n }
  (rhdrSymbols 0 n s).andThen fun s =>
  let s := { s with cntl := Vector.replicate 258 0#9, maxl := 0#9 }
  (rhdrCounts 0 Config.lmax s).andThen fun s => .done () (s.setFlag .hValid true)

/-- RHDR (R160). -/
def execRhdr (s : State) : Host.Outcome State Fault Refusal :=
  runCommand 0x11#6 false true (s.flag .arOpen) rhdrBody s

/-- `Insert`: walk or create nodes bit by bit, 0 left and 1 right, and place the symbol at the terminal node (R163). -/
def Trie.insert : Trie → List Bool → Sym → Trie
  | .nil, [], x => .node .nil .nil (some x)
  | .node c0 c1 _, [], x => .node c0 c1 (some x)
  | .nil, b :: bs, x => if b then .node .nil (Trie.nil.insert bs x) none else .node (Trie.nil.insert bs x) .nil none
  | .node c0 c1 v, b :: bs, x => if b then .node c0 (c1.insert bs x) v else .node (c0.insert bs x) c1 v

/-- The code of position `i` as a bit-string (R33, R80). -/
def State.codeAt (s : State) (i : Nat) : List Bool := bitstr (s.ccAt i).toNat (s.clAt i).toNat

/-- `CL` as TBUILD sets it: `CNTL[L]` times the length `L`, for `L` from 1 to MAXL (R162). -/
def State.headerLengths (s : State) : List (BitVec 9) :=
  (List.range s.maxl.toNat).flatMap fun k => List.replicate (s.cntlAt (k + 1)).toNat (BitVec.ofNat 9 (k + 1))

/-- The trie of the header: the root, then one `Insert` per position (R162). -/
def State.headerTrie (s : State) : Trie :=
  (List.range s.hn.toNat).foldl (fun t i => t.insert (s.codeAt i) (s.ordAt i)) (.node .nil .nil none)

/-- The body of TBUILD (R162). -/
def tbuildBody (s : State) : Run Unit :=
  let s := s.clearFlags chainFromCodes
  let s := { s with cl := tsetPrefix s.cl s.headerLengths }
  (canonCodes s.hn.toNat s).andThen fun s =>
  .done () (({ s with tn := s.headerTrie }.setFlag .cValid true).setFlag .trValid true)

/-- TBUILD (R162). -/
def execTbuild (s : State) : Host.Outcome State Fault Refusal :=
  runCommand 0x12#6 false true (s.flag .hValid) tbuildBody s

/-- "no node" (R34). -/
def Trie.isNil : Trie → Bool
  | .nil => true
  | .node _ _ _ => false

/-- The walk of `GetSymbol` from a node (R164); `nil` is the missing child it has stepped to. -/
def trieWalk : Trie → State → Run Sym
  | .nil, s => .raise .malformedCode 5#16 s
  | .node c0 c1 v, s =>
    if c0.isNil && c1.isNil then
      match v with
      | none => .raise .malformedCode 6#16 s
      | some x => .done x s
    else (readBit s).bind fun b s => if b then trieWalk c1 s else trieWalk c0 s

/-- `GetSymbol()` (R164). A trie without a root, which no run meets with TR_VALID = 1, is an empty one (entry 6). -/
def getSymbol (s : State) : Run Sym :=
  if s.tn.isNil then .raise .malformedCode 6#16 s else trieWalk s.tn s

/-- GETSYM (R165). -/
def execGetsym (s : State) : Host.Outcome State Fault Refusal :=
  runCommand 0x13#6 false true (s.flag .trValid && s.flag .arOpen)
    (fun s => (getSymbol s).bind fun x s => .done () (s.setRes x)) s

/-- `PutSymbol(s)` (R166); `op` is the host command's opcode (R221). -/
def putSymbol (op : Opcode) (x : Sym) (s : State) : Run Unit :=
  match s.position x with
  | none => .raise .illegalOperation (illegalInfo op 5#4) s
  | some i => .done () (writeBitList s (s.codeAt i))

/-- WSYM (R166). -/
def execWsym (a : Sym) (s : State) : Host.Outcome State Fault Refusal :=
  runCommand 0x14#6 false (symInRange a) (s.flag .cValid && s.flag .awOpen) (putSymbol 0x14#6 a) s

end Sys2Proof.Machine
end

