-- ==== Sys2Proof/Machine/FreqTree.lean ====
section
/-! DEFINITION. Frequency scanner, Huffman tree builder and code-length walk (spec R120 to R129). -/

namespace Sys2Proof.Machine

/-- `Count(s)` (R120, R122). -/
def count (x : Nat) (s : State) : Run Unit :=
  if s.freqAt x = BitVec.allOnes 64 then .raise .countOverflow (overflowInfo x) s
  else .done () { s with freq := tset s.freq x (s.freqAt x + 1#64) }

/-- `Count` of each byte of a list, in order (R120). -/
def countAll : List Byte → State → Run Unit
  | [], s => .done () s
  | x :: xs, s => (count x.toNat s).andThen (countAll xs)

/-- The content loops of SCAN and ENCFILE: read SRC until EOD, doing `body` with each byte (R190 (c)). `fuel` is the
number of bytes left, after which `MemRead` answers EOD. -/
def forSrc (body : Byte → State → Run Unit) : Nat → State → Run Unit
  | 0, s => .done () s
  | fuel + 1, s =>
    match memReadSrc s with
    | (none, s) => .done () s
    | (some x, s) => (body x s).andThen (forSrc body fuel)

/-- The body of SCAN (R120). -/
def scanBody (s : State) : Run Unit :=
  let s := s.clearFlags chainFromFreq
  let s := { s with freq := Vector.replicate 259 0#64 }
  (countAll s.name s).andThen fun s =>
  (forSrc (fun x => count x.toNat) s.srcRest.length s).andThen fun s =>
  (count Config.filenameEnd s).andThen fun s =>
  (count Config.oneMoreFile s).andThen fun s =>
  (count Config.archiveEnd s).andThen fun s =>
  .done () (s.setFlag .fValid true)

/-- SCAN (R120). -/
def execScan (s : State) : Host.Outcome State Fault Refusal :=
  runCommand 0x08#6 false true (s.flag .sOpen) scanBody s

/-- `NODE[NCNT] <- nd; PQ <- PQ ∪ {NCNT}; NCNT <- NCNT + 1` (R123). The new handle is above all earlier ones, so the list
stays ascending (entry 17). -/
def addNode (nd : Node) (s : State) : State :=
  { s with node := tset s.node s.ncnt.toNat nd, pq := s.pq ++ [s.ncnt], ncnt := s.ncnt + 1#10 }

/-- One leaf for a present symbol (R123). -/
def addLeaf (s : State) (x : Nat) : State :=
  if s.freqAt x = 0#64 then s
  else addNode ⟨true, BitVec.ofNat 9 x, (s.freqAt x).setWidth 73, 0#10, 0#10⟩ s

/-- The order of the queue: by frequency, then by handle (R124). -/
def before (s : State) (a b : Handle) : Bool :=
  (s.nodeAt a).freq.ult (s.nodeAt b).freq || ((s.nodeAt a).freq == (s.nodeAt b).freq && a.ult b)

/-- The least element of a queue with first element `h` (R124). -/
def leastFrom (s : State) (h : Handle) (q : List Handle) : Handle :=
  q.foldl (fun m x => if before s x m then x else m) h

/-- `ExtractMin(PQ)` (R124); `none` when the queue is empty. -/
def extractMin (s : State) : Option (Handle × State) :=
  match s.pq with
  | [] => none
  | h :: q => let m := leastFrom s h q; some (m, { s with pq := s.pq.erase m })

/-- One merge: the first extracted is the left child, the second the right (R123). -/
def merge (s : State) : State :=
  match extractMin s with
  | none => s
  | some (a, s1) =>
    match extractMin s1 with
    | none => s
    | some (b, s2) => addNode ⟨false, 0#9, (s2.nodeAt a).freq + (s2.nodeAt b).freq, a, b⟩ s2

/-- `while |PQ| > 1` (R123); each merge takes one element off the queue, so its length bounds the loop. -/
def mergeLoop : Nat → State → State
  | 0, s => s
  | fuel + 1, s => if s.pq.length > 1 then mergeLoop fuel (merge s) else s

/-- The body of BUILD (R123). -/
def buildBody (s : State) : Run Unit :=
  let s := s.clearFlags chainFromTree
  let s := { s with ncnt := 0#10, pq := [] }
  let s := (List.range Config.nsym).foldl addLeaf s
  let s := mergeLoop s.pq.length s
  match s.pq with
  | [] => .stuck .emptyQueue
  | r :: _ => .done () ({ s with root := r }.setFlag .tValid true)

/-- BUILD (R123). -/
def execBuild (s : State) : Host.Outcome State Fault Refusal :=
  runCommand 0x09#6 false true (s.flag .fValid) buildBody s

/-- `Visit(h, d)` (R126). A path without a cycle has at most `NNODE` nodes, so `fuel` runs out on a cycle only. -/
def visit : Nat → Handle → Nat → State → Run Unit
  | 0, _, _, _ => .stuck .walkDiverges
  | fuel + 1, h, d, s =>
    if h.toNat < Config.nnode then
      let nd := s.nodeAt h
      if nd.leaf then .done () { s with len := tset s.len nd.sym.toNat (BitVec.ofNat 9 d) }
      else (visit fuel nd.left (d + 1) s).andThen (visit fuel nd.right (d + 1))
    else .stuck .walkDiverges

/-- The body of WALK (R126). -/
def walkBody (s : State) : Run Unit :=
  let s := s.clearFlags chainFromLen
  let s := { s with len := Vector.replicate 259 0#9 }
  (visit Config.nnode s.root 0 s).andThen fun s => .done () (s.setFlag .lValid true)

/-- WALK (R126). -/
def execWalk (s : State) : Host.Outcome State Fault Refusal :=
  runCommand 0x0A#6 false true (s.flag .tValid) walkBody s

/-- RDFREQ (R128). -/
def execRdfreq (a : Sym) (s : State) : Host.Outcome State Fault Refusal :=
  runCommand 0x0B#6 false (symInRange a) (s.flag .fValid)
    (fun s => .done () (s.setRes (s.freqAt a.toNat))) s

end Sys2Proof.Machine
end

