-- ==== Sys2Proof/Machine/System.lean ====
section
/-! DEFINITION. System and host-stream commands (spec R200 to R208). -/

namespace Sys2Proof.Machine

/-- NOP (R200). -/
def execNop (s : State) : Host.Outcome State Fault Refusal :=
  runCommand 0x00#6 false true true (fun s => .done () s) s

/-- RESET (R201): accepted while FAULTED. -/
def execReset (s : State) : Host.Outcome State Fault Refusal :=
  runCommand 0x19#6 true true true (fun s => .done () s.resetCore) s

/-- The status register of a number: STATUS, FAULT, FINFO, SIDX (R202). -/
def State.statusRegister (s : State) (a : BitVec 9) : BitVec 16 :=
  match a.toNat with
  | 0 => s.status
  | 1 => s.fault.setWidth 16
  | 2 => s.finfo
  | _ => s.sidx

/-- RDSR (R202): accepted while FAULTED. -/
def execRdsr (a : BitVec 9) (s : State) : Host.Outcome State Fault Refusal :=
  runCommand 0x1A#6 true (srInRange a) true (fun s => .done () (s.setRes (s.statusRegister a))) s

/-- The body of AOPENW (R203). It empties the write buffer, though R21 does not list AOPENW among its writers (entry 18,
DEDUCED). -/
def aopenwBody (s : State) : Run Unit :=
  match hostOpenArcW s with
  | none => .raise .openFailure 0#16 s
  | some s => .done () ({ s with wbuf := 0#8, wcnt := 0#4 }.setFlag .awOpen true)

/-- AOPENW (R203, R54). -/
def execAopenw (s : State) : Host.Outcome State Fault Refusal :=
  runCommand 0x1B#6 false true (!s.flag .awOpen && !s.flag .arOpen) aopenwBody s

/-- The body of AOPENR (R204). -/
def aopenrBody (s : State) : Run Unit :=
  match hostOpenArcR s with
  | none => .raise .openFailure 1#16 s
  | some s => .done () ({ s with rbuf := 0#8, rcnt := 0#4 }.setFlag .arOpen true)

/-- AOPENR (R204, R54). -/
def execAopenr (s : State) : Host.Outcome State Fault Refusal :=
  runCommand 0x1C#6 false true (!s.flag .awOpen && !s.flag .arOpen) aopenrBody s

/-- Is a name longer than `NAME_MAX` (R205)? -/
def State.nameTooLong (s : State) (name : List Byte) : Bool :=
  match s.nameMax with
  | none => false
  | some m => decide (name.length > m)

/-- The body of SOPEN (R205); `op` is the host command's opcode (R221). -/
def sopenBody (op : Opcode) (idx : BitVec 16) (s : State) : Run Unit :=
  let s := { s with sidx := idx }
  match hostOpenSrc idx.toNat s with
  | none => .raise .openFailure 2#16 s
  | some (name, s) =>
    if s.nameTooLong name then .raise .illegalOperation (illegalInfo op 3#4) s
    else .done () ({ s with name := name }.setFlag .sOpen true)

/-- SOPEN (R205). -/
def execSopen (idx : BitVec 16) (s : State) : Host.Outcome State Fault Refusal :=
  runCommand 0x1D#6 false true (!s.flag .sOpen) (sopenBody 0x1D#6 idx) s

/-- SREWIND (R206). -/
def execSrewind (s : State) : Host.Outcome State Fault Refusal :=
  runCommand 0x1E#6 false true (s.flag .sOpen) (fun s => .done () (hostRewindSrc s)) s

/-- The body of DOPEN (R207). -/
def dopenBody (s : State) : Run Unit :=
  match hostOpenDst s.name s with
  | none => .raise .openFailure 3#16 s
  | some s => .done () (s.setFlag .dOpen true)

/-- DOPEN (R207). -/
def execDopen (s : State) : Host.Outcome State Fault Refusal :=
  runCommand 0x1F#6 false true (!s.flag .dOpen) dopenBody s

/-- CLOSE 0 (R208); `HostClose` has no effect on the host's data (R53). It empties the read cache as R208 says, though R22
does not list CLOSE 0 among the cache's writers (entry 18, DEDUCED). -/
def closeArc (s : State) : State :=
  let s := if s.flag .awOpen then flush s else s
  { (s.setFlag .awOpen false).setFlag .arOpen false with rbuf := 0#8, rcnt := 0#4 }

/-- CLOSE 1 (R208). -/
def closeSrc (s : State) : State := s.setFlag .sOpen false

/-- CLOSE 2 (R208). -/
def closeDst (s : State) : State := s.setFlag .dOpen false

/-- The body of CLOSE (R208). -/
def closeBody (a : BitVec 9) (s : State) : State :=
  match a.toNat with
  | 0 => closeArc s
  | 1 => closeSrc s
  | _ => closeDst s

/-- CLOSE's precondition: the stream is open (R208). -/
def State.streamOpen (s : State) (a : BitVec 9) : Bool :=
  match a.toNat with
  | 0 => s.flag .awOpen || s.flag .arOpen
  | 1 => s.flag .sOpen
  | _ => s.flag .dOpen

/-- CLOSE (R208). -/
def execClose (a : BitVec 9) (s : State) : Host.Outcome State Fault Refusal :=
  runCommand 0x20#6 false (streamInRange a) (s.streamOpen a) (fun s => .done () (closeBody a s)) s

end Sys2Proof.Machine
end

