-- ==== Sys2Proof/Machine/Archiver.lean ====
section
/-! DEFINITION. Archive framing protocol engine (spec R180 to R191). The composite commands call the bodies of the unit
commands, without their decode and precondition checks; `op` is the opcode of the composite the host issued (R221). -/

namespace Sys2Proof.Machine

/-- `PutSymbol` of each byte of a list, in order (R181). -/
def putAll (op : Opcode) : List Byte → State → Run Unit
  | [], s => .done () s
  | x :: xs, s => (putSymbol op (x.setWidth 9) s).andThen (putAll op xs)

/-- The body of ENCFILE (R181). -/
def encfileBody (op : Opcode) (last : Bool) (s : State) : Run Unit :=
  (scanBody s).andThen fun s =>
  (buildBody s).andThen fun s =>
  (walkBody s).andThen fun s =>
  (canonBody op s).andThen fun s =>
  let s := hostRewindSrc (whdrBody s)
  (putAll op s.name s).andThen fun s =>
  (forSrc (fun x => putSymbol op (x.setWidth 9)) s.srcRest.length s).andThen fun s =>
  (putSymbol op (BitVec.ofNat 9 Config.filenameEnd) s).andThen fun s =>
  putSymbol op (BitVec.ofNat 9 (if last then Config.archiveEnd else Config.oneMoreFile)) s

/-- ENCFILE (R181). -/
def execEncfile (a : BitVec 9) (s : State) : Host.Outcome State Fault Refusal :=
  runCommand 0x15#6 false (lastInRange a) (s.flag .awOpen && s.flag .sOpen)
    (encfileBody 0x15#6 (a == 1#9)) s

/-- NLEN = NAME_MAX (R183). -/
def State.nameFull (s : State) : Bool :=
  match s.nameMax with
  | none => false
  | some m => s.name.length == m

/-- The last four bytes of NAME are `NAME_TERM` (R184). -/
def nameComplete (name : List Byte) : Bool :=
  decide (name.length ≥ 4) && name.drop (name.length - 4) == Config.nameTerm

/-- The name phase of DECFILE (R184). -/
def nameLoop : Nat → State → Run Unit
  | 0, _ => .stuck .loopDiverges
  | fuel + 1, s =>
    (getSymbol s).bind fun x s =>
    if x.toNat ≥ 256 then .raise .framingError 1#16 s
    else if s.nameFull then .raise .framingError 4#16 s
    else
      let s := { s with name := s.name ++ [x.setWidth 8] }
      if nameComplete s.name then .done () s else nameLoop fuel s

/-- The content phase of DECFILE (R185). -/
def contentLoop : Nat → State → Run Unit
  | 0, _ => .stuck .loopDiverges
  | fuel + 1, s =>
    (getSymbol s).bind fun x s =>
    if x.toNat < 256 then contentLoop fuel (memWriteDst s (x.setWidth 8))
    else if x.toNat = Config.filenameEnd then .done () s
    else .raise .framingError 2#16 s

/-- The trailer of DECFILE (R186). -/
def trailer (s : State) : Run Sym :=
  (getSymbol s).bind fun t s =>
  if t.toNat ≠ Config.oneMoreFile ∧ t.toNat ≠ Config.archiveEnd then .raise .framingError 3#16 s
  else .done t s

/-- The body of DECFILE (R183), answering the trailer. Each round of a loop takes a bit of ARC at least (R261), so the
bits left bound the loops. -/
def decfileBody (s : State) : Run Sym :=
  (rhdrBody s).andThen fun s =>
  (tbuildBody s).andThen fun s =>
  let s := { s with name := [] }
  (nameLoop (s.bitsLeft + 1) s).andThen fun s =>
  (dopenBody s).andThen fun s =>
  (contentLoop (s.bitsLeft + 1) s).andThen fun s =>
  (trailer s).bind fun t s =>
  .done t ((closeDst s).setRes t)

/-- DECFILE (R183). -/
def execDecfile (s : State) : Host.Outcome State Fault Refusal :=
  runCommand 0x16#6 false true (s.flag .arOpen && !s.flag .dOpen)
    (fun s => (decfileBody s).bind fun _ s => .done () s) s

/-- All streams closed: the precondition of COMPRESS and DECOMPRESS (R188, R189). -/
def State.allClosed (s : State) : Bool :=
  !s.flag .awOpen && !s.flag .arOpen && !s.flag .sOpen && !s.flag .dOpen

/-- The file loop of COMPRESS from input `i` on, `k` files (R188). -/
def compressLoop (op : Opcode) (i : Nat) : Nat → State → Run Unit
  | 0, s => .done () s
  | k + 1, s =>
    (sopenBody op (BitVec.ofNat 16 i) s).andThen fun s =>
    (encfileBody op (k == 0) s).andThen fun s =>
    compressLoop op (i + 1) k (closeSrc s)

/-- The body of COMPRESS (R188). -/
def compressBody (op : Opcode) (n : Nat) (s : State) : Run Unit :=
  (aopenwBody s).andThen fun s =>
  (compressLoop op 0 n s).andThen fun s => .done () (closeArc s)

/-- COMPRESS (R188). -/
def execCompress (idx : BitVec 16) (s : State) : Host.Outcome State Fault Refusal :=
  runCommand 0x17#6 false (countInRange idx) s.allClosed (compressBody 0x17#6 idx.toNat) s

/-- The block loop of DECOMPRESS (R189), bounded by the bits of ARC (R261). -/
def decompressLoop : Nat → State → Run Unit
  | 0, _ => .stuck .loopDiverges
  | fuel + 1, s =>
    (decfileBody s).bind fun t s =>
    if t.toNat = Config.archiveEnd then .done () s else decompressLoop fuel s

/-- The body of DECOMPRESS (R189). -/
def decompressBody (s : State) : Run Unit :=
  (aopenrBody s).andThen fun s =>
  (decompressLoop (s.bitsLeft + 1) s).andThen fun s => .done () (closeArc s)

/-- DECOMPRESS (R189). -/
def execDecompress (s : State) : Host.Outcome State Fault Refusal :=
  runCommand 0x18#6 false true s.allClosed decompressBody s

end Sys2Proof.Machine
end

