-- ==== Sys2Proof/Machine/BitStream.lean ====
section
/-! DEFINITION. Bit stream commands (spec R104 to R109). -/

namespace Sys2Proof.Machine

/-- WBITS (R104). -/
def execWbits (n : BitVec 5) (v : BitVec 16) (s : State) : Host.Outcome State Fault Refusal :=
  runCommand 0x01#6 false (bitCountInRange n) (s.flag .awOpen)
    (fun s => .done () (writeBits s v.toNat n.toNat)) s

/-- WINT (R105). -/
def execWint (n : BitVec 5) (v : BitVec 16) (s : State) : Host.Outcome State Fault Refusal :=
  runCommand 0x02#6 false (fieldWidthInRange n) (s.flag .awOpen)
    (fun s => .done () (writeBits s v.toNat n.toNat)) s

/-- WFLUSH (R106). -/
def execWflush (s : State) : Host.Outcome State Fault Refusal :=
  runCommand 0x03#6 false true (s.flag .awOpen) (fun s => .done () (flush s)) s

/-- RBIT (R107). -/
def execRbit (s : State) : Host.Outcome State Fault Refusal :=
  runCommand 0x04#6 false true (s.flag .arOpen)
    (fun s => (readBit s).bind fun b s => .done () (s.setRes (BitVec.ofBool b))) s

/-- `x <- ReadBits(n); RES <- zext_258(x)` (R108, R109). -/
def readField (n : Nat) (s : State) : Run Unit :=
  (readBits n s).bind fun x s => .done () (s.setRes (BitVec.ofNat 258 x))

/-- RBITS (R108). -/
def execRbits (n : BitVec 5) (s : State) : Host.Outcome State Fault Refusal :=
  runCommand 0x05#6 false (bitCountInRange n) (s.flag .arOpen) (readField n.toNat) s

/-- RINT (R109). -/
def execRint (n : BitVec 5) (s : State) : Host.Outcome State Fault Refusal :=
  runCommand 0x06#6 false (fieldWidthInRange n) (s.flag .arOpen) (readField n.toNat) s

end Sys2Proof.Machine
end

