-- ==== Sys2Proof/Machine/Dispatch.lean ====
section
/-! DEFINITION. One arm per command (spec R84). -/

namespace Sys2Proof.Machine

def exec (i : Instr) (s : State) : Host.Outcome State Fault Refusal :=
  match i with
  | .nop => Sys2Proof.Machine.execNop s
  | .wbits n v => Sys2Proof.Machine.execWbits n v s
  | .wint n v => Sys2Proof.Machine.execWint n v s
  | .wflush => Sys2Proof.Machine.execWflush s
  | .rbit => Sys2Proof.Machine.execRbit s
  | .rbits n => Sys2Proof.Machine.execRbits n s
  | .rint n => Sys2Proof.Machine.execRint n s
  | .scan => Sys2Proof.Machine.execScan s
  | .build => Sys2Proof.Machine.execBuild s
  | .walk => Sys2Proof.Machine.execWalk s
  | .rdfreq a => Sys2Proof.Machine.execRdfreq a s
  | .ldlen a b => Sys2Proof.Machine.execLdlen a b s
  | .canon => Sys2Proof.Machine.execCanon s
  | .rdlen a => Sys2Proof.Machine.execRdlen a s
  | .rdcode a => Sys2Proof.Machine.execRdcode a s
  | .whdr => Sys2Proof.Machine.execWhdr s
  | .rhdr => Sys2Proof.Machine.execRhdr s
  | .tbuild => Sys2Proof.Machine.execTbuild s
  | .getsym => Sys2Proof.Machine.execGetsym s
  | .wsym a => Sys2Proof.Machine.execWsym a s
  | .encfile a => Sys2Proof.Machine.execEncfile a s
  | .decfile => Sys2Proof.Machine.execDecfile s
  | .compress idx => Sys2Proof.Machine.execCompress idx s
  | .decompress => Sys2Proof.Machine.execDecompress s
  | .reset => Sys2Proof.Machine.execReset s
  | .rdsr a => Sys2Proof.Machine.execRdsr a s
  | .aopenw => Sys2Proof.Machine.execAopenw s
  | .aopenr => Sys2Proof.Machine.execAopenr s
  | .sopen idx => Sys2Proof.Machine.execSopen idx s
  | .srewind => Sys2Proof.Machine.execSrewind s
  | .dopen => Sys2Proof.Machine.execDopen s
  | .close a => Sys2Proof.Machine.execClose a s

end Sys2Proof.Machine
end

