-- ==== Sys2Proof/Machine/Step.lean ====
section
/-! DEFINITION. One step is one host command (spec R7, R82, R91): fetch the next word, decode it, execute it. -/

namespace Sys2Proof.Machine

/-- One command to completion or to a recorded fault; with no command to take the engine waits (R37, R232). -/
def step (s : State) : Host.Outcome State Fault Refusal :=
  match fetch s with
  | none => .next s
  | some (w, s) =>
    match decode w with
    | .ok i => exec i s
    | .reservedOpcode op => rejectWord op 1#4 s
    | .mustBeZero op => rejectWord op 2#4 s

/-- `s` with the word whose bits are `w` as the next one the host issues (entry 2). -/
def State.withFetchWord (s : State) (nbits w : Nat) : State := issue s (BitVec.ofNat 32 (w % 2 ^ nbits))

end Sys2Proof.Machine
end

