-- ==== Sys2Proof/Safety.lean ====
section
/-! DEFINITION. The terms claims are stated in: the bits a stream has written and still holds, the format of an archive
(spec R70 to R80) apart from the machine, the preconditions of the commands, and the invariants of the machine. -/

namespace Sys2Proof.Machine

/-! ### Bits -/

/-- The bits of a byte in stream order (R55). -/
def byteBits (b : Byte) : List Bool := (List.range 8).map b.getLsbD

/-- The bits of a byte stream (R55, R57). -/
def streamBits (l : List Byte) : List Bool := l.flatMap byteBits

/-- The bits written so far: those in ARC, then those in WBUF (R21, R64). -/
def State.written (s : State) : List Bool :=
  streamBits s.host.arc ++ (List.range s.wcnt.toNat).map s.wbuf.getLsbD

/-- The bits still to be read: those in RBUF, then those of ARC from its cursor on (R22). -/
def State.pending (s : State) : List Bool :=
  (List.range s.rcnt.toNat).map s.rbuf.getLsbD ++ streamBits (s.host.arc.drop s.host.arcPos)

/-- The value of bits read: the i-th is bit i (R56). -/
def bitsValue : List Bool → Nat
  | [] => 0
  | b :: bs => b.toNat + 2 * bitsValue bs

/-- `ReadBits` of each width in turn. -/
def readAll : List Nat → State → Run (List Nat)
  | [], s => .done [] s
  | n :: ns, s => (readBits n s).bind fun v s => (readAll ns s).bind fun vs s => .done (v :: vs) s

/-- `WriteBits` of each (value, width) in turn. -/
def writeAll (fields : List (Nat × Nat)) (s : State) : State := fields.foldl (fun s f => writeBits s f.1 f.2) s

/-! ### The archive format, apart from the machine -/

/-- The Kraft sum of a list of lengths, in units of 2^(-258). -/
def kraft (ls : List Nat) : Nat := (ls.map fun l => 2 ^ (Config.lmax - l)).sum

/-- The lengths fit the code space. -/
abbrev KraftOk (ls : List Nat) : Prop := kraft ls ≤ 2 ^ Config.lmax

/-- The canonical codes of a non-decreasing list of lengths, as bit-strings (R140). -/
def canonicalCodes (prev code : Nat) : List Nat → List (List Bool)
  | [] => []
  | l :: ls => bitstr (code * 2 ^ (l - prev)) l :: canonicalCodes l (code * 2 ^ (l - prev) + 1) ls

/-- The lengths a count list describes: `counts[0]` times 1, `counts[1]` times 2, … (R74). -/
def lengthsFrom (L : Nat) : List Nat → List Nat
  | [] => []
  | c :: cs => List.replicate c L ++ lengthsFrom (L + 1) cs

/-- One file's block, apart from its bits: the header's symbols and counts, the name, the content (R71). -/
structure Block where
  syms : List Nat
  counts : List Nat
  name : List Byte
  content : List Byte
  deriving DecidableEq, Repr

/-- A header a decoder accepts (R160, R161): the counts describe the symbols listed and stop at the sum. -/
abbrev Block.HeaderOk (b : Block) : Prop :=
  b.syms.length ≤ Config.hnMax ∧ (∀ x ∈ b.syms, x < Config.nsym) ∧ b.counts.length ≤ Config.lmax ∧
  b.counts.sum = b.syms.length ∧ b.counts.getLast? ≠ some 0 ∧ KraftOk (lengthsFrom 1 b.counts)

/-- The fields of the header, 9 bits each (R71 to R75). -/
def Block.headerBits (b : Block) : List Bool :=
  (b.syms.length :: (b.syms ++ b.counts)).flatMap fun v => valueBits v Config.symW

/-- The codes of the header's positions (R80). -/
def Block.codes (b : Block) : List (List Bool) := canonicalCodes 0 0 (lengthsFrom 1 b.counts)

/-- The code of a symbol: that of its first listing (R80). -/
def Block.code (b : Block) (x : Nat) : Option (List Bool) :=
  (b.syms.findIdx? (· == x)).bind fun i => b.codes[i]?

/-- The bits begin a code and do not end one: they lead to an inner node of the trie (R164). -/
abbrev Block.InsideCode (b : Block) (part : List Bool) : Prop := ∃ code ∈ b.codes, part <+: code ∧ part ≠ code

/-- The codes of a list of symbols, one after another (R76); none where a symbol has no code. -/
def Block.symBits (b : Block) (xs : List Nat) : Option (List Bool) := (xs.mapM b.code).map List.flatten

/-- The bits of the block with a trailer symbol (R71, R76, R77); none where a symbol has no code. -/
def Block.bits (b : Block) (trailer : Nat) : Option (List Bool) :=
  (b.symBits ((b.name ++ b.content).map BitVec.toNat ++ [Config.filenameEnd, trailer])).map fun c => b.headerBits ++ c

/-- The bits of an archive: one block after another, ONE_MORE_FILE after each but the last (R70, R78). -/
def archiveBits : List Block → Option (List Bool)
  | [] => none
  | [b] => b.bits Config.archiveEnd
  | b :: c :: rest => (b.bits Config.oneMoreFile).bind fun x => (archiveBits (c :: rest)).map fun y => x ++ y

/-- The bits of blocks that each have another one after them (R70, R77, R78). -/
def openBits (bs : List Block) : Option (List Bool) := (bs.mapM fun b : Block => b.bits Config.oneMoreFile).map List.flatten

/-- `.txt` occurs in the name once, at its end (R191). -/
abbrev GoodName (name : List Byte) : Prop :=
  nameComplete name = true ∧ ∀ k < name.length, nameComplete (name.take k) = false

/-- `.txt` has not occurred in the name so far (R184). -/
abbrev NameOpen (name : List Byte) : Prop := ∀ k ≤ name.length, nameComplete (name.take k) = false

/-- The name fits `NAME_MAX`. -/
abbrev State.nameFits (s : State) (name : List Byte) : Prop := s.nameTooLong name = false

/-! ### Tables -/

/-- The number of present symbols (R27). -/
def State.presentCount (s : State) : Nat := (List.range Config.nsym).countP fun x => s.freqAt x != 0#64

/-- The present symbols, ascending. -/
def State.presentSyms (s : State) : List Nat := (List.range Config.nsym).filter fun x => s.freqAt x != 0#64

/-- Node `a` comes before node `b` in the order of R124: the smaller pair of frequency and handle. -/
abbrev State.nodeBelow (s : State) (a b : Handle) : Prop :=
  (s.nodeAt a).freq.toNat < (s.nodeAt b).freq.toNat ∨
    ((s.nodeAt a).freq.toNat = (s.nodeAt b).freq.toNat ∧ a.toNat < b.toNat)

/-- Inner node `p` has the node of handle `h` as a child. -/
abbrev State.isParent (s : State) (p h : Nat) : Prop :=
  (s.nodeAt (BitVec.ofNat 10 p)).leaf = false ∧
    ((s.nodeAt (BitVec.ofNat 10 p)).left.toNat = h ∨ (s.nodeAt (BitVec.ofNat 10 p)).right.toNat = h)

/-- The leaves below a node with their depths, left to right (R126, R127); `fuel` bounds the path. -/
def State.leaves (s : State) : Nat → Handle → Nat → List (Nat × Nat)
  | 0, _, _ => []
  | fuel + 1, h, d =>
    if (s.nodeAt h).leaf then [((s.nodeAt h).sym.toNat, d)]
    else s.leaves fuel (s.nodeAt h).left (d + 1) ++ s.leaves fuel (s.nodeAt h).right (d + 1)

/-- The arena holds a tree of `n` leaves, each node above its children (R123, R125). -/
def State.ArenaOk (s : State) (n : Nat) : Prop :=
  1 ≤ n ∧ n ≤ Config.nsym ∧ s.ncnt.toNat = 2 * n - 1 ∧ s.root.toNat = 2 * n - 2 ∧
  (∀ h < n, (s.nodeAt (BitVec.ofNat 10 h)).leaf = true ∧ (s.nodeAt (BitVec.ofNat 10 h)).sym.toNat < Config.nsym) ∧
  (∀ h < 2 * n - 1, n ≤ h → (s.nodeAt (BitVec.ofNat 10 h)).leaf = false ∧
    (s.nodeAt (BitVec.ofNat 10 h)).left.toNat < h ∧ (s.nodeAt (BitVec.ofNat 10 h)).right.toNat < h)

/-- The lengths of the present symbols of LEN. -/
def State.usedLengths (s : State) : List Nat := s.alphabet.map fun x => (s.lenAt x).toNat

/-- While T_VALID is 1: the arena holds one tree over the present symbols. Every node but the root is the child of exactly
one node, and the leaves below the root carry each present symbol once (R123, R125). -/
def State.TreeOk (s : State) : Prop :=
  s.ArenaOk s.presentCount ∧
  (∀ h < s.root.toNat, (List.range s.ncnt.toNat).countP (fun p => decide (s.isParent p h)) = 1) ∧
  ((s.leaves 517 s.root 0).map Prod.fst).Perm s.presentSyms

/-- The symbol at the end of a path in a trie (R164). -/
def Trie.lookup : Trie → List Bool → Option Sym
  | .nil, _ => none
  | .node _ _ v, [] => v
  | .node c0 c1 _, b :: bs => if b then c1.lookup bs else c0.lookup bs

/-- The node a path leads to (R34); none where a step finds no child. -/
def Trie.subtrie : Trie → List Bool → Option Trie
  | .nil, _ => none
  | .node c0 c1 v, [] => some (.node c0 c1 v)
  | .node c0 c1 _, b :: bs => if b then c1.subtrie bs else c0.subtrie bs

/-- Every node below the root is either a leaf with a symbol or an inner node without (R167 (a)). -/
def Trie.proper : Trie → Bool
  | .nil => true
  | .node c0 c1 v =>
    if c0.isNil && c1.isNil then v.isSome else v.isNone && c0.proper && c1.proper

/-! ### What the encoder leaves -/

/-- The encoder's tables of two states are the same: FREQ, the tree, LEN, the header, the codes. -/
abbrev State.SameEncoder (t u : State) : Prop :=
  t.freq = u.freq ∧ t.node = u.node ∧ t.ncnt = u.ncnt ∧ t.root = u.root ∧ t.pq = u.pq ∧ t.len = u.len ∧ t.hn = u.hn ∧
  t.ord = u.ord ∧ t.cntl = u.cntl ∧ t.maxl = u.maxl ∧ t.cl = u.cl ∧ t.cc = u.cc

/-- The block is that of the name and the whole content open in `s`: its header is what SCAN, BUILD, WALK and CANON, one
after another, leave in ORD and CNTL of `u` (R181, R71), and lists as many symbols as are present (R73). -/
def Block.EncodedBy (b : Block) (s u : State) : Prop :=
  s.host.srcPos = 0 ∧ b.name = s.name ∧ b.content = s.srcContent ∧
  (∃ u1 u2 u3, exec .scan s = .next u1 ∧ exec .build u1 = .next u2 ∧ exec .walk u2 = .next u3 ∧
    exec .canon u3 = .next u ∧ u.flag .faulted = false ∧ b.syms.length = u1.presentCount) ∧
  b.syms = (List.range u.hn.toNat).map (fun i => (u.ordAt i).toNat) ∧
  b.counts = (List.range u.maxl.toNat).map fun k => (u.cntlAt (k + 1)).toNat

/-- The blocks are those of the files, in order, each encoded by the unit commands, and the encoder's tables of `t` are
those of the last (R188). -/
def EncodesFiles (blocks : List Block) (files : List (List Byte × List Byte)) (t : State) : Prop :=
  blocks.map (fun b => (b.name, b.content)) = files ∧
  (∀ b ∈ blocks, b.HeaderOk ∧ ∃ v u, b.EncodedBy v u) ∧
  ∀ b, blocks.getLast? = some b → ∃ v u, b.EncodedBy v u ∧ t.SameEncoder u

/-! ### Preconditions -/

/-- A word's must-be-zero bits, by opcode (R83, R84); none for a reserved opcode (R85). -/
def formatZeros (op : Nat) : Option Word :=
  if op = 0x01 ∨ op = 0x02 then some 0x001F0000#32
  else if op = 0x05 ∨ op = 0x06 then some 0x001FFFFF#32
  else if op = 0x0B ∨ op = 0x0E ∨ op = 0x0F ∨ op = 0x14 ∨ op = 0x15 ∨ op = 0x1A ∨ op = 0x20 then some 0x0001FFFF#32
  else if op = 0x0C then some 0x000000FF#32
  else if op = 0x17 ∨ op = 0x1D then some 0x03FF0000#32
  else if op = 0x07 ∨ 0x21 ≤ op then none
  else some 0x03FFFFFF#32

/-- The preconditions on STATUS of each command's rule. -/
def preOk (i : Instr) (s : State) : Bool :=
  match i with
  | .nop | .reset | .rdsr _ | .ldlen _ _ => true
  | .wbits _ _ | .wint _ _ | .wflush => s.flag .awOpen
  | .rbit | .rbits _ | .rint _ | .rhdr => s.flag .arOpen
  | .scan | .srewind => s.flag .sOpen
  | .build | .rdfreq _ => s.flag .fValid
  | .walk => s.flag .tValid
  | .canon | .rdlen _ => s.flag .lValid
  | .rdcode _ => s.flag .cValid
  | .whdr => s.flag .hValid && s.flag .awOpen
  | .tbuild => s.flag .hValid
  | .getsym => s.flag .trValid && s.flag .arOpen
  | .wsym _ => s.flag .cValid && s.flag .awOpen
  | .encfile _ => s.flag .awOpen && s.flag .sOpen
  | .decfile => s.flag .arOpen && !s.flag .dOpen
  | .compress _ | .decompress => !s.flag .awOpen && !s.flag .arOpen && !s.flag .sOpen && !s.flag .dOpen
  | .aopenw | .aopenr => !s.flag .awOpen && !s.flag .arOpen
  | .sopen _ => !s.flag .sOpen
  | .dopen => !s.flag .dOpen
  | .close a =>
    if a = 0#9 then s.flag .awOpen || s.flag .arOpen else if a = 1#9 then s.flag .sOpen else s.flag .dOpen

/-- No fault is recorded. -/
abbrev Ready (s : State) : Prop := s.flag .faulted = false

/-! ### Invariants -/

/-- WBUF and WCNT (R21). -/
abbrev WriterOk (s : State) : Prop := s.wcnt.toNat ≤ 7 ∧ ∀ i < 8, s.wcnt.toNat ≤ i → s.wbuf.getLsbD i = false

/-- RBUF and RCNT (R22). -/
abbrev ReaderOk (s : State) : Prop := s.rcnt.toNat ≤ 8 ∧ ∀ i < 8, s.rcnt.toNat ≤ i → s.rbuf.getLsbD i = false

/-- The partial-byte buffers (R21, R22). -/
def BuffersInv (s : State) : Prop := WriterOk s ∧ ReaderOk s

/-- STATUS, FAULT and FINFO (R24 to R26, R54, R220). -/
def StatusInv (s : State) : Prop :=
  (∀ i < 16, 11 ≤ i → s.status.getLsbD i = false) ∧
  ¬(s.flag .awOpen = true ∧ s.flag .arOpen = true) ∧
  (s.flag .faulted = false → s.fault = 0#4 ∧ s.finfo = 0#16) ∧
  (s.flag .faulted = true → 1 ≤ s.fault.toNat ∧ s.fault.toNat ≤ 6)

/-- The encoder's tables while their flags hold (R121, R125, R30, R40). -/
def EncoderInv (s : State) : Prop :=
  (s.flag .fValid = true → s.freqAt 256 = 1#64 ∧ s.freqAt 257 = 1#64 ∧ s.freqAt 258 = 1#64) ∧
  (s.flag .tValid = true → s.flag .fValid = true ∧ s.TreeOk) ∧
  (s.flag .lValid = true → ∀ x < Config.nsym, (s.lenAt x).toNat ≤ Config.lmax)

/-- The header and the codes while their flags hold (R31 to R33, R40). -/
def HeaderInv (s : State) : Prop :=
  (s.flag .hValid = true →
    s.hn.toNat ≤ Config.hnMax ∧ s.maxl.toNat ≤ Config.lmax ∧
    ((s.cntl.toList.take s.maxl.toNat).map BitVec.toNat).sum = s.hn.toNat ∧
    (1 ≤ s.maxl.toNat → 1 ≤ (s.cntlAt s.maxl.toNat).toNat) ∧
    ∀ i < s.hn.toNat, (s.ordAt i).toNat < Config.nsym) ∧
  (s.flag .cValid = true →
    s.flag .hValid = true ∧
    (∀ i < s.hn.toNat, 1 ≤ (s.clAt i).toNat ∧ (s.clAt i).toNat ≤ Config.lmax ∧
      (s.ccAt i).toNat < 2 ^ (s.clAt i).toNat) ∧
    ∀ i, i + 1 < s.hn.toNat → (s.clAt i).toNat ≤ (s.clAt (i + 1)).toNat)

/-- The trie while its flag holds: its paths are the codes of the header's positions (R167 (b)), and it is proper, or the
root alone for an empty header (R167 (a)). -/
def TrieInv (s : State) : Prop :=
  s.flag .trValid = true →
    s.flag .cValid = true ∧ s.tn.isNil = false ∧ s.tn.lookup [] = none ∧
    ((s.tn.proper = true ∧ 1 ≤ s.hn.toNat) ∨ (s.tn = .node .nil .nil none ∧ s.hn = 0#10)) ∧
    ∀ p x, s.tn.lookup p = some x ↔ ∃ i < s.hn.toNat, p = s.codeAt i ∧ x = s.ordAt i

/-- The tables of both sides: CANON takes the header's lengths from LEN, and the trie is made from the header, so they go
together. -/
def TablesInv (s : State) : Prop := EncoderInv s ∧ HeaderInv s ∧ TrieInv s

/-- Cursors, the open input, the open output, the name (R35, R51, R52). -/
def StreamsInv (s : State) : Prop :=
  (s.flag .arOpen = true → s.host.arcPos ≤ s.host.arc.length) ∧
  (s.flag .sOpen = true → s.host.srcPos ≤ s.srcContent.length ∧
    s.host.inputs[s.sidx.toNat]? ≠ none ∧ s.host.inputs[s.sidx.toNat]? ≠ some .unopenable) ∧
  (s.flag .dOpen = true → s.host.outputs ≠ []) ∧
  s.nameFits s.name

/-- What holds between commands in every state a run reaches. -/
def Inv (s : State) : Prop :=
  BuffersInv s ∧ StatusInv s ∧ TablesInv s ∧ StreamsInv s

end Sys2Proof.Machine
end

