-- ==== Sys2Proof/Certificates/Slice0/Obligations.lean ====
section
/-! DEFINITION. The statements for the provers. Each says which rule of spec/ it rests on. A frame is written
`t = { s with … }`: every field not named is unchanged. -/

open Sys2Proof Sys2Proof.Machine

/-! ### Decode and encode -/

/-- Command words of spec/95_test_vectors.md (P1 to P3, V30 to V33), decoded as the opcode map R84 and the formats R83
say. -/
def Obligations.SampleWordsDecode : Prop :=
  decode 0x6C000000#32 = .ok .aopenw ∧ decode 0x092001FF#32 = .ok (.wint 9#5 511#16) ∧
  decode 0x80000000#32 = .ok (.close 0#9) ∧ decode 0x19200000#32 = .ok (.rint 9#5) ∧
  decode 0x30040300#32 = .ok (.ldlen 2#9 3#9) ∧ decode 0x3E040000#32 = .ok (.rdcode 258#9) ∧
  decode 0x5C000002#32 = .ok (.compress 2#16) ∧ decode 0x50F00000#32 = .ok (.wsym 120#9) ∧
  decode 0x1C000000#32 = .reservedOpcode 7#6 ∧ decode 0x84000000#32 = .reservedOpcode 0x21#6 ∧
  decode 0x0C000001#32 = .mustBeZero 3#6 ∧ decode 0x19200005#32 = .mustBeZero 6#6

/-- R83, R84: no bit of a command word is dropped, for every command and every operand value its fields hold. -/
def Obligations.DecodeOfEncode : Prop := ∀ i : Instr, decode (encode i) = .ok i

/-- R83 to R86: a word the decoder accepts is the encoding of the command it answers, so no two words share a command. -/
def Obligations.EncodeOfDecode : Prop := ∀ (w : Word) (i : Instr), decode w = .ok i → encode i = w

/-- R86: in step, a word of a defined opcode with a must-be-zero bit set faults IllegalOperation(2) and changes no other
state; the masks are `formatZeros`, written from R83 and R84 apart from the decoder. -/
def Obligations.MustBeZeroBitFaults : Prop :=
  ∀ (w zeros : Word) (rest : List Word) (s : State), s.host.cmds = w :: rest → Ready s →
    formatZeros (w >>> 26).toNat = some zeros → w &&& zeros ≠ 0#32 →
    step s = .next ({ s with host.cmds := rest }.raise .illegalOperation (illegalInfo ((w >>> 26).setWidth 6) 2#4))

/-- R85: a word with a reserved opcode (0x07, 0x21 to 0x3F) faults IllegalOperation(1) and changes no other state; and
every word of another opcode with its must-be-zero bits 0 is some command's. -/
def Obligations.ReservedOpcodeFaults : Prop :=
  (∀ (w : Word) (rest : List Word) (s : State), s.host.cmds = w :: rest → Ready s →
    ((w >>> 26).toNat = 0x07 ∨ 0x21 ≤ (w >>> 26).toNat) →
    step s = .next ({ s with host.cmds := rest }.raise .illegalOperation (illegalInfo ((w >>> 26).setWidth 6) 1#4))) ∧
  (∀ (w zeros : Word), formatZeros (w >>> 26).toNat = some zeros → w &&& zeros = 0#32 → ∃ i, decode w = .ok i)

/-! ### A step, and the order of checks -/

/-- R82, R91: step takes the host's next word and runs the command it decodes to; with no word pending it waits (the
model's choice, entry 2). -/
def Obligations.StepRunsDecodedCommand : Prop :=
  (∀ (w : Word) (rest : List Word) (i : Instr) (s : State), s.host.cmds = w :: rest → decode w = .ok i →
    step s = exec i { s with host.cmds := rest }) ∧
  (∀ s : State, s.host.cmds = [] → step s = .next s)

/-- R227: while FAULTED only a well-formed RESET and a well-formed RDSR execute; every other command word, well-formed or
not, completes at once and changes nothing (the word itself is taken off the host's list). -/
def Obligations.FaultedEngineRefuses : Prop :=
  ∀ (w : Word) (rest : List Word) (s : State), s.host.cmds = w :: rest → s.flag .faulted = true →
    step s =
      if w = 0x64000000#32 then .next { s with host.cmds := rest }.resetCore
      else if w = 0x68000000#32 then .next { s with host.cmds := rest, res := s.status.setWidth 258 }
      else if w = 0x68020000#32 then .next { s with host.cmds := rest, res := s.fault.setWidth 258 }
      else if w = 0x68040000#32 then .next { s with host.cmds := rest, res := s.finfo.setWidth 258 }
      else if w = 0x68060000#32 then .next { s with host.cmds := rest, res := s.sidx.setWidth 258 }
      else .next { s with host.cmds := rest }

/-- R225: fault entry. From a state without a fault it writes FAULT, FINFO and FAULTED and nothing else; from one with a
fault it writes nothing; and nothing after it in the command executes. -/
def Obligations.FaultEntryRecordsOnce : Prop :=
  (∀ (s : State) (k : FaultKind) (info : BitVec 16), Ready s →
    s.raise k info = { s with fault := k.code, finfo := info, status := s.status ||| 1#16 }) ∧
  (∀ (s : State) (k : FaultKind) (info : BitVec 16), s.flag .faulted = true → s.raise k info = s) ∧
  (∀ (s : State) (k : FaultKind) (info : BitVec 16) (rest : Unit → State → Run Unit),
    ((Run.raise k info s : Run Unit).bind rest).outcome = .next (s.raise k info))

/-- R87: an operand faults IllegalOperation(3), changing no other state, exactly where it is outside the legal range the
rule lists. A SOPEN of any index gets past this check: with S_OPEN = 1 it faults on that precondition; an index the host
does not have is an OpenFailure; and no index faults IllegalOperation(3) where the input's name fits NAME_MAX (R205 gives
a longer name the same code). Bits of `v` at or above `n` make no difference to WBITS and WINT. -/
def Obligations.OperandOutOfRangeFaults : Prop :=
  ∀ s : State, Ready s →
    let bad : Opcode → Host.Outcome State Fault Refusal :=
      fun op => .next (s.raise .illegalOperation (illegalInfo op 3#4))
    (∀ a : Sym,
      (exec (.rdfreq a) s = bad 0x0B#6 ↔ 258 < a.toNat) ∧ (exec (.rdlen a) s = bad 0x0E#6 ↔ 258 < a.toNat) ∧
      (exec (.rdcode a) s = bad 0x0F#6 ↔ 258 < a.toNat) ∧ (exec (.wsym a) s = bad 0x14#6 ↔ 258 < a.toNat)) ∧
    (∀ a b : BitVec 9, exec (.ldlen a b) s = bad 0x0C#6 ↔ 258 < a.toNat ∨ 258 < b.toNat) ∧
    (∀ (n : BitVec 5) (v : BitVec 16),
      (exec (.wbits n v) s = bad 0x01#6 ↔ 16 < n.toNat) ∧ (exec (.rbits n) s = bad 0x05#6 ↔ 16 < n.toNat) ∧
      (exec (.wint n v) s = bad 0x02#6 ↔ n.toNat = 0 ∨ 16 < n.toNat) ∧
      (exec (.rint n) s = bad 0x06#6 ↔ n.toNat = 0 ∨ 16 < n.toNat)) ∧
    (∀ a : BitVec 9,
      (exec (.encfile a) s = bad 0x15#6 ↔ 1 < a.toNat) ∧ (exec (.rdsr a) s = bad 0x1A#6 ↔ 3 < a.toNat) ∧
      (exec (.close a) s = bad 0x20#6 ↔ 2 < a.toNat)) ∧
    (∀ idx : BitVec 16, exec (.compress idx) s = bad 0x17#6 ↔ idx = 0#16) ∧
    (∀ idx : BitVec 16,
      (s.flag .sOpen = true → exec (.sopen idx) s = .next (s.raise .illegalOperation (illegalInfo 0x1D#6 4#4))) ∧
      (s.flag .sOpen = false → s.host.inputs.length ≤ idx.toNat →
        exec (.sopen idx) s = .next ({ s with sidx := idx }.raise .openFailure 2#16)) ∧
      ((∀ name content, s.host.inputs[idx.toNat]? = some (.file name content) → s.nameFits name) →
        exec (.sopen idx) s ≠ bad 0x1D#6)) ∧
    (∀ (n : BitVec 5) (v v' : BitVec 16), v.toNat % 2 ^ n.toNat = v'.toNat % 2 ^ n.toNat →
      exec (.wbits n v) s = exec (.wbits n v') s ∧ exec (.wint n v) s = exec (.wint n v') s)

/-- R226, R237: a well-formed command whose preconditions on STATUS do not hold faults IllegalOperation(4), with its own
opcode in FINFO, and changes no other state. The preconditions are `preOk`, written from each command's rule. -/
def Obligations.PreconditionFaults : Prop :=
  ∀ (i : Instr) (s : State), Ready s → i.wf = true → preOk i s = false →
    exec i s = .next (s.raise .illegalOperation (illegalInfo i.opcode 4#4))

/-! ### Reset and system commands -/

/-- R39: what power-on reset leaves in every register and table. -/
def Obligations.ResetValues : Prop :=
  let r := State.reset
  r.wbuf = 0#8 ∧ r.wcnt = 0#4 ∧ r.rbuf = 0#8 ∧ r.rcnt = 0#4 ∧ r.res = 0#258 ∧ r.rlen = 0#9 ∧
  r.status = 0#16 ∧ r.fault = 0#4 ∧ r.finfo = 0#16 ∧
  (∀ x < 259, r.freqAt x = 0#64) ∧ (∀ h < 517, r.nodeAt (BitVec.ofNat 10 h) = ⟨false, 0#9, 0#73, 0#10, 0#10⟩) ∧
  r.ncnt = 0#10 ∧ r.root = 0#10 ∧ r.pq = [] ∧ (∀ x < 259, r.lenAt x = 0#9) ∧
  r.hn = 0#10 ∧ (∀ i < 511, r.ordAt i = 0#9) ∧ (∀ L < 259, 1 ≤ L → r.cntlAt L = 0#9) ∧ r.maxl = 0#9 ∧
  (∀ i < 511, r.clAt i = 0#9 ∧ r.ccAt i = 0#258) ∧ r.tn = .nil ∧ r.tcnt = 0 ∧ r.name = [] ∧ r.nlen = 0 ∧
  r.sidx = 0#16

/-- R201, R250, R252: RESET, FAULTED or not, gives every register and table its value of power-on reset and leaves the
host's streams as they are (and, the model's fields of entries 3 and 2, NAME_MAX and the words to come). -/
def Obligations.ResetCommandClearsCore : Prop :=
  ∀ s : State, exec .reset s = .next { State.reset with nameMax := s.nameMax, host := s.host }

/-- R229: the only exit from FAULTED is RESET, and until then the first fault stays recorded. -/
def Obligations.OnlyResetLeavesFaulted : Prop :=
  ∀ (i : Instr) (s t : State), s.flag .faulted = true → exec i s = .next t → i ≠ .reset →
    t.flag .faulted = true ∧ t.fault = s.fault ∧ t.finfo = s.finfo

/-- R200, R202: NOP changes nothing, FAULTED or not; RDSR reads STATUS, FAULT, FINFO or SIDX into RES, FAULTED or not,
and changes nothing else. -/
def Obligations.NopAndRdsrComplete : Prop :=
  ∀ s : State,
    exec .nop s = .next s ∧
    exec (.rdsr 0#9) s = .next { s with res := s.status.setWidth 258 } ∧
    exec (.rdsr 1#9) s = .next { s with res := s.fault.setWidth 258 } ∧
    exec (.rdsr 2#9) s = .next { s with res := s.finfo.setWidth 258 } ∧
    exec (.rdsr 3#9) s = .next { s with res := s.sidx.setWidth 258 }

/-- R203, R204, R54: AOPENW empties the archive and the bit writer, AOPENR rewinds it and empties the bit reader; a host
that refuses gives OpenFailure(0) and OpenFailure(1), and nothing else changes. That AOPENW writes WBUF and WCNT is R203's
pseudocode; R21 does not list it (entry 18). -/
def Obligations.ArchiveOpens : Prop :=
  ∀ s : State, Ready s → s.flag .awOpen = false → s.flag .arOpen = false →
    (s.host.arcWOk = true →
      exec .aopenw s = .next { s with
        wbuf := 0#8, wcnt := 0#4, status := s.status ||| 0x0002#16, host.arc := [] }) ∧
    (s.host.arcWOk = false →
      exec .aopenw s = .next { s with fault := 1#4, finfo := 0#16, status := s.status ||| 1#16 }) ∧
    (s.host.arcROk = true →
      exec .aopenr s = .next { s with
        rbuf := 0#8, rcnt := 0#4, status := s.status ||| 0x0004#16, host.arcPos := 0 }) ∧
    (s.host.arcROk = false →
      exec .aopenr s = .next { s with fault := 1#4, finfo := 1#16, status := s.status ||| 1#16 })

/-- R205: SOPEN records the index, loads the display name and rewinds SRC; an input that cannot be opened gives
OpenFailure(2), a name longer than NAME_MAX gives IllegalOperation(3), and nothing but SIDX (and the host's cursor, in
the second case) changes beside the fault registers. -/
def Obligations.SopenLoadsName : Prop :=
  ∀ (idx : BitVec 16) (s : State), Ready s → s.flag .sOpen = false →
    (∀ name content, s.host.inputs[idx.toNat]? = some (.file name content) → s.nameFits name →
      exec (.sopen idx) s = .next { s with
        sidx := idx, name := name, status := s.status ||| 0x0008#16, host.srcPos := 0 }) ∧
    (s.host.inputs[idx.toNat]? = none ∨ s.host.inputs[idx.toNat]? = some .unopenable →
      exec (.sopen idx) s = .next { s with
        sidx := idx, fault := 1#4, finfo := 2#16, status := s.status ||| 1#16 }) ∧
    (∀ name content m, s.host.inputs[idx.toNat]? = some (.file name content) → s.nameMax = some m → m < name.length →
      exec (.sopen idx) s = .next { s with
        sidx := idx, fault := 5#4, finfo := 0x1D03#16, status := s.status ||| 1#16, host.srcPos := 0 })

/-- R206, R207: SREWIND moves the SRC cursor to the start and nothing else; DOPEN adds an empty output under NAME, or
gives OpenFailure(3). -/
def Obligations.SrewindAndDopen : Prop :=
  (∀ s : State, Ready s → s.flag .sOpen = true → exec .srewind s = .next { s with host.srcPos := 0 }) ∧
  (∀ s : State, Ready s → s.flag .dOpen = false → s.host.dst.ok s.name = true →
    exec .dopen s = .next { s with
      status := s.status ||| 0x0010#16, host.outputs := s.host.outputs ++ [(s.name, [])] }) ∧
  (∀ s : State, Ready s → s.flag .dOpen = false → s.host.dst.ok s.name = false →
    exec .dopen s = .next { s with fault := 1#4, finfo := 3#16, status := s.status ||| 1#16 })

/-- R208: CLOSE 0 pads and writes the pending bits of an archive open for writing, clears both archive flags and drops the
read cache (R208's pseudocode; R22 does not list this write: entry 18); CLOSE 1 and CLOSE 2 clear their stream's flag.
Nothing else changes. -/
def Obligations.CloseStreams : Prop :=
  (∀ s : State, Ready s → s.flag .awOpen = true → WriterOk s →
    ∃ t, exec (.close 0#9) s = .next t ∧
      t.written = s.written ++ List.replicate ((8 - s.wcnt.toNat) % 8) false ∧ t.wbuf = (if s.wcnt = 0#4 then s.wbuf else 0#8) ∧
      t = { s with
        wbuf := t.wbuf, wcnt := 0#4, rbuf := 0#8, rcnt := 0#4, status := s.status &&& 0xFFF9#16,
        host.arc := t.host.arc }) ∧
  (∀ s : State, Ready s → s.flag .awOpen = false → s.flag .arOpen = true →
    exec (.close 0#9) s = .next { s with rbuf := 0#8, rcnt := 0#4, status := s.status &&& 0xFFF9#16 }) ∧
  (∀ s : State, Ready s → s.flag .sOpen = true →
    exec (.close 1#9) s = .next { s with status := s.status &&& 0xFFF7#16 }) ∧
  (∀ s : State, Ready s → s.flag .dOpen = true →
    exec (.close 2#9) s = .next { s with status := s.status &&& 0xFFEF#16 })

/-! ### Bit stream -/

/-- R104, R105, R100, R101: WBITS and WINT append the `n` low bits of `v` to the bits written, bit 0 first; only WBUF,
WCNT and the end of ARC change. -/
def Obligations.WbitsAndWintAppend : Prop :=
  ∀ (n : BitVec 5) (v : BitVec 16) (s : State), Ready s → s.flag .awOpen = true → WriterOk s → n.toNat ≤ 16 →
    ∃ t, exec (.wbits n v) s = .next t ∧ (1 ≤ n.toNat → exec (.wint n v) s = .next t) ∧
      t.written = s.written ++ valueBits v.toNat n.toNat ∧ WriterOk t ∧ s.host.arc <+: t.host.arc ∧
      t = { s with wbuf := t.wbuf, wcnt := t.wcnt, host.arc := t.host.arc }

/-- R106, R59: WFLUSH pads the bits written with zeros to a whole byte and leaves the buffer empty; with no bit pending it
changes nothing. -/
def Obligations.WflushPads : Prop :=
  (∀ s : State, Ready s → s.flag .awOpen = true → 1 ≤ s.wcnt.toNat → WriterOk s →
    exec .wflush s = .next { s with wbuf := 0#8, wcnt := 0#4, host.arc := s.host.arc ++ [s.wbuf] } ∧
    streamBits (s.host.arc ++ [s.wbuf]) = s.written ++ List.replicate (8 - s.wcnt.toNat) false) ∧
  (∀ s : State, Ready s → s.flag .awOpen = true → s.wcnt = 0#4 → exec .wflush s = .next s)

/-- R107 to R109, R102, R103: RBIT, RBITS and RINT take the first bits pending and put their value, first bit lowest, in
RES; only RES, the reader and the ARC cursor change. -/
def Obligations.RbitRbitsRintRead : Prop :=
  ∀ (n : BitVec 5) (s : State), Ready s → s.flag .arOpen = true → ReaderOk s → n.toNat ≤ 16 →
    n.toNat ≤ s.pending.length →
    ∃ t, exec (.rbits n) s = .next t ∧ (1 ≤ n.toNat → exec (.rint n) s = .next t) ∧
      (n.toNat = 1 → exec .rbit s = .next t) ∧
      t.res = BitVec.ofNat 258 (bitsValue (s.pending.take n.toNat)) ∧ t.pending = s.pending.drop n.toNat ∧
      ReaderOk t ∧ t = { s with rbuf := t.rbuf, rcnt := t.rcnt, res := t.res, host.arcPos := t.host.arcPos }

/-- R102, R103, R234: with fewer bits pending, RBITS and RINT (and RBIT with none) take them all and record
UnexpectedEndOfStream; RES is unchanged. -/
def Obligations.ReadPastEndFaults : Prop :=
  ∀ (n : BitVec 5) (s : State), Ready s → s.flag .arOpen = true → ReaderOk s → n.toNat ≤ 16 →
    s.pending.length < n.toNat →
    ∃ t, exec (.rbits n) s = .next t ∧ exec (.rint n) s = .next t ∧ (n.toNat = 1 → exec .rbit s = .next t) ∧
      t.pending = [] ∧ ReaderOk t ∧
      t = { s with
        rbuf := t.rbuf, rcnt := t.rcnt, fault := 2#4, finfo := 0#16, status := s.status ||| 1#16,
        host.arcPos := t.host.arcPos }

/-- R111: fields written one after another from an empty writer and flushed are read back, each modulo 2 to its width,
by a reader at the first byte written; then the padding's zero bits remain before the next byte. -/
def Obligations.BitStreamRoundTrip : Prop :=
  ∀ (fields : List (Nat × Nat)) (s u : State), s.wcnt = 0#4 → s.wbuf = 0#8 → u.rcnt = 0#4 → u.rbuf = 0#8 →
    (flush (writeAll fields s)).host.arc <+: u.host.arc → u.host.arcPos = s.host.arc.length →
    ∃ t, readAll (fields.map Prod.snd) u = .done (fields.map fun f => f.1 % 2 ^ f.2) t ∧
      t.rcnt.toNat = 8 * (((fields.map Prod.snd).sum + 7) / 8) - (fields.map Prod.snd).sum ∧ t.rbuf = 0#8 ∧
      t.host.arcPos = (flush (writeAll fields s)).host.arc.length

/-! ### Frequency scanner, tree builder, walk -/

/-- R120, R121, R122: SCAN leaves in FREQ the number of occurrences of each byte in NAME and the bytes of SRC not read
yet, and 1 for each control symbol; F_VALID is set, the derived flags cleared, SRC is at end of data. Only FREQ, STATUS
and the cursor change. -/
def Obligations.ScanCounts : Prop :=
  ∀ s : State, Ready s → s.flag .sOpen = true → s.name.length + s.srcRest.length < 2 ^ 64 →
    ∃ t, exec .scan s = .next t ∧
      (∀ b : Byte, t.freqAt b.toNat = BitVec.ofNat 64 (s.name.count b + s.srcRest.count b)) ∧
      t.freqAt 256 = 1#64 ∧ t.freqAt 257 = 1#64 ∧ t.freqAt 258 = 1#64 ∧ t.srcRest = [] ∧
      t = { s with
        freq := t.freq, status := (s.status &&& 0xF81F#16) ||| 0x0020#16,
        host.srcPos := s.host.srcPos + s.srcRest.length }

/-- R120, R122, R238: `Count` adds one to a counter, or raises CountOverflow with the symbol in FINFO[15:7] where the
counter holds 2^64 - 1; no other counter changes. -/
def Obligations.CountAddsOneOrFaults : Prop :=
  ∀ (x : Nat) (s : State), x < 259 → Ready s →
    ((s.freqAt x).toNat = 2 ^ 64 - 1 →
      count x s = .raised { s with
        fault := 6#4, finfo := BitVec.ofNat 16 (x * 128), status := s.status ||| 1#16 }) ∧
    ((s.freqAt x).toNat < 2 ^ 64 - 1 →
      ∃ t, count x s = .done () t ∧ (t.freqAt x).toNat = (s.freqAt x).toNat + 1 ∧
        (∀ y, y ≠ x → t.freqAt y = s.freqAt y) ∧ t = { s with freq := t.freq })

/-- R128, R145: RDFREQ and RDLEN read one entry into RES and change nothing else. -/
def Obligations.RdfreqAndRdlenRead : Prop :=
  (∀ (a : Sym) (s : State), Ready s → s.flag .fValid = true → a.toNat ≤ 258 →
    exec (.rdfreq a) s = .next { s with res := (s.freqAt a.toNat).setWidth 258 }) ∧
  (∀ (a : Sym) (s : State), Ready s → s.flag .lValid = true → a.toNat ≤ 258 →
    exec (.rdlen a) s = .next { s with res := (s.lenAt a.toNat).setWidth 258 })

/-- R124: ExtractMin takes the handle with the smallest (frequency, handle) pair off the queue and changes nothing
else. -/
def Obligations.ExtractMinTakesLeast : Prop :=
  ∀ s : State, s.pq ≠ [] → s.pq.Nodup →
    ∃ m, extractMin s = some (m, { s with pq := s.pq.erase m }) ∧ m ∈ s.pq ∧
      ∀ h ∈ s.pq, h ≠ m → s.nodeBelow m h

/-- R123, R124, R125: BUILD allocates 2n - 1 nodes for n present symbols: the leaves first, in ascending order of symbol
with their frequencies, then inner nodes, each above its children and with the sum of their frequencies. Each inner node
`p` merges the two lowest of the nodes below `p` that no earlier merge has taken: the lowest is its left child, the next
its right child. The root is the last node, its frequency the sum of all counts, every other node is the child of
exactly one, and the leaves below the root carry each present symbol once. Only NODE, NCNT, ROOT, PQ and STATUS change. -/
def Obligations.BuildMakesTree : Prop :=
  ∀ s : State, Ready s → s.flag .fValid = true → 1 ≤ s.presentCount →
    ∃ t, exec .build s = .next t ∧ t.ArenaOk s.presentCount ∧ t.pq = [t.root] ∧
      (∀ h (hh : h < s.presentSyms.length), t.nodeAt (BitVec.ofNat 10 h) =
        ⟨true, BitVec.ofNat 9 s.presentSyms[h], (s.freqAt s.presentSyms[h]).setWidth 73, 0#10, 0#10⟩) ∧
      (∀ h < t.ncnt.toNat, s.presentCount ≤ h →
        let nd := t.nodeAt (BitVec.ofNat 10 h)
        nd.freq.toNat = (t.nodeAt nd.left).freq.toNat + (t.nodeAt nd.right).freq.toNat ∧ nd.left ≠ nd.right) ∧
      (∀ p < t.ncnt.toNat, s.presentCount ≤ p →
        let nd := t.nodeAt (BitVec.ofNat 10 p)
        (∀ q < p, ¬ t.isParent q nd.left.toNat ∧ ¬ t.isParent q nd.right.toNat) ∧ t.nodeBelow nd.left nd.right ∧
        ∀ h < p, (∀ q < p, ¬ t.isParent q h) → h ≠ nd.left.toNat → h ≠ nd.right.toNat →
          t.nodeBelow nd.right (BitVec.ofNat 10 h)) ∧
      (t.nodeAt t.root).freq.toNat = ((List.range 259).map fun x => (s.freqAt x).toNat).sum ∧
      (∀ h < t.root.toNat, (List.range t.ncnt.toNat).countP (fun p => decide (t.isParent p h)) = 1) ∧
      ((t.leaves 517 t.root 0).map Prod.fst).Perm s.presentSyms ∧
      t = { s with
        node := t.node, ncnt := t.ncnt, root := t.root, pq := t.pq,
        status := (s.status &&& 0xF83F#16) ||| 0x0040#16 }

/-- R126, R127: on a tree as BUILD leaves it whose leaves carry different symbols, WALK gives each leaf's symbol its depth
and every other symbol 0; L_VALID is set and the derived flags cleared. Only LEN and STATUS change. -/
def Obligations.WalkGivesDepths : Prop :=
  ∀ (n : Nat) (s : State), Ready s → s.flag .tValid = true → s.ArenaOk n →
    ((s.leaves 517 s.root 0).map Prod.fst).Nodup →
    ∃ t, exec .walk s = .next t ∧
      (∀ x d, (x, d) ∈ s.leaves 517 s.root 0 → (t.lenAt x).toNat = d ∧ d ≤ n - 1) ∧
      (∀ x < 259, x ∉ (s.leaves 517 s.root 0).map Prod.fst → t.lenAt x = 0#9) ∧
      t = { s with len := t.len, status := (s.status &&& 0xF87F#16) ||| 0x0080#16 }

/-- R142 (corner cases), R140: with two symbols present at least, the lengths of BUILD and WALK fill the code space exactly,
so CANON after them completes without a fault. -/
def Obligations.HuffmanLengthsAreComplete : Prop :=
  ∀ s : State, Ready s → s.flag .fValid = true → 2 ≤ s.presentCount →
    ∃ t u v, exec .build s = .next t ∧ exec .walk t = .next u ∧ exec .canon u = .next v ∧ Ready v ∧
      v.flag .cValid = true ∧ v.hn.toNat = s.presentCount ∧ kraft u.usedLengths = 2 ^ 258

/-! ### Canonical codes -/

/-- R141: LDLEN writes one length, into an empty table where L_VALID was 0 (R141's pseudocode; R30 has it write one entry:
entry 18); L_VALID is set, the derived flags cleared. Only LEN and STATUS change. -/
def Obligations.LdlenWrites : Prop :=
  ∀ (a b : BitVec 9) (s : State), Ready s → a.toNat ≤ 258 → b.toNat ≤ 258 →
    ∃ t, exec (.ldlen a b) s = .next t ∧ t.lenAt a.toNat = b ∧
      (∀ x, x ≠ a.toNat → t.lenAt x = if s.flag .lValid then s.lenAt x else 0#9) ∧
      t = { s with len := t.len, status := (s.status &&& 0xF8FF#16) ||| 0x0080#16 }

/-- R142, R143, R140: from lengths that fit the code space CANON completes: ORD lists the alphabet by (length, symbol), CL
its lengths, CNTL the number of symbols of each length, MAXL the greatest; the first code is 0 and each next one is the
last plus one, shifted left by the difference of the lengths. Only the header, the codes and STATUS change. -/
def Obligations.CanonMakesHeaderAndCodes : Prop :=
  ∀ s : State, Ready s → s.flag .lValid = true → (∀ x < 259, (s.lenAt x).toNat ≤ 258) → s.alphabet ≠ [] →
    KraftOk s.usedLengths →
    ∃ t, exec .canon s = .next t ∧ t.hn.toNat = s.alphabet.length ∧
      ((List.range t.hn.toNat).map fun i => (t.ordAt i).toNat).Perm s.alphabet ∧
      (∀ i, i + 1 < t.hn.toNat → (t.clAt i).toNat < (t.clAt (i + 1)).toNat ∨
        ((t.clAt i).toNat = (t.clAt (i + 1)).toNat ∧ (t.ordAt i).toNat < (t.ordAt (i + 1)).toNat)) ∧
      (∀ i < t.hn.toNat, t.clAt i = s.lenAt (t.ordAt i).toNat) ∧
      t.maxl = t.clAt (t.hn.toNat - 1) ∧
      (∀ L < 259, 1 ≤ L → (t.cntlAt L).toNat = s.usedLengths.count L) ∧
      t.ccAt 0 = 0#258 ∧
      (∀ i, i + 1 < t.hn.toNat → (t.ccAt (i + 1)).toNat =
        ((t.ccAt i).toNat + 1) * 2 ^ ((t.clAt (i + 1)).toNat - (t.clAt i).toNat)) ∧
      (∀ i < t.hn.toNat, (t.ccAt i).toNat < 2 ^ (t.clAt i).toNat) ∧
      t = { s with
        hn := t.hn, ord := t.ord, cntl := t.cntl, maxl := t.maxl, cl := t.cl, cc := t.cc,
        status := (s.status &&& 0xF8FF#16) ||| 0x0300#16 }

/-- R142, R140: CANON faults IllegalOperation(6) on an empty alphabet and MalformedCode(4) on lengths that overfill the
code space; then H_VALID, C_VALID and TR_VALID are 0 and L_VALID is kept. -/
def Obligations.CanonFaults : Prop :=
  (∀ s : State, Ready s → s.flag .lValid = true → s.alphabet = [] →
    exec .canon s = .next { s with
      hn := 0#10, fault := 5#4, finfo := 0x0D06#16, status := (s.status &&& 0xF8FF#16) ||| 1#16 }) ∧
  (∀ s : State, Ready s → s.flag .lValid = true → (∀ x < 259, (s.lenAt x).toNat ≤ 258) →
    2 ^ 258 < kraft s.usedLengths →
    ∃ t, exec .canon s = .next t ∧ t.fault = 3#4 ∧ t.finfo = 4#16 ∧
      t = { s with
        hn := t.hn, ord := t.ord, cntl := t.cntl, maxl := t.maxl, cl := t.cl, cc := t.cc, fault := 3#4, finfo := 4#16,
        status := (s.status &&& 0xF8FF#16) ||| 1#16 })

/-- R144 (a): after a CANON or a TBUILD that completes, no code of the table is a prefix of another. -/
def Obligations.CanonicalCodesPrefixFree : Prop :=
  ∀ (i : Instr) (s t : State), i = .canon ∨ i = .tbuild → Ready s → TablesInv s → exec i s = .next t → Ready t →
    ∀ j k, j < t.hn.toNat → k < t.hn.toNat → j ≠ k → ¬ t.codeAt j <+: t.codeAt k

/-- R146: RDCODE reads the code and the length of the symbol's first listing; a symbol outside the alphabet faults
IllegalOperation(5). -/
def Obligations.RdcodeReadsFirstListing : Prop :=
  ∀ (a : Sym) (s : State), Ready s → s.flag .cValid = true → a.toNat ≤ 258 → s.hn.toNat ≤ 511 →
    (∀ i < s.hn.toNat, s.ordAt i = a → (∀ j < i, s.ordAt j ≠ a) →
      exec (.rdcode a) s = .next { s with res := s.ccAt i, rlen := s.clAt i }) ∧
    ((∀ i < s.hn.toNat, s.ordAt i ≠ a) →
      exec (.rdcode a) s = .next { s with fault := 5#4, finfo := 0x0F05#16, status := s.status ||| 1#16 })

/-- R147, R71, R72: WHDR appends the size, the symbols and the counts, nine bits each, bit 0 first. Only WBUF, WCNT and the
end of ARC change. -/
def Obligations.WhdrWritesHeader : Prop :=
  ∀ s : State, Ready s → s.flag .hValid = true → s.flag .awOpen = true → WriterOk s → s.hn.toNat ≤ 511 →
    s.maxl.toNat ≤ 258 →
    ∃ t, exec .whdr s = .next t ∧
      t.written = s.written ++ (valueBits s.hn.toNat 9 ++
        ((List.range s.hn.toNat).flatMap fun i => valueBits (s.ordAt i).toNat 9) ++
        ((List.range s.maxl.toNat).flatMap fun k => valueBits (s.cntlAt (k + 1)).toNat 9)) ∧
      WriterOk t ∧ s.host.arc <+: t.host.arc ∧
      t = { s with wbuf := t.wbuf, wcnt := t.wcnt, host.arc := t.host.arc }

/-! ### Header reader, trie, symbols -/

/-- R160: RHDR reads a header whose counts sum to its size exactly at the last count, takes its fields' bits and no more,
and sets H_VALID. Only the header, the reader, the ARC cursor and STATUS change. -/
def Obligations.RhdrReadsHeader : Prop :=
  ∀ (b : Block) (rest : List Bool) (s : State), Ready s → s.flag .arOpen = true → ReaderOk s →
    b.syms.length ≤ 511 → (∀ x ∈ b.syms, x ≤ 258) → b.counts.length ≤ 258 → b.counts.sum = b.syms.length →
    b.counts.getLast? ≠ some 0 → s.pending = b.headerBits ++ rest →
    ∃ t, exec .rhdr s = .next t ∧ t.hn.toNat = b.syms.length ∧
      (∀ i (h : i < b.syms.length), (t.ordAt i).toNat = b.syms[i]) ∧ t.maxl.toNat = b.counts.length ∧
      (∀ L, 1 ≤ L → (t.cntlAt L).toNat = b.counts.getD (L - 1) 0) ∧ t.pending = rest ∧ ReaderOk t ∧
      t = { s with
        rbuf := t.rbuf, rcnt := t.rcnt, hn := t.hn, ord := t.ord, cntl := t.cntl, maxl := t.maxl,
        status := (s.status &&& 0xF8FF#16) ||| 0x0100#16, host.arcPos := t.host.arcPos }

/-- R160, R161, R234: RHDR faults MalformedCode(1) at a symbol field above 258, MalformedCode(2) where the running sum
passes the size, MalformedCode(3) after 258 counts that do not reach it, and UnexpectedEndOfStream where the archive ends
inside a field the header still needs (`part` is what is there of it). H_VALID, C_VALID and TR_VALID are then 0, the bits
up to the fault are taken; only the header, the reader, the ARC cursor and the fault change. -/
def Obligations.RhdrRejectsMalformed : Prop :=
  ∀ (n : Nat) (syms counts : List Nat) (part rest : List Bool) (s : State), Ready s → s.flag .arOpen = true →
    ReaderOk s → n ≤ 511 → (∀ x ∈ syms, x ≤ 258) →
    let faults : BitVec 4 → BitVec 16 → List Bool → Prop := fun kind info left =>
      ∃ t, exec .rhdr s = .next t ∧ t.pending = left ∧
        t = { s with
          rbuf := t.rbuf, rcnt := t.rcnt, hn := t.hn, ord := t.ord, cntl := t.cntl, maxl := t.maxl, fault := kind,
          finfo := info, status := (s.status &&& 0xF8FF#16) ||| 1#16, host.arcPos := t.host.arcPos }
    (∀ x, 258 < x → x ≤ 511 → syms.length < n →
      s.pending = (n :: (syms ++ [x])).flatMap (fun v => valueBits v 9) ++ rest → faults 3#4 1#16 rest) ∧
    (∀ c, syms.length = n → counts.length < 258 → counts.sum < n → n < counts.sum + c → c ≤ 511 →
      s.pending = (n :: (syms ++ (counts ++ [c]))).flatMap (fun v => valueBits v 9) ++ rest → faults 3#4 2#16 rest) ∧
    (syms.length = n → counts.length = 258 → counts.sum < n →
      s.pending = (n :: (syms ++ counts)).flatMap (fun v => valueBits v 9) ++ rest → faults 3#4 3#16 rest) ∧
    (part.length < 9 → s.pending = part → faults 2#4 0#16 []) ∧
    (part.length < 9 → syms.length < n → s.pending = (n :: syms).flatMap (fun v => valueBits v 9) ++ part →
      faults 2#4 0#16 []) ∧
    (part.length < 9 → syms.length = n → counts.length < 258 → counts.sum < n →
      s.pending = (n :: (syms ++ counts)).flatMap (fun v => valueBits v 9) ++ part → faults 2#4 0#16 [])

/-- R162, R163, R167: from a header whose lengths fit the code space TBUILD completes: CL repeats each length as often as
CNTL says, the codes are canonical, the trie is proper and the path of each position's code ends at its symbol. Only CL,
CC, TN and STATUS change. -/
def Obligations.TbuildMakesTrie : Prop :=
  ∀ s : State, Ready s → s.flag .hValid = true → HeaderInv s →
    KraftOk (lengthsFrom 1 ((s.cntl.toList.take s.maxl.toNat).map BitVec.toNat)) →
    ∃ t, exec .tbuild s = .next t ∧
      (List.range s.hn.toNat).map (fun i => (t.clAt i).toNat) =
        lengthsFrom 1 ((s.cntl.toList.take s.maxl.toNat).map BitVec.toNat) ∧
      (List.range s.hn.toNat).map t.codeAt =
        canonicalCodes 0 0 (lengthsFrom 1 ((s.cntl.toList.take s.maxl.toNat).map BitVec.toNat)) ∧
      (∀ i < s.hn.toNat, t.tn.lookup (t.codeAt i) = some (s.ordAt i)) ∧
      (∀ p x, t.tn.lookup p = some x → ∃ i < s.hn.toNat, p = t.codeAt i ∧ x = s.ordAt i) ∧
      (1 ≤ s.hn.toNat → t.tn.proper = true) ∧ (s.hn = 0#10 → t.tn = .node .nil .nil none) ∧
      t = { s with
        cl := t.cl, cc := t.cc, tn := t.tn, status := (s.status &&& 0xF9FF#16) ||| 0x0600#16 }

/-- R162, R161 (4), R140: lengths that overfill the code space fault MalformedCode(4) in TBUILD; H_VALID stays 1, C_VALID
and TR_VALID are 0, TN is unchanged. -/
def Obligations.TbuildRejectsOverfull : Prop :=
  ∀ s : State, Ready s → s.flag .hValid = true → HeaderInv s →
    2 ^ 258 < kraft (lengthsFrom 1 ((s.cntl.toList.take s.maxl.toNat).map BitVec.toNat)) →
    ∃ t, exec .tbuild s = .next t ∧
      t = { s with
        cl := t.cl, cc := t.cc, fault := 3#4, finfo := 4#16, status := (s.status &&& 0xF9FF#16) ||| 1#16 }

/-- R164, R165: GETSYM takes the bits of a path to a leaf of a proper trie and puts the leaf's symbol in RES; only RES, the
reader and the ARC cursor change. -/
def Obligations.GetsymDecodesPath : Prop :=
  ∀ (path rest : List Bool) (x : Sym) (s : State), Ready s → s.flag .trValid = true → s.flag .arOpen = true →
    ReaderOk s → s.tn.proper = true → s.tn.lookup path = some x → s.pending = path ++ rest →
    ∃ t, exec .getsym s = .next t ∧ t.res = x.setWidth 258 ∧ t.pending = rest ∧ ReaderOk t ∧
      t = { s with rbuf := t.rbuf, rcnt := t.rcnt, res := t.res, host.arcPos := t.host.arcPos }

/-- R164, R235, R234: GETSYM faults MalformedCode(6) on the empty trie and takes no bit; MalformedCode(5) when the bits lead
from an inner node to a missing child, the last bit taken; UnexpectedEndOfStream when they run out inside the trie. RES is
unchanged. -/
def Obligations.GetsymFaults : Prop :=
  ∀ s : State, Ready s → s.flag .trValid = true → s.flag .arOpen = true → ReaderOk s →
    (s.tn = .node .nil .nil none →
      exec .getsym s = .next { s with fault := 3#4, finfo := 6#16, status := s.status ||| 1#16 }) ∧
    (∀ (path rest : List Bool) (b : Bool) (c : Trie), s.tn.proper = true → s.tn.subtrie path = some c →
      (c.subtrie [!b]).isSome = true → c.subtrie [b] = none → s.pending = path ++ b :: rest →
      ∃ t, exec .getsym s = .next t ∧ t.pending = rest ∧
        t = { s with
          rbuf := t.rbuf, rcnt := t.rcnt, fault := 3#4, finfo := 5#16, status := s.status ||| 1#16,
          host.arcPos := t.host.arcPos }) ∧
    (∀ (path : List Bool) (c : Trie) (b : Bool), s.tn.proper = true → s.tn.subtrie path = some c →
      (c.subtrie [b]).isSome = true → s.pending = path →
      ∃ t, exec .getsym s = .next t ∧ t.pending = [] ∧
        t = { s with
          rbuf := t.rbuf, rcnt := t.rcnt, fault := 2#4, finfo := 0#16, status := s.status ||| 1#16,
          host.arcPos := t.host.arcPos })

/-- R166, R58: WSYM appends the code of the symbol's first listing, most significant bit first; a symbol outside the
alphabet faults IllegalOperation(5). -/
def Obligations.WsymWritesCode : Prop :=
  ∀ (a : Sym) (s : State), Ready s → s.flag .cValid = true → s.flag .awOpen = true → WriterOk s → a.toNat ≤ 258 →
    s.hn.toNat ≤ 511 →
    (∀ i < s.hn.toNat, s.ordAt i = a → (∀ j < i, s.ordAt j ≠ a) →
      ∃ t, exec (.wsym a) s = .next t ∧
        t.written = s.written ++ (List.range (s.clAt i).toNat).map
          (fun j => (s.ccAt i).getLsbD ((s.clAt i).toNat - 1 - j)) ∧
        WriterOk t ∧ s.host.arc <+: t.host.arc ∧
        t = { s with wbuf := t.wbuf, wcnt := t.wcnt, host.arc := t.host.arc }) ∧
    ((∀ i < s.hn.toNat, s.ordAt i ≠ a) →
      exec (.wsym a) s = .next { s with fault := 5#4, finfo := 0x1405#16, status := s.status ||| 1#16 })

/-! ### The archiver -/

/-- R181, R71, R73, R74: ENCFILE on an input at its start appends one block of the archive format for NAME and the input's
content, and records no fault; SRC is at end of data. The header is the one SCAN, BUILD, WALK and CANON make, the encoder's
tables are theirs, a decoder accepts it, and the trailer is the one the operand says. -/
def Obligations.EncfileWritesBlock : Prop :=
  ∀ (a : BitVec 9) (s : State), Ready s → s.flag .awOpen = true → s.flag .sOpen = true → WriterOk s →
    s.host.srcPos = 0 → s.name.length + s.srcContent.length < 2 ^ 64 → a.toNat ≤ 1 →
    ∃ (t u : State) (b : Block) (bits : List Bool), exec (.encfile a) s = .next t ∧ b.HeaderOk ∧ b.name = s.name ∧
      b.content = s.srcContent ∧ b.EncodedBy s u ∧ t.SameEncoder u ∧
      b.bits (if a.toNat = 1 then 258 else 257) = some bits ∧ t.written = s.written ++ bits ∧ WriterOk t ∧
      s.host.arc <+: t.host.arc ∧ t.srcRest = [] ∧
      t = { s with
        wbuf := t.wbuf, wcnt := t.wcnt, freq := t.freq, node := t.node, ncnt := t.ncnt, root := t.root, pq := t.pq,
        len := t.len, hn := t.hn, ord := t.ord, cntl := t.cntl, maxl := t.maxl, cl := t.cl, cc := t.cc,
        status := (s.status &&& 0xF81F#16) ||| 0x03E0#16, host.arc := t.host.arc, host.srcPos := t.host.srcPos }

/-- R183 to R186: DECFILE on the bits of a block with an acceptable header and a good name takes exactly the block's bits,
leaves one output with the block's name and content, and the trailer in RES. -/
def Obligations.DecfileReadsBlock : Prop :=
  ∀ (b : Block) (trailer : Nat) (bits rest : List Bool) (s : State), Ready s → s.flag .arOpen = true →
    s.flag .dOpen = false → ReaderOk s → b.HeaderOk → GoodName b.name → s.nameFits b.name →
    s.host.dst.ok b.name = true → trailer = 257 ∨ trailer = 258 → b.bits trailer = some bits →
    s.pending = bits ++ rest →
    ∃ t, exec .decfile s = .next t ∧ t.res = BitVec.ofNat 258 trailer ∧ t.pending = rest ∧ ReaderOk t ∧
      t = { s with
        rbuf := t.rbuf, rcnt := t.rcnt, res := t.res, hn := t.hn, ord := t.ord, cntl := t.cntl, maxl := t.maxl,
        cl := t.cl, cc := t.cc, tn := t.tn, name := b.name, status := (s.status &&& 0xF8EF#16) ||| 0x0700#16,
        host.arcPos := t.host.arcPos, host.outputs := s.host.outputs ++ [(b.name, b.content)] }

/-- R184 to R186, R236: a control symbol in the name phase, 257 or 258 in the content phase, and a trailer that is neither
are FramingError(1), (2) and (3); a name that would pass NAME_MAX is FramingError(4), with the symbol taken. -/
def Obligations.FramingViolationsFault : Prop :=
  ∀ (x : Sym) (path rest : List Bool) (fuel : Nat) (s : State), Ready s → ReaderOk s → s.tn.proper = true →
    s.tn.lookup path = some x → s.pending = path ++ rest →
    (256 ≤ x.toNat → ∃ t, nameLoop (fuel + 1) s = .raised t ∧ t.fault = 4#4 ∧ t.finfo = 1#16 ∧ t.pending = rest) ∧
    (x.toNat < 256 → s.nameMax = some s.name.length →
      ∃ t, nameLoop (fuel + 1) s = .raised t ∧ t.fault = 4#4 ∧ t.finfo = 4#16 ∧ t.pending = rest) ∧
    (x.toNat = 257 ∨ x.toNat = 258 →
      ∃ t, contentLoop (fuel + 1) s = .raised t ∧ t.fault = 4#4 ∧ t.finfo = 2#16 ∧ t.pending = rest) ∧
    (x.toNat ≤ 256 → ∃ t, trailer s = .raised t ∧ t.fault = 4#4 ∧ t.finfo = 3#16 ∧ t.pending = rest)

/-- R188, R70, R78, R79, R228: what COMPRESS writes. Of openable inputs with names that fit: an archive, one block per input
in order, each with the header the unit commands make, no padding between them, zero bits to the last byte's end; no fault
is recorded and every stream is closed, by CLOSE 0, which empties the read cache (R208, entry 18). Where the archive cannot
be opened: OpenFailure(0) and nothing else. Where the input after the first `files` cannot be opened, or its name is too
long: OpenFailure(2) or IllegalOperation(3), SIDX that input's index, the bits of the blocks before it written (whole bytes
in ARC, the rest in WBUF), the archive left open. -/
def Obligations.CompressWritesArchive : Prop :=
  ∀ (idx : BitVec 16) (s : State), Ready s → preOk (.compress idx) s = true → idx ≠ 0#16 →
    (s.host.arcWOk = false → exec (.compress idx) s = .next (s.raise .openFailure 0#16)) ∧
    ∀ files : List (List Byte × List Byte), s.host.arcWOk = true →
      s.host.inputs.take files.length = files.map (fun f => .file f.1 f.2) →
      (∀ f ∈ files, s.nameFits f.1 ∧ f.1.length + f.2.length < 2 ^ 64) →
      let stops : BitVec 4 → BitVec 16 → Prop := fun kind info =>
        ∃ (t : State) (blocks : List Block) (bits : List Bool), exec (.compress idx) s = .next t ∧
          EncodesFiles blocks files t ∧ openBits blocks = some bits ∧ t.written = bits ∧ WriterOk t ∧
          (files = [] → t.SameEncoder s) ∧
          t = { s with
            wbuf := t.wbuf, wcnt := t.wcnt, freq := t.freq, node := t.node, ncnt := t.ncnt, root := t.root, pq := t.pq,
            len := t.len, hn := t.hn, ord := t.ord, cntl := t.cntl, maxl := t.maxl, cl := t.cl, cc := t.cc,
            fault := kind, finfo := info,
            status := if files = [] then s.status ||| 0x0003#16 else (s.status &&& 0xF81F#16) ||| 0x03E3#16,
            name := (files.getLast?.map Prod.fst).getD s.name, sidx := BitVec.ofNat 16 files.length,
            host.arc := t.host.arc, host.srcPos := t.host.srcPos }
      (files.length = idx.toNat →
        ∃ (t : State) (blocks : List Block) (bits : List Bool) (pad : Nat), exec (.compress idx) s = .next t ∧
          EncodesFiles blocks files t ∧ archiveBits blocks = some bits ∧
          streamBits t.host.arc = bits ++ List.replicate pad false ∧ pad < 8 ∧
          t.sidx.toNat + 1 = idx.toNat ∧ files.getLast? = some (t.name, t.srcContent) ∧
          t = { s with
            wbuf := 0#8, wcnt := 0#4, rbuf := 0#8, rcnt := 0#4, freq := t.freq, node := t.node, ncnt := t.ncnt,
            root := t.root, pq := t.pq, len := t.len, hn := t.hn, ord := t.ord, cntl := t.cntl, maxl := t.maxl,
            cl := t.cl, cc := t.cc, status := (s.status &&& 0xF81F#16) ||| 0x03E0#16, name := t.name, sidx := t.sidx,
            host.arc := t.host.arc, host.srcPos := t.host.srcPos }) ∧
      (files.length < idx.toNat →
        s.host.inputs[files.length]? = none ∨ s.host.inputs[files.length]? = some .unopenable → stops 1#4 2#16) ∧
      (∀ name content m, files.length < idx.toNat → s.host.inputs[files.length]? = some (.file name content) →
        s.nameMax = some m → m < name.length → stops 5#4 0x1703#16)

/-- R189, R79, R228: what DECOMPRESS creates. Of an archive of blocks with acceptable headers, good names that fit and
outputs the host accepts: one output per block, in order, with 258 in RES and every stream closed, by CLOSE 0, which empties
the read cache (R208, entry 18), whatever follows the last block. Where the archive cannot be opened: OpenFailure(1) and
nothing else. After such blocks that each say that another follows, the outputs of all of them are there, and where DECFILE
faults on what follows (`u` is the state then), DECOMPRESS ends in the same state, the archive left open. -/
def Obligations.DecompressReadsArchive : Prop :=
  ∀ s : State, Ready s → preOk .decompress s = true →
    (s.host.arcROk = false → exec .decompress s = .next (s.raise .openFailure 1#16)) ∧
    ∀ (blocks : List Block) (bits rest : List Bool), s.host.arcROk = true →
      (∀ b ∈ blocks, b.HeaderOk ∧ GoodName b.name ∧ s.nameFits b.name ∧ s.host.dst.ok b.name = true) →
      streamBits s.host.arc = bits ++ rest →
      (archiveBits blocks = some bits →
        ∃ t, exec .decompress s = .next t ∧ t.res = 258#258 ∧
          t = { s with
            rbuf := 0#8, rcnt := 0#4, res := t.res, hn := t.hn, ord := t.ord, cntl := t.cntl, maxl := t.maxl,
            cl := t.cl, cc := t.cc, tn := t.tn, name := t.name, status := (s.status &&& 0xF8FF#16) ||| 0x0700#16,
            host.arcPos := t.host.arcPos,
            host.outputs := s.host.outputs ++ blocks.map fun b => (b.name, b.content) }) ∧
      (openBits blocks = some bits →
        ∃ u : State, u.pending = rest ∧ ReaderOk u ∧
          u = { s with
            rbuf := u.rbuf, rcnt := u.rcnt, res := if blocks = [] then s.res else 257#258, hn := u.hn, ord := u.ord,
            cntl := u.cntl, maxl := u.maxl, cl := u.cl, cc := u.cc, tn := u.tn,
            name := (blocks.getLast?.map Block.name).getD s.name,
            status := if blocks = [] then s.status ||| 0x0004#16 else (s.status &&& 0xF8FF#16) ||| 0x0704#16,
            host.arcPos := u.host.arcPos,
            host.outputs := s.host.outputs ++ blocks.map fun b => (b.name, b.content) } ∧
          ∀ t, exec .decfile u = .next t → t.flag .faulted = true → exec .decompress s = .next t)

/-- R191: `Decompress(Compress(files)) == files`. For a non-empty list of at most 65535 files, each name with `.txt` exactly
once, at its end, and within NAME_MAX, each name plus content shorter than 2^64 - 1 bytes, and a host that opens
everything, both commands complete without a fault and the outputs are the files. -/
def Obligations.CompressDecompressRoundTrip : Prop :=
  ∀ (idx : BitVec 16) (files : List (List Byte × List Byte)) (s : State), Ready s → preOk (.compress idx) s = true →
    s.host.arcWOk = true → s.host.arcROk = true → s.host.outputs = [] → files ≠ [] → files.length = idx.toNat →
    s.host.inputs.take idx.toNat = files.map (fun f => .file f.1 f.2) →
    (∀ f ∈ files, GoodName f.1 ∧ s.nameFits f.1 ∧ s.host.dst.ok f.1 = true ∧ f.1.length + f.2.length < 2 ^ 64 - 1) →
    ∃ t u, exec (.compress idx) s = .next t ∧ Ready t ∧ exec .decompress t = .next u ∧ Ready u ∧
      u.host.outputs = files

/-! ### Rules of the whole machine -/

/-- R21, R22: every step keeps the invariants of the partial-byte buffers. -/
def Obligations.StepKeepsBuffers : Prop := ∀ s t : State, BuffersInv s → step s = .next t → BuffersInv t

/-- R24 to R26, R54: every step keeps STATUS[15:11] at 0, AW_OPEN and AR_OPEN exclusive, and FAULT and FINFO 0 exactly
while no fault is recorded. -/
def Obligations.StepKeepsStatus : Prop := ∀ s t : State, StatusInv s → step s = .next t → StatusInv t

/-- R30 to R34, R40 to R42, R121, R125, R167 (a), (b): every step keeps what the validity flags promise of the tables: one
tree over the present symbols, a header and codes in range, a proper trie whose paths are the codes. -/
def Obligations.StepKeepsTables : Prop := ∀ s t : State, TablesInv s → step s = .next t → TablesInv t

/-- R35, R51, R52: every step keeps the cursors in range, an input open while S_OPEN is 1, an output there while D_OPEN is
1, and NAME within NAME_MAX. -/
def Obligations.StepKeepsStreams : Prop := ∀ s t : State, StreamsInv s → step s = .next t → StreamsInv t

/-- R39: the state after reset meets every invariant (its host side is the model's choice, entry 1). -/
def Obligations.ResetMeetsInvariants : Prop := Inv State.reset

/-- R42, R226, R261: from a state that meets the invariants a step always completes the command: the model's own stops
(entry 7) are unreachable. -/
def Obligations.StepNeverStops : Prop := ∀ s : State, Inv s → ∃ t, step s = .next t

/-- R61: no command rewrites or removes a byte of ARC, but a successful open for writing (AOPENW, COMPRESS); and none
rewrites or removes an output or a byte of one: the outputs stay, with their names, and only gain bytes at their ends. -/
def Obligations.StreamsAreAppendOnly : Prop :=
  ∀ (i : Instr) (s t : State), exec i s = .next t →
    (s.host.arc <+: t.host.arc ∨ (i = .aopenw ∧ t.host.arc = []) ∨ ∃ n, i = .compress n) ∧
    s.host.outputs.length ≤ t.host.outputs.length ∧
    ∀ k (h : k < s.host.outputs.length) (h' : k < t.host.outputs.length),
      t.host.outputs[k].1 = s.host.outputs[k].1 ∧ s.host.outputs[k].2 <+: t.host.outputs[k].2

/-- R51, R53: no command changes what the host is: its inputs and what it opens. That NAME_MAX and the words still to come
are fields of State which no command writes is the model's choice (DESIGN CHOICE, entries 3 and 2): the spec gives them as
a parameter (R10) outside the core's state (R20) and as words from the host (R65). -/
def Obligations.HostParametersFixed : Prop :=
  ∀ (i : Instr) (s t : State), exec i s = .next t →
    t.host.inputs = s.host.inputs ∧ t.host.arcWOk = s.host.arcWOk ∧ t.host.arcROk = s.host.arcROk ∧
    t.host.dst = s.host.dst ∧ t.host.cmds = s.host.cmds ∧ t.nameMax = s.nameMax

/-- R23: RES changes only by RBIT, RBITS, RINT, RDFREQ, RDLEN, RDCODE, GETSYM, DECFILE, RDSR (and DECOMPRESS, which runs
DECFILE) and RESET; RLEN only by RDCODE and RESET. -/
def Obligations.ResultRegistersFrame : Prop :=
  ∀ (i : Instr) (s t : State), exec i s = .next t →
    (t.res = s.res ∨ i = .rbit ∨ (∃ n, i = .rbits n) ∨ (∃ n, i = .rint n) ∨ (∃ a, i = .rdfreq a) ∨
      (∃ a, i = .rdlen a) ∨ (∃ a, i = .rdcode a) ∨ i = .getsym ∨ i = .decfile ∨ (∃ a, i = .rdsr a) ∨
      i = .decompress ∨ i = .reset) ∧
    (t.rlen = s.rlen ∨ (∃ a, i = .rdcode a) ∨ i = .reset)

/-- R223, R221: which faults each command can record. IllegalOperation(3) is for an operand out of range (so never for a
command without one) or, in SOPEN and COMPRESS, for a name; IllegalOperation(4) is for preconditions that do not hold (so
never for NOP, RESET, RDSR, LDLEN); the rest is the table's. CountOverflow has a byte's value in FINFO[15:7], and that
byte's counter is at its greatest value. -/
def Obligations.FaultsOfEachCommand : Prop :=
  ∀ (i : Instr) (s t : State), Ready s → exec i s = .next t → t.flag .faulted = true →
    let f := t.fault.toNat
    let x := t.finfo.toNat
    let overflow := f = 6 ∧ x % 128 = 0 ∧ x / 128 < 256 ∧ (t.freqAt (x / 128)).toNat = 2 ^ 64 - 1
    (f = 5 ∧ x = i.opcode.toNat * 256 + 3 ∧ i.wf = false) ∨
    (f = 5 ∧ x = i.opcode.toNat * 256 + 4 ∧ i.wf = true ∧ preOk i s = false) ∨
    (i.wf = true ∧ preOk i s = true ∧
      match i with
      | .rbit | .rbits _ | .rint _ => f = 2 ∧ x = 0
      | .scan => overflow
      | .canon => (f = 5 ∧ x = 0x0D06) ∨ (f = 3 ∧ x = 4)
      | .rdcode _ => f = 5 ∧ x = 0x0F05
      | .wsym _ => f = 5 ∧ x = 0x1405
      | .rhdr => (f = 2 ∧ x = 0) ∨ (f = 3 ∧ 1 ≤ x ∧ x ≤ 3)
      | .tbuild => f = 3 ∧ x = 4
      | .getsym => (f = 2 ∧ x = 0) ∨ (f = 3 ∧ 5 ≤ x ∧ x ≤ 6)
      | .aopenw => f = 1 ∧ x = 0
      | .aopenr => f = 1 ∧ x = 1
      | .sopen _ => (f = 1 ∧ x = 2) ∨ (f = 5 ∧ x = 0x1D03)
      | .dopen => f = 1 ∧ x = 3
      | .encfile _ => overflow ∨ (f = 5 ∧ x = 0x1505)
      | .decfile =>
        (f = 2 ∧ x = 0) ∨ (f = 3 ∧ 1 ≤ x ∧ x ≤ 6) ∨ (f = 4 ∧ 1 ≤ x ∧ x ≤ 4) ∨ (f = 1 ∧ x = 3)
      | .compress _ =>
        (f = 1 ∧ (x = 0 ∨ x = 2)) ∨ overflow ∨ (f = 5 ∧ (x = 0x1703 ∨ x = 0x1705))
      | .decompress =>
        (f = 2 ∧ x = 0) ∨ (f = 3 ∧ 1 ≤ x ∧ x ≤ 6) ∨ (f = 4 ∧ 1 ≤ x ∧ x ≤ 4) ∨ (f = 1 ∧ (x = 1 ∨ x = 3))
      | _ => False)

/-- R183 to R186, R207, R228, R234 to R236: where DECFILE stops and what it leaves. A fault of RHDR, or of TBUILD after it,
is DECFILE's. On the bits of an acceptable header and the codes of symbols:
before the name is complete, a control symbol is FramingError(1), a byte past NAME_MAX FramingError(4), an empty header
MalformedCode(6), and at the complete name an output the host refuses is OpenFailure(3), each with no new output;
after the name, 257 or 258 among the content is FramingError(2), a trailer that is neither FramingError(3), each with the
output left open, holding the content so far;
in each of the three phases (`cut`: name, content, trailer) the end of the archive inside a code (or before one) is
UnexpectedEndOfStream, and a bit to a missing child MalformedCode(5), with the output of that phase.
The name so far stands in NAME, the bits up to the fault are taken, RES is unchanged. -/
def Obligations.DecfileFaults : Prop :=
  ∀ s : State, Ready s → s.flag .arOpen = true → s.flag .dOpen = false →
    (∀ t, exec .rhdr s = .next t → t.flag .faulted = true → exec .decfile s = .next t) ∧
    (∀ u t, exec .rhdr s = .next u → Ready u → exec .tbuild u = .next t → t.flag .faulted = true →
      exec .decfile s = .next t) ∧
    ∀ (b : Block) (bits rest : List Bool) (x : Nat), ReaderOk s → b.HeaderOk → s.nameFits b.name →
      let name := b.name.map BitVec.toNat
      let content := b.content.map BitVec.toNat
      let output := [(b.name, b.content)]
      let accepted := GoodName b.name ∧ s.host.dst.ok b.name = true
      let reads : List Nat → List Bool → Prop := fun xs left =>
        b.symBits xs = some bits ∧ s.pending = b.headerBits ++ (bits ++ left)
      let stops : BitVec 4 → BitVec 16 → BitVec 16 → List (List Byte × List Byte) → List Bool → Prop :=
        fun kind info flags new left =>
          ∃ t, exec .decfile s = .next t ∧ t.pending = left ∧ ReaderOk t ∧
            t = { s with
              rbuf := t.rbuf, rcnt := t.rcnt, hn := t.hn, ord := t.ord, cntl := t.cntl, maxl := t.maxl, cl := t.cl,
              cc := t.cc, tn := t.tn, name := b.name, fault := kind, finfo := info,
              status := (s.status &&& 0xF8FF#16) ||| flags, host.arcPos := t.host.arcPos,
              host.outputs := s.host.outputs ++ new }
      let cut : List Nat → BitVec 16 → List (List Byte × List Byte) → Prop := fun xs flags new =>
        ∀ part, b.InsideCode part →
          (reads xs part → stops 2#4 0#16 flags new []) ∧
          ∀ bit, (∀ code ∈ b.codes, ¬ (part ++ [bit]) <+: code) → reads xs (part ++ bit :: rest) →
            stops 3#4 5#16 flags new rest
      (NameOpen b.name → 256 ≤ x → reads (name ++ [x]) rest → stops 4#4 1#16 0x0701#16 [] rest) ∧
      (NameOpen b.name → x < 256 → s.nameMax = some b.name.length → reads (name ++ [x]) rest →
        stops 4#4 4#16 0x0701#16 [] rest) ∧
      (b.syms = [] → b.name = [] → reads [] rest → stops 3#4 6#16 0x0701#16 [] rest) ∧
      (GoodName b.name → s.host.dst.ok b.name = false → reads name rest → stops 1#4 3#16 0x0701#16 [] rest) ∧
      (accepted → x = 257 ∨ x = 258 → reads (name ++ content ++ [x]) rest → stops 4#4 2#16 0x0711#16 output rest) ∧
      (accepted → x ≤ 256 → reads (name ++ content ++ [256, x]) rest → stops 4#4 3#16 0x0711#16 output rest) ∧
      (NameOpen b.name → cut name 0x0701#16 []) ∧
      (accepted → cut (name ++ content) 0x0711#16 output) ∧
      (accepted → cut (name ++ content ++ [256]) 0x0711#16 output)
end

