-- ==== Sys2Proof/Laws/State.lean ====
section
/-! SUPPORT. What each state update leaves alone, field by field, so that no later proof unfolds one. -/

namespace Sys2Proof.Machine

/-! ### `setFlag` writes STATUS -/

@[simp] theorem State.setFlag_wbuf (s : State) (f : Flag) (b : Bool) : (s.setFlag f b).wbuf = s.wbuf := rfl
@[simp] theorem State.setFlag_wcnt (s : State) (f : Flag) (b : Bool) : (s.setFlag f b).wcnt = s.wcnt := rfl
@[simp] theorem State.setFlag_rbuf (s : State) (f : Flag) (b : Bool) : (s.setFlag f b).rbuf = s.rbuf := rfl
@[simp] theorem State.setFlag_rcnt (s : State) (f : Flag) (b : Bool) : (s.setFlag f b).rcnt = s.rcnt := rfl
@[simp] theorem State.setFlag_res (s : State) (f : Flag) (b : Bool) : (s.setFlag f b).res = s.res := rfl
@[simp] theorem State.setFlag_rlen (s : State) (f : Flag) (b : Bool) : (s.setFlag f b).rlen = s.rlen := rfl
@[simp] theorem State.setFlag_fault (s : State) (f : Flag) (b : Bool) : (s.setFlag f b).fault = s.fault := rfl
@[simp] theorem State.setFlag_finfo (s : State) (f : Flag) (b : Bool) : (s.setFlag f b).finfo = s.finfo := rfl
@[simp] theorem State.setFlag_freq (s : State) (f : Flag) (b : Bool) : (s.setFlag f b).freq = s.freq := rfl
@[simp] theorem State.setFlag_node (s : State) (f : Flag) (b : Bool) : (s.setFlag f b).node = s.node := rfl
@[simp] theorem State.setFlag_ncnt (s : State) (f : Flag) (b : Bool) : (s.setFlag f b).ncnt = s.ncnt := rfl
@[simp] theorem State.setFlag_root (s : State) (f : Flag) (b : Bool) : (s.setFlag f b).root = s.root := rfl
@[simp] theorem State.setFlag_pq (s : State) (f : Flag) (b : Bool) : (s.setFlag f b).pq = s.pq := rfl
@[simp] theorem State.setFlag_len (s : State) (f : Flag) (b : Bool) : (s.setFlag f b).len = s.len := rfl
@[simp] theorem State.setFlag_hn (s : State) (f : Flag) (b : Bool) : (s.setFlag f b).hn = s.hn := rfl
@[simp] theorem State.setFlag_ord (s : State) (f : Flag) (b : Bool) : (s.setFlag f b).ord = s.ord := rfl
@[simp] theorem State.setFlag_cntl (s : State) (f : Flag) (b : Bool) : (s.setFlag f b).cntl = s.cntl := rfl
@[simp] theorem State.setFlag_maxl (s : State) (f : Flag) (b : Bool) : (s.setFlag f b).maxl = s.maxl := rfl
@[simp] theorem State.setFlag_cl (s : State) (f : Flag) (b : Bool) : (s.setFlag f b).cl = s.cl := rfl
@[simp] theorem State.setFlag_cc (s : State) (f : Flag) (b : Bool) : (s.setFlag f b).cc = s.cc := rfl
@[simp] theorem State.setFlag_tn (s : State) (f : Flag) (b : Bool) : (s.setFlag f b).tn = s.tn := rfl
@[simp] theorem State.setFlag_name (s : State) (f : Flag) (b : Bool) : (s.setFlag f b).name = s.name := rfl
@[simp] theorem State.setFlag_sidx (s : State) (f : Flag) (b : Bool) : (s.setFlag f b).sidx = s.sidx := rfl
@[simp] theorem State.setFlag_nameMax (s : State) (f : Flag) (b : Bool) : (s.setFlag f b).nameMax = s.nameMax := rfl
@[simp] theorem State.setFlag_host (s : State) (f : Flag) (b : Bool) : (s.setFlag f b).host = s.host := rfl

/-! ### `clearFlags` writes STATUS -/

theorem State.clearFlags_shape (s : State) (fs : List Flag) :
    s.clearFlags fs = { s with status := (s.clearFlags fs).status } := by
  induction fs generalizing s with
  | nil => rfl
  | cons f fs ih => exact ih (s.setFlag f false)

@[simp] theorem State.clearFlags_wbuf (s : State) (fs : List Flag) : (s.clearFlags fs).wbuf = s.wbuf := by
  rw [State.clearFlags_shape]
@[simp] theorem State.clearFlags_wcnt (s : State) (fs : List Flag) : (s.clearFlags fs).wcnt = s.wcnt := by
  rw [State.clearFlags_shape]
@[simp] theorem State.clearFlags_rbuf (s : State) (fs : List Flag) : (s.clearFlags fs).rbuf = s.rbuf := by
  rw [State.clearFlags_shape]
@[simp] theorem State.clearFlags_rcnt (s : State) (fs : List Flag) : (s.clearFlags fs).rcnt = s.rcnt := by
  rw [State.clearFlags_shape]
@[simp] theorem State.clearFlags_res (s : State) (fs : List Flag) : (s.clearFlags fs).res = s.res := by
  rw [State.clearFlags_shape]
@[simp] theorem State.clearFlags_rlen (s : State) (fs : List Flag) : (s.clearFlags fs).rlen = s.rlen := by
  rw [State.clearFlags_shape]
@[simp] theorem State.clearFlags_fault (s : State) (fs : List Flag) : (s.clearFlags fs).fault = s.fault := by
  rw [State.clearFlags_shape]
@[simp] theorem State.clearFlags_finfo (s : State) (fs : List Flag) : (s.clearFlags fs).finfo = s.finfo := by
  rw [State.clearFlags_shape]
@[simp] theorem State.clearFlags_freq (s : State) (fs : List Flag) : (s.clearFlags fs).freq = s.freq := by
  rw [State.clearFlags_shape]
@[simp] theorem State.clearFlags_node (s : State) (fs : List Flag) : (s.clearFlags fs).node = s.node := by
  rw [State.clearFlags_shape]
@[simp] theorem State.clearFlags_ncnt (s : State) (fs : List Flag) : (s.clearFlags fs).ncnt = s.ncnt := by
  rw [State.clearFlags_shape]
@[simp] theorem State.clearFlags_root (s : State) (fs : List Flag) : (s.clearFlags fs).root = s.root := by
  rw [State.clearFlags_shape]
@[simp] theorem State.clearFlags_pq (s : State) (fs : List Flag) : (s.clearFlags fs).pq = s.pq := by
  rw [State.clearFlags_shape]
@[simp] theorem State.clearFlags_len (s : State) (fs : List Flag) : (s.clearFlags fs).len = s.len := by
  rw [State.clearFlags_shape]
@[simp] theorem State.clearFlags_hn (s : State) (fs : List Flag) : (s.clearFlags fs).hn = s.hn := by
  rw [State.clearFlags_shape]
@[simp] theorem State.clearFlags_ord (s : State) (fs : List Flag) : (s.clearFlags fs).ord = s.ord := by
  rw [State.clearFlags_shape]
@[simp] theorem State.clearFlags_cntl (s : State) (fs : List Flag) : (s.clearFlags fs).cntl = s.cntl := by
  rw [State.clearFlags_shape]
@[simp] theorem State.clearFlags_maxl (s : State) (fs : List Flag) : (s.clearFlags fs).maxl = s.maxl := by
  rw [State.clearFlags_shape]
@[simp] theorem State.clearFlags_cl (s : State) (fs : List Flag) : (s.clearFlags fs).cl = s.cl := by
  rw [State.clearFlags_shape]
@[simp] theorem State.clearFlags_cc (s : State) (fs : List Flag) : (s.clearFlags fs).cc = s.cc := by
  rw [State.clearFlags_shape]
@[simp] theorem State.clearFlags_tn (s : State) (fs : List Flag) : (s.clearFlags fs).tn = s.tn := by
  rw [State.clearFlags_shape]
@[simp] theorem State.clearFlags_name (s : State) (fs : List Flag) : (s.clearFlags fs).name = s.name := by
  rw [State.clearFlags_shape]
@[simp] theorem State.clearFlags_sidx (s : State) (fs : List Flag) : (s.clearFlags fs).sidx = s.sidx := by
  rw [State.clearFlags_shape]
@[simp] theorem State.clearFlags_nameMax (s : State) (fs : List Flag) : (s.clearFlags fs).nameMax = s.nameMax := by
  rw [State.clearFlags_shape]
@[simp] theorem State.clearFlags_host (s : State) (fs : List Flag) : (s.clearFlags fs).host = s.host := by
  rw [State.clearFlags_shape]

/-! ### `setRes` writes RES -/

@[simp] theorem State.setRes_wbuf {w : Nat} (s : State) (v : BitVec w) : (s.setRes v).wbuf = s.wbuf := rfl
@[simp] theorem State.setRes_wcnt {w : Nat} (s : State) (v : BitVec w) : (s.setRes v).wcnt = s.wcnt := rfl
@[simp] theorem State.setRes_rbuf {w : Nat} (s : State) (v : BitVec w) : (s.setRes v).rbuf = s.rbuf := rfl
@[simp] theorem State.setRes_rcnt {w : Nat} (s : State) (v : BitVec w) : (s.setRes v).rcnt = s.rcnt := rfl
@[simp] theorem State.setRes_rlen {w : Nat} (s : State) (v : BitVec w) : (s.setRes v).rlen = s.rlen := rfl
@[simp] theorem State.setRes_status {w : Nat} (s : State) (v : BitVec w) : (s.setRes v).status = s.status := rfl
@[simp] theorem State.setRes_fault {w : Nat} (s : State) (v : BitVec w) : (s.setRes v).fault = s.fault := rfl
@[simp] theorem State.setRes_finfo {w : Nat} (s : State) (v : BitVec w) : (s.setRes v).finfo = s.finfo := rfl
@[simp] theorem State.setRes_freq {w : Nat} (s : State) (v : BitVec w) : (s.setRes v).freq = s.freq := rfl
@[simp] theorem State.setRes_node {w : Nat} (s : State) (v : BitVec w) : (s.setRes v).node = s.node := rfl
@[simp] theorem State.setRes_ncnt {w : Nat} (s : State) (v : BitVec w) : (s.setRes v).ncnt = s.ncnt := rfl
@[simp] theorem State.setRes_root {w : Nat} (s : State) (v : BitVec w) : (s.setRes v).root = s.root := rfl
@[simp] theorem State.setRes_pq {w : Nat} (s : State) (v : BitVec w) : (s.setRes v).pq = s.pq := rfl
@[simp] theorem State.setRes_len {w : Nat} (s : State) (v : BitVec w) : (s.setRes v).len = s.len := rfl
@[simp] theorem State.setRes_hn {w : Nat} (s : State) (v : BitVec w) : (s.setRes v).hn = s.hn := rfl
@[simp] theorem State.setRes_ord {w : Nat} (s : State) (v : BitVec w) : (s.setRes v).ord = s.ord := rfl
@[simp] theorem State.setRes_cntl {w : Nat} (s : State) (v : BitVec w) : (s.setRes v).cntl = s.cntl := rfl
@[simp] theorem State.setRes_maxl {w : Nat} (s : State) (v : BitVec w) : (s.setRes v).maxl = s.maxl := rfl
@[simp] theorem State.setRes_cl {w : Nat} (s : State) (v : BitVec w) : (s.setRes v).cl = s.cl := rfl
@[simp] theorem State.setRes_cc {w : Nat} (s : State) (v : BitVec w) : (s.setRes v).cc = s.cc := rfl
@[simp] theorem State.setRes_tn {w : Nat} (s : State) (v : BitVec w) : (s.setRes v).tn = s.tn := rfl
@[simp] theorem State.setRes_name {w : Nat} (s : State) (v : BitVec w) : (s.setRes v).name = s.name := rfl
@[simp] theorem State.setRes_sidx {w : Nat} (s : State) (v : BitVec w) : (s.setRes v).sidx = s.sidx := rfl
@[simp] theorem State.setRes_nameMax {w : Nat} (s : State) (v : BitVec w) : (s.setRes v).nameMax = s.nameMax := rfl
@[simp] theorem State.setRes_host {w : Nat} (s : State) (v : BitVec w) : (s.setRes v).host = s.host := rfl

@[simp] theorem State.setRes_res {w : Nat} (s : State) (v : BitVec w) : (s.setRes v).res = v.setWidth 258 := rfl

/-! ### `raise` writes FAULT, FINFO and STATUS -/

@[simp] theorem State.raise_wbuf (s : State) (k : FaultKind) (info : BitVec 16) : (s.raise k info).wbuf = s.wbuf := by
  unfold State.raise; split <;> rfl
@[simp] theorem State.raise_wcnt (s : State) (k : FaultKind) (info : BitVec 16) : (s.raise k info).wcnt = s.wcnt := by
  unfold State.raise; split <;> rfl
@[simp] theorem State.raise_rbuf (s : State) (k : FaultKind) (info : BitVec 16) : (s.raise k info).rbuf = s.rbuf := by
  unfold State.raise; split <;> rfl
@[simp] theorem State.raise_rcnt (s : State) (k : FaultKind) (info : BitVec 16) : (s.raise k info).rcnt = s.rcnt := by
  unfold State.raise; split <;> rfl
@[simp] theorem State.raise_res (s : State) (k : FaultKind) (info : BitVec 16) : (s.raise k info).res = s.res := by
  unfold State.raise; split <;> rfl
@[simp] theorem State.raise_rlen (s : State) (k : FaultKind) (info : BitVec 16) : (s.raise k info).rlen = s.rlen := by
  unfold State.raise; split <;> rfl
@[simp] theorem State.raise_freq (s : State) (k : FaultKind) (info : BitVec 16) : (s.raise k info).freq = s.freq := by
  unfold State.raise; split <;> rfl
@[simp] theorem State.raise_node (s : State) (k : FaultKind) (info : BitVec 16) : (s.raise k info).node = s.node := by
  unfold State.raise; split <;> rfl
@[simp] theorem State.raise_ncnt (s : State) (k : FaultKind) (info : BitVec 16) : (s.raise k info).ncnt = s.ncnt := by
  unfold State.raise; split <;> rfl
@[simp] theorem State.raise_root (s : State) (k : FaultKind) (info : BitVec 16) : (s.raise k info).root = s.root := by
  unfold State.raise; split <;> rfl
@[simp] theorem State.raise_pq (s : State) (k : FaultKind) (info : BitVec 16) : (s.raise k info).pq = s.pq := by
  unfold State.raise; split <;> rfl
@[simp] theorem State.raise_len (s : State) (k : FaultKind) (info : BitVec 16) : (s.raise k info).len = s.len := by
  unfold State.raise; split <;> rfl
@[simp] theorem State.raise_hn (s : State) (k : FaultKind) (info : BitVec 16) : (s.raise k info).hn = s.hn := by
  unfold State.raise; split <;> rfl
@[simp] theorem State.raise_ord (s : State) (k : FaultKind) (info : BitVec 16) : (s.raise k info).ord = s.ord := by
  unfold State.raise; split <;> rfl
@[simp] theorem State.raise_cntl (s : State) (k : FaultKind) (info : BitVec 16) : (s.raise k info).cntl = s.cntl := by
  unfold State.raise; split <;> rfl
@[simp] theorem State.raise_maxl (s : State) (k : FaultKind) (info : BitVec 16) : (s.raise k info).maxl = s.maxl := by
  unfold State.raise; split <;> rfl
@[simp] theorem State.raise_cl (s : State) (k : FaultKind) (info : BitVec 16) : (s.raise k info).cl = s.cl := by
  unfold State.raise; split <;> rfl
@[simp] theorem State.raise_cc (s : State) (k : FaultKind) (info : BitVec 16) : (s.raise k info).cc = s.cc := by
  unfold State.raise; split <;> rfl
@[simp] theorem State.raise_tn (s : State) (k : FaultKind) (info : BitVec 16) : (s.raise k info).tn = s.tn := by
  unfold State.raise; split <;> rfl
@[simp] theorem State.raise_name (s : State) (k : FaultKind) (info : BitVec 16) : (s.raise k info).name = s.name := by
  unfold State.raise; split <;> rfl
@[simp] theorem State.raise_sidx (s : State) (k : FaultKind) (info : BitVec 16) : (s.raise k info).sidx = s.sidx := by
  unfold State.raise; split <;> rfl
@[simp] theorem State.raise_nameMax (s : State) (k : FaultKind) (info : BitVec 16) : (s.raise k info).nameMax = s.nameMax := by
  unfold State.raise; split <;> rfl
@[simp] theorem State.raise_host (s : State) (k : FaultKind) (info : BitVec 16) : (s.raise k info).host = s.host := by
  unfold State.raise; split <;> rfl

/-! ### `memWriteArc` writes the host's archive -/

@[simp] theorem memWriteArc_wbuf (s : State) (v : Byte) : (memWriteArc s v).wbuf = s.wbuf := rfl
@[simp] theorem memWriteArc_wcnt (s : State) (v : Byte) : (memWriteArc s v).wcnt = s.wcnt := rfl
@[simp] theorem memWriteArc_rbuf (s : State) (v : Byte) : (memWriteArc s v).rbuf = s.rbuf := rfl
@[simp] theorem memWriteArc_rcnt (s : State) (v : Byte) : (memWriteArc s v).rcnt = s.rcnt := rfl
@[simp] theorem memWriteArc_res (s : State) (v : Byte) : (memWriteArc s v).res = s.res := rfl
@[simp] theorem memWriteArc_rlen (s : State) (v : Byte) : (memWriteArc s v).rlen = s.rlen := rfl
@[simp] theorem memWriteArc_status (s : State) (v : Byte) : (memWriteArc s v).status = s.status := rfl
@[simp] theorem memWriteArc_fault (s : State) (v : Byte) : (memWriteArc s v).fault = s.fault := rfl
@[simp] theorem memWriteArc_finfo (s : State) (v : Byte) : (memWriteArc s v).finfo = s.finfo := rfl
@[simp] theorem memWriteArc_freq (s : State) (v : Byte) : (memWriteArc s v).freq = s.freq := rfl
@[simp] theorem memWriteArc_node (s : State) (v : Byte) : (memWriteArc s v).node = s.node := rfl
@[simp] theorem memWriteArc_ncnt (s : State) (v : Byte) : (memWriteArc s v).ncnt = s.ncnt := rfl
@[simp] theorem memWriteArc_root (s : State) (v : Byte) : (memWriteArc s v).root = s.root := rfl
@[simp] theorem memWriteArc_pq (s : State) (v : Byte) : (memWriteArc s v).pq = s.pq := rfl
@[simp] theorem memWriteArc_len (s : State) (v : Byte) : (memWriteArc s v).len = s.len := rfl
@[simp] theorem memWriteArc_hn (s : State) (v : Byte) : (memWriteArc s v).hn = s.hn := rfl
@[simp] theorem memWriteArc_ord (s : State) (v : Byte) : (memWriteArc s v).ord = s.ord := rfl
@[simp] theorem memWriteArc_cntl (s : State) (v : Byte) : (memWriteArc s v).cntl = s.cntl := rfl
@[simp] theorem memWriteArc_maxl (s : State) (v : Byte) : (memWriteArc s v).maxl = s.maxl := rfl
@[simp] theorem memWriteArc_cl (s : State) (v : Byte) : (memWriteArc s v).cl = s.cl := rfl
@[simp] theorem memWriteArc_cc (s : State) (v : Byte) : (memWriteArc s v).cc = s.cc := rfl
@[simp] theorem memWriteArc_tn (s : State) (v : Byte) : (memWriteArc s v).tn = s.tn := rfl
@[simp] theorem memWriteArc_name (s : State) (v : Byte) : (memWriteArc s v).name = s.name := rfl
@[simp] theorem memWriteArc_sidx (s : State) (v : Byte) : (memWriteArc s v).sidx = s.sidx := rfl
@[simp] theorem memWriteArc_nameMax (s : State) (v : Byte) : (memWriteArc s v).nameMax = s.nameMax := rfl

/-! ### `memWriteDst` writes the host's outputs -/

@[simp] theorem memWriteDst_wbuf (s : State) (v : Byte) : (memWriteDst s v).wbuf = s.wbuf := rfl
@[simp] theorem memWriteDst_wcnt (s : State) (v : Byte) : (memWriteDst s v).wcnt = s.wcnt := rfl
@[simp] theorem memWriteDst_rbuf (s : State) (v : Byte) : (memWriteDst s v).rbuf = s.rbuf := rfl
@[simp] theorem memWriteDst_rcnt (s : State) (v : Byte) : (memWriteDst s v).rcnt = s.rcnt := rfl
@[simp] theorem memWriteDst_res (s : State) (v : Byte) : (memWriteDst s v).res = s.res := rfl
@[simp] theorem memWriteDst_rlen (s : State) (v : Byte) : (memWriteDst s v).rlen = s.rlen := rfl
@[simp] theorem memWriteDst_status (s : State) (v : Byte) : (memWriteDst s v).status = s.status := rfl
@[simp] theorem memWriteDst_fault (s : State) (v : Byte) : (memWriteDst s v).fault = s.fault := rfl
@[simp] theorem memWriteDst_finfo (s : State) (v : Byte) : (memWriteDst s v).finfo = s.finfo := rfl
@[simp] theorem memWriteDst_freq (s : State) (v : Byte) : (memWriteDst s v).freq = s.freq := rfl
@[simp] theorem memWriteDst_node (s : State) (v : Byte) : (memWriteDst s v).node = s.node := rfl
@[simp] theorem memWriteDst_ncnt (s : State) (v : Byte) : (memWriteDst s v).ncnt = s.ncnt := rfl
@[simp] theorem memWriteDst_root (s : State) (v : Byte) : (memWriteDst s v).root = s.root := rfl
@[simp] theorem memWriteDst_pq (s : State) (v : Byte) : (memWriteDst s v).pq = s.pq := rfl
@[simp] theorem memWriteDst_len (s : State) (v : Byte) : (memWriteDst s v).len = s.len := rfl
@[simp] theorem memWriteDst_hn (s : State) (v : Byte) : (memWriteDst s v).hn = s.hn := rfl
@[simp] theorem memWriteDst_ord (s : State) (v : Byte) : (memWriteDst s v).ord = s.ord := rfl
@[simp] theorem memWriteDst_cntl (s : State) (v : Byte) : (memWriteDst s v).cntl = s.cntl := rfl
@[simp] theorem memWriteDst_maxl (s : State) (v : Byte) : (memWriteDst s v).maxl = s.maxl := rfl
@[simp] theorem memWriteDst_cl (s : State) (v : Byte) : (memWriteDst s v).cl = s.cl := rfl
@[simp] theorem memWriteDst_cc (s : State) (v : Byte) : (memWriteDst s v).cc = s.cc := rfl
@[simp] theorem memWriteDst_tn (s : State) (v : Byte) : (memWriteDst s v).tn = s.tn := rfl
@[simp] theorem memWriteDst_name (s : State) (v : Byte) : (memWriteDst s v).name = s.name := rfl
@[simp] theorem memWriteDst_sidx (s : State) (v : Byte) : (memWriteDst s v).sidx = s.sidx := rfl
@[simp] theorem memWriteDst_nameMax (s : State) (v : Byte) : (memWriteDst s v).nameMax = s.nameMax := rfl

/-! ### `hostRewindSrc` writes the host's cursor -/

@[simp] theorem hostRewindSrc_wbuf (s : State) : (hostRewindSrc s).wbuf = s.wbuf := rfl
@[simp] theorem hostRewindSrc_wcnt (s : State) : (hostRewindSrc s).wcnt = s.wcnt := rfl
@[simp] theorem hostRewindSrc_rbuf (s : State) : (hostRewindSrc s).rbuf = s.rbuf := rfl
@[simp] theorem hostRewindSrc_rcnt (s : State) : (hostRewindSrc s).rcnt = s.rcnt := rfl
@[simp] theorem hostRewindSrc_res (s : State) : (hostRewindSrc s).res = s.res := rfl
@[simp] theorem hostRewindSrc_rlen (s : State) : (hostRewindSrc s).rlen = s.rlen := rfl
@[simp] theorem hostRewindSrc_status (s : State) : (hostRewindSrc s).status = s.status := rfl
@[simp] theorem hostRewindSrc_fault (s : State) : (hostRewindSrc s).fault = s.fault := rfl
@[simp] theorem hostRewindSrc_finfo (s : State) : (hostRewindSrc s).finfo = s.finfo := rfl
@[simp] theorem hostRewindSrc_freq (s : State) : (hostRewindSrc s).freq = s.freq := rfl
@[simp] theorem hostRewindSrc_node (s : State) : (hostRewindSrc s).node = s.node := rfl
@[simp] theorem hostRewindSrc_ncnt (s : State) : (hostRewindSrc s).ncnt = s.ncnt := rfl
@[simp] theorem hostRewindSrc_root (s : State) : (hostRewindSrc s).root = s.root := rfl
@[simp] theorem hostRewindSrc_pq (s : State) : (hostRewindSrc s).pq = s.pq := rfl
@[simp] theorem hostRewindSrc_len (s : State) : (hostRewindSrc s).len = s.len := rfl
@[simp] theorem hostRewindSrc_hn (s : State) : (hostRewindSrc s).hn = s.hn := rfl
@[simp] theorem hostRewindSrc_ord (s : State) : (hostRewindSrc s).ord = s.ord := rfl
@[simp] theorem hostRewindSrc_cntl (s : State) : (hostRewindSrc s).cntl = s.cntl := rfl
@[simp] theorem hostRewindSrc_maxl (s : State) : (hostRewindSrc s).maxl = s.maxl := rfl
@[simp] theorem hostRewindSrc_cl (s : State) : (hostRewindSrc s).cl = s.cl := rfl
@[simp] theorem hostRewindSrc_cc (s : State) : (hostRewindSrc s).cc = s.cc := rfl
@[simp] theorem hostRewindSrc_tn (s : State) : (hostRewindSrc s).tn = s.tn := rfl
@[simp] theorem hostRewindSrc_name (s : State) : (hostRewindSrc s).name = s.name := rfl
@[simp] theorem hostRewindSrc_sidx (s : State) : (hostRewindSrc s).sidx = s.sidx := rfl
@[simp] theorem hostRewindSrc_nameMax (s : State) : (hostRewindSrc s).nameMax = s.nameMax := rfl

/-! ### `addNode` writes NODE, PQ and NCNT -/

@[simp] theorem addNode_wbuf (nd : Node) (s : State) : (addNode nd s).wbuf = s.wbuf := rfl
@[simp] theorem addNode_wcnt (nd : Node) (s : State) : (addNode nd s).wcnt = s.wcnt := rfl
@[simp] theorem addNode_rbuf (nd : Node) (s : State) : (addNode nd s).rbuf = s.rbuf := rfl
@[simp] theorem addNode_rcnt (nd : Node) (s : State) : (addNode nd s).rcnt = s.rcnt := rfl
@[simp] theorem addNode_res (nd : Node) (s : State) : (addNode nd s).res = s.res := rfl
@[simp] theorem addNode_rlen (nd : Node) (s : State) : (addNode nd s).rlen = s.rlen := rfl
@[simp] theorem addNode_status (nd : Node) (s : State) : (addNode nd s).status = s.status := rfl
@[simp] theorem addNode_fault (nd : Node) (s : State) : (addNode nd s).fault = s.fault := rfl
@[simp] theorem addNode_finfo (nd : Node) (s : State) : (addNode nd s).finfo = s.finfo := rfl
@[simp] theorem addNode_freq (nd : Node) (s : State) : (addNode nd s).freq = s.freq := rfl
@[simp] theorem addNode_root (nd : Node) (s : State) : (addNode nd s).root = s.root := rfl
@[simp] theorem addNode_len (nd : Node) (s : State) : (addNode nd s).len = s.len := rfl
@[simp] theorem addNode_hn (nd : Node) (s : State) : (addNode nd s).hn = s.hn := rfl
@[simp] theorem addNode_ord (nd : Node) (s : State) : (addNode nd s).ord = s.ord := rfl
@[simp] theorem addNode_cntl (nd : Node) (s : State) : (addNode nd s).cntl = s.cntl := rfl
@[simp] theorem addNode_maxl (nd : Node) (s : State) : (addNode nd s).maxl = s.maxl := rfl
@[simp] theorem addNode_cl (nd : Node) (s : State) : (addNode nd s).cl = s.cl := rfl
@[simp] theorem addNode_cc (nd : Node) (s : State) : (addNode nd s).cc = s.cc := rfl
@[simp] theorem addNode_tn (nd : Node) (s : State) : (addNode nd s).tn = s.tn := rfl
@[simp] theorem addNode_name (nd : Node) (s : State) : (addNode nd s).name = s.name := rfl
@[simp] theorem addNode_sidx (nd : Node) (s : State) : (addNode nd s).sidx = s.sidx := rfl
@[simp] theorem addNode_nameMax (nd : Node) (s : State) : (addNode nd s).nameMax = s.nameMax := rfl
@[simp] theorem addNode_host (nd : Node) (s : State) : (addNode nd s).host = s.host := rfl

/-! ### `resetCore` keeps `NAME_MAX` and the host -/

@[simp] theorem State.resetCore_nameMax (s : State) : (s.resetCore).nameMax = s.nameMax := rfl
@[simp] theorem State.resetCore_host (s : State) : (s.resetCore).host = s.host := rfl

end Sys2Proof.Machine
end

