-- ==== Sys2Proof/Laws/Flags.lean ====
section
/-! SUPPORT. What a flag reads after a flag was written, cleared, or a fault recorded. -/

namespace Sys2Proof.Machine

theorem Flag.bit_lt (f : Flag) : f.bit < 16 := by cases f <;> decide

theorem Flag.bit_injective {f g : Flag} (h : f.bit = g.bit) : f = g := by
  revert h; cases f <;> cases g <;> decide

theorem statusWith_getLsbD (w : BitVec 16) (f : Flag) (b : Bool) (j : Nat) :
    (statusWith w f b).getLsbD j = if j = f.bit then b else w.getLsbD j := by
  have hf := f.bit_lt
  unfold statusWith
  by_cases hj : j = f.bit
  · subst hj; cases b <;> simp [hf]
  · by_cases h16 : j < 16
    · cases b <;> simp [hj, h16] <;> omega
    · simp [hj, BitVec.getLsbD_of_ge _ j (by omega : 16 ≤ j)]

/-- Writing a flag changes that flag and no other (R24). -/
@[simp] theorem State.flag_setFlag (s : State) (f g : Flag) (b : Bool) :
    (s.setFlag f b).flag g = if g = f then b else s.flag g := by
  have h : g.bit = f.bit ↔ g = f := ⟨Flag.bit_injective, fun e => e ▸ rfl⟩
  simp only [State.flag, State.setFlag, statusWith_getLsbD, h]

/-- Clearing flags clears those listed and no other (R40). -/
@[simp] theorem State.flag_clearFlags (s : State) (fs : List Flag) (g : Flag) :
    (s.clearFlags fs).flag g = (s.flag g && !decide (g ∈ fs)) := by
  induction fs generalizing s with
  | nil => simp [State.clearFlags]
  | cons f fs ih =>
    have e : s.clearFlags (f :: fs) = (s.setFlag f false).clearFlags fs := rfl
    rw [e, ih, State.flag_setFlag]
    by_cases h : g = f <;> simp [h]

/-- A recorded fault sets FAULTED and no other flag (R225). -/
@[simp] theorem State.flag_raise (s : State) (k : FaultKind) (info : BitVec 16) (g : Flag) :
    (s.raise k info).flag g = (s.flag g || decide (g = .faulted)) := by
  unfold State.raise
  by_cases h : s.flag .faulted = true
  · by_cases hg : g = .faulted <;> simp [h, hg]
  · rw [if_neg h, State.flag_setFlag]
    by_cases hg : g = .faulted
    · simp [hg]
    · rw [if_neg hg]; simp [hg]; rfl

/-- The whole effect of fault entry from a state without a fault (R225). -/
theorem State.raise_of_ready {s : State} (h : Ready s) (k : FaultKind) (info : BitVec 16) :
    s.raise k info = { s with fault := k.code, finfo := info, status := statusWith s.status .faulted true } := by
  unfold State.raise
  rw [if_neg (by simp [h])]
  rfl

/-- The first fault is kept (R225, R229). -/
theorem State.raise_of_faulted {s : State} (h : s.flag .faulted = true) (k : FaultKind) (info : BitVec 16) :
    s.raise k info = s := by
  unfold State.raise
  rw [if_pos h]

/-- The flags of a state are those of its STATUS. -/
theorem State.flag_congr {s t : State} (h : s.status = t.status) (f : Flag) : s.flag f = t.flag f := by
  unfold State.flag; rw [h]

@[simp] theorem State.flag_setRes {w : Nat} (s : State) (v : BitVec w) (f : Flag) : (s.setRes v).flag f = s.flag f := rfl

@[simp] theorem State.flag_resetCore (s : State) (f : Flag) : s.resetCore.flag f = false := by
  show (0#16).getLsbD f.bit = false
  simp

end Sys2Proof.Machine
end

