-- ==== Sys2Proof/Laws/Run.lean ====
section
/-! SUPPORT. How stretches of pseudocode compose, and the four ways a command runs (spec R91, R226). -/

namespace Sys2Proof.Machine

variable {α β γ : Type}

@[simp] theorem Run.bind_done (a : α) (s : State) (k : α → State → Run β) : (Run.done a s).bind k = k a s := rfl

@[simp] theorem Run.bind_raised (s : State) (k : α → State → Run β) : (Run.raised s : Run α).bind k = .raised s := rfl

@[simp] theorem Run.bind_stuck (f : Fault) (k : α → State → Run β) : (Run.stuck f : Run α).bind k = .stuck f := rfl

@[simp] theorem Run.bind_raise (k : FaultKind) (info : BitVec 16) (s : State) (g : α → State → Run β) :
    (Run.raise k info s : Run α).bind g = .raise k info s := rfl

@[simp] theorem Run.andThen_done (s : State) (k : State → Run β) : (Run.done () s).andThen k = k s := rfl

@[simp] theorem Run.andThen_raised (s : State) (k : State → Run β) : (Run.raised s : Run Unit).andThen k = .raised s := rfl

@[simp] theorem Run.andThen_stuck (f : Fault) (k : State → Run β) : (Run.stuck f : Run Unit).andThen k = .stuck f := rfl

@[simp] theorem Run.andThen_raise (k : FaultKind) (info : BitVec 16) (s : State) (g : State → Run β) :
    (Run.raise k info s : Run Unit).andThen g = .raise k info s := rfl

@[simp] theorem Run.outcome_done (s : State) : (Run.done () s).outcome = .next s := rfl

@[simp] theorem Run.outcome_raised (s : State) : (Run.raised s : Run Unit).outcome = .next s := rfl

@[simp] theorem Run.outcome_stuck (f : Fault) : (Run.stuck f : Run Unit).outcome = .fault f := rfl

@[simp] theorem Run.outcome_raise (k : FaultKind) (info : BitVec 16) (s : State) :
    (Run.raise k info s : Run Unit).outcome = .next (s.raise k info) := rfl

theorem Run.bind_assoc (r : Run α) (k : α → State → Run β) (g : β → State → Run γ) :
    (r.bind k).bind g = r.bind fun a s => (k a s).bind g := by
  cases r <;> rfl

/-- A sequence completes only through both of its parts. -/
theorem Run.bind_eq_done {r : Run α} {k : α → State → Run β} {b : β} {t : State} (h : r.bind k = .done b t) :
    ∃ a s, r = .done a s ∧ k a s = .done b t := by
  cases r with
  | done a s => exact ⟨a, s, rfl, h⟩
  | raised s => simp at h
  | stuck f => simp at h

/-- A sequence ends in a fault in its first part or in its second. -/
theorem Run.bind_eq_raised {r : Run α} {k : α → State → Run β} {t : State} (h : r.bind k = .raised t) :
    r = .raised t ∨ ∃ a s, r = .done a s ∧ k a s = .raised t := by
  cases r with
  | done a s => exact .inr ⟨a, s, rfl, h⟩
  | raised s => exact .inl (by simpa using h)
  | stuck f => simp at h

/-- A sequence is stuck in its first part or in its second. -/
theorem Run.bind_eq_stuck {r : Run α} {k : α → State → Run β} {f : Fault} (h : r.bind k = .stuck f) :
    r = .stuck f ∨ ∃ a s, r = .done a s ∧ k a s = .stuck f := by
  cases r with
  | done a s => exact .inr ⟨a, s, rfl, h⟩
  | raised s => simp at h
  | stuck g => exact .inl (by simpa using h)

/-- A command answers a next state exactly as its body ends. -/
theorem Run.outcome_eq_next {r : Run Unit} {t : State} :
    r.outcome = .next t ↔ r = .done () t ∨ r = .raised t := by
  cases r <;> simp [Run.outcome]

/-! ### Running a command -/

variable {op : Opcode} {always inRange pre : Bool} {body : State → Run Unit} {s : State}

/-- In the FAULTED state a command other than a well-formed RESET or RDSR has no effect (R227). -/
theorem runCommand_faulted (h : s.flag .faulted = true) (ha : (always && inRange) = false) :
    runCommand op always inRange pre body s = .next s := by
  simp [runCommand, h, ha]

/-- An operand out of range (R87). -/
theorem runCommand_range (h : Ready s) (hr : inRange = false) :
    runCommand op always inRange pre body s = .next (s.raise .illegalOperation (illegalInfo op 3)) := by
  simp [runCommand, h, hr]

/-- A precondition that does not hold (R226, R237). -/
theorem runCommand_pre (h : Ready s) (hr : inRange = true) (hp : pre = false) :
    runCommand op always inRange pre body s = .next (s.raise .illegalOperation (illegalInfo op 4)) := by
  simp [runCommand, h, hr, hp]

/-- Execution (R91 step 5). -/
theorem runCommand_body (h : Ready s) (hr : inRange = true) (hp : pre = true) :
    runCommand op always inRange pre body s = (body s).outcome := by
  simp [runCommand, h, hr, hp]

/-- Everything a command can do: have no effect, fault at the operand range or the preconditions, or run its body. -/
theorem runCommand_cases (op : Opcode) (always inRange pre : Bool) (body : State → Run Unit) (s : State) :
    (s.flag .faulted = true ∧ runCommand op always inRange pre body s = .next s) ∨
    (Ready s ∧ (runCommand op always inRange pre body s = .next (s.raise .illegalOperation (illegalInfo op 3)) ∨
      runCommand op always inRange pre body s = .next (s.raise .illegalOperation (illegalInfo op 4)))) ∨
    (inRange = true ∧ pre = true ∧ (Ready s ∨ always = true) ∧
      runCommand op always inRange pre body s = (body s).outcome) ∨
    (s.flag .faulted = true ∧ always = true ∧ inRange = true ∧ pre = false) := by
  cases hf : s.flag .faulted <;> cases always <;> cases inRange <;> cases pre <;> simp [runCommand, hf, Ready]

end Sys2Proof.Machine
end

