-- ==== Sys2Proof/Laws/Bits.lean ====
section
/-! SUPPORT. The bit writer appends to the bits written and the bit reader takes from the bits pending (spec R100 to R106),
each with everything else it leaves alone. -/

namespace Sys2Proof.Machine

@[simp] theorem streamBits_nil : streamBits [] = [] := rfl

@[simp] theorem streamBits_cons (b : Byte) (l : List Byte) : streamBits (b :: l) = byteBits b ++ streamBits l := rfl

@[simp] theorem streamBits_append (l m : List Byte) : streamBits (l ++ m) = streamBits l ++ streamBits m := by
  simp [streamBits]

@[simp] theorem byteBits_length (b : Byte) : (byteBits b).length = 8 := by simp [byteBits]

@[simp] theorem streamBits_length (l : List Byte) : (streamBits l).length = 8 * l.length := by
  induction l with
  | nil => rfl
  | cons b l ih => simp [ih]; omega

@[simp] theorem valueBits_length (v n : Nat) : (valueBits v n).length = n := by simp [valueBits]

@[simp] theorem bitstr_length (c L : Nat) : (bitstr c L).length = L := by simp [bitstr]

@[simp] theorem bitsValue_nil : bitsValue [] = 0 := rfl

@[simp] theorem bitsValue_cons (b : Bool) (bs : List Bool) : bitsValue (b :: bs) = b.toNat + 2 * bitsValue bs := rfl

theorem bitsValue_lt (bs : List Bool) : bitsValue bs < 2 ^ bs.length := by
  induction bs with
  | nil => simp
  | cons b bs ih =>
    have := b.toNat_le
    simp only [bitsValue_cons, List.length_cons, Nat.pow_succ]
    omega

/-! ### The writer -/

theorem range_map_append_bit (w : BitVec 8) (c : BitVec 4) (b : Bool) (hc : c.toNat ≤ 7)
    (hz : ∀ i < 8, c.toNat ≤ i → w.getLsbD i = false) :
    (List.range (c.toNat + 1)).map (w ||| (BitVec.ofBool b).setWidth 8 <<< c.toNat).getLsbD =
      (List.range c.toNat).map w.getLsbD ++ [b] := by
  rw [List.range_succ, List.map_append]
  congr 1
  · apply List.map_congr_left
    intro i hi
    have hi : i < c.toNat := by simpa using hi
    simp [hi]
  · have h8 : c.toNat < 8 := by omega
    have h0 : w[c.toNat] = false := by
      rw [← BitVec.getLsbD_eq_getElem]; exact hz c.toNat h8 (le_refl _)
    cases b <;> simp [h8, h0]

theorem writeBit_bits_above (w : BitVec 8) (c : BitVec 4) (b : Bool)
    (hz : ∀ i < 8, c.toNat ≤ i → w.getLsbD i = false) (i : Nat) (hi : i < 8) (hci : c.toNat + 1 ≤ i) :
    (w ||| (BitVec.ofBool b).setWidth 8 <<< c.toNat).getLsbD i = false := by
  have h0 : w[i] = false := by
    rw [← BitVec.getLsbD_eq_getElem]; exact hz i hi (by omega)
  cases b <;> simp [hi, h0]
  omega

theorem wcnt_succ_toNat {c : BitVec 4} (hc : c.toNat ≤ 7) : (c + 1#4).toNat = c.toNat + 1 := by
  rw [BitVec.toNat_add]; simp; omega

/-- `WriteBit` writes WBUF, WCNT and ARC only (R100). -/
theorem writeBit_shape (s : State) (b : Bool) :
    writeBit s b = { s with
      wbuf := (writeBit s b).wbuf, wcnt := (writeBit s b).wcnt, host.arc := (writeBit s b).host.arc } := by
  unfold writeBit memWriteArc
  dsimp only
  split <;> rfl

/-- `WriteBit` appends its bit to the bits written (R100). -/
theorem writeBit_spec {s : State} (h : WriterOk s) (b : Bool) :
    (writeBit s b).written = s.written ++ [b] ∧ WriterOk (writeBit s b) := by
  obtain ⟨hc, hz⟩ := h
  have hbits := range_map_append_bit s.wbuf s.wcnt b hc hz
  have habove := writeBit_bits_above s.wbuf s.wcnt b hz
  have hn := wcnt_succ_toNat hc
  unfold writeBit
  dsimp only
  split
  · rename_i h8
    have h7 : s.wcnt.toNat + 1 = 8 := by rw [← hn, h8]; rfl
    rw [h7] at hbits
    refine ⟨?_, by simp [WriterOk]⟩
    simp only [State.written, memWriteArc, streamBits_append, streamBits_cons, streamBits_nil, List.append_nil]
    rw [byteBits, hbits]
    simp
  · rename_i h8
    have h7 : s.wcnt.toNat + 1 ≤ 7 := by
      by_contra hne
      exact h8 (BitVec.eq_of_toNat_eq (by rw [hn]; show _ = 8; omega))
    refine ⟨?_, ?_⟩
    · simp only [State.written, hn]
      rw [hbits, List.append_assoc]
    · refine ⟨by simp only [hn]; exact h7, ?_⟩
      intro i hi hci
      simp only [hn] at hci
      exact habove i hi hci

theorem writeBitList_shape (s : State) (bs : List Bool) :
    writeBitList s bs = { s with
      wbuf := (writeBitList s bs).wbuf, wcnt := (writeBitList s bs).wcnt,
      host.arc := (writeBitList s bs).host.arc } := by
  induction bs generalizing s with
  | nil => rfl
  | cons b bs ih =>
    have e : writeBitList s (b :: bs) = writeBitList (writeBit s b) bs := rfl
    rw [e]
    conv_lhs => rw [ih (writeBit s b)]
    rw [writeBit_shape s b]

/-- A list of bits is appended to the bits written (R100, R101). -/
theorem writeBitList_spec {s : State} (h : WriterOk s) (bs : List Bool) :
    (writeBitList s bs).written = s.written ++ bs ∧ WriterOk (writeBitList s bs) := by
  induction bs generalizing s with
  | nil => exact ⟨by simp [writeBitList], h⟩
  | cons b bs ih =>
    have e : writeBitList s (b :: bs) = writeBitList (writeBit s b) bs := rfl
    obtain ⟨hw, hok⟩ := writeBit_spec h b
    obtain ⟨hw', hok'⟩ := ih hok
    rw [e]
    exact ⟨by rw [hw', hw]; simp, hok'⟩

/-- ARC only grows at its end (R61). -/
theorem writeBitList_arc (s : State) (bs : List Bool) : s.host.arc <+: (writeBitList s bs).host.arc := by
  induction bs generalizing s with
  | nil => exact List.prefix_rfl
  | cons b bs ih =>
    refine List.IsPrefix.trans ?_ (ih (writeBit s b))
    unfold writeBit memWriteArc
    dsimp only
    split
    · exact List.prefix_append _ _
    · exact List.prefix_rfl

/-- `Flush` writes WBUF, WCNT and ARC only (R106). -/
theorem flush_shape (s : State) :
    flush s = { s with wbuf := (flush s).wbuf, wcnt := (flush s).wcnt, host.arc := (flush s).host.arc } := by
  unfold flush memWriteArc
  split <;> rfl

theorem byteBits_of_count (w : BitVec 8) (c : Nat) (hc : c ≤ 8) (hz : ∀ i < 8, c ≤ i → w.getLsbD i = false) :
    byteBits w = (List.range c).map w.getLsbD ++ List.replicate (8 - c) false := by
  apply List.ext_getElem
  · simp; omega
  · intro i h1 h2
    have h8 : i < 8 := by simpa using h1
    by_cases hi : i < c
    · rw [List.getElem_append_left (by simpa using hi)]; simp [byteBits]
    · rw [List.getElem_append_right (by simpa using hi), List.getElem_replicate]
      have := hz i h8 (by omega)
      simpa [byteBits] using this

/-- `Flush` pads the bits written to whole bytes with zeros and leaves the buffer empty (R106). -/
theorem flush_spec {s : State} (h : WriterOk s) :
    (flush s).written = s.written ++ List.replicate ((8 - s.wcnt.toNat) % 8) false ∧ (flush s).wcnt = 0#4 ∧
      WriterOk (flush s) := by
  obtain ⟨hc, hz⟩ := h
  unfold flush
  split
  · rename_i h0
    refine ⟨by simp [h0], h0, hc, hz⟩
  · rename_i h0
    have hpos : s.wcnt.toNat ≠ 0 := fun e => h0 (BitVec.eq_of_toNat_eq (by simpa using e))
    refine ⟨?_, rfl, by simp [WriterOk]⟩
    have e : (8 - s.wcnt.toNat) % 8 = 8 - s.wcnt.toNat := Nat.mod_eq_of_lt (by omega)
    simp only [State.written, memWriteArc, streamBits_append, streamBits_cons, streamBits_nil]
    rw [byteBits_of_count s.wbuf s.wcnt.toNat (by omega) hz, e]
    simp

/-! ### The reader -/

theorem memReadArc_some {s : State} (h : s.host.arcPos < s.host.arc.length) :
    memReadArc s = (some s.host.arc[s.host.arcPos], { s with host.arcPos := s.host.arcPos + 1 }) := by
  unfold memReadArc
  rw [List.getElem?_eq_getElem h]

/-- End of data is stable (R52). -/
theorem memReadArc_eod {s : State} (h : s.host.arc.length ≤ s.host.arcPos) : memReadArc s = (none, s) := by
  unfold memReadArc
  rw [List.getElem?_eq_none h]

theorem takeBit_spec {s : State} (h : ReaderOk s) (h0 : s.rcnt ≠ 0#4) :
    ∃ t, takeBit s = .done (s.rbuf.getLsbD 0) t ∧ s.pending = s.rbuf.getLsbD 0 :: t.pending ∧ ReaderOk t ∧
      t = { s with rbuf := t.rbuf, rcnt := t.rcnt } := by
  obtain ⟨hc, hz⟩ := h
  have hpos : s.rcnt.toNat ≠ 0 := fun e => h0 (BitVec.eq_of_toNat_eq (by simpa using e))
  have hsub : (s.rcnt - 1#4).toNat = s.rcnt.toNat - 1 := by
    rw [BitVec.toNat_sub]; simp; omega
  refine ⟨_, rfl, ?_, ?_, rfl⟩
  · simp only [State.pending, hsub]
    obtain ⟨k, hk⟩ : ∃ k, s.rcnt.toNat = k + 1 := ⟨s.rcnt.toNat - 1, by omega⟩
    rw [hk, List.range_succ_eq_map, List.map_cons, List.map_map, List.cons_append]
    congr 2
    apply List.map_congr_left
    intro i _
    simp [Nat.add_comm]
  · refine ⟨by simp only [hsub]; omega, ?_⟩
    intro i hi hci
    simp only [hsub] at hci
    by_cases h7 : i + 1 < 8
    · have := hz (i + 1) h7 (by omega)
      simpa [Nat.add_comm] using this
    · have : i = 7 := by omega
      subst this
      simp

/-- `ReadBit` delivers the first pending bit (R102). -/
theorem readBit_spec {s : State} (h : ReaderOk s) {b : Bool} {rest : List Bool} (hp : s.pending = b :: rest) :
    ∃ t, readBit s = .done b t ∧ t.pending = rest ∧ ReaderOk t ∧
      t = { s with rbuf := t.rbuf, rcnt := t.rcnt, host.arcPos := t.host.arcPos } := by
  unfold readBit
  split
  · rename_i h0
    have harc : s.host.arcPos < s.host.arc.length := by
      by_contra hge
      rw [State.pending, h0, List.drop_eq_nil_of_le (by omega)] at hp
      simp at hp
    rw [memReadArc_some harc]
    let u : State := { s with
      rbuf := s.host.arc[s.host.arcPos], rcnt := 8#4, host.arcPos := s.host.arcPos + 1 }
    have hu : ReaderOk u := ⟨by simp [u], fun i h1 h2 => by simp [u] at h2; omega⟩
    have hpu : u.pending = s.pending := by
      simp only [State.pending, u, h0]
      rw [List.drop_eq_getElem_cons harc, streamBits_cons]
      rfl
    obtain ⟨t, ht, hpt, hok, hsh⟩ := takeBit_spec hu (by simp [u])
    rw [hpu, hp] at hpt
    obtain ⟨hb, hr⟩ := List.cons.inj hpt
    refine ⟨t, ?_, hr.symm, hok, ?_⟩
    · rw [hb]; exact ht
    · rw [hsh]
  · rename_i h0
    obtain ⟨t, ht, hpt, hok, hsh⟩ := takeBit_spec h h0
    rw [hp] at hpt
    obtain ⟨hb, hr⟩ := List.cons.inj hpt
    refine ⟨t, ?_, hr.symm, hok, ?_⟩
    · rw [hb]; exact ht
    · rw [hsh]

/-- `ReadBit` with no bit pending raises UnexpectedEndOfStream and takes nothing (R102). -/
theorem readBit_end {s : State} (hp : s.pending = []) :
    readBit s = .raise .unexpectedEndOfStream 0#16 s := by
  have h0 : s.rcnt.toNat = 0 ∧ s.host.arc.length ≤ s.host.arcPos := by
    have := congrArg List.length hp
    simp [State.pending] at this
    exact ⟨by simp [this.1], by omega⟩
  have h4 : s.rcnt = 0#4 := BitVec.eq_of_toNat_eq (by simpa using h0.1)
  unfold readBit
  rw [if_pos h4, memReadArc_eod h0.2]

/-- `ReadBits(n)` delivers the value of the first `n` pending bits and takes them (R103). -/
theorem readBits_spec (n : Nat) {s : State} (h : ReaderOk s) (hn : n ≤ s.pending.length) :
    ∃ t, readBits n s = .done (bitsValue (s.pending.take n)) t ∧ t.pending = s.pending.drop n ∧ ReaderOk t ∧
      t = { s with rbuf := t.rbuf, rcnt := t.rcnt, host.arcPos := t.host.arcPos } := by
  induction n generalizing s with
  | zero => exact ⟨s, rfl, rfl, h, rfl⟩
  | succ n ih =>
    obtain ⟨b, rest, hp⟩ : ∃ b rest, s.pending = b :: rest := by
      cases hs : s.pending with
      | nil => rw [hs] at hn; simp at hn
      | cons b rest => exact ⟨b, rest, rfl⟩
    obtain ⟨u, hu, hpu, hok, hsh⟩ := readBit_spec h hp
    obtain ⟨t, ht, hpt, hok', hsh'⟩ := ih hok (by rw [hpu]; rw [hp] at hn; simpa using hn)
    refine ⟨t, ?_, ?_, hok', ?_⟩
    · simp only [readBits, hu, Run.bind_done, ht, hp, List.take_succ_cons, bitsValue_cons, hpu]
    · rw [hpt, hpu, hp]; rfl
    · rw [hsh', hsh]

/-- `ReadBits(n)` with fewer pending bits takes them all and raises UnexpectedEndOfStream (R103). -/
theorem readBits_end (n : Nat) {s : State} (h : ReaderOk s) (hn : s.pending.length < n) :
    ∃ t, readBits n s = .raise .unexpectedEndOfStream 0#16 t ∧ t.pending = [] ∧ ReaderOk t ∧
      t = { s with rbuf := t.rbuf, rcnt := t.rcnt, host.arcPos := t.host.arcPos } := by
  induction n generalizing s with
  | zero => omega
  | succ n ih =>
    cases hs : s.pending with
    | nil => exact ⟨s, by simp only [readBits, readBit_end hs, Run.bind_raise], hs, h, rfl⟩
    | cons b rest =>
      obtain ⟨u, hu, hpu, hok, hsh⟩ := readBit_spec h hs
      obtain ⟨t, ht, hpt, hok', hsh'⟩ := ih hok (by rw [hpu]; rw [hs] at hn; simpa using hn)
      refine ⟨t, by simp only [readBits, hu, Run.bind_done, ht, Run.bind_raise], hpt, hok', ?_⟩
      rw [hsh', hsh]

/-! ### Codes of a list of symbols -/

@[simp] theorem Block.symBits_nil (b : Block) : b.symBits [] = some [] := rfl

theorem Block.symBits_cons (b : Block) (x : Nat) (xs : List Nat) :
    b.symBits (x :: xs) = (b.code x).bind fun c => (b.symBits xs).map fun cs => c ++ cs := by
  unfold Block.symBits
  rw [List.mapM_cons]
  cases b.code x <;> cases xs.mapM b.code <;> rfl

theorem Block.symBits_append (b : Block) (xs ys : List Nat) :
    b.symBits (xs ++ ys) = (b.symBits xs).bind fun cs => (b.symBits ys).map fun ds => cs ++ ds := by
  induction xs with
  | nil =>
    rw [List.nil_append, symBits_nil, Option.bind_some]
    cases b.symBits ys <;> rfl
  | cons x xs ih =>
    simp only [List.cons_append, symBits_cons, ih]
    cases b.code x <;> cases b.symBits xs <;> cases b.symBits ys <;> simp

end Sys2Proof.Machine
end

