-- ==== Sys2Proof/Laws/Tables.lean ====
section
/-! SUPPORT. Reading a table after writing it. -/

namespace Sys2Proof.Machine

variable {α : Type} {n : Nat}

theorem tget_eq_getElem (t : Vector α n) {i : Nat} (h : i < n) (d : α) : tget t i d = t[i] := by
  unfold tget
  rw [List.getD_eq_getElem?_getD, List.getElem?_eq_getElem (by simpa using h)]
  simp

theorem tget_of_le (t : Vector α n) {i : Nat} (h : n ≤ i) (d : α) : tget t i d = d := by
  unfold tget
  rw [List.getD_eq_getElem?_getD, List.getElem?_eq_none (by simpa using h)]
  rfl

@[simp] theorem tset_toList (t : Vector α n) (i : Nat) (x : α) : (tset t i x).toList = t.toList.set i x := rfl

/-- Read after write: the entry written gives the value, every other entry what it gave before. -/
theorem tget_tset (t : Vector α n) (i j : Nat) (x d : α) :
    tget (tset t i x) j d = if i = j ∧ i < n then x else tget t j d := by
  unfold tget
  rw [tset_toList, List.getD_eq_getElem?_getD, List.getD_eq_getElem?_getD, List.getElem?_set]
  have hl : t.toList.length = n := by simp
  by_cases h : i = j
  · subst h
    by_cases hi : i < n
    · simp [hi]
    · simp [hi]
  · simp [h]

theorem tget_tset_same (t : Vector α n) {i : Nat} (h : i < n) (x d : α) : tget (tset t i x) i d = x := by
  rw [tget_tset, if_pos ⟨rfl, h⟩]

theorem tget_tset_ne (t : Vector α n) {i j : Nat} (h : i ≠ j) (x d : α) : tget (tset t i x) j d = tget t j d := by
  rw [tget_tset, if_neg (fun e => h e.1)]

@[simp] theorem tget_replicate (x : α) (i : Nat) (h : i < n) (d : α) : tget (Vector.replicate n x) i d = x := by
  rw [tget_eq_getElem _ h]; simp

@[simp] theorem tsetPrefix_toList (t : Vector α n) (xs : List α) :
    (tsetPrefix t xs).toList = (xs ++ t.toList.drop xs.length).take n := rfl

/-- After a prefix is written, its entries read as written and those past it as before. -/
theorem tget_tsetPrefix (t : Vector α n) (xs : List α) (hx : xs.length ≤ n) (j : Nat) (d : α) :
    tget (tsetPrefix t xs) j d = if h : j < xs.length then xs[j] else tget t j d := by
  by_cases hj : j < n
  · unfold tget
    rw [tsetPrefix_toList, List.getD_eq_getElem?_getD, List.getElem?_take, if_pos hj, List.getD_eq_getElem?_getD]
    split
    · rename_i h; rw [List.getElem?_append_left h, List.getElem?_eq_getElem h]; rfl
    · rename_i h
      rw [List.getElem?_append_right (by omega), List.getElem?_drop]
      congr 2; omega
  · rw [tget_of_le _ (by omega), tget_of_le _ (by omega), dif_neg (by omega)]

/-! ### The tree and the blocks -/

theorem State.presentSyms_nodup (s : State) : s.presentSyms.Nodup := List.nodup_range.filter _

theorem State.presentSyms_length (s : State) : s.presentSyms.length = s.presentCount :=
  List.countP_eq_length_filter.symm

/-- No symbol stands at two leaves below the root. -/
theorem State.leaves_nodup_of_treeOk {s : State} (h : s.TreeOk) : ((s.leaves 517 s.root 0).map Prod.fst).Nodup :=
  h.2.2.nodup_iff.mpr s.presentSyms_nodup

@[simp] theorem State.SameEncoder_refl (s : State) : s.SameEncoder s := by simp [State.SameEncoder]

@[simp] theorem openBits_nil : openBits [] = some [] := rfl

theorem openBits_cons (b : Block) (bs : List Block) :
    openBits (b :: bs) = (b.bits Config.oneMoreFile).bind fun x => (openBits bs).map fun y => x ++ y := by
  unfold openBits
  rw [List.mapM_cons]
  cases b.bits Config.oneMoreFile <;> cases bs.mapM (fun b : Block => b.bits Config.oneMoreFile) <;> rfl

end Sys2Proof.Machine
end

