-- ==== Sys2Proof/Laws/Ops.lean ====
section
/-! SUPPORT. One lemma per shared operation that says everything it can do. -/

namespace Sys2Proof.Machine

/-! ### Where a stretch of pseudocode can end -/

/-- Every state the stretch can end in, completed or faulted, has `P`. -/
def Run.EndsIn {α : Type} (P : State → Prop) (r : Run α) : Prop :=
  match r with
  | .done _ t => P t
  | .raised t => P t
  | .stuck _ => True

theorem Run.EndsIn.imp {α : Type} {P Q : State → Prop} {r : Run α} (h : r.EndsIn P) (hpq : ∀ t, P t → Q t) :
    r.EndsIn Q := by
  cases r with
  | done a t => exact hpq t h
  | raised t => exact hpq t h
  | stuck f => exact h

/-- A sequence ends where its parts do, for a relation that composes. -/
theorem Run.EndsIn.bind {α β : Type} {P : State → Prop} {r : Run α} {k : α → State → Run β} (h : r.EndsIn P)
    (hk : ∀ a t, P t → (k a t).EndsIn P) : (r.bind k).EndsIn P := by
  cases r with
  | done a t => exact hk a t h
  | raised t => exact h
  | stuck f => trivial

/-! ### Host streams -/

theorem memReadSrc_cons {s : State} {x : Byte} {xs : List Byte} (h : s.srcRest = x :: xs) :
    memReadSrc s = (some x, { s with host.srcPos := s.host.srcPos + 1 }) ∧
      ({ s with host.srcPos := s.host.srcPos + 1 } : State).srcRest = xs := by
  have hlt : s.host.srcPos < s.srcContent.length := by
    by_contra hge
    rw [State.srcRest, List.drop_eq_nil_of_le (by omega)] at h
    simp at h
  rw [State.srcRest, List.drop_eq_getElem_cons hlt] at h
  obtain ⟨hx, hxs⟩ := List.cons.inj h
  refine ⟨?_, hxs⟩
  unfold memReadSrc
  rw [List.getElem?_eq_getElem hlt, hx]

/-- End of data is stable (R52). -/
theorem memReadSrc_eod {s : State} (h : s.srcRest = []) : memReadSrc s = (none, s) := by
  have hle : s.srcContent.length ≤ s.host.srcPos := List.drop_eq_nil_iff.mp h
  unfold memReadSrc
  rw [List.getElem?_eq_none hle]

/-- The content loops: if the body keeps `P` while it consumes the bytes left one by one, the loop completes at EOD. -/
theorem forSrc_spec {body : Byte → State → Run Unit} {P : List Byte → State → Prop}
    (hbody : ∀ x xs s, s.srcRest = x :: xs → P (x :: xs) s →
      ∃ t, body x { s with host.srcPos := s.host.srcPos + 1 } = .done () t ∧ t.srcRest = xs ∧ P xs t)
    {s : State} (h : P s.srcRest s) :
    ∃ t, forSrc body s.srcRest.length s = .done () t ∧ t.srcRest = [] ∧ P [] t := by
  generalize hl : s.srcRest = l at h
  induction l generalizing s with
  | nil => exact ⟨s, rfl, hl, h⟩
  | cons x xs ih =>
    obtain ⟨t, ht, hr, hP⟩ := hbody x xs s hl h
    obtain ⟨u, hu, hru, hPu⟩ := ih hr hP
    refine ⟨u, ?_, hru, hPu⟩
    simp only [List.length_cons, forSrc, (memReadSrc_cons hl).1, ht, Run.andThen_done, hu]

@[simp] theorem appendToLast_concat (v : Byte) (os : List (List Byte × List Byte)) (o : List Byte × List Byte) :
    appendToLast v (os ++ [o]) = os ++ [(o.1, o.2 ++ [v])] := by
  induction os with
  | nil => rfl
  | cons p os ih => cases os <;> simp_all [appendToLast]

/-- `HostOpenArcW` empties ARC or fails (R53). -/
theorem hostOpenArcW_cases (s : State) :
    (s.host.arcWOk = true ∧ hostOpenArcW s = some { s with host.arc := [] }) ∨
      (s.host.arcWOk = false ∧ hostOpenArcW s = none) := by
  unfold hostOpenArcW
  cases h : s.host.arcWOk <;> simp

/-- `HostOpenArcR` rewinds ARC or fails (R53). -/
theorem hostOpenArcR_cases (s : State) :
    (s.host.arcROk = true ∧ hostOpenArcR s = some { s with host.arcPos := 0 }) ∨
      (s.host.arcROk = false ∧ hostOpenArcR s = none) := by
  unfold hostOpenArcR
  cases h : s.host.arcROk <;> simp

/-- `HostOpenDst` adds an empty output or fails (R53). -/
theorem hostOpenDst_cases (name : List Byte) (s : State) :
    (s.host.dst.ok name = true ∧
        hostOpenDst name s = some { s with host.outputs := s.host.outputs ++ [(name, [])] }) ∨
      (s.host.dst.ok name = false ∧ hostOpenDst name s = none) := by
  unfold hostOpenDst
  cases h : s.host.dst.ok name <;> simp

/-- `HostOpenSrc` rewinds SRC and gives the display name, or fails (R53). -/
theorem hostOpenSrc_cases (i : Nat) (s : State) :
    (∃ name content, s.host.inputs[i]? = some (.file name content) ∧
        hostOpenSrc i s = some (name, { s with host.srcPos := 0 })) ∨
      ((s.host.inputs[i]? = none ∨ s.host.inputs[i]? = some .unopenable) ∧ hostOpenSrc i s = none) := by
  unfold hostOpenSrc
  rcases h : s.host.inputs[i]? with _ | (_ | ⟨name, content⟩) <;> simp

/-! ### Encoder -/

/-- `Count` either raises and changes nothing but the fault registers, or adds one to one counter (R120, R122). -/
theorem count_cases (x : Nat) (s : State) :
    (s.freqAt x = BitVec.allOnes 64 ∧ count x s = .raise .countOverflow (overflowInfo x) s) ∨
      (s.freqAt x ≠ BitVec.allOnes 64 ∧
        count x s = .done () { s with freq := tset s.freq x (s.freqAt x + 1#64) }) := by
  unfold count
  split
  · rename_i h; exact .inl ⟨h, rfl⟩
  · rename_i h; exact .inr ⟨h, rfl⟩

theorem leastFrom_mem (s : State) (h : Handle) (q : List Handle) : leastFrom s h q ∈ h :: q := by
  unfold leastFrom
  induction q generalizing h with
  | nil => simp
  | cons x q ih =>
    simp only [List.foldl_cons]
    cases hb : before s x h with
    | true => rw [if_pos rfl]; exact List.mem_cons_of_mem _ (ih x)
    | false =>
      rw [if_neg (by simp)]
      rcases List.mem_cons.mp (ih h) with e | e
      · rw [e]; simp
      · exact List.mem_cons_of_mem _ (List.mem_cons_of_mem _ e)

/-- `ExtractMin` takes one element off a queue that has one (R124). -/
theorem extractMin_shape {s : State} (h : s.pq ≠ []) :
    ∃ m, m ∈ s.pq ∧ extractMin s = some (m, { s with pq := s.pq.erase m }) := by
  unfold extractMin
  cases hq : s.pq with
  | nil => exact absurd hq h
  | cons a q => exact ⟨_, leastFrom_mem s a q, rfl⟩

/-- `CanonCodes` writes CC, and FAULT, FINFO, STATUS where it raises (R140). -/
theorem canonFrom_endsIn (ls : List Nat) (i prev code : Nat) (s : State) :
    (canonFrom i prev code ls s).EndsIn fun t =>
      t = { s with cc := t.cc, fault := t.fault, finfo := t.finfo, status := t.status } := by
  induction ls generalizing i prev code s with
  | nil => rfl
  | cons l ls ih =>
    unfold canonFrom
    dsimp only
    split
    · show s.raise _ _ = _
      unfold State.raise
      split <;> rfl
    · refine (ih _ _ _ _).imp ?_
      intro t ht
      rw [ht]

/-- `PutSymbol` writes the code of the symbol's first listing, or raises (R166). -/
theorem putSymbol_cases (op : Opcode) (x : Sym) (s : State) :
    (s.position x = none ∧ putSymbol op x s = .raise .illegalOperation (illegalInfo op 5#4) s) ∨
      (∃ i, s.position x = some i ∧ putSymbol op x s = .done () (writeBitList s (s.codeAt i))) := by
  unfold putSymbol
  cases s.position x <;> simp

/-! ### Decoder -/

/-- `ReadBit` touches the reader, and FAULT, FINFO, STATUS where it raises (R102). -/
theorem readBit_endsIn (s : State) :
    (readBit s).EndsIn fun t => t = { s with
      rbuf := t.rbuf, rcnt := t.rcnt, fault := t.fault, finfo := t.finfo, status := t.status,
      host.arcPos := t.host.arcPos } := by
  unfold readBit memReadArc takeBit
  split
  · cases s.host.arc[s.host.arcPos]? with
    | none =>
      show s.raise _ _ = _
      unfold State.raise
      split <;> rfl
    | some x => rfl
  · rfl

/-- The trie walk touches what `ReadBit` touches (R164). -/
theorem trieWalk_endsIn (tr : Trie) (s : State) :
    (trieWalk tr s).EndsIn fun t => t = { s with
      rbuf := t.rbuf, rcnt := t.rcnt, fault := t.fault, finfo := t.finfo, status := t.status,
      host.arcPos := t.host.arcPos } := by
  induction tr generalizing s with
  | nil => show s.raise _ _ = _; unfold State.raise; split <;> rfl
  | node c0 c1 v ih0 ih1 =>
    unfold trieWalk
    split
    · cases v with
      | none => show s.raise _ _ = _; unfold State.raise; split <;> rfl
      | some x => rfl
    · refine (readBit_endsIn s).bind ?_
      intro b t ht
      split
      · exact (ih1 t).imp fun u hu => by rw [hu, ht]
      · exact (ih0 t).imp fun u hu => by rw [hu, ht]

/-- A path to a leaf that is the next pending bits decodes to the leaf's symbol (R164). -/
theorem trieWalk_path {tr : Trie} {path rest : List Bool} {x : Sym} {s : State} (hok : ReaderOk s)
    (hprop : tr.proper = true) (hl : tr.lookup path = some x) (hp : s.pending = path ++ rest) :
    ∃ t, trieWalk tr s = .done x t ∧ t.pending = rest ∧ ReaderOk t ∧
      t = { s with rbuf := t.rbuf, rcnt := t.rcnt, host.arcPos := t.host.arcPos } := by
  induction tr generalizing path s with
  | nil => simp [Trie.lookup] at hl
  | node c0 c1 v ih0 ih1 =>
    unfold trieWalk
    split
    · rename_i hleaf
      cases path with
      | nil =>
        have hv : v = some x := hl
        exact ⟨s, by rw [hv], hp, hok, rfl⟩
      | cons b bs =>
        simp only [Bool.and_eq_true] at hleaf
        cases c0 <;> cases c1 <;> simp_all [Trie.lookup, Trie.isNil]
    · rename_i hinner
      rw [Trie.proper, if_neg hinner] at hprop
      simp only [Bool.and_eq_true] at hprop
      cases path with
      | nil =>
        have hv : v = some x := hl
        simp [hv] at hprop
      | cons b bs =>
        obtain ⟨u, hu, hpu, hoku, hsh⟩ := readBit_spec hok (rest := bs ++ rest) (by simpa using hp)
        simp only [hu, Run.bind_done]
        cases b with
        | true =>
          obtain ⟨t, ht, hpt, hokt, hsht⟩ := ih1 hoku hprop.2 (by simpa [Trie.lookup] using hl) hpu
          exact ⟨t, by simpa using ht, hpt, hokt, by rw [hsht, hsh]⟩
        | false =>
          obtain ⟨t, ht, hpt, hokt, hsht⟩ := ih0 hoku hprop.1.2 (by simpa [Trie.lookup] using hl) hpu
          exact ⟨t, by simpa using ht, hpt, hokt, by rw [hsht, hsh]⟩

/-! ### Fetch -/

@[simp] theorem fetch_issue (s : State) (w : Word) : fetch (issue s w) = some (w, s) := rfl

theorem fetch_none_iff (s : State) : fetch s = none ↔ s.host.cmds = [] := by
  unfold fetch
  cases s.host.cmds <;> simp

end Sys2Proof.Machine
end

