-- ==== Sys2Proof/Laws/PerInstr.lean ====
section
/-! SUPPORT. Facts about each command as syntax, one lemma per constructor. -/

namespace Sys2Proof.Laws.OpcodeField

/-- The opcode field of a command's word is its opcode (R83, R84). -/
def Statement (i : Instr) : Prop := opField (encode i) = i.opcode

theorem opField_append (op : Opcode) (x : BitVec 26) : opField (op ++ x) = op := by
  unfold opField
  apply BitVec.eq_of_getLsbD_eq
  intro j hj
  rw [BitVec.getLsbD_extractLsb', BitVec.getLsbD_append]
  simp [hj]

theorem nop : Statement .nop := opField_append _ _

theorem wbits (n : BitVec 5) (v : BitVec 16) : Statement (.wbits n v) := opField_append _ _

theorem wint (n : BitVec 5) (v : BitVec 16) : Statement (.wint n v) := opField_append _ _

theorem wflush : Statement .wflush := opField_append _ _

theorem rbit : Statement .rbit := opField_append _ _

theorem rbits (n : BitVec 5) : Statement (.rbits n) := opField_append _ _

theorem rint (n : BitVec 5) : Statement (.rint n) := opField_append _ _

theorem scan : Statement .scan := opField_append _ _

theorem build : Statement .build := opField_append _ _

theorem walk : Statement .walk := opField_append _ _

theorem rdfreq (a : Sym) : Statement (.rdfreq a) := opField_append _ _

theorem ldlen (a : Sym) (b : BitVec 9) : Statement (.ldlen a b) := opField_append _ _

theorem canon : Statement .canon := opField_append _ _

theorem rdlen (a : Sym) : Statement (.rdlen a) := opField_append _ _

theorem rdcode (a : Sym) : Statement (.rdcode a) := opField_append _ _

theorem whdr : Statement .whdr := opField_append _ _

theorem rhdr : Statement .rhdr := opField_append _ _

theorem tbuild : Statement .tbuild := opField_append _ _

theorem getsym : Statement .getsym := opField_append _ _

theorem wsym (a : Sym) : Statement (.wsym a) := opField_append _ _

theorem encfile (a : BitVec 9) : Statement (.encfile a) := opField_append _ _

theorem decfile : Statement .decfile := opField_append _ _

theorem compress (idx : BitVec 16) : Statement (.compress idx) := opField_append _ _

theorem decompress : Statement .decompress := opField_append _ _

theorem reset : Statement .reset := opField_append _ _

theorem rdsr (a : BitVec 9) : Statement (.rdsr a) := opField_append _ _

theorem aopenw : Statement .aopenw := opField_append _ _

theorem aopenr : Statement .aopenr := opField_append _ _

theorem sopen (idx : BitVec 16) : Statement (.sopen idx) := opField_append _ _

theorem srewind : Statement .srewind := opField_append _ _

theorem dopen : Statement .dopen := opField_append _ _

theorem close (a : BitVec 9) : Statement (.close a) := opField_append _ _

end Sys2Proof.Laws.OpcodeField
end

