-- ==== Sys2Proof/Tests/Slice0.lean ====
section
/-! SUPPORT. Tests: the well-formedness checks, command words, single steps with the results spec/95_test_vectors.md
gives (V<n>, P<n>), and for each statement with hypotheses a state and operands that meet them (witness_<statement>).
A clause's witnesses sit at the boundary values of its range. -/

namespace Sys2Proof.Tests

open Sys2Proof Sys2Proof.Machine

-- one theorem at a time: a thread per theorem would reserve more memory than the check allows
set_option Elab.async false

/-! ### Well-formedness (R87) -/

theorem test_wf_refuses_each :
    [Instr.rdfreq 259, .ldlen 259 0, .ldlen 0 259, .rdlen 259, .rdcode 259, .wsym 259, .wbits 17 0, .wint 0 5, .wint 17 0,
      .rbits 17, .rint 0, .rint 17, .encfile 2, .rdsr 4, .close 3, .compress 0].all (fun i => !i.wf) = true := by decide

theorem test_wf_accepts_each :
    [Instr.rdfreq 258, .ldlen 258 258, .rdlen 258, .rdcode 258, .wsym 258, .wbits 0 65535, .wbits 16 0, .wint 1 0,
      .wint 16 0, .rbits 0, .rbits 16, .rint 1, .rint 16, .encfile 1, .rdsr 3, .close 2, .compress 1, .sopen 0,
      .sopen 65535].all Instr.wf = true := by decide

/-! ### Command words -/

/-- Format Z: the words of P1 to P3, and R84's opcodes shifted by 26. -/
theorem test_decode_format_z :
    [0x00000000#32, 0x0C000000#32, 0x10000000#32, 0x20000000#32, 0x24000000#32, 0x28000000#32, 0x34000000#32,
      0x40000000#32, 0x44000000#32, 0x48000000#32, 0x4C000000#32, 0x58000000#32, 0x60000000#32, 0x64000000#32,
      0x6C000000#32, 0x70000000#32, 0x78000000#32, 0x7C000000#32].map decode =
    [Instr.nop, .wflush, .rbit, .scan, .build, .walk, .canon, .whdr, .rhdr, .tbuild, .getsym, .decfile, .decompress,
      .reset, .aopenw, .aopenr, .srewind, .dopen].map Decoded.ok := by decide

/-- Formats A and AB (P2, P3): `a` in bits 25:17, `b` in bits 16:8. ENCFILE 1 and RDSR 1 by R83. -/
theorem test_decode_formats_a_ab :
    [0x2CE80000#32, 0x30020100#32, 0x30000200#32, 0x30060300#32, 0x38E80000#32, 0x3A040000#32, 0x3E040000#32,
      0x50E80000#32, 0x52040000#32, 0x54020000#32, 0x68020000#32, 0x80020000#32].map decode =
    [Instr.rdfreq 116, .ldlen 1 1, .ldlen 0 2, .ldlen 3 3, .rdlen 116, .rdlen 258, .rdcode 258, .wsym 116, .wsym 258,
      .encfile 1, .rdsr 1, .close 1].map Decoded.ok := by decide

/-- Formats V and I (P1, P3, P4; V35; WBITS 3, 5 and RBITS 16 by R83): `n` in bits 25:21. -/
theorem test_decode_formats_v_i :
    [0x092001FF#32, 0x04600005#32, 0x06200000#32, 0x16000000#32, 0x19200000#32, 0x5C000002#32, 0x74000000#32,
      0x7400FFFF#32].map decode =
    [Instr.wint 9 511, .wbits 3 5, .wbits 17 0, .rbits 16, .rint 9, .compress 2, .sopen 0, .sopen 65535].map
      Decoded.ok := by decide

/-- A word with a bit of no field set (R86), one for each format, at the ends of the zero fields. -/
theorem test_decode_must_be_zero :
    [0x02000000#32, 0x00000001#32, 0x2C010000#32, 0x2C000001#32, 0x30000080#32, 0x30000001#32, 0x04100000#32,
      0x04010000#32, 0x14000001#32, 0x14008000#32, 0x5E000001#32, 0x5C010001#32].map decode =
    [0x00#6, 0x00#6, 0x0B#6, 0x0B#6, 0x0C#6, 0x0C#6, 0x01#6, 0x01#6, 0x05#6, 0x05#6, 0x17#6, 0x17#6].map
      Decoded.mustBeZero := by decide

/-- R85: opcodes 0x07, 0x21 and 0x3F. -/
theorem test_decode_reserved :
    [0x1C000000#32, 0x84000000#32, 0xFFFFFFFF#32].map decode =
      [0x07#6, 0x21#6, 0x3F#6].map Decoded.reservedOpcode := by decide

/-- The words P1 to P3 list. -/
theorem test_encode_words :
    [Instr.ldlen 2 3, .rdcode 3, .wsym 2, .close 0, .wint 9 0, .compress 1, .wsym 256].map encode =
      [0x30040300#32, 0x3C060000#32, 0x50040000#32, 0x80000000#32, 0x09200000#32, 0x5C000001#32, 0x52000000#32] := by decide

theorem test_decode_table_word :
    decodeTableWord 32 0x6C000000 = some .aopenw ∧ decodeTableWord 32 0x1C000000 = none := by decide

/-! ### Small states -/

/-- Does a command complete in a state with a property? -/
def after (o : Host.Outcome State Fault Refusal) (p : State → Bool) : Bool :=
  match o with
  | .next t => p t
  | .fault _ => false
  | .refused _ => false

/-- FAULT, FINFO and STATUS, as the vectors list them. -/
def faultIs (kind info status : Nat) (t : State) : Bool :=
  t.fault.toNat == kind && t.finfo.toNat == info && t.status.toNat == status

/-- Bytes. -/
def bytes (l : List Nat) : List Byte := l.map (BitVec.ofNat 8)

/-- After reset, with a STATUS. -/
def withStatus (w : BitVec 16) : State := { State.reset with status := w }

/-- A word on the host's list. -/
def queued (w : Word) (s : State) : State := { s with host.cmds := [w] }

/-- V30's end state. -/
def faulted : State := { withStatus 1#16 with fault := 5#4, finfo := 0x0701#16 }

/-- Archive open for writing, `n` bits pending. -/
def writing (wbuf : BitVec 8) (n : BitVec 4) (arc : List Nat) : State :=
  { withStatus 0x0002#16 with wbuf := wbuf, wcnt := n, host.arc := bytes arc }

/-- Archive open for reading, at its start. -/
def reading (arc : List Nat) : State := { withStatus 0x0004#16 with host.arc := bytes arc }

/-- `test.txt`. -/
def testTxt : List Byte := bytes [116, 101, 115, 116, 46, 116, 120, 116]

/-- `.txt`. -/
def dotTxt : List Byte := bytes [46, 116, 120, 116]

/-- `NICE`. -/
def nice : List Byte := bytes [78, 73, 67, 69]

/-- inputs[0] open, at its start. -/
def sourceOpen (name content : List Byte) : State :=
  { withStatus 0x0008#16 with name := name, host.inputs := [.file name content] }

/-- FREQ from a list of (symbol, count). -/
def freqOf (l : List (Nat × Nat)) : Vector (BitVec 64) 259 :=
  l.foldl (fun v p => tset v p.1 (BitVec.ofNat 64 p.2)) State.reset.freq

/-- After the SCAN of V10. -/
def scanned : State :=
  { sourceOpen [] [] with status := 0x0028#16, freq := freqOf [(256, 1), (257, 1), (258, 1)] }

/-- After the BUILD of V10: its five nodes. -/
def built : State :=
  { scanned with
    status := 0x0068#16
    node := tsetPrefix State.reset.node
      [⟨true, 256, 1, 0, 0⟩, ⟨true, 257, 1, 0, 0⟩, ⟨true, 258, 1, 0, 0⟩, ⟨false, 0, 2, 0, 1⟩, ⟨false, 0, 3, 2, 3⟩]
    ncnt := 5#10
    root := 4#10
    pq := [4#10] }

/-- LEN from a list of (symbol, length). -/
def lenOf (l : List (Nat × Nat)) : Vector (BitVec 9) 259 :=
  l.foldl (fun v p => tset v p.1 (BitVec.ofNat 9 p.2)) State.reset.len

/-- After LDLENs. -/
def loaded (l : List (Nat × Nat)) : State := { withStatus 0x0080#16 with len := lenOf l }

/-- V12 before CANON. -/
def scenarioC : State := loaded [(1, 1), (0, 2), (2, 3), (3, 3)]

/-- A header, as RHDR leaves it. -/
def header (status : BitVec 16) (syms counts : List Nat) : State :=
  { withStatus status with
    hn := BitVec.ofNat 10 syms.length
    ord := tsetPrefix State.reset.ord (syms.map (BitVec.ofNat 9))
    cntl := tsetPrefix State.reset.cntl (counts.map (BitVec.ofNat 9))
    maxl := BitVec.ofNat 9 counts.length }

/-- V12 after CANON, with a STATUS. -/
def coded (status : BitVec 16) : State :=
  { header status [1, 0, 2, 3] [1, 1, 2] with
    len := lenOf [(1, 1), (0, 2), (2, 3), (3, 3)]
    cl := tsetPrefix State.reset.cl [1, 2, 3, 3]
    cc := tsetPrefix State.reset.cc [0, 2, 6, 7] }

/-- A leaf of TN. -/
def leafOf (x : Nat) : Trie := .node .nil .nil (some (BitVec.ofNat 9 x))

/-- V17's trie. -/
def trieC : Trie := .node (leafOf 1) (.node (leafOf 0) (.node (leafOf 2) (leafOf 3) none) none) none

/-- V17 after TBUILD, at the byte 0x0B. -/
def decoding : State := { coded 0x0704#16 with len := State.reset.len, tn := trieC, host.arc := bytes [0x0B] }

/-- V12's header, as bytes. -/
def headerC : List Nat := [0x04, 0x02, 0x00, 0x10, 0x30, 0x20, 0x40, 0x00, 0x01]

/-- V22's archive. -/
def arcV22 : List Nat := [0x06, 0xE8, 0x08, 0x74, 0x81, 0x07, 0x60, 0x40, 0x00, 0x02, 0x08, 0x84, 0x32, 0x01]

/-- V22's block. -/
def blockV22 : Block := ⟨[116, 258, 46, 120, 256, 257], [0, 2, 4], dotTxt, []⟩

/-! ### Single steps -/

/-- V48. -/
theorem test_nop : exec .nop (writing 0x01 1 [0xFF]) = .next (writing 0x01 1 [0xFF]) := by rfl

/-- V5, second command: the byte fills. -/
theorem test_wbits_fills_byte :
    after (exec (.wbits 5 0x1F) (writing 0x05 3 [])) (fun t =>
      t.host.arc == bytes [0xFD] && t.wbuf == 0 && t.wcnt == 0) = true := by decide +kernel

/-- V6: the low byte goes out first. -/
theorem test_wbits_low_byte_first :
    after (exec (.wbits 16 0xBEEF) (writing 0 0 [])) (fun t => t.host.arc == bytes [0xEF, 0xBE] && t.wcnt == 0) = true := by
  decide +kernel

/-- V3, second command. -/
theorem test_wint_after_zero :
    after (exec (.wint 9 511) (writing 0 1 [0x00])) (fun t =>
      t.host.arc == bytes [0x00, 0xFE] && t.wbuf == 0x03 && t.wcnt == 2) = true := by decide +kernel

/-- V7: the value is reduced to the field. -/
theorem test_wint_reduces :
    after (exec (.wint 9 1023) (writing 0 0 [])) (fun t =>
      t.host.arc == bytes [0xFF] && t.wbuf == 0x01 && t.wcnt == 1) = true := by decide +kernel

/-- V8. -/
theorem test_wflush_empty :
    after (exec .wflush (writing 0 0 [0xFF])) (fun t => t.host.arc == bytes [0xFF] && t.wcnt == 0) = true := by
  decide +kernel

/-- V9a, tenth RBIT: the second byte is used up to its first bit. -/
theorem test_rbit_zero :
    after (exec .rbit { reading [0xFF, 0x01] with host.arcPos := 2, rcnt := 7, res := 1 }) (fun t =>
      t.res == 0 && t.rcnt == 6) = true := by decide +kernel

/-- V9a, 17th RBIT. -/
theorem test_rbit_end :
    after (exec .rbit { reading [0xFF, 0x01] with host.arcPos := 2, res := 0 }) (faultIs 2 0 0x0005) = true := by
  decide +kernel

/-- V9b: the bits read are gone, RES is kept. -/
theorem test_rbits_end :
    after (exec (.rbits 16) (reading [0xAB])) (fun t =>
      faultIs 2 0 0x0005 t && t.res == 0 && t.rcnt == 0 && t.host.arcPos == 1) = true := by decide +kernel

/-- V9d. -/
theorem test_rbits_first_bit_lowest :
    after (exec (.rbits 3) (reading [0xFD])) (fun t => t.res == 5 && t.rbuf == 31) = true := by decide +kernel

/-- V3, the second RINT. -/
theorem test_rint_after_zero :
    after (exec (.rint 9) { reading [0x00, 0xFE, 0x03] with host.arcPos := 2, rbuf := 0x7F, rcnt := 7 }) (fun t =>
      t.res == 511 && t.rcnt == 6 && t.rbuf == 0) = true := by decide +kernel

/-- V11: the table of `test.txt`, `NICE`. -/
theorem test_scan_counts :
    after (exec .scan (sourceOpen testTxt nice)) (fun t =>
      t.freqAt 116 == 4 && t.freqAt 78 == 1 && t.freqAt 258 == 1 && t.freqAt 0 == 0 && t.status == 0x0028) = true := by
  decide +kernel

/-- V39. -/
theorem test_scan_needs_source : after (exec .scan State.reset) (faultIs 5 0x0804 0x0001) = true := by decide +kernel

/-- V10: the ties go to the lower handle. -/
theorem test_build_v10 :
    after (exec .build scanned) (fun t =>
      t.nodeAt 3 == ⟨false, 0, 2, 0, 1⟩ && t.nodeAt 4 == ⟨false, 0, 3, 2, 3⟩ && t.ncnt == 5 && t.root == 4) = true := by
  decide +kernel

/-- V10. -/
theorem test_walk_v10 :
    after (exec .walk built) (fun t =>
      t.lenAt 258 == 1 && t.lenAt 256 == 2 && t.lenAt 257 == 2 && t.status == 0x00E8) = true := by decide +kernel

/-- V10. -/
theorem test_rdfreq : after (exec (.rdfreq 256) scanned) (fun t => t.res == 1) = true := by decide +kernel

/-- R141: from an empty table, the flags of the codes cleared. -/
theorem test_ldlen_starts_empty :
    after (exec (.ldlen 3 3) { coded 0x0300#16 with len := lenOf [(7, 9)] }) (fun t =>
      t.lenAt 3 == 3 && t.lenAt 7 == 0 && t.status == 0x0080) = true := by decide +kernel

/-- V12. -/
theorem test_canon_scenario_c :
    after (exec .canon scenarioC) (fun t =>
      (List.range 4).map t.ordAt == [1, 0, 2, 3] && (List.range 4).map t.ccAt == [0, 2, 6, 7] && t.maxl == 3 &&
        (List.range 3).map (fun k => t.cntlAt (k + 1)) == [1, 1, 2] && t.status == 0x0380) = true := by decide +kernel

/-- V13. -/
theorem test_canon_overfull :
    after (exec .canon (loaded [(0, 1), (1, 1), (2, 1)])) (faultIs 3 4 0x0081) = true := by decide +kernel

/-- V10. -/
theorem test_rdlen :
    after (exec (.rdlen 258) (loaded [(258, 1), (256, 2), (257, 2)])) (fun t => t.res == 1) = true := by decide +kernel

/-- V12. -/
theorem test_rdcode :
    after (exec (.rdcode 2) (coded 0x0380#16)) (fun t => t.res == 6 && t.rlen == 3) = true := by decide +kernel

/-- V12: a symbol outside the alphabet. -/
theorem test_rdcode_outside : after (exec (.rdcode 4) (coded 0x0380#16)) (faultIs 5 0x0F05 0x0381) = true := by
  decide +kernel

/-- V12. -/
theorem test_whdr : after (exec .whdr (coded 0x0382#16)) (fun t => t.host.arc == bytes headerC && t.wcnt == 0) = true := by
  decide +kernel

/-- V17. -/
theorem test_rhdr :
    after (exec .rhdr (reading (headerC ++ [0x0B]))) (fun t =>
      t.hn == 4 && (List.range 4).map t.ordAt == [1, 0, 2, 3] && t.maxl == 3 && t.host.arcPos == 9 && t.rcnt == 0 &&
        t.status == 0x0104) = true := by decide +kernel

/-- V19 b: the running sum passes the size. -/
theorem test_rhdr_sum_passes : after (exec .rhdr (reading [0x02, 0x00, 0x04, 0x18, 0x00])) (faultIs 3 2 0x0005) = true := by
  decide +kernel

/-- V17. -/
theorem test_tbuild :
    after (exec .tbuild (header 0x0104#16 [1, 0, 2, 3] [1, 1, 2])) (fun t =>
      t.tn == trieC && t.tcnt == 7 && t.status == 0x0704) = true := by decide +kernel

/-- V19 c. -/
theorem test_tbuild_overfull :
    after (exec .tbuild (header 0x0104#16 [0, 1, 2] [3])) (faultIs 3 4 0x0105) = true := by decide +kernel

/-- V17, first GETSYM. -/
theorem test_getsym : after (exec .getsym decoding) (fun t => t.res == 2 && t.rcnt == 5) = true := by decide +kernel

/-- V19 d: the bit to the missing child is taken. -/
theorem test_getsym_missing_child :
    after (exec .getsym { reading [0x01] with status := 0x0704#16, tn := .node (leafOf 65) .nil none }) (fun t =>
      faultIs 3 5 0x0705 t && t.rcnt == 7) = true := by decide +kernel

/-- V18. -/
theorem test_wsym :
    after (exec (.wsym 0) { coded 0x0382#16 with wbuf := 0x03, wcnt := 3 }) (fun t =>
      t.wbuf == 0x0B && t.wcnt == 5 && t.host.arc == []) = true := by decide +kernel

/-- V18. -/
theorem test_wsym_outside : after (exec (.wsym 4) (coded 0x0382#16)) (faultIs 5 0x1405 0x0383) = true := by decide +kernel

/-- V23. -/
theorem test_encfile_empty :
    after (exec (.encfile 1) { sourceOpen [] [] with status := 0x000A#16 }) (fun t =>
      t.host.arc == bytes [0x03, 0x04, 0x02, 0x0C, 0x18, 0x40, 0x40] && t.wcnt == 1 && t.wbuf == 0) = true := by
  decide +kernel

/-- V22's block. -/
theorem test_decfile :
    after (exec .decfile (reading arcV22)) (fun t =>
      t.host.outputs == [(dotTxt, [])] && t.res == 258 && t.rcnt == 7 && t.status == 0x0704) = true := by decide +kernel

/-- V27: 257 among the content; the output stays open. -/
theorem test_decfile_framing :
    after (exec .decfile (reading (arcV22.take 12 ++ [0x72]))) (fun t =>
      faultIs 4 2 0x0715 t && t.host.outputs == [(dotTxt, [])] && t.name == dotTxt) = true := by decide +kernel

/-- V43's case at the first input: the archive stays open. -/
theorem test_compress_unopenable :
    after (exec (.compress 1) { State.reset with host.inputs := [.unopenable] }) (faultIs 1 2 0x0003) = true := by
  decide +kernel

/-- V26: `arc` empty. -/
theorem test_decompress_empty : after (exec .decompress State.reset) (faultIs 2 0 0x0005) = true := by decide +kernel

/-- V47: the pending bit is lost, the archive's byte stays. -/
theorem test_reset :
    after (exec .reset (writing 0x01 1 [0xFF])) (fun t =>
      t.host.arc == bytes [0xFF] && t.status == 0 && t.wcnt == 0 && t.wbuf == 0) = true := by decide +kernel

/-- V46: RDSR works while FAULTED. -/
theorem test_rdsr_faulted : after (exec (.rdsr 1) faulted) (fun t => t.res == 5 && faultIs 5 0x0701 1 t) = true := by
  decide +kernel

/-- V41. -/
theorem test_aopenw_fails :
    after (exec .aopenw { State.reset with host.arcWOk := false }) (faultIs 1 0 0x0001) = true := by decide +kernel

/-- V45. -/
theorem test_aopenw_refused_when_faulted :
    exec .aopenw { faulted with host.arc := bytes [0xFF] } = .next { faulted with host.arc := bytes [0xFF] } := by rfl

/-- V40. -/
theorem test_aopenr_exclusive : after (exec .aopenr (writing 0 0 [])) (faultIs 5 0x1C04 0x0003) = true := by decide +kernel

/-- P3: the name is loaded. -/
theorem test_sopen :
    after (exec (.sopen 0) { State.reset with host.inputs := [.file testTxt nice] }) (fun t =>
      t.name == testTxt && t.nlen == 8 && t.status == 0x0008) = true := by decide +kernel

/-- V42. -/
theorem test_sopen_no_input :
    after (exec (.sopen 3) { State.reset with host.inputs := [.file [] [], .file [] []] }) (fun t =>
      faultIs 1 2 0x0001 t && t.sidx == 3) = true := by decide +kernel

/-- R206. -/
theorem test_srewind :
    after (exec .srewind { sourceOpen dotTxt nice with host.srcPos := 4 }) (fun t =>
      t.host.srcPos == 0 && t.name == dotTxt) = true := by decide +kernel

/-- V44's refusal, by DOPEN (R207). -/
theorem test_dopen_fails :
    after (exec .dopen { State.reset with name := testTxt, host.dst := ⟨true, [testTxt]⟩ }) (fun t =>
      faultIs 1 3 0x0001 t && t.host.outputs == []) = true := by decide +kernel

/-- V2: the pending bit is flushed. -/
theorem test_close_flushes :
    after (exec (.close 0) (writing 0x01 1 [0xFF])) (fun t =>
      t.host.arc == bytes [0xFF, 0x01] && t.status == 0) = true := by decide +kernel

/-- V49. -/
theorem test_close_needs_open : after (exec (.close 1) State.reset) (faultIs 5 0x2004 0x0001) = true := by decide +kernel

/-! ### Steps -/

/-- V30 to V38: the faults of the command word, by one step from reset. -/
theorem test_step_word_faults :
    ([(0x1C000000, 0x0701), (0x84000000, 0x2101), (0x0C000001, 0x0302), (0x19200005, 0x0602), (0x08000005, 0x0203),
      (0x06200000, 0x0103), (0x52060000, 0x1403), (0x5C000000, 0x1703), (0x68080000, 0x1A03)] : List (Nat × Nat)).all
      (fun p => after (step (State.reset.withFetchWord 32 p.1)) (faultIs 5 p.2 0x0001)) = true := by decide +kernel

/-- P1, its first word. -/
theorem test_step_runs_first_word :
    after (step (State.reset.withFetchWord 32 0x6C000000)) (fun t => t.status == 0x0002 && t.host.cmds == []) = true := by
  decide +kernel

/-! ### The archive format of Safety -/

/-- The blocks of V21. -/
def blocksV21 : List Block :=
  [⟨[116, 258, 46, 49, 95, 97, 98, 101, 115, 120, 256, 257], [0, 1, 1, 10],
      bytes [116, 101, 115, 116, 95, 49, 46, 116, 120, 116], bytes [97, 98]⟩,
    ⟨[116, 256, 257, 258, 46, 50, 95, 101, 115, 120], [0, 1, 3, 6],
      bytes [116, 101, 115, 116, 95, 50, 46, 116, 120, 116], []⟩]

/-- The archive of V21. -/
def arcV21 : List Nat :=
  [0x0C, 0xE8, 0x08, 0x74, 0x11, 0xE3, 0x4B, 0x18, 0x31, 0x65, 0xE6, 0xE0, 0x01, 0x18, 0x10, 0x40, 0x80, 0x00, 0x0A,
    0xE8, 0x21, 0xDC, 0x58, 0xB2, 0xEE, 0x15, 0xD0, 0x01, 0x18, 0x50, 0xA0, 0x0B, 0x19, 0x5F, 0xCA, 0xCC, 0xC1, 0x03,
    0x20, 0xC0, 0x00, 0x03, 0xEC, 0x31, 0x5D, 0x3C, 0x0A]

/-- V21: the format apart from the machine gives its 374 bits, and two of padding. -/
theorem test_archive_format :
    (archiveBits blocksV21).map (fun b => b ++ [false, false]) = some (streamBits (bytes arcV21)) := by decide +kernel

/-! ### Witnesses -/

/-- A command that completes has a next state. -/
theorem next_of_after {o : Host.Outcome State Fault Refusal} {p : State → Bool} (h : after o p = true) :
    ∃ t, o = .next t ∧ p t = true := by
  cases o with
  | next t => exact ⟨t, rfl, h⟩
  | fault _ => exact absurd h (by simp [after])
  | refused _ => exact absurd h (by simp [after])

theorem witness_EncodeOfDecode : decode 0x3E040000#32 = .ok (.rdcode 258) := by decide

/-- One word for each format. -/
theorem witness_MustBeZeroBitFaults :
    ([(0x0C000001#32, 0x03FFFFFF#32), (0x2C010000#32, 0x0001FFFF#32), (0x30000080#32, 0x000000FF#32),
        (0x04100000#32, 0x001F0000#32), (0x19200005#32, 0x001FFFFF#32), (0x5E000001#32, 0x03FF0000#32)] :
        List (Word × Word)).all (fun p => decide
      ((queued p.1 State.reset).host.cmds = [p.1] ∧ Ready (queued p.1 State.reset) ∧
        formatZeros (p.1 >>> 26).toNat = some p.2 ∧ p.1 &&& p.2 ≠ 0#32)) = true := by decide +kernel

theorem witness_ReservedOpcodeFaults :
    [0x1C000000#32, 0x84000000#32, 0xFFFFFFFF#32].all (fun w => decide ((queued w State.reset).host.cmds = [w] ∧
      Ready (queued w State.reset) ∧ ((w >>> 26).toNat = 0x07 ∨ 0x21 ≤ (w >>> 26).toNat))) = true ∧
    ([(0x18000000#32, 0x001FFFFF#32), (0x80060000#32, 0x0001FFFF#32)] : List (Word × Word)).all (fun p => decide
      (formatZeros (p.1 >>> 26).toNat = some p.2 ∧ p.1 &&& p.2 = 0#32)) = true := by decide +kernel

theorem witness_StepRunsDecodedCommand :
    (queued 0x6C000000#32 State.reset).host.cmds = [0x6C000000#32] ∧ decode 0x6C000000#32 = .ok .aopenw ∧
      State.reset.host.cmds = [] := by decide +kernel

/-- RESET, the four RDSRs, an RDSR out of range, a malformed RESET, another command, a reserved opcode. -/
theorem witness_FaultedEngineRefuses :
    [0x64000000#32, 0x68000000#32, 0x68020000#32, 0x68040000#32, 0x68060000#32, 0x68080000#32, 0x64000001#32,
        0x6C000000#32, 0x1C000000#32].all (fun w => decide
      ((queued w faulted).host.cmds = [w] ∧ (queued w faulted).flag .faulted = true)) = true := by decide +kernel

theorem witness_FaultEntryRecordsOnce : Ready State.reset ∧ faulted.flag .faulted = true := by decide +kernel

/-- Inputs of each kind: a name as long as NAME_MAX allows, one byte longer, unopenable, none. -/
def fourInputs : State :=
  { State.reset with nameMax := some 8, host.inputs := [.file testTxt nice, .file (testTxt ++ [0#8]) [], .unopenable] }

/-- SOPEN of an open source, of an index past the inputs, and of a name exactly NAME_MAX long; two values with the same
low bits. -/
theorem witness_OperandOutOfRangeFaults :
    (Ready (withStatus 0x0008#16) ∧ (withStatus 0x0008#16).flag .sOpen = true) ∧
    (Ready State.reset ∧ State.reset.flag .sOpen = false ∧ State.reset.host.inputs.length ≤ (0#16).toNat) ∧
    (Ready fourInputs ∧ fourInputs.host.inputs[(0#16).toNat]? = some (.file testTxt nice) ∧ fourInputs.nameFits testTxt) ∧
    (5#16).toNat % 2 ^ (3#5).toNat = (13#16).toNat % 2 ^ (3#5).toNat := by decide +kernel

/-- Each command that has a precondition, and each half of a precondition on two flags. -/
theorem witness_PreconditionFaults :
    (∀ i ∈ [Instr.wbits 0 0, .wint 16 0, .wflush, .rbit, .rbits 16, .rint 1, .rhdr, .scan, .srewind, .build, .rdfreq 258,
        .walk, .canon, .rdlen 0, .rdcode 258, .whdr, .tbuild, .getsym, .wsym 258, .encfile 1, .decfile, .close 0, .close 1,
        .close 2], Ready State.reset ∧ i.wf = true ∧ preOk i State.reset = false) ∧
    ∀ p ∈ ([(.whdr, 0x0002#16), (.whdr, 0x0100#16), (.getsym, 0x0004#16), (.getsym, 0x0400#16), (.wsym 0, 0x0002#16),
        (.wsym 0, 0x0200#16), (.encfile 0, 0x0002#16), (.encfile 0, 0x0008#16), (.decfile, 0x0014#16),
        (.decfile, 0x0000#16), (.compress 1, 0x0002#16), (.compress 65535, 0x0010#16), (.decompress, 0x0004#16),
        (.decompress, 0x0008#16), (.aopenw, 0x0004#16), (.aopenr, 0x0002#16), (.sopen 0, 0x0008#16), (.dopen, 0x0010#16)] :
        List (Instr × BitVec 16)), Ready (withStatus p.2) ∧ p.1.wf = true ∧ preOk p.1 (withStatus p.2) = false := by
  decide +kernel

theorem witness_OnlyResetLeavesFaulted :
    faulted.flag .faulted = true ∧ (∃ t, exec .aopenw faulted = .next t) ∧ Instr.aopenw ≠ .reset := by
  refine ⟨by decide +kernel, ⟨_, rfl⟩, by decide⟩

theorem witness_ArchiveOpens :
    Ready State.reset ∧ State.reset.flag .awOpen = false ∧ State.reset.flag .arOpen = false ∧
      State.reset.host.arcWOk = true ∧ State.reset.host.arcROk = true ∧
      (let s := { State.reset with host.arcWOk := false, host.arcROk := false }
       Ready s ∧ s.flag .awOpen = false ∧ s.flag .arOpen = false ∧ s.host.arcWOk = false ∧ s.host.arcROk = false) := by
  decide +kernel

theorem witness_SopenLoadsName :
    Ready fourInputs ∧ fourInputs.flag .sOpen = false ∧
      fourInputs.host.inputs[(0#16).toNat]? = some (.file testTxt nice) ∧ fourInputs.nameFits testTxt ∧
      fourInputs.host.inputs[(3#16).toNat]? = none ∧ fourInputs.host.inputs[(2#16).toNat]? = some .unopenable ∧
      fourInputs.host.inputs[(1#16).toNat]? = some (.file (testTxt ++ [0#8]) []) ∧ fourInputs.nameMax = some 8 ∧
      8 < (testTxt ++ [0#8]).length := by decide +kernel

theorem witness_SrewindAndDopen :
    (Ready (sourceOpen dotTxt nice) ∧ (sourceOpen dotTxt nice).flag .sOpen = true) ∧
    (Ready State.reset ∧ State.reset.flag .dOpen = false ∧ State.reset.host.dst.ok State.reset.name = true) ∧
    (let s := { State.reset with name := testTxt, host.dst := ⟨true, [testTxt]⟩ }
     Ready s ∧ s.flag .dOpen = false ∧ s.host.dst.ok s.name = false) := by decide +kernel

theorem witness_CloseStreams :
    (∀ s ∈ [writing 0 0 [], writing 0x55 7 []], Ready s ∧ s.flag .awOpen = true ∧ WriterOk s) ∧
    (Ready (reading []) ∧ (reading []).flag .awOpen = false ∧ (reading []).flag .arOpen = true) ∧
    (Ready (withStatus 0x0008#16) ∧ (withStatus 0x0008#16).flag .sOpen = true) ∧
    (Ready (withStatus 0x0010#16) ∧ (withStatus 0x0010#16).flag .dOpen = true) := by decide +kernel

theorem witness_WbitsAndWintAppend :
    Ready (writing 0x55 7 []) ∧ (writing 0x55 7 []).flag .awOpen = true ∧ WriterOk (writing 0x55 7 []) ∧
      (0#5).toNat ≤ 16 ∧ 1 ≤ (1#5).toNat ∧ (1#5).toNat ≤ 16 ∧ (16#5).toNat ≤ 16 := by decide +kernel

theorem witness_WflushPads :
    (∀ s ∈ [writing 0x01 1 [], writing 0x55 7 []], Ready s ∧ s.flag .awOpen = true ∧ 1 ≤ s.wcnt.toNat ∧ WriterOk s) ∧
    (Ready (writing 0 0 []) ∧ (writing 0 0 []).flag .awOpen = true ∧ (writing 0 0 []).wcnt = 0#4) := by decide +kernel

/-- No bit asked for or one, and as many as there are. -/
theorem witness_RbitRbitsRintRead :
    Ready (reading [0xFF, 0x01]) ∧ (reading [0xFF, 0x01]).flag .arOpen = true ∧ ReaderOk (reading [0xFF, 0x01]) ∧
      (16#5).toNat ≤ 16 ∧ (16#5).toNat ≤ (reading [0xFF, 0x01]).pending.length ∧ (1#5).toNat = 1 ∧
      (0#5).toNat ≤ (reading []).pending.length := by decide +kernel

theorem witness_ReadPastEndFaults :
    ∀ p ∈ ([(1#5, []), (9#5, [0xAB]), (16#5, [0xAB])] : List (BitVec 5 × List Nat)),
      Ready (reading p.2) ∧ (reading p.2).flag .arOpen = true ∧ ReaderOk (reading p.2) ∧ p.1.toNat ≤ 16 ∧ (reading p.2).pending.length < p.1.toNat := by decide +kernel

/-- V3: the fields 0 and 511. -/
theorem witness_BitStreamRoundTrip :
    let s := writing 0 0 []
    let u := reading [0x00, 0xFE, 0x03]
    s.wcnt = 0#4 ∧ s.wbuf = 0#8 ∧ u.rcnt = 0#4 ∧ u.rbuf = 0#8 ∧
      (flush (writeAll [(0, 9), (511, 9)] s)).host.arc <+: u.host.arc ∧ u.host.arcPos = s.host.arc.length := by
  decide +kernel

theorem witness_ScanCounts :
    ∀ s ∈ [sourceOpen [] [], sourceOpen testTxt nice], Ready s ∧ s.flag .sOpen = true ∧
      s.name.length + s.srcRest.length < 2 ^ 64 := by decide +kernel

theorem witness_CountAddsOneOrFaults :
    let s := { scanned with freq := freqOf [(0, 2 ^ 64 - 1), (258, 2 ^ 64 - 2)] }
    0 < 259 ∧ 258 < 259 ∧ Ready s ∧ (s.freqAt 0).toNat = 2 ^ 64 - 1 ∧ (s.freqAt 258).toNat < 2 ^ 64 - 1 := by
  decide +kernel

theorem witness_RdfreqAndRdlenRead :
    (Ready scanned ∧ scanned.flag .fValid = true ∧ (258#9).toNat ≤ 258) ∧
      (Ready scenarioC ∧ scenarioC.flag .lValid = true ∧ (0#9).toNat ≤ 258) := by decide +kernel

/-- Three nodes of one frequency. -/
theorem witness_ExtractMinTakesLeast :
    let s := { built with pq := [0#10, 1#10, 2#10] }
    s.pq ≠ [] ∧ s.pq.Nodup := by decide +kernel

/-- Three symbols, and the least number, one. -/
theorem witness_BuildMakesTree :
    ∀ s ∈ [scanned, { scanned with freq := freqOf [(7, 5)] }], Ready s ∧ s.flag .fValid = true ∧ 1 ≤ s.presentCount := by
  decide +kernel

/-- V10's tree, and a tree of one leaf. -/
theorem witness_WalkGivesDepths :
    (Ready built ∧ built.flag .tValid = true ∧ built.ArenaOk 3 ∧ ((built.leaves 517 built.root 0).map Prod.fst).Nodup) ∧
    (let s := { withStatus 0x0060#16 with
      node := tsetPrefix State.reset.node [⟨true, 7, 5, 0, 0⟩], ncnt := 1#10, root := 0#10 }
     Ready s ∧ s.flag .tValid = true ∧ s.ArenaOk 1 ∧ ((s.leaves 517 s.root 0).map Prod.fst).Nodup) := by
  unfold State.ArenaOk
  decide +kernel

theorem witness_HuffmanLengthsAreComplete :
    ∀ s ∈ [scanned, { scanned with freq := freqOf [(7, 5), (258, 1)] }], Ready s ∧ s.flag .fValid = true ∧
      2 ≤ s.presentCount := by decide +kernel

theorem witness_LdlenWrites : Ready scenarioC ∧ (258#9).toNat ≤ 258 ∧ Ready State.reset := by decide +kernel

/-- Scenario C, and one symbol with the greatest length. -/
theorem witness_CanonMakesHeaderAndCodes :
    ∀ s ∈ [scenarioC, loaded [(65, 258)]], Ready s ∧ s.flag .lValid = true ∧ (∀ x < 259, (s.lenAt x).toNat ≤ 258) ∧
      s.alphabet ≠ [] ∧ KraftOk s.usedLengths := by decide +kernel

/-- V15 and V13. -/
theorem witness_CanonFaults :
    (Ready (loaded [(65, 0)]) ∧ (loaded [(65, 0)]).flag .lValid = true ∧ (loaded [(65, 0)]).alphabet = []) ∧
    (let s := loaded [(0, 1), (1, 1), (2, 1)]
     Ready s ∧ s.flag .lValid = true ∧ (∀ x < 259, (s.lenAt x).toNat ≤ 258) ∧ 2 ^ 258 < kraft s.usedLengths) := by
  decide +kernel

/-- The trie's invariant where it is not valid. -/
theorem trieInv_of_not {s : State} (h : s.flag .trValid = false) : TrieInv s :=
  fun h' => absurd (h.symm.trans h') (by decide)

/-- The header's invariant where the codes are not valid. -/
theorem headerInv_header (s : State) (hc : s.flag .cValid = false)
    (h : s.hn.toNat ≤ Config.hnMax ∧ s.maxl.toNat ≤ Config.lmax ∧
      ((s.cntl.toList.take s.maxl.toNat).map BitVec.toNat).sum = s.hn.toNat ∧
      (1 ≤ s.maxl.toNat → 1 ≤ (s.cntlAt s.maxl.toNat).toNat) ∧ ∀ i < s.hn.toNat, (s.ordAt i).toNat < Config.nsym) :
    HeaderInv s :=
  ⟨fun _ => h, fun h => absurd (hc.symm.trans h) (by decide)⟩

theorem witness_CanonicalCodesPrefixFree :
    (Ready scenarioC ∧ TablesInv scenarioC ∧ ∃ t, exec .canon scenarioC = .next t ∧ Ready t) ∧
    (let s := header 0x0104#16 [1, 0, 2, 3] [1, 1, 2]
     Ready s ∧ TablesInv s ∧ ∃ t, exec .tbuild s = .next t ∧ Ready t) := by
  refine ⟨⟨by decide +kernel, ⟨by unfold EncoderInv State.TreeOk State.ArenaOk; decide +kernel,
    headerInv_header _ (by decide +kernel) (by decide +kernel), trieInv_of_not (by decide +kernel)⟩, ?_⟩,
    by decide +kernel, ⟨by unfold EncoderInv State.TreeOk State.ArenaOk; decide +kernel,
    headerInv_header _ (by decide +kernel) (by decide +kernel), trieInv_of_not (by decide +kernel)⟩, ?_⟩
  · obtain ⟨t, h, ht⟩ := next_of_after (o := exec .canon scenarioC) (p := fun t => !t.flag .faulted) (by decide +kernel)
    exact ⟨t, h, by simpa using ht⟩
  · obtain ⟨t, h, ht⟩ := next_of_after (o := exec .tbuild (header 0x0104#16 [1, 0, 2, 3] [1, 1, 2]))
      (p := fun t => !t.flag .faulted) (by decide +kernel)
    exact ⟨t, h, by simpa using ht⟩

/-- A symbol of the alphabet, one listed twice (V19 g), and the greatest symbol, outside it. -/
theorem witness_RdcodeReadsFirstListing :
    (let s := coded 0x0380#16
     Ready s ∧ s.flag .cValid = true ∧ (3#9).toNat ≤ 258 ∧ s.hn.toNat ≤ 511 ∧ 3 < s.hn.toNat ∧ s.ordAt 3 = 3#9 ∧
       (∀ j < 3, s.ordAt j ≠ 3#9) ∧ ∀ i < s.hn.toNat, s.ordAt i ≠ 258#9) ∧
    (let s := header 0x0300#16 [65, 65] [2]
     Ready s ∧ s.flag .cValid = true ∧ (65#9).toNat ≤ 258 ∧ s.hn.toNat ≤ 511 ∧ 0 < s.hn.toNat ∧ s.ordAt 0 = 65#9 ∧
       ∀ j < 0, s.ordAt j ≠ 65#9) := by decide +kernel

theorem witness_WhdrWritesHeader :
    ∀ s ∈ [coded 0x0382#16, header 0x0102#16 [] []], Ready s ∧ s.flag .hValid = true ∧ s.flag .awOpen = true ∧
      WriterOk s ∧ s.hn.toNat ≤ 511 ∧ s.maxl.toNat ≤ 258 := by decide +kernel

/-- V12's header and V19 e's. -/
theorem witness_RhdrReadsHeader :
    ∀ p ∈ [((⟨[1, 0, 2, 3], [1, 1, 2], [], []⟩ : Block), reading (headerC ++ [0x0B])), (⟨[], [], [], []⟩, reading [0, 0])],
      Ready p.2 ∧ p.2.flag .arOpen = true ∧ ReaderOk p.2 ∧ p.1.syms.length ≤ 511 ∧ (∀ x ∈ p.1.syms, x ≤ 258) ∧
        p.1.counts.length ≤ 258 ∧ p.1.counts.sum = p.1.syms.length ∧ p.1.counts.getLast? ≠ some 0 ∧
        p.2.pending = p.1.headerBits ++ p.2.pending.drop p.1.headerBits.length := by decide +kernel

/-- V19 a, b and f. -/
theorem witness_RhdrRejectsMalformed :
    (let s := reading [0x01, 0x06, 0x02]
     let fields := ([1, 259].flatMap fun v => valueBits v 9)
     Ready s ∧ s.flag .arOpen = true ∧ ReaderOk s ∧ 1 ≤ 511 ∧ (∀ x ∈ ([] : List Nat), x ≤ 258) ∧ 258 < 259 ∧
       259 ≤ 511 ∧ ([] : List Nat).length < 1 ∧
       s.pending = fields ++ s.pending.drop fields.length) ∧
    (let s := reading [0x02, 0x00, 0x04, 0x18, 0x00]
     let fields := ([2, 0, 1, 3].flatMap fun v => valueBits v 9)
     Ready s ∧ s.flag .arOpen = true ∧ ReaderOk s ∧ 2 ≤ 511 ∧ (∀ x ∈ [0, 1], x ≤ 258) ∧ [0, 1].length = 2 ∧
       ([] : List Nat).length < 258 ∧ ([] : List Nat).sum < 2 ∧ 2 < ([] : List Nat).sum + 3 ∧ 3 ≤ 511 ∧
       s.pending = fields ++ s.pending.drop fields.length) ∧
    (let s := reading ([0x01, 0x82] ++ List.replicate 291 0)
     let fields := ((1 :: ([65] ++ List.replicate 258 0)).flatMap fun v => valueBits v 9)
     Ready s ∧ s.flag .arOpen = true ∧ ReaderOk s ∧ 1 ≤ 511 ∧ (∀ x ∈ [65], x ≤ 258) ∧ [65].length = 1 ∧
       (List.replicate 258 0).length = 258 ∧ (List.replicate 258 0).sum < 1 ∧
       s.pending = fields ++ s.pending.drop fields.length) := by decide +kernel

/-- No byte, a byte of the size, V12's header cut in its second symbol and in its second count. -/
theorem witness_RhdrRejectsMalformed_cut :
    (∀ s ∈ [reading [], reading [0x04]], Ready s ∧ s.flag .arOpen = true ∧ ReaderOk s ∧ s.pending.length < 9) ∧
    (let s := reading (headerC.take 3)
     let fields := ([4, 1].flatMap fun v => valueBits v 9)
     Ready s ∧ s.flag .arOpen = true ∧ ReaderOk s ∧ 4 ≤ 511 ∧ (∀ x ∈ [1], x ≤ 258) ∧ [1].length < 4 ∧
       (s.pending.drop fields.length).length < 9 ∧ s.pending = fields ++ s.pending.drop fields.length) ∧
    (let s := reading (headerC.take 7)
     let fields := ([4, 1, 0, 2, 3, 1].flatMap fun v => valueBits v 9)
     Ready s ∧ s.flag .arOpen = true ∧ ReaderOk s ∧ 4 ≤ 511 ∧ (∀ x ∈ [1, 0, 2, 3], x ≤ 258) ∧ [1, 0, 2, 3].length = 4 ∧
       [1].length < 258 ∧ [1].sum < 4 ∧ (s.pending.drop fields.length).length < 9 ∧
       s.pending = fields ++ s.pending.drop fields.length) := by decide +kernel

/-- V17's header, V19 e's empty one. -/
theorem witness_TbuildMakesTrie :
    ∀ s ∈ [header 0x0104#16 [1, 0, 2, 3] [1, 1, 2], header 0x0104#16 [] []], Ready s ∧ s.flag .hValid = true ∧ HeaderInv s ∧
      KraftOk (lengthsFrom 1 ((s.cntl.toList.take s.maxl.toNat).map BitVec.toNat)) := by
  have h : ∀ s ∈ [header 0x0104#16 [1, 0, 2, 3] [1, 1, 2], header 0x0104#16 [] []], s.flag .cValid = false ∧
      s.hn.toNat ≤ Config.hnMax ∧ s.maxl.toNat ≤ Config.lmax ∧
      ((s.cntl.toList.take s.maxl.toNat).map BitVec.toNat).sum = s.hn.toNat ∧
      (1 ≤ s.maxl.toNat → 1 ≤ (s.cntlAt s.maxl.toNat).toNat) ∧
      (∀ i < s.hn.toNat, (s.ordAt i).toNat < Config.nsym) ∧ Ready s ∧ s.flag .hValid = true ∧
      KraftOk (lengthsFrom 1 ((s.cntl.toList.take s.maxl.toNat).map BitVec.toNat)) := by decide +kernel
  intro s hs
  obtain ⟨h1, h2, h3, h4, h5, h6, h7, h8, h9⟩ := h s hs
  exact ⟨h7, h8, headerInv_header s h1 ⟨h2, h3, h4, h5, h6⟩, h9⟩

/-- V19 c. -/
theorem witness_TbuildRejectsOverfull :
    let s := header 0x0104#16 [0, 1, 2] [3]
    Ready s ∧ s.flag .hValid = true ∧ HeaderInv s ∧
      2 ^ 258 < kraft (lengthsFrom 1 ((s.cntl.toList.take s.maxl.toNat).map BitVec.toNat)) :=
  ⟨by decide +kernel, by decide +kernel,
    headerInv_header _ (by decide +kernel) (by decide +kernel), by decide +kernel⟩

theorem witness_GetsymDecodesPath :
    Ready decoding ∧ decoding.flag .trValid = true ∧ decoding.flag .arOpen = true ∧ ReaderOk decoding ∧
      decoding.tn.proper = true ∧ decoding.tn.lookup [true, true, false] = some 2#9 ∧
      decoding.pending = [true, true, false] ++ [true, false, false, false, false] := by decide +kernel

/-- V19 e, V19 d, and the end of the archive inside the trie of V17. -/
theorem witness_GetsymFaults :
    (let s := { reading [0xFF] with status := 0x0704#16, tn := .node .nil .nil none }
     Ready s ∧ s.flag .trValid = true ∧ s.flag .arOpen = true ∧ ReaderOk s ∧ s.tn = .node .nil .nil none) ∧
    (let s := { reading [0x01] with status := 0x0704#16, tn := .node (leafOf 65) .nil none }
     Ready s ∧ s.flag .trValid = true ∧ s.flag .arOpen = true ∧ ReaderOk s ∧ s.tn.proper = true ∧
       s.tn.subtrie [] = some s.tn ∧ (s.tn.subtrie [false]).isSome = true ∧
       s.tn.subtrie [true] = none ∧ s.pending = [] ++ true :: List.replicate 7 false) ∧
    (let s := { decoding with host.arcPos := 1, rbuf := 0x03, rcnt := 2 }
     let c := Trie.node (leafOf 2) (leafOf 3) none
     Ready s ∧ s.flag .trValid = true ∧ s.flag .arOpen = true ∧ ReaderOk s ∧ s.tn.proper = true ∧
       s.tn.subtrie [true, true] = some c ∧ (c.subtrie [false]).isSome = true ∧
       s.pending = [true, true]) := by decide +kernel

theorem witness_WsymWritesCode :
    let s := { coded 0x0382#16 with wbuf := 0x55, wcnt := 7 }
    Ready s ∧ s.flag .cValid = true ∧ s.flag .awOpen = true ∧ WriterOk s ∧ (258#9).toNat ≤ 258 ∧ s.hn.toNat ≤ 511 ∧
      3 < s.hn.toNat ∧ s.ordAt 3 = 3#9 ∧ (∀ j < 3, s.ordAt j ≠ 3#9) ∧ ∀ i < s.hn.toNat, s.ordAt i ≠ 258#9 := by
  decide +kernel

theorem witness_EncfileWritesBlock :
    ∀ s ∈ [{ sourceOpen testTxt nice with status := 0x000A#16 }, { sourceOpen [] [] with status := 0x000A#16 }],
      Ready s ∧ s.flag .awOpen = true ∧ s.flag .sOpen = true ∧ WriterOk s ∧ s.host.srcPos = 0 ∧
        s.name.length + s.srcContent.length < 2 ^ 64 ∧ (1#9).toNat ≤ 1 ∧ (0#9).toNat ≤ 1 := by decide +kernel

/-- V22's block, with NAME_MAX at the name's length; and its bits with the trailer 257. -/
theorem witness_DecfileReadsBlock :
    let arc257 := [0x06, 0xE8, 0x08, 0x74, 0x81, 0x07, 0x60, 0x40, 0x00, 0x02, 0x08, 0x84, 0xB2, 0x03]
    ∀ p ∈ [(258, { reading arcV22 with nameMax := some 4 }), (257, reading arc257)],
      let s := p.2
      let bits := (blockV22.bits p.1).getD []
      Ready s ∧ s.flag .arOpen = true ∧ s.flag .dOpen = false ∧ ReaderOk s ∧ blockV22.HeaderOk ∧ GoodName blockV22.name ∧
        s.nameFits blockV22.name ∧ s.host.dst.ok blockV22.name = true ∧ blockV22.bits p.1 = some bits ∧
        s.pending = bits ++ s.pending.drop bits.length := by decide +kernel

/-- Symbols below 256, 256 and 257, each next in the archive. -/
theorem witness_FramingViolationsFault :
    let t := Trie.node (leafOf 46) (.node (leafOf 256) (leafOf 257) none) none
    ∀ p ∈ [([false], 46, 0x00#8), ([true, false], 256, 0x01#8), ([true, true], 257, 0x03#8)],
      let s := { reading [] with tn := t, nameMax := some 0, rbuf := p.2.2, rcnt := BitVec.ofNat 4 p.1.length }
      Ready s ∧ ReaderOk s ∧ s.tn.proper = true ∧ s.tn.lookup p.1 = some (BitVec.ofNat 9 p.2.1) ∧ s.pending = p.1 ++ [] ∧
        (p.2.1 < 256 → s.nameMax = some s.name.length) := by decide +kernel

/-- The files of V20 and V22. -/
def twoFiles : State := { State.reset with host.inputs := [.file testTxt nice, .file dotTxt []] }

/-- All files open; the archive does not; a third input is not there, or unopenable, or has too long a name; nor is the
first. -/
theorem witness_CompressWritesArchive :
    let files := [(testTxt, nice), (dotTxt, [])]
    let three := fun i => { twoFiles with nameMax := some 8, host.inputs := twoFiles.host.inputs ++ [i] }
    (∀ s ∈ [twoFiles, three .unopenable, three (.file (testTxt ++ [0#8]) [])], Ready s ∧ preOk (.compress 2) s = true ∧
      preOk (.compress 3) s = true ∧ s.host.arcWOk = true ∧
      s.host.inputs.take files.length = files.map (fun f => .file f.1 f.2) ∧
      ∀ f ∈ files, s.nameFits f.1 ∧ f.1.length + f.2.length < 2 ^ 64) ∧
    files.length = (2#16).toNat ∧ files.length < (3#16).toNat ∧ twoFiles.host.inputs[2]? = none ∧
    (three .unopenable).host.inputs[2]? = some .unopenable ∧
    ((three (.file (testTxt ++ [0#8]) [])).host.inputs[2]? = some (.file (testTxt ++ [0#8]) []) ∧
      8 < (testTxt ++ [0#8]).length) ∧
    (Ready State.reset ∧ preOk (.compress 1) State.reset = true ∧ State.reset.host.arcWOk = true ∧
      State.reset.host.inputs[0]? = none) ∧
    (let s := { twoFiles with host.arcWOk := false }
     Ready s ∧ preOk (.compress 2) s = true ∧ s.host.arcWOk = false) := by decide +kernel

/-- V21, with two bits after the last block; V21's first block alone; no block; an archive that does not open. -/
theorem witness_DecompressReadsArchive :
    let s := { State.reset with host.arc := bytes arcV21 }
    let bits := (archiveBits blocksV21).getD []
    let first := (openBits (blocksV21.take 1)).getD []
    Ready s ∧ preOk .decompress s = true ∧ s.host.arcROk = true ∧
      (∀ b ∈ blocksV21, b.HeaderOk ∧ GoodName b.name ∧ s.nameFits b.name ∧ s.host.dst.ok b.name = true) ∧
      archiveBits blocksV21 = some bits ∧ streamBits s.host.arc = bits ++ [false, false] ∧
      openBits (blocksV21.take 1) = some first ∧
      streamBits s.host.arc = first ++ (streamBits s.host.arc).drop first.length ∧ openBits [] = some [] ∧
      (let u := { s with host.arcROk := false }; Ready u ∧ preOk .decompress u = true ∧ u.host.arcROk = false) := by
  decide +kernel

theorem witness_CompressDecompressRoundTrip :
    let s := twoFiles
    let files := [(testTxt, nice), (dotTxt, [])]
    Ready s ∧ preOk (.compress 2) s = true ∧ s.host.arcWOk = true ∧ s.host.arcROk = true ∧ s.host.outputs = [] ∧
      files ≠ [] ∧ files.length = (2#16).toNat ∧
      s.host.inputs.take (2#16).toNat = files.map (fun f => .file f.1 f.2) ∧
      ∀ f ∈ files, GoodName f.1 ∧ s.nameFits f.1 ∧ s.host.dst.ok f.1 = true ∧
        f.1.length + f.2.length < 2 ^ 64 - 1 := by decide +kernel

/-- In the middle of a run: an input open, codes made, a bit pending, a WINT 9, 511 to come. -/
def working : State :=
  queued 0x092001FF#32 { coded 0x038A#16 with
    wbuf := 0x01, wcnt := 1, name := testTxt, host.arc := bytes [0xFF], host.inputs := [.file testTxt nice],
    host.srcPos := 4 }

theorem working_buffers : BuffersInv working := by unfold BuffersInv; decide +kernel

theorem working_status : StatusInv working := by unfold StatusInv; decide +kernel

theorem working_streams : StreamsInv working := by unfold StreamsInv; decide +kernel

/-- The codes of V12 meet the header's invariant, whatever else the state holds. -/
theorem headerInv_coded {s : State} (hn : s.hn.toNat = 4)
    (hh : s.maxl.toNat ≤ Config.lmax ∧ ((s.cntl.toList.take s.maxl.toNat).map BitVec.toNat).sum = 4 ∧
      1 ≤ (s.cntlAt s.maxl.toNat).toNat ∧ ∀ i < 4, (s.ordAt i).toNat < Config.nsym)
    (hv : s.flag .hValid = true)
    (hc : ∀ i < 4, 1 ≤ (s.clAt i).toNat ∧ (s.clAt i).toNat ≤ Config.lmax ∧ (s.ccAt i).toNat < 2 ^ (s.clAt i).toNat)
    (hs : ∀ i < 3, (s.clAt i).toNat ≤ (s.clAt (i + 1)).toNat) : HeaderInv s := by
  refine ⟨fun _ => ⟨by rw [hn]; decide, hh.1, hh.2.1.trans hn.symm, fun _ => hh.2.2.1, ?_⟩, fun _ => ⟨hv, ?_, ?_⟩⟩
  · rw [hn]; exact hh.2.2.2
  · rw [hn]; exact hc
  · intro i hi; exact hs i (by omega)

theorem working_tables : TablesInv working :=
  ⟨by unfold EncoderInv State.TreeOk State.ArenaOk; decide +kernel,
    headerInv_coded (by decide +kernel) (by decide +kernel) (by decide +kernel) (by decide +kernel) (by decide +kernel),
    trieInv_of_not (by decide +kernel)⟩

/-- The paths of V17's trie. -/
theorem trieC_lookup (p : List Bool) (x : Sym) : trieC.lookup p = some x ↔
    (p = [false] ∧ x = 1) ∨ (p = [true, false] ∧ x = 0) ∨ (p = [true, true, false] ∧ x = 2) ∨
      (p = [true, true, true] ∧ x = 3) := by
  rcases p with _ | ⟨a, _ | ⟨b, _ | ⟨c, _ | ⟨d, p⟩⟩⟩⟩
  all_goals try cases a
  all_goals try cases b
  all_goals try cases c
  all_goals simp [trieC, leafOf, Trie.lookup]
  all_goals exact eq_comm

/-- V17, with its first GETSYM to come: codes and trie valid. -/
theorem decoding_tables : TablesInv (queued 0x4C000000#32 decoding) := by
  refine ⟨by unfold EncoderInv State.TreeOk State.ArenaOk; decide +kernel,
    headerInv_coded (by decide +kernel) (by decide +kernel) (by decide +kernel) (by decide +kernel) (by decide +kernel),
    fun _ => ⟨by decide +kernel, by decide +kernel, by decide +kernel, .inl (by decide +kernel), fun p x => ?_⟩⟩
  have hn : (queued 0x4C000000#32 decoding).hn.toNat = 4 := by decide +kernel
  have h : (List.range 4).map (queued 0x4C000000#32 decoding).codeAt =
      [[false], [true, false], [true, true, false], [true, true, true]] ∧
      (List.range 4).map (queued 0x4C000000#32 decoding).ordAt = [1, 0, 2, 3] := by decide +kernel
  simp only [List.range, List.range.loop, List.map_cons, List.map_nil, List.cons.injEq, and_true] at h
  obtain ⟨⟨c0, c1, c2, c3⟩, o0, o1, o2, o3⟩ := h
  rw [hn]
  refine (trieC_lookup p x).trans ⟨?_, ?_⟩
  · rintro (⟨rfl, rfl⟩ | ⟨rfl, rfl⟩ | ⟨rfl, rfl⟩ | ⟨rfl, rfl⟩)
    · exact ⟨0, by decide, c0.symm, o0.symm⟩
    · exact ⟨1, by decide, c1.symm, o1.symm⟩
    · exact ⟨2, by decide, c2.symm, o2.symm⟩
    · exact ⟨3, by decide, c3.symm, o3.symm⟩
  · rintro ⟨i, hi, rfl, rfl⟩
    obtain rfl | rfl | rfl | rfl : i = 0 ∨ i = 1 ∨ i = 2 ∨ i = 3 := by omega
    · exact .inl ⟨c0, o0⟩
    · exact .inr (.inl ⟨c1, o1⟩)
    · exact .inr (.inr (.inl ⟨c2, o2⟩))
    · exact .inr (.inr (.inr ⟨c3, o3⟩))

theorem working_steps : ∃ t, step working = .next t :=
  let ⟨t, h, _⟩ := next_of_after (o := step working) (p := fun _ => true) (by decide +kernel)
  ⟨t, h⟩

theorem witness_StepKeepsBuffers : BuffersInv working ∧ ∃ t, step working = .next t := ⟨working_buffers, working_steps⟩

theorem witness_StepKeepsStatus : StatusInv working ∧ ∃ t, step working = .next t := ⟨working_status, working_steps⟩

theorem witness_StepKeepsStreams : StreamsInv working ∧ ∃ t, step working = .next t := ⟨working_streams, working_steps⟩

/-- The codes of `working`, V10's tree with a WALK to come, and V17's trie with a GETSYM to come. -/
theorem witness_StepKeepsTables :
    (TablesInv working ∧ ∃ t, step working = .next t) ∧
      (TablesInv (queued 0x28000000#32 built) ∧ ∃ t, step (queued 0x28000000#32 built) = .next t) ∧
      TablesInv (queued 0x4C000000#32 decoding) ∧ ∃ t, step (queued 0x4C000000#32 decoding) = .next t := by
  refine ⟨⟨working_tables, working_steps⟩, ⟨⟨by unfold EncoderInv State.TreeOk State.ArenaOk; decide +kernel,
    headerInv_header _ (by decide +kernel) (by decide +kernel), trieInv_of_not (by decide +kernel)⟩, ?_⟩,
    decoding_tables, ?_⟩
  · obtain ⟨t, h, _⟩ := next_of_after (o := step (queued 0x28000000#32 built)) (p := fun _ => true) (by decide +kernel)
    exact ⟨t, h⟩
  · obtain ⟨t, h, _⟩ := next_of_after (o := step (queued 0x4C000000#32 decoding)) (p := fun _ => true) (by decide +kernel)
    exact ⟨t, h⟩

theorem witness_StepNeverStops : Inv working := ⟨working_buffers, working_status, working_tables, working_streams⟩

theorem witness_StreamsAreAppendOnly :
    ∃ t, exec (.wint 9 511) { working with host.outputs := [(dotTxt, nice)] } = .next t ∧
      (decide (0 < { working with host.outputs := [(dotTxt, nice)] }.host.outputs.length ∧ 0 < t.host.outputs.length)) = true :=
  next_of_after (by decide +kernel)

theorem witness_HostParametersFixed : ∃ t, exec .aopenw twoFiles = .next t := ⟨_, rfl⟩

theorem witness_ResultRegistersFrame : ∃ t, exec (.rdsr 0) faulted = .next t := ⟨_, rfl⟩

/-- V39, and a refused open. -/
theorem witness_FaultsOfEachCommand :
    (Ready State.reset ∧ ∃ t, exec .scan State.reset = .next t ∧ t.flag .faulted = true) ∧
      Ready { State.reset with host.arcWOk := false } ∧
      ∃ t, exec .aopenw { State.reset with host.arcWOk := false } = .next t ∧ t.flag .faulted = true := by
  refine ⟨⟨by decide +kernel, ?_⟩, by decide +kernel, ?_⟩
  · exact next_of_after (o := exec .scan State.reset) (p := fun t => t.flag .faulted) (by decide +kernel)
  · exact next_of_after (o := exec .aopenw { State.reset with host.arcWOk := false }) (p := fun t => t.flag .faulted)
      (by decide +kernel)

/-- V20's block with the content `NIC`, whose bits V20's archive begins with. -/
def blockV26 : Block :=
  ⟨[116, 258, 46, 67, 69, 73, 78, 101, 115, 120, 256, 257], [0, 1, 1, 10], testTxt, bytes [78, 73, 67]⟩

/-- V20's archive, cut inside the code of `E`. -/
def arcV26 : List Nat :=
  [0x0C, 0xE8, 0x08, 0x74, 0x31, 0xA4, 0x48, 0x12, 0x27, 0x65, 0xE6, 0xE0, 0x01, 0x18, 0x10, 0x40, 0x80, 0x00, 0x0A,
    0xE8, 0xC1, 0x58, 0x2A, 0x3D]

/-- What the clauses of DecfileFaults on a header and symbols ask, with the first bits pending. -/
def readsSymbols (b : Block) (xs : List Nat) (s : State) : Bool :=
  let bits := (b.symBits xs).getD []
  decide (Ready s ∧ s.flag .arOpen = true ∧ s.flag .dOpen = false ∧ ReaderOk s ∧ b.HeaderOk ∧ s.nameFits b.name ∧
    b.symBits xs = some bits ∧ s.pending = b.headerBits ++ (bits ++ s.pending.drop (b.headerBits.length + bits.length)))

/-- V19 a and c: a fault of RHDR, and one of TBUILD after it. -/
theorem witness_DecfileFaults_header :
    (let s := reading [0x01, 0x06, 0x02]
     Ready s ∧ s.flag .arOpen = true ∧ s.flag .dOpen = false ∧ ∃ t, exec .rhdr s = .next t ∧ t.flag .faulted = true) ∧
    (let s := reading [0x03, 0x00, 0x04, 0x10, 0x30, 0x00]
     Ready s ∧ s.flag .arOpen = true ∧ s.flag .dOpen = false ∧ ∃ u, exec .rhdr s = .next u ∧ Ready u ∧
       ∃ t, exec .tbuild u = .next t ∧ t.flag .faulted = true) := by
  refine ⟨⟨by decide +kernel, by decide +kernel, by decide +kernel, next_of_after (by decide +kernel)⟩,
    by decide +kernel, by decide +kernel, by decide +kernel, ?_⟩
  obtain ⟨u, h, hu⟩ := next_of_after (o := exec .rhdr (reading [0x03, 0x00, 0x04, 0x10, 0x30, 0x00]))
    (p := fun u => !u.flag .faulted && after (exec .tbuild u) (fun t => t.flag .faulted)) (by decide +kernel)
  simp only [Bool.and_eq_true, Bool.not_eq_true'] at hu
  exact ⟨u, h, hu.1, next_of_after hu.2⟩

/-- V23 (an empty name, 256), V22 with NAME_MAX 3, V44, the three of V27, V26. -/
theorem witness_DecfileFaults_symbols :
    (NameOpen [] ∧ readsSymbols ⟨[258, 256, 257], [1, 2], [], []⟩ [256]
      (reading [0x03, 0x04, 0x02, 0x0C, 0x18, 0x40, 0x40, 0x00]) = true) ∧
    (NameOpen (bytes [46, 116, 120]) ∧
      readsSymbols { blockV22 with name := bytes [46, 116, 120] } [46, 116, 120, 116]
        { reading arcV22 with nameMax := some 3 } = true) ∧
    (GoodName testTxt ∧ (DstPolicy.mk true [testTxt]).ok testTxt = false ∧
      readsSymbols blockV26 (testTxt.map BitVec.toNat) { reading arcV26 with host.dst := ⟨true, [testTxt]⟩ } = true) ∧
    (GoodName dotTxt ∧ State.reset.host.dst.ok dotTxt = true ∧
      readsSymbols blockV22 [46, 116, 120, 116, 257] (reading (arcV22.take 12 ++ [0x72])) = true ∧
      readsSymbols blockV22 [46, 116, 120, 116, 256, 256] (reading (arcV22.take 12 ++ [0xB2, 0x01])) = true ∧
      readsSymbols blockV22 [46, 116, 120, 116, 256, 46] (reading (arcV22.take 12 ++ [0xB2, 0x00])) = true) ∧
    (State.reset.host.dst.ok testTxt = true ∧ blockV26.code 69 = some [true, false, false, false] ∧
      [true, false, false] <+: [true, false, false, false] ∧
      readsSymbols blockV26 ((testTxt ++ bytes [78, 73, 67]).map BitVec.toNat) (reading arcV26) = true ∧
      (reading arcV26).pending.drop 189 = [true, false, false]) := by decide +kernel

/-- Exactly these bits pending: the odd ones first, in RBUF. -/
def holding (bits : List Bool) : State :=
  let k := bits.length % 8
  { reading [] with
    rbuf := BitVec.ofNat 8 (bitsValue (bits.take k)), rcnt := BitVec.ofNat 4 k
    host.arc := (writeBitList (writing 0 0 []) (bits.drop k)).host.arc }

/-- Six symbols of length 4: an incomplete code, `01` has one child only. -/
def blockIncomplete (name : List Byte) : Block := ⟨[46, 116, 120, 256, 257, 258], [0, 0, 0, 6], name, []⟩

/-- A block's header, symbols and some bits after them pending. -/
def holdingSymbols (b : Block) (xs : List Nat) (left : List Bool) : State :=
  holding (b.headerBits ++ ((b.symBits xs).getD [] ++ left))

/-- Inside the name, the content, the trailer: no bit, or bits inside a code, then the end or a bit to no child. -/
theorem witness_DecfileFaults_cut :
    (∀ name ∈ [dotTxt.take 1, dotTxt], (blockIncomplete name).InsideCode [] ∧ (blockIncomplete name).InsideCode [false, true] ∧
      ∀ code ∈ (blockIncomplete name).codes, ¬ ([false, true] ++ [true]) <+: code) ∧
    NameOpen (dotTxt.take 1) ∧ GoodName dotTxt ∧ State.reset.host.dst.ok dotTxt = true ∧
    ∀ p ∈ [(dotTxt.take 1, [46]), (dotTxt, [46, 116, 120, 116]), (dotTxt, [46, 116, 120, 116, 256])],
      ∀ left ∈ [[], [false, true], [false, true, true, false]],
        readsSymbols (blockIncomplete p.1) p.2 (holdingSymbols (blockIncomplete p.1) p.2 left) = true ∧
          (holdingSymbols (blockIncomplete p.1) p.2 left).pending.drop
            ((blockIncomplete p.1).headerBits.length + 4 * p.2.length) = left := by decide +kernel

/-- V19 e: an empty header. -/
theorem witness_DecfileFaults_empty :
    readsSymbols ⟨[], [], [], []⟩ [] (reading [0x00, 0x00]) = true ∧ (Block.mk [] [] [] []).symBits [] = some [] := by
  decide +kernel

end Sys2Proof.Tests
end

section
/-! The state after power-on reset (spec R39): what each table reads, and the statement of the reset table. -/

namespace Sys2Proof.Machine

/-- A table filled with its own default reads it at every index, past the end too. -/
theorem tget_replicate_default {α : Type} (n i : Nat) (d : α) : tget (Vector.replicate n d) i d = d := by
  rcases Nat.lt_or_ge i n with h | h
  · exact tget_replicate d i h d
  · exact tget_of_le _ h d

@[simp] theorem State.reset_freqAt (x : Nat) : State.reset.freqAt x = 0#64 := tget_replicate_default 259 x _
@[simp] theorem State.reset_nodeAt (h : Handle) : State.reset.nodeAt h = Node.zero := tget_replicate_default 517 h.toNat _
@[simp] theorem State.reset_lenAt (x : Nat) : State.reset.lenAt x = 0#9 := tget_replicate_default 259 x _
@[simp] theorem State.reset_ordAt (i : Nat) : State.reset.ordAt i = 0#9 := tget_replicate_default 511 i _
@[simp] theorem State.reset_cntlAt (L : Nat) : State.reset.cntlAt L = 0#9 := tget_replicate_default 258 (L - 1) _
@[simp] theorem State.reset_clAt (i : Nat) : State.reset.clAt i = 0#9 := tget_replicate_default 511 i _
@[simp] theorem State.reset_ccAt (i : Nat) : State.reset.ccAt i = 0#258 := tget_replicate_default 511 i _

/-- Settles O11: the registers are `State.reset`'s own fields, and each table is filled with the value it reads. -/
theorem resetValues : Obligations.ResetValues := by
  unfold Obligations.ResetValues
  exact ⟨rfl, rfl, rfl, rfl, rfl, rfl, rfl, rfl, rfl, fun x _ => State.reset_freqAt x, fun _ _ => State.reset_nodeAt _,
    rfl, rfl, rfl, fun x _ => State.reset_lenAt x, rfl, fun i _ => State.reset_ordAt i,
    fun L _ _ => State.reset_cntlAt L, rfl, fun i _ => ⟨State.reset_clAt i, State.reset_ccAt i⟩, rfl, rfl, rfl, rfl, rfl⟩

end Sys2Proof.Machine
end

section
/-! Words with a must-be-zero bit set (spec R86): the masks of `formatZeros` are the ones the decoder tests. -/

namespace Sys2Proof.Machine

/-- The opcode read by a shift is the opcode read by the field (R83). -/
theorem toNat_ushiftRight_opcode (w : Word) : (w >>> 26).toNat = (opField w).toNat := by
  simp only [opField, BitVec.extractLsb'_toNat, BitVec.toNat_ushiftRight]
  have := w.isLt
  omega

theorem setWidth_ushiftRight_opcode (w : Word) : (w >>> 26).setWidth 6 = opField w := rfl

/-- `formatZeros` lists no mask for a reserved opcode (R85). -/
theorem opcode_defined_of_formatZeros {op : Nat} {zeros : Word} (h : formatZeros op = some zeros) :
    op ≠ 0x07 ∧ op ≤ 0x20 := by
  by_contra hr
  have hreserved : op = 0x07 ∨ 0x21 ≤ op := by omega
  rw [formatZeros, if_neg (by omega), if_neg (by omega), if_neg (by omega), if_neg (by omega), if_neg (by omega),
    if_pos hreserved] at h
  cases h

/-- The decoder tests a word of a defined opcode against the mask `formatZeros` lists for it, and against no other. -/
theorem decode_eq_checkZero_of_formatZeros {w zeros : Word} (h : formatZeros (opField w).toNat = some zeros) :
    ∃ i, decode w = checkZero w zeros i := by
  have hdef := opcode_defined_of_formatZeros h
  unfold decode
  split
  case h_33 =>
    simp only [imp_false] at *
    omega
  all_goals
    rename_i hop
    rw [hop] at h
    cases h
    exact ⟨_, rfl⟩

theorem checkZero_of_ne {w mbz : Word} (h : w &&& mbz ≠ 0#32) (i : Instr) :
    checkZero w mbz i = .mustBeZero (opField w) := if_neg h

/-- A step on a word the decoder rejects for its must-be-zero bits (R86, R91 step 2). -/
theorem step_of_mustBeZero {w : Word} {rest : List Word} {s : State} {op : Opcode} (hc : s.host.cmds = w :: rest)
    (hd : decode w = .mustBeZero op) :
    step s = .next ({ s with host.cmds := rest }.raise .illegalOperation (illegalInfo op 2#4)) := by
  have hf : fetch s = some (w, { s with host.cmds := rest }) := by rw [fetch, hc]
  simp only [step, hf, hd, rejectWord]

/-- Settles O4: for a defined opcode the decoder's mask is the one `formatZeros` lists, so the word is rejected. -/
theorem mustBeZeroBitFaults : Obligations.MustBeZeroBitFaults := by
  unfold Obligations.MustBeZeroBitFaults
  intro w zeros rest s hc _ hz hw
  rw [toNat_ushiftRight_opcode] at hz
  obtain ⟨i, hi⟩ := decode_eq_checkZero_of_formatZeros hz
  rw [setWidth_ushiftRight_opcode]
  exact step_of_mustBeZero hc (hi.trans (checkZero_of_ne hw i))

end Sys2Proof.Machine
end

section
/-! Where a stretch of pseudocode that starts without a fault can end (spec R225, R226): completed, still without a fault,
or with a fault whose FINFO says which it was. -/

namespace Sys2Proof.Machine

variable {α β : Type} {D D' R R' : State → Prop}

/-- Every completed end of the stretch has `D`, and every faulted end has `R`. (`Run.EndsIn` asks the same of both.) It is
inductive so that using it never runs the stretch. -/
inductive Run.Ends (D R : State → Prop) : Run α → Prop where
  | done {a : α} {t : State} (h : D t) : Run.Ends D R (.done a t)
  | raised {t : State} (h : R t) : Run.Ends D R (.raised t)
  | stuck {f : Fault} : Run.Ends D R (.stuck f)

theorem Run.Ends.raise {k : FaultKind} {info : BitVec 16} {s : State} (h : R (s.raise k info)) :
    (Run.raise k info s : Run α).Ends D R := .raised h

theorem Run.Ends.imp {r : Run α} (h : r.Ends D R) (hD : ∀ t, D t → D' t) (hR : ∀ t, R t → R' t) : r.Ends D' R' := by
  cases h with
  | done h => exact .done (hD _ h)
  | raised h => exact .raised (hR _ h)
  | stuck => exact .stuck

/-- A sequence completes where its second part does, and faults where either part does. -/
theorem Run.Ends.bind {r : Run α} {k : α → State → Run β} (h : r.Ends D R) (hk : ∀ a t, D t → (k a t).Ends D' R) :
    (r.bind k).Ends D' R := by
  cases h with
  | done h => exact hk _ _ h
  | raised h => exact .raised h
  | stuck => exact .stuck

theorem Run.Ends.andThen {r : Run Unit} {k : State → Run β} (h : r.Ends D R) (hk : ∀ t, D t → (k t).Ends D' R) :
    (r.andThen k).Ends D' R := h.bind fun _ => hk

/-! ### Sub-codes -/

/-- The sub-code field FINFO[3:0] (R221). -/
def subCode (info : BitVec 16) : BitVec 4 := info.setWidth 4

@[simp] theorem subCode_illegalInfo (op : Opcode) (sub : BitVec 4) : subCode (illegalInfo op sub) = sub := by
  ext i hi
  simp [subCode, illegalInfo]

@[simp] theorem subCode_overflowInfo (x : Nat) : subCode (overflowInfo x) = 0#4 := by
  ext i hi
  simp [subCode, overflowInfo]

theorem State.raise_finfo_of_ready {s : State} (h : Ready s) (k : FaultKind) (info : BitVec 16) :
    (s.raise k info).finfo = info := by rw [State.raise_of_ready h]

/-- A state without a fault is none that fault entry leaves (R225). -/
theorem State.ne_raise_of_ready {t : State} (h : Ready t) (s : State) (k : FaultKind) (info : BitVec 16) :
    t ≠ s.raise k info := by
  rintro rfl
  simp [Ready] at h

/-- A recorded fault of another sub-code is another fault. -/
theorem State.ne_raise_of_subCode {s t : State} (hs : Ready s) {k : FaultKind} {op : Opcode} {sub : BitVec 4}
    (h : subCode t.finfo ≠ sub) : t ≠ s.raise k (illegalInfo op sub) := by
  rintro rfl
  rw [State.raise_finfo_of_ready hs, subCode_illegalInfo] at h
  exact h rfl

end Sys2Proof.Machine
end

section
/-! No body records a fault of sub-code 3 (spec R87, R221), but SOPEN's for a long name (R205). Each lemma also says that
the body leaves AW_OPEN as it is, which tells COMPRESS's faults on a long name from those on its operand. -/

namespace Sys2Proof.Machine

variable {b : Bool} {s : State}

/-- No fault is recorded, and AW_OPEN is `b`. -/
def Live (b : Bool) (s : State) : Prop := Ready s ∧ s.flag .awOpen = b

theorem Live.of_status {t : State} (h : Live b s) (hs : t.status = s.status) : Live b t :=
  ⟨(State.flag_congr hs _).trans h.1, (State.flag_congr hs _).trans h.2⟩

theorem Live.setFlag (h : Live b s) {f : Flag} (hf : f ≠ .faulted) (ha : f ≠ .awOpen) (v : Bool) :
    Live b (s.setFlag f v) := by
  obtain ⟨hr, hw⟩ := h
  exact ⟨by simp [Ready, hf.symm, hr], by simp [ha.symm, hw]⟩

theorem Live.clearFlags (h : Live b s) {fs : List Flag} (ha : .awOpen ∉ fs) :
    Live b (s.clearFlags fs) := by
  obtain ⟨hr, hw⟩ := h
  exact ⟨by simp [Ready, hr], by simp [ha, hw]⟩

/-- A recorded fault that is not of sub-code 3, with AW_OPEN as `b`. -/
def OtherFault (b : Bool) (t : State) : Prop := t.flag .awOpen = b ∧ subCode t.finfo ≠ 3#4

/-- The stretch does not touch AW_OPEN; it completes without a fault, or faults with a sub-code other than 3. -/
abbrev Run.NoOperandFault {α : Type} (b : Bool) (r : Run α) : Prop := r.Ends (Live b) (OtherFault b)

theorem raise_noOperandFault {α : Type} (h : Live b s) (k : FaultKind) {info : BitVec 16} (hi : subCode info ≠ 3#4) :
    (Run.raise k info s : Run α).NoOperandFault b := by
  obtain ⟨hr, hw⟩ := h
  exact .raise ⟨by simp [hw], by rwa [State.raise_finfo_of_ready hr]⟩

/-! ### Scanner, tree builder, walk -/

theorem count_noOperandFault (h : Live b s) (x : Nat) : (count x s).NoOperandFault b := by
  obtain ⟨-, e⟩ | ⟨-, e⟩ := count_cases x s
  · rw [e]
    exact raise_noOperandFault h _ (by simp)
  · rw [e]
    exact .done (h.of_status rfl)

theorem countAll_noOperandFault (h : Live b s) (xs : List Byte) : (countAll xs s).NoOperandFault b := by
  induction xs generalizing s with
  | nil => exact .done h
  | cons x xs ih => exact (count_noOperandFault h _).andThen fun t ht => ih ht

theorem memReadSrc_status (s : State) : (memReadSrc s).2.status = s.status := by
  unfold memReadSrc
  split <;> rfl

theorem forSrc_noOperandFault {body : Byte → State → Run Unit}
    (hbody : ∀ x t, Live b t → (body x t).NoOperandFault b) (n : Nat) (h : Live b s) :
    (forSrc body n s).NoOperandFault b := by
  induction n generalizing s with
  | zero => exact .done h
  | succ n ih =>
    have hs := memReadSrc_status s
    rw [forSrc]
    generalize memReadSrc s = m at hs ⊢
    obtain ⟨_ | x, t⟩ := m
    · exact .done (h.of_status hs)
    · exact (hbody x t (h.of_status hs)).andThen fun u hu => ih hu

theorem scanBody_noOperandFault (h : Live b s) : (scanBody s).NoOperandFault b := by
  have hc : Live b { s.clearFlags chainFromFreq with freq := Vector.replicate 259 0#64 } :=
    (h.clearFlags (fs := chainFromFreq) (by decide)).of_status rfl
  refine (countAll_noOperandFault hc _).andThen fun t ht => ?_
  refine (forSrc_noOperandFault (fun x u hu => count_noOperandFault hu x.toNat) _ ht).andThen fun t ht => ?_
  refine (count_noOperandFault ht _).andThen fun t ht => ?_
  refine (count_noOperandFault ht _).andThen fun t ht => ?_
  refine (count_noOperandFault ht _).andThen fun t ht => ?_
  exact .done (ht.setFlag (by decide) (by decide) _)

theorem addLeaf_status (s : State) (x : Nat) : (addLeaf s x).status = s.status := by
  unfold addLeaf
  split <;> rfl

theorem foldl_addLeaf_status (xs : List Nat) (s : State) : (xs.foldl addLeaf s).status = s.status := by
  induction xs generalizing s with
  | nil => rfl
  | cons x xs ih => exact (ih _).trans (addLeaf_status s x)

theorem extractMin_status {t : State} {m : Handle} (h : extractMin s = some (m, t)) : t.status = s.status := by
  unfold extractMin at h
  split at h
  · cases h
  · cases h; rfl

theorem merge_status (s : State) : (merge s).status = s.status := by
  unfold merge
  split
  · rfl
  · rename_i a s1 h1
    split
    · rfl
    · rename_i b s2 h2
      exact (extractMin_status h2).trans (extractMin_status h1)

theorem mergeLoop_status (n : Nat) (s : State) : (mergeLoop n s).status = s.status := by
  induction n generalizing s with
  | zero => rfl
  | succ n ih =>
    rw [mergeLoop]
    split
    · exact (ih _).trans (merge_status s)
    · rfl

theorem buildBody_noOperandFault (h : Live b s) : (buildBody s).NoOperandFault b := by
  have hc : Live b (s.clearFlags chainFromTree) := h.clearFlags (by decide)
  unfold buildBody
  dsimp only
  split
  · exact .stuck
  · refine .done (Live.setFlag (hc.of_status ?_) (by decide) (by decide) _)
    rw [mergeLoop_status, foldl_addLeaf_status]

theorem visit_noOperandFault (n : Nat) (x : Handle) (d : Nat) (h : Live b s) : (visit n x d s).NoOperandFault b := by
  induction n generalizing x d s with
  | zero => exact .stuck
  | succ n ih =>
    unfold visit
    dsimp only
    split
    · split
      · exact .done (h.of_status rfl)
      · exact (ih _ _ h).andThen fun t ht => ih _ _ ht
    · exact .stuck

theorem walkBody_noOperandFault (h : Live b s) : (walkBody s).NoOperandFault b := by
  have hc : Live b { s.clearFlags chainFromLen with len := Vector.replicate 259 0#9 } :=
    (h.clearFlags (fs := chainFromLen) (by decide)).of_status rfl
  refine (visit_noOperandFault _ _ _ hc).andThen fun t ht => ?_
  exact .done (ht.setFlag (by decide) (by decide) _)

/-! ### Canonical codes -/

theorem canonFrom_noOperandFault (ls : List Nat) (i prev code : Nat) (h : Live b s) :
    (canonFrom i prev code ls s).NoOperandFault b := by
  induction ls generalizing i prev code s with
  | nil => exact .done h
  | cons l ls ih =>
    unfold canonFrom
    dsimp only
    split
    · exact raise_noOperandFault h _ (by decide)
    · exact ih _ _ _ (h.of_status rfl)

theorem canonCodes_noOperandFault (m : Nat) (h : Live b s) : (canonCodes m s).NoOperandFault b :=
  canonFrom_noOperandFault _ _ _ _ h

theorem canonBody_noOperandFault (op : Opcode) (h : Live b s) : (canonBody op s).NoOperandFault b := by
  have hc : Live b (s.clearFlags chainFromHeader) := h.clearFlags (by decide)
  unfold canonBody
  dsimp only
  split
  · exact raise_noOperandFault (hc.of_status (by dsimp only)) _ (by simp)
  · refine (canonCodes_noOperandFault _ (hc.of_status (by dsimp only))).andThen fun t ht => ?_
    exact .done ((ht.setFlag (by decide) (by decide) _).setFlag (by decide) (by decide) _)

theorem ldlenBody_live (h : Live b s) (a : Sym) (l : BitVec 9) : Live b (ldlenBody a l s) := by
  have hlen : Live b (if s.flag .lValid then s else { s with len := Vector.replicate 259 0#9 }) := by
    split
    · exact h
    · exact h.of_status rfl
  have hc := hlen.clearFlags (fs := chainFromHeader) (by decide)
  exact Live.setFlag (hc.of_status rfl) (by decide) (by decide) true

theorem rdcodeBody_noOperandFault (op : Opcode) (a : Sym) (h : Live b s) : (rdcodeBody op a s).NoOperandFault b := by
  unfold rdcodeBody
  split
  · exact raise_noOperandFault h _ (by simp)
  · exact .done (h.of_status rfl)

/-! ### The bit writer and the bit reader -/

theorem writeBitList_status (s : State) (bs : List Bool) : (writeBitList s bs).status = s.status := by
  rw [writeBitList_shape]

theorem foldl_writeBits_status (vs : List Nat) (n : Nat) (s : State) :
    (vs.foldl (fun s v => writeBits s v n) s).status = s.status := by
  induction vs generalizing s with
  | nil => rfl
  | cons v vs ih => exact (ih _).trans (writeBitList_status s _)

theorem whdrBody_live (h : Live b s) : Live b (whdrBody s) := h.of_status (foldl_writeBits_status _ _ s)

theorem putSymbol_noOperandFault (op : Opcode) (x : Sym) (h : Live b s) : (putSymbol op x s).NoOperandFault b := by
  obtain ⟨-, e⟩ | ⟨i, -, e⟩ := putSymbol_cases op x s
  · rw [e]
    exact raise_noOperandFault h _ (by simp)
  · rw [e]
    exact .done (h.of_status (writeBitList_status s _))

theorem putAll_noOperandFault (op : Opcode) (xs : List Byte) (h : Live b s) : (putAll op xs s).NoOperandFault b := by
  induction xs generalizing s with
  | nil => exact .done h
  | cons x xs ih => exact (putSymbol_noOperandFault op _ h).andThen fun t ht => ih ht

theorem readBit_noOperandFault (h : Live b s) : (readBit s).NoOperandFault b := by
  unfold readBit memReadArc
  split
  · cases s.host.arc[s.host.arcPos]? with
    | none => exact raise_noOperandFault h _ (by decide)
    | some x => exact .done (h.of_status rfl)
  · exact .done (h.of_status rfl)

theorem readBits_noOperandFault (n : Nat) (h : Live b s) : (readBits n s).NoOperandFault b := by
  induction n generalizing s with
  | zero => exact .done h
  | succ n ih => exact (readBit_noOperandFault h).bind fun _ t ht => (ih ht).bind fun _ u hu => .done hu

theorem readField_noOperandFault (n : Nat) (h : Live b s) : (readField n s).NoOperandFault b :=
  (readBits_noOperandFault n h).bind fun _ _ ht => .done (ht.of_status rfl)

/-! ### Streams and the archiver -/

theorem closeArc_ready (h : Ready s) : Ready (closeArc s) := by
  have hf : (if s.flag .awOpen then flush s else s).status = s.status := by
    split
    · rw [flush_shape]
    · rfl
  have ht := (State.flag_congr hf .faulted).trans h
  show ((State.setFlag _ .awOpen false).setFlag .arOpen false).flag .faulted = false
  simpa using ht

theorem closeBody_ready (h : Ready s) (a : BitVec 9) : Ready (closeBody a s) := by
  unfold closeBody
  split
  · exact closeArc_ready h
  · simpa [Ready, closeSrc] using h
  · simpa [Ready, closeDst] using h

/-- AOPENW opens the archive, or faults as the host refuses (R203). -/
theorem aopenwBody_ends (h : Ready s) : (aopenwBody s).Ends (Live true) (fun t => subCode t.finfo ≠ 3#4) := by
  unfold aopenwBody
  obtain ⟨-, e⟩ | ⟨-, e⟩ := hostOpenArcW_cases s
  · rw [e]
    exact .done ⟨(State.flag_setFlag _ _ _ _).trans h, State.flag_setFlag _ _ _ _⟩
  · rw [e]
    refine .raise ?_
    rw [State.raise_finfo_of_ready h]
    decide

/-- Everything SOPEN's body can do: no such input, a name longer than NAME_MAX, or the input opened (R205). -/
theorem sopenBody_cases (op : Opcode) (idx : BitVec 16) (s : State) :
    ((s.host.inputs[idx.toNat]? = none ∨ s.host.inputs[idx.toNat]? = some .unopenable) ∧
      sopenBody op idx s = .raise .openFailure 2#16 { s with sidx := idx }) ∨
    ∃ name content, s.host.inputs[idx.toNat]? = some (.file name content) ∧
      ((s.nameTooLong name = true ∧ sopenBody op idx s =
          .raise .illegalOperation (illegalInfo op 3#4) { s with sidx := idx, host.srcPos := 0 }) ∨
        (s.nameFits name ∧ sopenBody op idx s =
          .done () ({ s with sidx := idx, name := name, host.srcPos := 0 }.setFlag .sOpen true))) := by
  unfold sopenBody
  obtain ⟨name, content, hin, e⟩ | ⟨hno, e⟩ := hostOpenSrc_cases idx.toNat { s with sidx := idx }
  · refine .inr ⟨name, content, hin, ?_⟩
    have hlong : State.nameTooLong { s with sidx := idx, host.srcPos := 0 } name = s.nameTooLong name := rfl
    cases hl : s.nameTooLong name with
    | true => exact .inl ⟨rfl, by simp only [e, hlong, hl, if_true]⟩
    | false => exact .inr ⟨hl, by simp [e, hlong, hl]⟩
  · exact .inl ⟨hno, by simp only [e]⟩

/-- SOPEN of an input whose name fits NAME_MAX, if there is one. -/
theorem sopenBody_noOperandFault (op : Opcode) {idx : BitVec 16} (h : Live b s)
    (hfit : ∀ name content, s.host.inputs[idx.toNat]? = some (.file name content) → s.nameFits name) :
    (sopenBody op idx s).NoOperandFault b := by
  obtain ⟨-, e⟩ | ⟨name, content, hin, ⟨hl, -⟩ | ⟨-, e⟩⟩ := sopenBody_cases op idx s
  · rw [e]
    exact raise_noOperandFault (h.of_status (by dsimp only)) _ (by decide)
  · exact absurd ((hfit name content hin).symm.trans hl) (by decide)
  · rw [e]
    exact .done (Live.setFlag (h.of_status rfl) (by decide) (by decide) _)

/-- SOPEN of any input leaves AW_OPEN as it is, whether it faults or not. -/
theorem sopenBody_ends (op : Opcode) (idx : BitVec 16) (h : Live b s) :
    (sopenBody op idx s).Ends (Live b) (fun t => t.flag .awOpen = b) := by
  have hraise : ∀ (t : State) k info, t.status = s.status → (t.raise k info).flag .awOpen = b := fun t k info ht => by
    simpa using (h.of_status ht).2
  obtain ⟨-, e⟩ | ⟨name, content, -, ⟨-, e⟩ | ⟨-, e⟩⟩ := sopenBody_cases op idx s
  · rw [e]
    exact .raise (hraise _ _ _ rfl)
  · rw [e]
    exact .raise (hraise _ _ _ rfl)
  · rw [e]
    exact .done (Live.setFlag (h.of_status rfl) (by decide) (by decide) _)

theorem encfileBody_noOperandFault (op : Opcode) (last : Bool) (h : Live b s) :
    (encfileBody op last s).NoOperandFault b := by
  refine (scanBody_noOperandFault h).andThen fun t ht => ?_
  refine (buildBody_noOperandFault ht).andThen fun t ht => ?_
  refine (walkBody_noOperandFault ht).andThen fun t ht => ?_
  refine (canonBody_noOperandFault op ht).andThen fun t ht => ?_
  have hw : Live b (hostRewindSrc (whdrBody t)) := (whdrBody_live ht).of_status (hostRewindSrc_status _)
  refine (putAll_noOperandFault op _ hw).andThen fun t ht => ?_
  refine (forSrc_noOperandFault (fun x u hu => putSymbol_noOperandFault op _ hu) _ ht).andThen fun t ht => ?_
  exact (putSymbol_noOperandFault op _ ht).andThen fun t ht => putSymbol_noOperandFault op _ ht

theorem compressLoop_ends (op : Opcode) (i k : Nat) (h : Live b s) :
    (compressLoop op i k s).Ends (Live b) (fun t => t.flag .awOpen = b) := by
  induction k generalizing i s with
  | zero => exact .done h
  | succ k ih =>
    refine (sopenBody_ends op _ h).andThen fun t ht => ?_
    refine ((encfileBody_noOperandFault op _ ht).imp (fun _ hu => hu) fun _ hu => hu.1).andThen fun t ht => ?_
    exact ih _ (ht.setFlag (by decide) (by decide) _)

/-- From closed streams COMPRESS completes, faults as the host refuses the archive, or faults with the archive open. -/
theorem compressBody_ends (op : Opcode) (n : Nat) (h : Ready s) :
    (compressBody op n s).Ends Ready (fun t => subCode t.finfo ≠ 3#4 ∨ t.flag .awOpen = true) := by
  refine ((aopenwBody_ends h).imp (fun _ ht => ht) fun _ ht => .inl ht).andThen fun t ht => ?_
  refine ((compressLoop_ends op 0 n ht).imp (fun _ hu => hu) fun _ hu => .inr hu).andThen fun t ht => ?_
  exact .done (closeArc_ready ht.1)

end Sys2Proof.Machine
end

section
/-! Operand faults (spec R87): each command records IllegalOperation(3) exactly for an operand outside its range. -/

namespace Sys2Proof.Machine

variable {s : State}

/-- IllegalOperation(3) with the command's opcode, and no other change (R87). -/
abbrev operandFault (op : Opcode) (s : State) : Host.Outcome State Fault Refusal :=
  .next (s.raise .illegalOperation (illegalInfo op 3#4))

/-- A command records the operand fault exactly where its operand is out of range, if its body cannot end there. -/
theorem runCommand_eq_operandFault_iff {op : Opcode} {always inRange pre : Bool} {body : State → Run Unit} (h : Ready s)
    (hb : inRange = true → pre = true →
      (body s).Ends Ready (fun t => t ≠ s.raise .illegalOperation (illegalInfo op 3#4))) :
    runCommand op always inRange pre body s = operandFault op s ↔ inRange = false := by
  refine ⟨fun e => ?_, runCommand_range h⟩
  by_contra hr
  rw [Bool.not_eq_false] at hr
  cases hp : pre with
  | false =>
    rw [runCommand_pre h hr hp] at e
    refine State.ne_raise_of_subCode (sub := 3#4) h ?_ (Host.Outcome.next.inj e)
    rw [State.raise_finfo_of_ready h, subCode_illegalInfo]
    decide
  | true =>
    rw [runCommand_body h hr hp] at e
    have hend := hb hr hp
    obtain ht | ht := Run.outcome_eq_next.mp e <;> rw [ht] at hend
    · cases hend with
      | done hready => exact State.ne_raise_of_ready hready _ _ _ rfl
    · cases hend with
      | raised hne => exact hne rfl

/-- A body that records no fault of sub-code 3 does not end in the operand fault. -/
theorem Run.Ends.ne_operandFault {r : Run Unit} {b : Bool} (h : r.NoOperandFault b) (hs : Ready s) (op : Opcode) :
    r.Ends Ready (fun t => t ≠ s.raise .illegalOperation (illegalInfo op 3#4)) :=
  h.imp (fun _ ht => ht.1) fun _ ht => State.ne_raise_of_subCode hs ht.2

/-! ### The ranges of R87 -/

theorem symInRange_eq_false (a : Sym) : symInRange a = false ↔ 258 < a.toNat :=
  decide_eq_false_iff_not.trans Nat.not_lt

theorem lenInRange_eq_false (l : BitVec 9) : lenInRange l = false ↔ 258 < l.toNat :=
  decide_eq_false_iff_not.trans Nat.not_le

theorem bitCountInRange_eq_false (n : BitVec 5) : bitCountInRange n = false ↔ 16 < n.toNat :=
  decide_eq_false_iff_not.trans Nat.not_le

theorem fieldWidthInRange_eq_false (n : BitVec 5) : fieldWidthInRange n = false ↔ n.toNat = 0 ∨ 16 < n.toNat := by
  rw [fieldWidthInRange, Bool.and_eq_false_iff, decide_eq_false_iff_not, decide_eq_false_iff_not, Config.immW]
  omega

theorem lastInRange_eq_false (a : BitVec 9) : lastInRange a = false ↔ 1 < a.toNat :=
  decide_eq_false_iff_not.trans Nat.not_le

theorem srInRange_eq_false (a : BitVec 9) : srInRange a = false ↔ 3 < a.toNat :=
  decide_eq_false_iff_not.trans Nat.not_le

theorem streamInRange_eq_false (a : BitVec 9) : streamInRange a = false ↔ 2 < a.toNat :=
  decide_eq_false_iff_not.trans Nat.not_le

theorem countInRange_eq_false (idx : BitVec 16) : countInRange idx = false ↔ idx = 0#16 := by
  simp only [countInRange, decide_eq_false_iff_not, ← BitVec.toNat_inj, BitVec.toNat_ofNat]
  omega

/-! ### The commands -/

section Commands

variable (h : Ready s)
include h

theorem exec_rdfreq_operandFault (a : Sym) : exec (.rdfreq a) s = operandFault 0x0B#6 s ↔ 258 < a.toNat := by
  rw [exec, execRdfreq]
  refine (runCommand_eq_operandFault_iff h fun _ _ => ?_).trans (symInRange_eq_false a)
  exact .done h

theorem exec_rdlen_operandFault (a : Sym) : exec (.rdlen a) s = operandFault 0x0E#6 s ↔ 258 < a.toNat := by
  rw [exec, execRdlen]
  refine (runCommand_eq_operandFault_iff h fun _ _ => ?_).trans (symInRange_eq_false a)
  exact .done h

theorem exec_rdcode_operandFault (a : Sym) : exec (.rdcode a) s = operandFault 0x0F#6 s ↔ 258 < a.toNat :=
  (runCommand_eq_operandFault_iff h fun _ _ => (rdcodeBody_noOperandFault _ a ⟨h, rfl⟩).ne_operandFault h _).trans
    (symInRange_eq_false a)

theorem exec_wsym_operandFault (a : Sym) : exec (.wsym a) s = operandFault 0x14#6 s ↔ 258 < a.toNat :=
  (runCommand_eq_operandFault_iff h fun _ _ => (putSymbol_noOperandFault _ a ⟨h, rfl⟩).ne_operandFault h _).trans
    (symInRange_eq_false a)

theorem exec_ldlen_operandFault (a l : BitVec 9) :
    exec (.ldlen a l) s = operandFault 0x0C#6 s ↔ 258 < a.toNat ∨ 258 < l.toNat := by
  rw [exec, execLdlen, ← symInRange_eq_false, ← lenInRange_eq_false, ← Bool.and_eq_false_iff]
  refine runCommand_eq_operandFault_iff h fun _ _ => ?_
  exact .done (ldlenBody_live ⟨h, rfl⟩ a l).1

theorem writeBits_ready (v n : Nat) : Ready (writeBits s v n) :=
  (State.flag_congr (writeBitList_status s _) _).trans h

theorem exec_wbits_operandFault (n : BitVec 5) (v : BitVec 16) :
    exec (.wbits n v) s = operandFault 0x01#6 s ↔ 16 < n.toNat := by
  rw [exec, execWbits]
  refine (runCommand_eq_operandFault_iff h fun _ _ => ?_).trans (bitCountInRange_eq_false n)
  exact .done (writeBits_ready h _ _)

theorem exec_wint_operandFault (n : BitVec 5) (v : BitVec 16) :
    exec (.wint n v) s = operandFault 0x02#6 s ↔ n.toNat = 0 ∨ 16 < n.toNat := by
  rw [exec, execWint]
  refine (runCommand_eq_operandFault_iff h fun _ _ => ?_).trans (fieldWidthInRange_eq_false n)
  exact .done (writeBits_ready h _ _)

theorem exec_rbits_operandFault (n : BitVec 5) : exec (.rbits n) s = operandFault 0x05#6 s ↔ 16 < n.toNat :=
  (runCommand_eq_operandFault_iff h fun _ _ => (readField_noOperandFault _ ⟨h, rfl⟩).ne_operandFault h _).trans
    (bitCountInRange_eq_false n)

theorem exec_rint_operandFault (n : BitVec 5) :
    exec (.rint n) s = operandFault 0x06#6 s ↔ n.toNat = 0 ∨ 16 < n.toNat :=
  (runCommand_eq_operandFault_iff h fun _ _ => (readField_noOperandFault _ ⟨h, rfl⟩).ne_operandFault h _).trans
    (fieldWidthInRange_eq_false n)

theorem exec_encfile_operandFault (a : BitVec 9) : exec (.encfile a) s = operandFault 0x15#6 s ↔ 1 < a.toNat :=
  (runCommand_eq_operandFault_iff h fun _ _ => (encfileBody_noOperandFault _ _ ⟨h, rfl⟩).ne_operandFault h _).trans
    (lastInRange_eq_false a)

theorem exec_rdsr_operandFault (a : BitVec 9) : exec (.rdsr a) s = operandFault 0x1A#6 s ↔ 3 < a.toNat := by
  rw [exec, execRdsr]
  refine (runCommand_eq_operandFault_iff h fun _ _ => ?_).trans (srInRange_eq_false a)
  exact .done h

theorem exec_close_operandFault (a : BitVec 9) : exec (.close a) s = operandFault 0x20#6 s ↔ 2 < a.toNat := by
  rw [exec, execClose]
  refine (runCommand_eq_operandFault_iff h fun _ _ => ?_).trans (streamInRange_eq_false a)
  exact .done (closeBody_ready h a)

/-- COMPRESS's own fault on a long name has the operand fault's FINFO, but leaves AW_OPEN set (R188). -/
theorem exec_compress_operandFault (idx : BitVec 16) :
    exec (.compress idx) s = operandFault 0x17#6 s ↔ idx = 0#16 := by
  refine (runCommand_eq_operandFault_iff h fun _ hp => ?_).trans (countInRange_eq_false idx)
  have hclosed : s.flag .awOpen = false := by
    simp only [State.allClosed, Bool.and_eq_true, Bool.not_eq_true'] at hp
    obtain ⟨⟨⟨haw, -⟩, -⟩, -⟩ := hp
    exact haw
  refine (compressBody_ends _ _ h).imp (fun _ ht => ht) fun t ht => ?_
  obtain hsub | hopen := ht
  · exact State.ne_raise_of_subCode h hsub
  · rintro rfl
    simp [hclosed] at hopen

theorem exec_sopen_of_open (ho : s.flag .sOpen = true) (idx : BitVec 16) :
    exec (.sopen idx) s = .next (s.raise .illegalOperation (illegalInfo 0x1D#6 4#4)) :=
  runCommand_pre h rfl (by rw [ho]; rfl)

theorem exec_sopen_of_no_input (ho : s.flag .sOpen = false) {idx : BitVec 16} (hi : s.host.inputs.length ≤ idx.toNat) :
    exec (.sopen idx) s = .next ({ s with sidx := idx }.raise .openFailure 2#16) := by
  have hnone : s.host.inputs[idx.toNat]? = none := List.getElem?_eq_none hi
  obtain ⟨-, e⟩ | ⟨name, content, hin, -⟩ := sopenBody_cases 0x1D#6 idx s
  · exact (runCommand_body h rfl (by rw [ho]; rfl)).trans (congrArg Run.outcome e)
  · rw [hnone] at hin
    cases hin

theorem exec_sopen_ne_operandFault {idx : BitVec 16}
    (hfit : ∀ name content, s.host.inputs[idx.toNat]? = some (.file name content) → s.nameFits name) :
    exec (.sopen idx) s ≠ operandFault 0x1D#6 s := fun e =>
  absurd ((runCommand_eq_operandFault_iff h fun _ _ =>
    (sopenBody_noOperandFault _ ⟨h, rfl⟩ hfit).ne_operandFault h _).mp e) (by decide)

end Commands

/-- `WriteBits` uses the `n` low bits of its value only (R101). -/
theorem valueBits_congr {v v' n : Nat} (h : v % 2 ^ n = v' % 2 ^ n) : valueBits v n = valueBits v' n := by
  refine List.map_congr_left fun i hi => ?_
  have hin : i < n := List.mem_range.mp hi
  have hbit := congrArg (fun x => x.testBit i) h
  simpa [hin] using hbit

/-- Settles O9: the range check comes first, and no body ends where it does. -/
theorem operandOutOfRangeFaults : Obligations.OperandOutOfRangeFaults := by
  unfold Obligations.OperandOutOfRangeFaults
  intro s h bad
  refine ⟨fun a => ⟨exec_rdfreq_operandFault h a, exec_rdlen_operandFault h a, exec_rdcode_operandFault h a,
      exec_wsym_operandFault h a⟩,
    exec_ldlen_operandFault h,
    fun n v => ⟨exec_wbits_operandFault h n v, exec_rbits_operandFault h n, exec_wint_operandFault h n v,
      exec_rint_operandFault h n⟩,
    fun a => ⟨exec_encfile_operandFault h a, exec_rdsr_operandFault h a, exec_close_operandFault h a⟩,
    exec_compress_operandFault h,
    fun idx => ⟨fun ho => exec_sopen_of_open h ho idx, fun ho hi => exec_sopen_of_no_input h ho hi,
      exec_sopen_ne_operandFault h⟩,
    fun n v v' hv => ?_⟩
  have hbits := valueBits_congr hv
  simp only [exec, execWbits, execWint, writeBits, hbits, and_self]

end Sys2Proof.Machine
end

section
/-! Fields written, flushed and read back (spec R111): the writer's bits are the fields' bits and the padding; the reader
takes the fields' bits, and its cursor is then told by the number of bits left. -/

namespace Sys2Proof.Machine

/-! ### The bits of a list of fields -/

/-- The bits `writeAll` emits for its (value, width) pairs. -/
def fieldBits (fields : List (Nat × Nat)) : List Bool := fields.flatMap fun f => valueBits f.1 f.2

@[simp] theorem fieldBits_nil : fieldBits [] = [] := rfl

@[simp] theorem fieldBits_cons (f : Nat × Nat) (fs : List (Nat × Nat)) :
    fieldBits (f :: fs) = valueBits f.1 f.2 ++ fieldBits fs := rfl

@[simp] theorem fieldBits_length (fields : List (Nat × Nat)) :
    (fieldBits fields).length = (fields.map Prod.snd).sum := by
  simp [fieldBits, List.length_flatMap]

theorem valueBits_succ (v n : Nat) : valueBits v (n + 1) = v.testBit 0 :: valueBits (v / 2) n := by
  simp [valueBits, List.range_succ_eq_map, Nat.testBit_succ]

/-- Reading the `n` low bits of a value back gives the value modulo `2 ^ n` (R101, R103). -/
@[simp] theorem bitsValue_valueBits (v n : Nat) : bitsValue (valueBits v n) = v % 2 ^ n := by
  induction n generalizing v with
  | zero => simp [valueBits, Nat.mod_one]
  | succ n ih =>
    have hbit : (v.testBit 0).toNat = v % 2 := by rw [Nat.toNat_testBit, pow_zero, Nat.div_one]
    rw [valueBits_succ, bitsValue_cons, ih, hbit, Nat.pow_succ', Nat.mod_mul]

/-! ### Writing the fields and flushing -/

theorem writeBitList_append (s : State) (bs cs : List Bool) :
    writeBitList s (bs ++ cs) = writeBitList (writeBitList s bs) cs := List.foldl_append

theorem writeAll_eq_writeBitList (fields : List (Nat × Nat)) (s : State) :
    writeAll fields s = writeBitList s (fieldBits fields) := by
  induction fields generalizing s with
  | nil => rfl
  | cons f fs ih => exact (ih _).trans (writeBitList_append s _ _).symm

theorem flush_arc_prefix (s : State) : s.host.arc <+: (flush s).host.arc := by
  unfold flush
  split
  · exact List.prefix_rfl
  · exact List.prefix_append _ _

theorem State.written_of_wcnt_zero {s : State} (h : s.wcnt = 0#4) : s.written = streamBits s.host.arc := by
  simp [State.written, h]

theorem writerOk_of_empty {s : State} (hc : s.wcnt = 0#4) (hb : s.wbuf = 0#8) : WriterOk s := by
  simp [WriterOk, hc, hb]

/-- What an empty writer and a flush add to ARC: whole bytes that hold the fields' bits and fewer than 8 zero bits. -/
theorem flush_writeAll_arc (fields : List (Nat × Nat)) {s : State} (hc : s.wcnt = 0#4) (hb : s.wbuf = 0#8) :
    ∃ (new : List Byte) (pad : Nat), (flush (writeAll fields s)).host.arc = s.host.arc ++ new ∧ pad < 8 ∧
      streamBits new = fieldBits fields ++ List.replicate pad false := by
  rw [writeAll_eq_writeBitList]
  obtain ⟨hw, hok⟩ := writeBitList_spec (writerOk_of_empty hc hb) (fieldBits fields)
  obtain ⟨hf, hcnt, -⟩ := flush_spec hok
  obtain ⟨new, hnew⟩ := (writeBitList_arc s (fieldBits fields)).trans (flush_arc_prefix _)
  rw [State.written_of_wcnt_zero hcnt, hw, State.written_of_wcnt_zero hc, ← hnew, streamBits_append,
    List.append_assoc] at hf
  exact ⟨new, _, hnew.symm, Nat.mod_lt _ (by decide), List.append_cancel_left hf⟩

/-! ### Reading the fields -/

theorem readerOk_of_empty {s : State} (hc : s.rcnt = 0#4) (hb : s.rbuf = 0#8) : ReaderOk s := by
  simp [ReaderOk, hc, hb]

theorem State.pending_of_rcnt_zero {s : State} (h : s.rcnt = 0#4) :
    s.pending = streamBits (s.host.arc.drop s.host.arcPos) := by
  simp [State.pending, h]

theorem State.pending_length (s : State) :
    s.pending.length = s.rcnt.toNat + 8 * (s.host.arc.length - s.host.arcPos) := by
  simp [State.pending]

/-- `ReadBits` of each width returns the fields whose bits are pending, each modulo 2 to its width, and takes just them. -/
theorem readAll_fieldBits (fields : List (Nat × Nat)) {s : State} {rest : List Bool} (h : ReaderOk s)
    (hp : s.pending = fieldBits fields ++ rest) :
    ∃ t, readAll (fields.map Prod.snd) s = .done (fields.map fun f => f.1 % 2 ^ f.2) t ∧ t.pending = rest ∧
      ReaderOk t ∧ t.host.arc = s.host.arc := by
  induction fields generalizing s with
  | nil => exact ⟨s, rfl, hp, h, rfl⟩
  | cons f fs ih =>
    rw [fieldBits_cons, List.append_assoc] at hp
    obtain ⟨u, hu, hpu, hok, hsh⟩ := readBits_spec f.2 h (by simp [hp])
    have hval : s.pending.take f.2 = valueBits f.1 f.2 := by
      rw [hp]; exact List.take_left' (valueBits_length _ _)
    have hdrop : s.pending.drop f.2 = fieldBits fs ++ rest := by
      rw [hp]; exact List.drop_left' (valueBits_length _ _)
    obtain ⟨t, ht, hpt, hok', harc⟩ := ih hok (hpu.trans hdrop)
    refine ⟨t, ?_, hpt, hok', by rw [harc, hsh]⟩
    simp only [List.map_cons, readAll, hu, hval, bitsValue_valueBits, Run.bind_done, ht]

/-! ### The reader's cursor -/

/-- The reader holds less than a byte and its cursor is within ARC: it has fetched no byte before its first bit was asked
for (R102). So the number of pending bits tells RCNT and the cursor. -/
def CursorOk (s : State) : Prop := s.rcnt.toNat ≤ 7 ∧ s.host.arcPos ≤ s.host.arc.length

theorem takeBit_cursorOk {s : State} (h0 : s.rcnt ≠ 0#4) (h8 : s.rcnt.toNat ≤ 8)
    (hpos : s.host.arcPos ≤ s.host.arc.length) : (takeBit s).EndsIn CursorOk := by
  refine ⟨?_, hpos⟩
  show (s.rcnt - 1#4).toNat ≤ 7
  bv_omega

theorem readBit_cursorOk {s : State} (h : CursorOk s) : (readBit s).EndsIn CursorOk := by
  obtain ⟨hcnt, hpos⟩ := h
  unfold readBit
  split
  · rcases Nat.lt_or_ge s.host.arcPos s.host.arc.length with hlt | hge
    · rw [memReadArc_some hlt]
      exact takeBit_cursorOk (by simp) (by simp) hlt
    · rw [memReadArc_eod hge]
      show CursorOk (s.raise _ _)
      simp [CursorOk, hcnt, hpos]
  · rename_i h0
    exact takeBit_cursorOk h0 (by omega) hpos

theorem readBits_cursorOk (n : Nat) {s : State} (h : CursorOk s) : (readBits n s).EndsIn CursorOk := by
  induction n generalizing s with
  | zero => exact h
  | succ n ih => exact (readBit_cursorOk h).bind fun _ t ht => (ih ht).bind fun _ u hu => hu

theorem readAll_cursorOk (ns : List Nat) {s : State} (h : CursorOk s) : (readAll ns s).EndsIn CursorOk := by
  induction ns generalizing s with
  | nil => exact h
  | cons n ns ih => exact (readBits_cursorOk n h).bind fun _ t ht => (ih ht).bind fun _ u hu => hu

/-- With fewer than 8 bits pending before the bytes `rest` of ARC, those bits are RCNT and the cursor is at `rest`. -/
theorem cursorOk_of_pending {s : State} {bits : List Bool} {taken rest : List Byte} (h : CursorOk s)
    (harc : s.host.arc = taken ++ rest) (hp : s.pending = bits ++ streamBits rest) (hbits : bits.length < 8) :
    s.rcnt.toNat = bits.length ∧ s.host.arcPos = taken.length := by
  obtain ⟨hcnt, hpos⟩ := h
  have hlen := congrArg List.length hp
  rw [State.pending_length, harc, List.length_append, List.length_append, streamBits_length] at hlen
  rw [harc, List.length_append] at hpos
  omega

/-- A cache all of whose bits are zero is the zero register (R22). -/
theorem rbuf_eq_zero_of_pending {s : State} {rest : List Bool} (h : ReaderOk s)
    (hp : s.pending = List.replicate s.rcnt.toNat false ++ rest) : s.rbuf = 0#8 := by
  obtain ⟨-, habove⟩ := h
  have hcache := List.append_inj_left hp (by simp)
  refine BitVec.eq_of_getLsbD_eq fun i hi => ?_
  rw [BitVec.getLsbD_zero]
  rcases Nat.lt_or_ge i s.rcnt.toNat with hlt | hge
  · exact List.eq_of_mem_replicate (hcache ▸ List.mem_map_of_mem (List.mem_range.mpr hlt))
  · exact habove i hi hge

/-- Settles O23: the bytes the flush leaves hold the fields' bits and the padding, and the reader takes the former. -/
theorem bitStreamRoundTrip : Obligations.BitStreamRoundTrip := by
  unfold Obligations.BitStreamRoundTrip
  rintro fields s u hwc hwb hrc hrb ⟨rest, hrest⟩ hpos
  obtain ⟨new, pad, harc, hpad, hbits⟩ := flush_writeAll_arc fields hwc hwb
  have hpending : u.pending = fieldBits fields ++ (List.replicate pad false ++ streamBits rest) := by
    rw [State.pending_of_rcnt_zero hrc, hpos, ← hrest, harc, List.append_assoc, List.drop_left, streamBits_append,
      hbits, List.append_assoc]
  have hcursor : CursorOk u := by
    simp [CursorOk, hrc, hpos, ← hrest, harc]
  obtain ⟨t, ht, hleft, hok, htarc⟩ := readAll_fieldBits fields (readerOk_of_empty hrc hrb) hpending
  have hcursor' : CursorOk t := by
    have hends := readAll_cursorOk (fields.map Prod.snd) hcursor
    rwa [ht] at hends
  obtain ⟨hcnt, hend⟩ := cursorOk_of_pending hcursor' (htarc.trans hrest.symm) hleft (by simpa using hpad)
  rw [List.length_replicate] at hcnt
  have hwhole : 8 * new.length = (fields.map Prod.snd).sum + pad := by
    simpa using congrArg List.length hbits
  exact ⟨t, ht, by omega, rbuf_eq_zero_of_pending hok (hcnt ▸ hleft), hend⟩

end Sys2Proof.Machine
end

section
/-! Canonical codes (spec R140, R144): where the lengths fit the code space the machine's codes are `canonicalCodes`,
and none of these begins another. -/

namespace Sys2Proof.Machine

@[simp] theorem kraft_nil : kraft [] = 0 := rfl

@[simp] theorem kraft_cons (l : Nat) (ls : List Nat) : kraft (l :: ls) = 2 ^ (Config.lmax - l) + kraft ls := rfl

theorem kraft_perm {ls ms : List Nat} (h : ls.Perm ms) : kraft ls = kraft ms := (h.map _).sum_eq

/-- Room is left in the code space for codes of the lengths `ls`, with `code` the running integer at length `prev`
(R140). -/
structure CanonRoom (prev code : Nat) (ls : List Nat) : Prop where
  sorted : ls.Pairwise (· ≤ ·)
  ge_prev : ∀ l ∈ ls, prev ≤ l
  le_lmax : ∀ l ∈ ls, l ≤ Config.lmax
  kraft_le : code * 2 ^ (Config.lmax - prev) + kraft ls ≤ 2 ^ Config.lmax

variable {prev code l : Nat} {ls : List Nat}

theorem CanonRoom.zero (hs : ls.Pairwise (· ≤ ·)) (hmax : ∀ l ∈ ls, l ≤ Config.lmax) (hk : KraftOk ls) :
    CanonRoom 0 0 ls :=
  ⟨hs, fun _ _ => Nat.zero_le _, hmax, by rwa [Nat.zero_mul, Nat.zero_add]⟩

/-- Stepping to a greater length keeps the share of the code space already used. -/
theorem CanonRoom.code_shift (h : CanonRoom prev code (l :: ls)) :
    code * 2 ^ (l - prev) * 2 ^ (Config.lmax - l) = code * 2 ^ (Config.lmax - prev) := by
  have hp : prev ≤ l := h.ge_prev l (by simp)
  have hl : l ≤ Config.lmax := h.le_lmax l (by simp)
  rw [Nat.mul_assoc, ← Nat.pow_add]
  congr 2
  omega

theorem CanonRoom.succ_mul_le (h : CanonRoom prev code (l :: ls)) :
    (code * 2 ^ (l - prev) + 1) * 2 ^ (Config.lmax - l) + kraft ls ≤ 2 ^ Config.lmax := by
  have hk := h.kraft_le
  rw [kraft_cons, ← h.code_shift] at hk
  rw [Nat.add_mul]
  omega

theorem CanonRoom.code_lt (h : CanonRoom prev code (l :: ls)) : code * 2 ^ (l - prev) < 2 ^ l := by
  have hle : (code * 2 ^ (l - prev) + 1) * 2 ^ (Config.lmax - l) ≤ 2 ^ l * 2 ^ (Config.lmax - l) := by
    rw [← Nat.pow_add, Nat.add_sub_of_le (h.le_lmax l (by simp))]
    exact Nat.le_of_add_right_le h.succ_mul_le
  exact Nat.le_of_mul_le_mul_right hle (Nat.two_pow_pos _)

theorem CanonRoom.tail (h : CanonRoom prev code (l :: ls)) : CanonRoom l (code * 2 ^ (l - prev) + 1) ls := by
  obtain ⟨hge, hs⟩ := List.pairwise_cons.mp h.sorted
  exact ⟨hs, hge, fun k hk => h.le_lmax k (List.mem_cons_of_mem _ hk), h.succ_mul_le⟩

@[simp] theorem canonicalCodes_length (ls : List Nat) (prev code : Nat) :
    (canonicalCodes prev code ls).length = ls.length := by
  induction ls generalizing prev code with
  | nil => rfl
  | cons l ls ih => simp [canonicalCodes, ih]

theorem toNat_ofNat_of_lt_two_pow {w l c : Nat} (hl : l ≤ w) (hc : c < 2 ^ l) : (BitVec.ofNat w c).toNat = c := by
  rw [BitVec.toNat_ofNat, Nat.mod_eq_of_lt (hc.trans_le (Nat.pow_le_pow_right (by decide) hl))]

/-- Where there is room `CanonCodes` completes, writes entries from `i` on, and they are the canonical codes (R140). -/
theorem canonFrom_spec {i : Nat} {s : State} (h : CanonRoom prev code ls) (hi : i + ls.length ≤ 511) :
    ∃ cc, canonFrom i prev code ls s = .done () { s with cc := cc } ∧ (∀ j < i, tget cc j 0#258 = s.ccAt j) ∧
      (List.range ls.length).map (fun j => bitstr (tget cc (i + j) 0#258).toNat (ls.getD j 0)) =
        canonicalCodes prev code ls := by
  induction ls generalizing i prev code s with
  | nil => exact ⟨s.cc, rfl, fun _ _ => rfl, rfl⟩
  | cons l ls ih =>
    have hlt := h.code_lt
    have hi' : i + 1 + ls.length ≤ 511 := by simp at hi; omega
    obtain ⟨cc, hrun, hkeep, hcodes⟩ :=
      ih (i := i + 1) (s := { s with cc := tset s.cc i (BitVec.ofNat 258 (code * 2 ^ (l - prev))) }) h.tail hi'
    refine ⟨cc, ?_, fun j hj => ?_, ?_⟩
    · simp only [canonFrom, Nat.shiftLeft_eq, ge_iff_le, Nat.not_le.mpr hlt, if_false, hrun]
    · exact (hkeep j (by omega)).trans (tget_tset_ne _ (by omega) _ _)
    · have hci : tget cc i 0#258 = BitVec.ofNat 258 (code * 2 ^ (l - prev)) :=
        (hkeep i (by omega)).trans (tget_tset_same _ (by omega) _ _)
      have hval : (tget cc i 0#258).toNat = code * 2 ^ (l - prev) := by
        rw [hci]
        exact toNat_ofNat_of_lt_two_pow (h.le_lmax l (by simp)) hlt
      rw [List.length_cons, List.range_succ_eq_map, List.map_cons, List.map_map, canonicalCodes, ← hcodes]
      congr 1
      · simp only [Nat.add_zero, hval, List.getD_cons_zero]
      · refine List.map_congr_left fun j _ => ?_
        simp only [Function.comp_apply, List.getD_cons_succ, Nat.add_right_comm, Nat.add_assoc, Nat.succ_eq_add_one]

/-! ### No code begins another -/

theorem bitstr_getElem (c L j : Nat) (h : j < (bitstr c L).length) : (bitstr c L)[j] = c.testBit (L - 1 - j) := by
  simp [bitstr]

/-- A bit-string that begins another is the other's number without its low bits (R15). -/
theorem eq_div_of_bitstr_prefix {c c' L L' : Nat} (h : bitstr c L <+: bitstr c' L') (hc : c < 2 ^ L)
    (hc' : c' < 2 ^ L') : c = c' / 2 ^ (L' - L) := by
  have hle : L ≤ L' := by simpa using h.length_le
  refine Nat.eq_of_testBit_eq fun k => ?_
  rw [Nat.testBit_div_two_pow]
  rcases Nat.lt_or_ge k L with hk | hk
  · have hj : L - 1 - k < (bitstr c L).length := by simp; omega
    have hbit := h.getElem hj
    rw [bitstr_getElem, bitstr_getElem] at hbit
    rw [show L - 1 - (L - 1 - k) = k by omega, show L' - 1 - (L - 1 - k) = k + (L' - L) by omega] at hbit
    exact hbit
  · rw [Nat.testBit_lt_two_pow (hc.trans_le (Nat.pow_le_pow_right (by decide) hk)),
      Nat.testBit_lt_two_pow (hc'.trans_le (Nat.pow_le_pow_right (by decide) (by omega)))]

/-- Neither of two bit-strings begins with the other. -/
def Apart (p q : List Bool) : Prop := ¬ p <+: q ∧ ¬ q <+: p

theorem apart_bitstr {c c' L L' : Nat} (hL : L ≤ L') (hc : c < 2 ^ L) (hc' : c' < 2 ^ L')
    (hlt : (c + 1) * 2 ^ (L' - L) ≤ c') : Apart (bitstr c L) (bitstr c' L') := by
  have hforth : ¬ bitstr c L <+: bitstr c' L' := fun h => by
    have hdiv := eq_div_of_bitstr_prefix h hc hc'
    have := (Nat.le_div_iff_mul_le (Nat.two_pow_pos _)).mpr hlt
    omega
  refine ⟨hforth, fun h => hforth ?_⟩
  rw [h.eq_of_length_le (by simpa using hL)]

/-- The codes still to come have the value the running integer will have at their length, or more. -/
theorem exists_of_mem_canonicalCodes (h : CanonRoom prev code ls) {w : List Bool}
    (hw : w ∈ canonicalCodes prev code ls) :
    ∃ c L, w = bitstr c L ∧ L ∈ ls ∧ code * 2 ^ (L - prev) ≤ c ∧ c < 2 ^ L := by
  induction ls generalizing prev code with
  | nil => cases hw
  | cons l ls ih =>
    rw [canonicalCodes] at hw
    obtain rfl | hw := List.mem_cons.mp hw
    · exact ⟨_, l, rfl, by simp, le_refl _, h.code_lt⟩
    · obtain ⟨c, L, rfl, hL, hle, hlt⟩ := ih h.tail hw
      refine ⟨c, L, rfl, List.mem_cons_of_mem _ hL, ?_, hlt⟩
      have hp : prev ≤ l := h.ge_prev l (by simp)
      have hl : l ≤ L := h.tail.ge_prev L hL
      calc code * 2 ^ (L - prev) = code * 2 ^ (l - prev) * 2 ^ (L - l) := by
            rw [Nat.mul_assoc, ← Nat.pow_add]; congr 2; omega
        _ ≤ (code * 2 ^ (l - prev) + 1) * 2 ^ (L - l) := Nat.mul_le_mul_right _ (Nat.le_succ _)
        _ ≤ c := hle

/-- R144 (a). -/
theorem canonicalCodes_pairwise_apart (h : CanonRoom prev code ls) : (canonicalCodes prev code ls).Pairwise Apart := by
  induction ls generalizing prev code with
  | nil => exact .nil
  | cons l ls ih =>
    refine List.pairwise_cons.mpr ⟨fun w hw => ?_, ih h.tail⟩
    obtain ⟨c, L, rfl, hL, hle, hlt⟩ := exists_of_mem_canonicalCodes h.tail hw
    exact apart_bitstr (h.tail.ge_prev L hL) h.code_lt hlt hle

theorem ne_nil_of_mem_canonicalCodes (h : CanonRoom prev code ls) (hpos : ∀ l ∈ ls, 1 ≤ l) {w : List Bool}
    (hw : w ∈ canonicalCodes prev code ls) : w ≠ [] := by
  obtain ⟨c, L, rfl, hL, -, -⟩ := exists_of_mem_canonicalCodes h hw
  have := hpos L hL
  refine List.ne_nil_of_length_pos ?_
  rw [bitstr_length]
  omega

end Sys2Proof.Machine
end

section
/-! The trie of codes none of which begins another (spec R162, R163, R167). -/

namespace Sys2Proof.Machine

@[simp] theorem Trie.lookup_nil (p : List Bool) : Trie.nil.lookup p = none := by
  simp [Trie.lookup]

/-- The symbol at a node, none where there is no node. -/
def Trie.val : Trie → Option Sym
  | .nil => none
  | .node _ _ v => v

/-- The child a bit leads to, 0 left and 1 right; no node has no child. -/
def Trie.child : Trie → Bool → Trie
  | .nil, _ => .nil
  | .node c0 c1 _, b => if b then c1 else c0

theorem Trie.lookup_nil_path (t : Trie) : t.lookup [] = t.val := by
  cases t <;> simp [Trie.lookup, Trie.val]

theorem Trie.lookup_cons (t : Trie) (b : Bool) (p : List Bool) : t.lookup (b :: p) = (t.child b).lookup p := by
  cases t with
  | nil => simp [Trie.child]
  | node c0 c1 v => cases b <;> rfl

theorem Trie.val_insert_nil_path (t : Trie) (y : Sym) : (t.insert [] y).val = some y := by
  cases t <;> rfl

theorem Trie.child_insert_nil_path (t : Trie) (y : Sym) (a : Bool) : (t.insert [] y).child a = t.child a := by
  cases t with
  | nil => cases a <;> rfl
  | node c0 c1 v => rfl

theorem Trie.val_insert_cons (t : Trie) (b : Bool) (q : List Bool) (y : Sym) : (t.insert (b :: q) y).val = t.val := by
  cases t <;> cases b <;> rfl

/-- `Insert` goes on in the child its bit leads to and leaves the other child as it is (R163). -/
theorem Trie.child_insert_cons (t : Trie) (b : Bool) (q : List Bool) (y : Sym) (a : Bool) :
    (t.insert (b :: q) y).child a = if a = b then (t.child b).insert q y else t.child a := by
  cases t <;> cases b <;> cases a <;> rfl

/-- `Insert` places its symbol at the end of its path and changes no other path's symbol (R163). -/
theorem Trie.lookup_insert (t : Trie) (q : List Bool) (y : Sym) (p : List Bool) :
    (t.insert q y).lookup p = if p = q then some y else t.lookup p := by
  induction q generalizing t p with
  | nil =>
    cases p with
    | nil => rw [lookup_nil_path, val_insert_nil_path, if_pos rfl]
    | cons a p => rw [lookup_cons, child_insert_nil_path, lookup_cons, if_neg (by simp)]
  | cons b q ih =>
    cases p with
    | nil => rw [lookup_nil_path, val_insert_cons, lookup_nil_path, if_neg (by simp)]
    | cons a p =>
      rw [lookup_cons, child_insert_cons, lookup_cons]
      by_cases hab : a = b
      · subst hab
        rw [if_pos rfl, ih]
        simp
      · rw [if_neg hab, if_neg (by simp [hab])]

theorem Trie.isNil_insert (t : Trie) (q : List Bool) (y : Sym) : (t.insert q y).isNil = false := by
  cases t <;> cases q with
  | nil => rfl
  | cons b q => cases b <;> rfl

/-- No symbol stands on the way to the end of the path, and the end is not there yet: `Insert` makes a leaf of it. -/
def Trie.Free : Trie → List Bool → Prop
  | .nil, _ => True
  | .node _ _ _, [] => False
  | .node c0 c1 v, b :: bs => v = none ∧ if b then c1.Free bs else c0.Free bs

theorem Trie.free_cons (t : Trie) (b : Bool) (p : List Bool) : t.Free (b :: p) ↔ t.val = none ∧ (t.child b).Free p := by
  cases t with
  | nil => exact ⟨fun _ => ⟨rfl, trivial⟩, fun _ => trivial⟩
  | node c0 c1 v => cases b <;> rfl

/-- After an insertion the paths apart from the one inserted are as free as before. -/
theorem Trie.free_insert {t : Trie} {p q : List Bool} (h : t.Free p) (hpq : Apart q p) (y : Sym) :
    (t.insert q y).Free p := by
  induction q generalizing t p with
  | nil => exact absurd List.nil_prefix hpq.1
  | cons b q ih =>
    cases p with
    | nil => exact absurd List.nil_prefix hpq.2
    | cons a p =>
      rw [free_cons] at h ⊢
      obtain ⟨hval, hfree⟩ := h
      rw [val_insert_cons, child_insert_cons]
      refine ⟨hval, ?_⟩
      by_cases hab : a = b
      · subst hab
        rw [if_pos rfl]
        exact ih hfree (by simpa [Apart, List.cons_prefix_cons] using hpq)
      · rwa [if_neg hab]

theorem Trie.proper_insert {t : Trie} {q : List Bool} (ht : t.proper = true) (h : t.Free q) (y : Sym) :
    (t.insert q y).proper = true := by
  induction q generalizing t with
  | nil =>
    cases t with
    | nil => rfl
    | node c0 c1 v => exact h.elim
  | cons b q ih =>
    cases t with
    | nil =>
      have hnew := ih (t := .nil) rfl trivial
      cases b <;> simp [Trie.insert, Trie.proper, Trie.isNil_insert, hnew]
    | node c0 c1 v =>
      obtain ⟨rfl, hc⟩ := h
      rw [Trie.proper] at ht
      split at ht
      · simp at ht
      · simp only [Option.isNone_none, Bool.true_and, Bool.and_eq_true] at ht
        cases b
        · simp [Trie.insert, Trie.proper, Trie.isNil_insert, ih ht.1 (by simpa using hc), ht.2]
        · simp [Trie.insert, Trie.proper, Trie.isNil_insert, ih ht.2 (by simpa using hc), ht.1]

/-- The trie of a root alone. -/
def Trie.root : Trie := .node .nil .nil none

theorem Trie.free_root {p : List Bool} (h : p ≠ []) : Trie.root.Free p := by
  cases p with
  | nil => exact absurd rfl h
  | cons b p => cases b <;> exact ⟨rfl, trivial⟩

theorem Trie.proper_insert_root {p : List Bool} (h : p ≠ []) (y : Sym) : (Trie.root.insert p y).proper = true := by
  cases p with
  | nil => exact absurd rfl h
  | cons b p =>
    have hnew := Trie.proper_insert (t := .nil) (q := p) rfl trivial y
    cases b <;> simp [Trie.root, Trie.insert, Trie.proper, Trie.isNil_insert, hnew]

/-- One `Insert` for each pair of a path and a symbol. -/
def Trie.insertAll (t : Trie) (ps : List (List Bool × Sym)) : Trie := ps.foldl (fun t p => t.insert p.1 p.2) t

@[simp] theorem Trie.insertAll_cons (t : Trie) (p : List Bool × Sym) (ps : List (List Bool × Sym)) :
    t.insertAll (p :: ps) = (t.insert p.1 p.2).insertAll ps := rfl

theorem Trie.lookup_insertAll_of_not_mem (t : Trie) {ps : List (List Bool × Sym)} {q : List Bool}
    (h : q ∉ ps.map Prod.fst) : (t.insertAll ps).lookup q = t.lookup q := by
  induction ps generalizing t with
  | nil => rfl
  | cons p ps ih =>
    simp only [List.map_cons, List.mem_cons, not_or] at h
    rw [insertAll_cons, ih _ h.2, Trie.lookup_insert, if_neg h.1]

theorem Trie.lookup_insertAll_of_mem (t : Trie) {ps : List (List Bool × Sym)} (hnd : (ps.map Prod.fst).Nodup)
    {q : List Bool} {x : Sym} (h : (q, x) ∈ ps) : (t.insertAll ps).lookup q = some x := by
  induction ps generalizing t with
  | nil => cases h
  | cons p ps ih =>
    obtain ⟨hp, hnd'⟩ := List.nodup_cons.mp hnd
    obtain rfl | h := List.mem_cons.mp h
    · rw [insertAll_cons, Trie.lookup_insertAll_of_not_mem _ hp, Trie.lookup_insert, if_pos rfl]
    · exact ih _ hnd' h

theorem Trie.proper_insertAll {t : Trie} {ps : List (List Bool × Sym)} (ht : t.proper = true)
    (hfree : ∀ p ∈ ps.map Prod.fst, t.Free p) (hps : (ps.map Prod.fst).Pairwise Apart) :
    (t.insertAll ps).proper = true := by
  induction ps generalizing t with
  | nil => exact ht
  | cons p ps ih =>
    obtain ⟨hp, hps'⟩ := List.pairwise_cons.mp hps
    refine ih (Trie.proper_insert ht (hfree p.1 (by simp)) _) (fun q hq => ?_) hps'
    exact Trie.free_insert (hfree q (List.mem_cons_of_mem _ hq)) (hp q hq) _

/-- R167 (a): the trie of non-empty codes, of one at least, none of which begins another, is proper. -/
theorem Trie.proper_insertAll_root {ps : List (List Bool × Sym)} (hne : ps ≠ [])
    (hnil : ∀ p ∈ ps.map Prod.fst, p ≠ []) (hps : (ps.map Prod.fst).Pairwise Apart) :
    (Trie.root.insertAll ps).proper = true := by
  cases ps with
  | nil => exact absurd rfl hne
  | cons p ps =>
    obtain ⟨hp, hps'⟩ := List.pairwise_cons.mp hps
    rw [insertAll_cons]
    refine Trie.proper_insertAll (Trie.proper_insert_root (hnil p.1 (by simp)) _) (fun q hq => ?_) hps'
    exact Trie.free_insert (Trie.free_root (hnil q (List.mem_cons_of_mem _ hq))) (hp q hq) _

theorem nodup_of_pairwise_apart {ps : List (List Bool)} (h : ps.Pairwise Apart) : ps.Nodup :=
  by
  refine h.imp ?_
  rintro p _ hab rfl
  exact hab.1 List.prefix_rfl

end Sys2Proof.Machine
end

section
/-! A block's header as lists (spec R71 to R75, R80), and the tables that hold it. -/

namespace Sys2Proof.Machine

/-! ### The first entries of tables -/

/-- Writing the entry after the first entries of a table extends the list of these. -/
theorem take_succ_tset {α : Type} {n : Nat} (t : Vector α n) {i : Nat} (h : i < n) (x : α) :
    (tset t i x).toList.take (i + 1) = t.toList.take i ++ [x] := by
  rw [tset_toList, List.take_add_one, List.take_set_of_le (Nat.le_refl i), List.getElem?_set_self (by simpa using h)]
  rfl

theorem take_tsetPrefix {α : Type} {n : Nat} (t : Vector α n) {xs : List α} (h : xs.length ≤ n) :
    (tsetPrefix t xs).toList.take xs.length = xs := by
  rw [tsetPrefix_toList, List.take_take, Nat.min_eq_left h, List.take_left]

/-- An entry of a table whose first entries are given as a list. -/
theorem tget_of_map_take {α β : Type} {n m : Nat} {t : Vector α n} {f : α → β} {l : List β}
    (h : (t.toList.take m).map f = l) {i : Nat} (hi : i < l.length) (d : α) : f (tget t i d) = l[i] := by
  subst h
  have hlen : i < t.toList.length := by simp at hi ⊢; omega
  rw [tget, List.getD_eq_getElem?_getD, List.getElem?_eq_getElem hlen]
  simp

theorem map_toNat_map_ofNat {w : Nat} {xs : List Nat} (h : ∀ x ∈ xs, x < 2 ^ w) :
    (xs.map (BitVec.ofNat w)).map BitVec.toNat = xs := by
  rw [List.map_map]
  conv_rhs => rw [← List.map_id xs]
  refine List.map_congr_left fun x hx => ?_
  simpa using Nat.mod_eq_of_lt (h x hx)

/-! ### The lengths of a header -/

@[simp] theorem lengthsFrom_length (cs : List Nat) (L : Nat) : (lengthsFrom L cs).length = cs.sum := by
  induction cs generalizing L with
  | nil => rfl
  | cons c cs ih => simp [lengthsFrom, ih]

theorem mem_lengthsFrom {cs : List Nat} {L l : Nat} (h : l ∈ lengthsFrom L cs) : L ≤ l ∧ l < L + cs.length := by
  induction cs generalizing L with
  | nil => cases h
  | cons c cs ih =>
    rw [lengthsFrom] at h
    rw [List.length_cons]
    rcases List.mem_append.mp h with h | h
    · have := List.eq_of_mem_replicate h
      omega
    · have := ih h
      omega

theorem lengthsFrom_sorted (cs : List Nat) (L : Nat) : (lengthsFrom L cs).Pairwise (· ≤ ·) := by
  induction cs generalizing L with
  | nil => exact .nil
  | cons c cs ih =>
    refine List.pairwise_append.mpr ⟨List.pairwise_replicate.mpr (.inr (le_refl _)), ih _, fun a ha b hb => ?_⟩
    have := List.eq_of_mem_replicate ha
    have := (mem_lengthsFrom hb).1
    omega

theorem lengthsFrom_eq_flatMap (cs : List Nat) (L : Nat) :
    lengthsFrom L cs = (List.range cs.length).flatMap fun k => List.replicate (cs.getD k 0) (L + k) := by
  induction cs generalizing L with
  | nil => rfl
  | cons c cs ih =>
    rw [lengthsFrom, ih, List.length_cons, List.range_succ_eq_map, List.flatMap_cons, List.flatMap_map]
    simp [Nat.add_assoc, Nat.add_comm 1]

variable {b : Block}

theorem Block.HeaderOk.room (h : b.HeaderOk) : CanonRoom 0 0 (lengthsFrom 1 b.counts) := by
  obtain ⟨-, -, hcounts, -, -, hk⟩ := h
  refine .zero (lengthsFrom_sorted _ _) (fun l hl => ?_) hk
  have := (mem_lengthsFrom hl).2
  omega

theorem Block.HeaderOk.codes_length (h : b.HeaderOk) : b.codes.length = b.syms.length := by
  obtain ⟨-, -, -, hsum, -, -⟩ := h
  rw [Block.codes, canonicalCodes_length, lengthsFrom_length, hsum]

theorem Block.HeaderOk.codes_apart (h : b.HeaderOk) : b.codes.Pairwise Apart := canonicalCodes_pairwise_apart h.room

theorem Block.HeaderOk.ne_nil_of_mem_codes (h : b.HeaderOk) {code : List Bool} (hc : code ∈ b.codes) : code ≠ [] :=
  ne_nil_of_mem_canonicalCodes h.room (fun _ hl => (mem_lengthsFrom hl).1) hc

/-- A symbol's code is the one at a position the symbol is listed at. -/
theorem Block.exists_of_code_eq_some {x : Nat} {code : List Bool} (h : b.code x = some code) :
    ∃ i, ∃ h : i < b.syms.length, b.syms[i] = x ∧ b.codes[i]? = some code := by
  obtain ⟨i, hi, hcode⟩ := Option.bind_eq_some_iff.mp h
  obtain ⟨hlt, hx, -⟩ := List.findIdx?_eq_some_iff_getElem.mp hi
  exact ⟨i, hlt, by simpa using hx, hcode⟩

theorem Block.HeaderOk.code_ne_nil (h : b.HeaderOk) {x : Nat} {code : List Bool} (hc : b.code x = some code) :
    code ≠ [] := by
  obtain ⟨i, hi, -, hcode⟩ := Block.exists_of_code_eq_some hc
  exact h.ne_nil_of_mem_codes (List.mem_of_getElem? hcode)

/-- A listed symbol has a code. -/
theorem Block.HeaderOk.exists_code (h : b.HeaderOk) {x : Nat} (hx : x ∈ b.syms) : ∃ code, b.code x = some code := by
  obtain ⟨i, hi⟩ : ∃ i, b.syms.findIdx? (· == x) = some i :=
    Option.isSome_iff_exists.mp (by simpa using hx)
  obtain ⟨hlt, -⟩ := List.findIdx?_eq_some_iff_getElem.mp hi
  exact ⟨_, by rw [Block.code, hi, Option.bind_some, List.getElem?_eq_getElem (h.codes_length ▸ hlt)]⟩

theorem Block.HeaderOk.exists_symBits (h : b.HeaderOk) {xs : List Nat} (hx : ∀ x ∈ xs, x ∈ b.syms) :
    ∃ bits, b.symBits xs = some bits := by
  induction xs with
  | nil => exact ⟨[], rfl⟩
  | cons x xs ih =>
    obtain ⟨code, hcode⟩ := h.exists_code (hx x (by simp))
    obtain ⟨bits, hbits⟩ := ih fun y hy => hx y (List.mem_cons_of_mem _ hy)
    exact ⟨code ++ bits, by rw [Block.symBits_cons, hcode, hbits]; rfl⟩

theorem Block.exists_of_symBits_cons {x : Nat} {xs : List Nat} {bits : List Bool}
    (h : b.symBits (x :: xs) = some bits) :
    ∃ code rest, b.code x = some code ∧ b.symBits xs = some rest ∧ bits = code ++ rest := by
  rw [Block.symBits_cons] at h
  obtain ⟨code, hcode, h⟩ := Option.bind_eq_some_iff.mp h
  obtain ⟨rest, hrest, rfl⟩ := Option.map_eq_some_iff.mp h
  exact ⟨code, rest, hcode, hrest, rfl⟩

theorem Block.exists_of_symBits_append {xs ys : List Nat} {bits : List Bool} (h : b.symBits (xs ++ ys) = some bits) :
    ∃ cs ds, b.symBits xs = some cs ∧ b.symBits ys = some ds ∧ bits = cs ++ ds := by
  rw [Block.symBits_append] at h
  obtain ⟨cs, hcs, h⟩ := Option.bind_eq_some_iff.mp h
  obtain ⟨ds, hds, rfl⟩ := Option.map_eq_some_iff.mp h
  exact ⟨cs, ds, hcs, hds, rfl⟩

/-- Every symbol takes a bit at least (R261). -/
theorem Block.HeaderOk.length_le_symBits (h : b.HeaderOk) {xs : List Nat} {bits : List Bool}
    (hbits : b.symBits xs = some bits) : xs.length ≤ bits.length := by
  induction xs generalizing bits with
  | nil => exact Nat.zero_le _
  | cons x xs ih =>
    obtain ⟨code, rest, hcode, hrest, rfl⟩ := Block.exists_of_symBits_cons hbits
    have hpos := List.length_pos_iff.mpr (h.code_ne_nil hcode)
    have := ih hrest
    simp
    omega

/-- The parts of a block's bits: the header, then the codes of the name, of the content and FILENAME_END, of the
trailer. -/
theorem Block.exists_of_bits {trailer : Nat} {bits : List Bool} (h : b.bits trailer = some bits) :
    ∃ n c e, b.symBits (b.name.map BitVec.toNat) = some n ∧
      b.symBits (b.content.map BitVec.toNat ++ [Config.filenameEnd]) = some c ∧ b.code trailer = some e ∧
      bits = b.headerBits ++ (n ++ (c ++ e)) := by
  obtain ⟨cs, hcs, rfl⟩ := Option.map_eq_some_iff.mp h
  have hsplit : (b.name ++ b.content).map BitVec.toNat ++ [Config.filenameEnd, trailer] =
      b.name.map BitVec.toNat ++ ((b.content.map BitVec.toNat ++ [Config.filenameEnd]) ++ [trailer]) := by simp
  rw [hsplit] at hcs
  obtain ⟨n, ds, hn, hds, rfl⟩ := Block.exists_of_symBits_append hcs
  obtain ⟨c, es, hc, hes, rfl⟩ := Block.exists_of_symBits_append hds
  obtain ⟨e, last, he, hlast, rfl⟩ := Block.exists_of_symBits_cons hes
  obtain rfl : [] = last := Option.some.inj hlast
  exact ⟨n, c, e, hn, hc, he, by rw [List.append_nil]⟩

/-! ### The tables that hold a header and its codes -/

/-- HN, ORD, MAXL and CNTL hold the block's header (R31, R32, R71). -/
structure State.HasHeader (s : State) (b : Block) : Prop where
  hn : s.hn.toNat = b.syms.length
  ord : (s.ord.toList.take b.syms.length).map BitVec.toNat = b.syms
  maxl : s.maxl.toNat = b.counts.length
  cntl : (s.cntl.toList.take b.counts.length).map BitVec.toNat = b.counts

/-- CL and CC hold the codes of the header's positions (R33, R80). -/
def State.HasCodes (s : State) (b : Block) : Prop := (List.range b.syms.length).map s.codeAt = b.codes

/-- CL holds the header's lengths (R33, R74). -/
def State.HasLengths (s : State) (b : Block) : Prop :=
  (s.cl.toList.take b.syms.length).map BitVec.toNat = lengthsFrom 1 b.counts

variable {s : State}

theorem State.HasHeader.ordAt (h : s.HasHeader b) {i : Nat} (hi : i < b.syms.length) : (s.ordAt i).toNat = b.syms[i] :=
  tget_of_map_take h.ord hi _

theorem State.HasHeader.cntlAt (h : s.HasHeader b) {k : Nat} (hk : k < b.counts.length) :
    (s.cntlAt (k + 1)).toNat = b.counts[k] := tget_of_map_take h.cntl hk _

/-- `CanonCodes` on the lengths of an acceptable header completes and makes its codes (R140, R80). -/
theorem canonCodes_of_hasLengths (hb : b.HeaderOk) (hl : s.HasLengths b) :
    ∃ cc, canonCodes b.syms.length s = .done () { s with cc := cc } ∧ ({ s with cc := cc } : State).HasCodes b := by
  have hlen : (lengthsFrom 1 b.counts).length = b.syms.length := by
    obtain ⟨-, -, -, hsum, -, -⟩ := hb
    rw [lengthsFrom_length, hsum]
  obtain ⟨cc, hrun, -, hcodes⟩ := canonFrom_spec (i := 0) (s := s) hb.room (by rw [hlen, Nat.zero_add]; exact hb.1)
  refine ⟨cc, by rw [canonCodes, hl, hrun], ?_⟩
  rw [State.HasCodes, Block.codes, ← hcodes, hlen]
  refine List.map_congr_left fun i hi => ?_
  have hi' : i < (lengthsFrom 1 b.counts).length := by rw [hlen]; simpa using hi
  have hcl : (s.clAt i).toNat = (lengthsFrom 1 b.counts)[i] := tget_of_map_take hl hi' _
  show bitstr _ (s.clAt i).toNat = _
  rw [hcl, Nat.zero_add, List.getD_eq_getElem?_getD, List.getElem?_eq_getElem hi']
  rfl

end Sys2Proof.Machine
end

section
/-! The header reader and the trie builder on the bits of an acceptable header (spec R160, R162). -/

namespace Sys2Proof.Machine

variable {s : State} {b : Block} {rest : List Bool}

@[simp] theorem State.pending_clearFlags (s : State) (fs : List Flag) : (s.clearFlags fs).pending = s.pending := by
  simp [State.pending]

theorem ReaderOk.clearFlags (h : ReaderOk s) (fs : List Flag) : ReaderOk (s.clearFlags fs) := by
  simpa [ReaderOk] using h

/-- A value written by `WriteBits` and pending is read back (R101, R103). -/
theorem readBits_valueBits {v n : Nat} (h : ReaderOk s) (hv : v < 2 ^ n) (hp : s.pending = valueBits v n ++ rest) :
    ∃ t, readBits n s = .done v t ∧ t.pending = rest ∧ ReaderOk t ∧
      t = { s with rbuf := t.rbuf, rcnt := t.rcnt, host.arcPos := t.host.arcPos } := by
  obtain ⟨t, ht, hpt, hok, hsh⟩ := readBits_spec n h (by simp [hp])
  rw [hp, List.take_left' (valueBits_length v n), bitsValue_valueBits, Nat.mod_eq_of_lt hv] at ht
  rw [hp, List.drop_left' (valueBits_length v n)] at hpt
  exact ⟨t, ht, hpt, hok, hsh⟩

/-- The bits of 9-bit fields (R72). -/
abbrev fields9 (vs : List Nat) : List Bool := vs.flatMap fun v => valueBits v Config.symW

theorem rhdrSymbols_spec (xs : List Nat) {i : Nat} {s : State} (h : ReaderOk s) (hx : ∀ x ∈ xs, x < Config.nsym)
    (hi : i + xs.length ≤ 511) (hp : s.pending = fields9 xs ++ rest) :
    ∃ t, rhdrSymbols i xs.length s = .done () t ∧
      t.ord.toList.take (i + xs.length) = s.ord.toList.take i ++ xs.map (BitVec.ofNat 9) ∧
      t.pending = rest ∧ ReaderOk t ∧
      t = { s with rbuf := t.rbuf, rcnt := t.rcnt, ord := t.ord, host.arcPos := t.host.arcPos } := by
  induction xs generalizing i s with
  | nil => exact ⟨s, rfl, by simp, hp, h, rfl⟩
  | cons x xs ih =>
    have hx259 : x < 259 := hx x (by simp)
    rw [List.length_cons] at hi
    obtain ⟨u, hu, hpu, hok, hsh⟩ := readBits_valueBits (v := x) (n := Config.symW) h
      (by simp only [Config.symW]; omega) (by simpa using hp)
    obtain ⟨t, ht, hord, hpt, hok', hsh'⟩ := ih (i := i + 1)
      (s := { u with ord := tset u.ord i (BitVec.ofNat 9 x) }) hok (fun y hy => hx y (List.mem_cons_of_mem _ hy))
      (by omega) hpu
    refine ⟨t, ?_, ?_, hpt, hok', by rw [hsh', hsh]⟩
    · simp only [List.length_cons, rhdrSymbols, hu, Run.bind_done, if_neg (show ¬ x > 258 by omega), ht]
    · rw [List.length_cons, ← Nat.add_assoc, Nat.add_right_comm, hord]
      dsimp only
      rw [take_succ_tset _ (by omega), hsh, List.map_cons, List.append_assoc, List.singleton_append]

theorem sum_pos_of_getLast?_ne_zero {c : Nat} {cs : List Nat} (h : (c :: cs).getLast? ≠ some 0) :
    0 < (c :: cs).sum := by
  have hne : (c :: cs).getLast (by simp) ≠ 0 := fun e => h (by rw [List.getLast?_eq_some_getLast (by simp), e])
  have hle := List.single_le_sum (fun _ _ => Nat.zero_le _) _ (List.getLast_mem (l := c :: cs) (by simp))
  omega

/-- The reader stops at the count that completes the sum (R160). -/
theorem rhdrCounts_spec (cs : List Nat) {sum room : Nat} {s : State} (h : ReaderOk s)
    (hsum : sum + cs.sum = s.hn.toNat) (hlast : cs.getLast? ≠ some 0) (hroom : cs.length ≤ room)
    (hmaxl : s.maxl.toNat + room = 258) (hhn : s.hn.toNat ≤ 511) (hp : s.pending = fields9 cs ++ rest) :
    ∃ t, rhdrCounts sum room s = .done () t ∧ t.maxl.toNat = s.maxl.toNat + cs.length ∧
      t.cntl.toList.take (s.maxl.toNat + cs.length) = s.cntl.toList.take s.maxl.toNat ++ cs.map (BitVec.ofNat 9) ∧
      t.pending = rest ∧ ReaderOk t ∧
      t = { s with
        rbuf := t.rbuf, rcnt := t.rcnt, cntl := t.cntl, maxl := t.maxl, host.arcPos := t.host.arcPos } := by
  induction cs generalizing sum room s with
  | nil =>
    have hdone : ¬ sum < s.hn.toNat := by simp at hsum; omega
    refine ⟨s, ?_, rfl, by simp, hp, h, rfl⟩
    cases room <;> simp only [rhdrCounts, if_neg hdone]
  | cons c cs ih =>
    have hpos := sum_pos_of_getLast?_ne_zero hlast
    rw [List.sum_cons] at hsum hpos
    have hlast' : cs.getLast? ≠ some 0 := by
      cases cs with
      | nil => simp
      | cons d ds => simpa using hlast
    cases room with
    | zero => simp at hroom
    | succ room =>
      have hmaxl' : (s.maxl + 1#9).toNat = s.maxl.toNat + 1 := by bv_omega
      rw [fields9, List.flatMap_cons, List.append_assoc] at hp
      obtain ⟨u, hu, hpu, hok, hsh⟩ := readBits_valueBits (v := c) (n := Config.symW)
        (s := { s with maxl := s.maxl + 1#9 }) h (by simp only [Config.symW]; omega) hp
      have hum : u.maxl = s.maxl + 1#9 := by rw [hsh]
      have huh : u.hn = s.hn := by rw [hsh]
      obtain ⟨t, ht, hmax, hcntl, hpt, hok', hsh'⟩ := ih (sum := sum + c) (room := room)
        (s := { u with cntl := tset u.cntl (u.maxl.toNat - 1) (BitVec.ofNat 9 c) }) hok
        (by dsimp only; rw [huh]; omega) hlast' (by simpa using hroom)
        (by dsimp only; rw [hum, hmaxl']; omega) (by dsimp only; rw [huh]; exact hhn) hpu
      dsimp only at hmax hcntl
      rw [hum, hmaxl'] at hmax hcntl
      refine ⟨t, ?_, by rw [hmax, List.length_cons]; omega, ?_, hpt, hok', by rw [hsh', hsh]⟩
      · simp only [rhdrCounts, if_pos (show sum < s.hn.toNat by omega), hu, Run.bind_done,
          if_neg (show ¬ sum + c > u.hn.toNat by rw [huh]; omega), ht]
      · rw [List.length_cons, ← Nat.add_assoc, Nat.add_right_comm, hcntl, Nat.add_sub_cancel,
          take_succ_tset _ (by omega), hsh, List.map_cons, List.append_assoc, List.singleton_append]

theorem Block.headerBits_eq (b : Block) :
    b.headerBits = valueBits b.syms.length Config.symW ++ (fields9 b.syms ++ fields9 b.counts) := by
  rw [Block.headerBits, List.flatMap_cons, List.flatMap_append]

/-- RHDR takes the bits of an acceptable header, and the header's registers hold it (R160). -/
theorem rhdrBody_spec (hb : b.HeaderOk) (h : ReaderOk s) (hp : s.pending = b.headerBits ++ rest) :
    ∃ t, rhdrBody s = .done () t ∧ t.HasHeader b ∧ t.pending = rest ∧ ReaderOk t ∧
      t = { s with
        rbuf := t.rbuf, rcnt := t.rcnt, hn := t.hn, ord := t.ord, cntl := t.cntl, maxl := t.maxl,
        status := ((s.clearFlags chainFromHeader).setFlag .hValid true).status, host.arcPos := t.host.arcPos } := by
  obtain ⟨hlen, hsyms, hcounts, hsum, hlast, -⟩ := hb
  simp only [Config.hnMax, Config.lmax] at hlen hcounts
  rw [b.headerBits_eq, List.append_assoc, List.append_assoc] at hp
  obtain ⟨u, hu, hpu, hok, hsh⟩ := readBits_valueBits (v := b.syms.length) (n := Config.symW)
    (s := s.clearFlags chainFromHeader) (h.clearFlags _) (by rw [Config.symW]; omega)
    (by rw [State.pending_clearFlags]; exact hp)
  have hhn : (BitVec.ofNat 10 b.syms.length).toNat = b.syms.length := by simp; omega
  obtain ⟨v, hv, hord, hpv, hok', hsh'⟩ := rhdrSymbols_spec b.syms (i := 0)
    (s := { u with hn := BitVec.ofNat 10 b.syms.length }) hok hsyms (by omega) hpu
  have hvh : v.hn = BitVec.ofNat 10 b.syms.length := by rw [hsh']
  obtain ⟨t, ht, hmaxl, hcntl, hpt, hok'', hsh''⟩ := rhdrCounts_spec b.counts (sum := 0) (room := Config.lmax)
    (s := { v with cntl := Vector.replicate 258 0#9, maxl := 0#9 }) hok'
    (by dsimp only; rw [hvh, hhn]; omega) hlast hcounts rfl
    (by dsimp only; rw [hvh, hhn]; exact hlen) hpv
  have hto : t.ord = v.ord := by rw [hsh'']
  have hth : t.hn = v.hn := by rw [hsh'']
  refine ⟨t.setFlag .hValid true, ?_, ⟨?_, ?_, ?_, ?_⟩, hpt, hok'', ?_⟩
  · simp only [rhdrBody, hu, Run.bind_done, hv, Run.andThen_done, ht]
  · rw [State.setFlag_hn, hth, hvh, hhn]
  · rw [State.setFlag_ord, hto]
    simp only [Nat.zero_add, List.take_zero, List.nil_append] at hord
    rw [hord]
    exact map_toNat_map_ofNat fun x hx => (hsyms x hx).trans (by decide)
  · rw [State.setFlag_maxl, hmaxl]; simp
  · have hlt : ∀ c ∈ b.counts, c < 2 ^ 9 := fun c hc => by
      have := List.single_le_sum (fun _ _ => Nat.zero_le _) c hc
      omega
    simp only [BitVec.toNat_ofNat, Nat.zero_mod, Nat.zero_add, List.take_zero, List.nil_append] at hcntl
    rw [State.setFlag_cntl, hcntl]
    exact map_toNat_map_ofNat hlt
  · have hc := State.clearFlags_shape s chainFromHeader
    generalize s.clearFlags chainFromHeader = c at hc hsh ⊢
    rw [hsh'', hsh', hsh, hc]
    rfl

/-! ### TBUILD -/

/-- The bits of a listed symbol's code lead through a proper trie to the symbol (R164, R167). -/
def State.Decodes (s : State) (b : Block) : Prop :=
  s.tn.proper = true ∧ ∀ x code, b.code x = some code → ∃ y : Sym, y.toNat = x ∧ s.tn.lookup code = some y

theorem State.HasHeader.headerLengths (h : s.HasHeader b) (hb : b.HeaderOk) :
    s.headerLengths.map BitVec.toNat = lengthsFrom 1 b.counts := by
  obtain ⟨-, -, hcounts, -, -, -⟩ := hb
  rw [Config.lmax] at hcounts
  rw [State.headerLengths, h.maxl, lengthsFrom_eq_flatMap, List.map_flatMap]
  refine List.flatMap_congr fun k hk => ?_
  have hk' : k < b.counts.length := List.mem_range.mp hk
  rw [List.map_replicate, h.cntlAt hk', List.getD_eq_getElem?_getD, List.getElem?_eq_getElem hk', BitVec.toNat_ofNat,
    Nat.mod_eq_of_lt (by omega), Nat.add_comm]
  rfl

/-- The pairs TBUILD inserts, one for each position (R162). -/
def State.headerPairs (s : State) : List (List Bool × Sym) :=
  (List.range s.hn.toNat).map fun i => (s.codeAt i, s.ordAt i)

theorem State.headerTrie_eq (s : State) : s.headerTrie = Trie.root.insertAll s.headerPairs := by
  rw [State.headerPairs, Trie.insertAll, List.foldl_map]
  rfl

theorem State.HasHeader.map_fst_headerPairs (h : s.HasHeader b) (hc : s.HasCodes b) :
    s.headerPairs.map Prod.fst = b.codes := by
  rw [State.headerPairs, List.map_map, h.hn, ← hc]
  rfl

/-- The trie of an acceptable header decodes its codes (R167). -/
theorem State.HasHeader.lookup_headerTrie (h : s.HasHeader b) (hc : s.HasCodes b) (hb : b.HeaderOk) {x : Nat}
    {code : List Bool} (hcode : b.code x = some code) : ∃ y : Sym, y.toNat = x ∧ s.headerTrie.lookup code = some y := by
  obtain ⟨i, hi, hx, hget⟩ := Block.exists_of_code_eq_some hcode
  have hcodeAt : s.codeAt i = code := by
    rw [← hc, List.getElem?_map, List.getElem?_range hi] at hget
    exact Option.some.inj hget
  have hmem : (code, s.ordAt i) ∈ s.headerPairs :=
    List.mem_map.mpr ⟨i, List.mem_range.mpr (h.hn ▸ hi), by rw [hcodeAt]⟩
  refine ⟨s.ordAt i, (h.ordAt hi).trans hx, ?_⟩
  rw [s.headerTrie_eq]
  refine Trie.lookup_insertAll_of_mem _ ?_ hmem
  rw [h.map_fst_headerPairs hc]
  exact nodup_of_pairwise_apart hb.codes_apart

theorem State.HasHeader.proper_headerTrie (h : s.HasHeader b) (hc : s.HasCodes b) (hb : b.HeaderOk)
    (hne : b.syms ≠ []) : s.headerTrie.proper = true := by
  have hfst := h.map_fst_headerPairs hc
  rw [s.headerTrie_eq]
  refine Trie.proper_insertAll_root (fun e => hne ?_) ?_ ?_
  · rw [e, List.map_nil] at hfst
    have := hb.codes_length
    rw [← hfst] at this
    exact List.eq_nil_of_length_eq_zero this.symm
  · rw [hfst]
    exact fun p hp => hb.ne_nil_of_mem_codes hp
  · rw [hfst]
    exact hb.codes_apart

/-- TBUILD makes a trie that decodes the header's codes (R162). -/
theorem tbuildBody_spec (h : s.HasHeader b) (hb : b.HeaderOk) (hne : b.syms ≠ []) :
    ∃ t, tbuildBody s = .done () t ∧ t.Decodes b ∧
      t = { s with
        cl := t.cl, cc := t.cc, tn := t.tn,
        status := (((s.clearFlags chainFromCodes).setFlag .cValid true).setFlag .trValid true).status } := by
  let u : State := { s.clearFlags chainFromCodes with
    cl := tsetPrefix (s.clearFlags chainFromCodes).cl (s.clearFlags chainFromCodes).headerLengths }
  have hu : u.HasHeader b := by
    obtain ⟨h1, h2, h3, h4⟩ := h
    constructor <;> simp [u, h1, h2, h3, h4]
  have hlens : (s.clearFlags chainFromCodes).headerLengths = s.headerLengths := by
    simp [State.headerLengths, State.cntlAt]
  have hmap := h.headerLengths hb
  have hlen : s.headerLengths.length = b.syms.length := by
    obtain ⟨-, -, -, hsum, -, -⟩ := hb
    rw [← hsum, ← lengthsFrom_length b.counts 1, ← hmap, List.length_map]
  have hul : u.HasLengths b := by
    have hle : s.headerLengths.length ≤ 511 := hlen ▸ hb.1
    show ((tsetPrefix _ (s.clearFlags chainFromCodes).headerLengths).toList.take _).map _ = _
    rw [hlens, ← hlen, take_tsetPrefix _ hle, hmap]
  obtain ⟨cc, hrun, hcodes⟩ := canonCodes_of_hasLengths hb hul
  have hv : ({ u with cc := cc } : State).HasHeader b := ⟨hu.hn, hu.ord, hu.maxl, hu.cntl⟩
  refine ⟨(({ { u with cc := cc } with tn := ({ u with cc := cc } : State).headerTrie }).setFlag .cValid true).setFlag
    .trValid true, ?_, ⟨hv.proper_headerTrie hcodes hb hne, fun x code hx => hv.lookup_headerTrie hcodes hb hx⟩, ?_⟩
  · rw [← hu.hn] at hrun
    show ((canonCodes u.hn.toNat u).andThen _) = _
    rw [hrun]
    rfl
  · have hc := State.clearFlags_shape s chainFromCodes
    simp only [u]
    generalize s.clearFlags chainFromCodes = c at hc ⊢
    rw [hc]
    rfl

end Sys2Proof.Machine
end

section
/-! DECFILE and DECOMPRESS on the bits of blocks with acceptable headers and good names (spec R183 to R186, R189). -/

namespace Sys2Proof.Machine

variable {s : State} {b : Block} {bits rest : List Bool}

/-- `GetSymbol` on the bits of a code takes them and answers its symbol (R164). -/
theorem getSymbol_spec {x : Nat} {code : List Bool} (h : ReaderOk s) (hd : s.Decodes b) (hc : b.code x = some code)
    (hp : s.pending = code ++ rest) :
    ∃ y t, getSymbol s = .done y t ∧ y.toNat = x ∧ t.pending = rest ∧ ReaderOk t ∧
      t = { s with rbuf := t.rbuf, rcnt := t.rcnt, host.arcPos := t.host.arcPos } := by
  obtain ⟨hproper, hlookup⟩ := hd
  obtain ⟨y, hy, hl⟩ := hlookup x code hc
  have hnil : s.tn.isNil = false := by
    cases htn : s.tn with
    | nil => rw [htn, Trie.lookup_nil] at hl; cases hl
    | node c0 c1 v => rfl
  obtain ⟨t, ht, hpt, hok, hsh⟩ := trieWalk_path h hproper hl hp
  exact ⟨y, t, by rw [getSymbol, hnil, ht]; rfl, hy, hpt, hok, hsh⟩

theorem setWidth_eq_of_toNat_eq {y : Sym} {x : Byte} (h : y.toNat = x.toNat) : y.setWidth 8 = x := by
  apply BitVec.eq_of_toNat_eq
  rw [BitVec.toNat_setWidth, h, Nat.mod_eq_of_lt x.isLt]

/-- A name with room for one byte more is not full (R184, R205). -/
theorem nameFull_of_nameFits {ext : List Byte} (hne : ext ≠ []) (h : s.nameFits (s.name ++ ext)) :
    s.nameFull = false := by
  have hpos := List.length_pos_iff.mpr hne
  unfold State.nameFits State.nameTooLong at h
  unfold State.nameFull
  cases hm : s.nameMax with
  | none => rfl
  | some m =>
    rw [hm] at h
    simp only [decide_eq_false_iff_not, List.length_append] at h
    simp only [beq_eq_false_iff_ne]
    omega

/-- The name phase takes the codes of what is missing of a good name (R184). -/
theorem nameLoop_spec (xs : List Byte) {fuel : Nat} {s : State} {bits : List Bool} (hne : xs ≠ []) (h : ReaderOk s)
    (hd : s.Decodes b) (hgood : GoodName (s.name ++ xs)) (hfit : s.nameFits (s.name ++ xs)) (hf : xs.length ≤ fuel)
    (hbits : b.symBits (xs.map BitVec.toNat) = some bits) (hp : s.pending = bits ++ rest) :
    ∃ t, nameLoop fuel s = .done () t ∧ t.name = s.name ++ xs ∧ t.pending = rest ∧ ReaderOk t ∧
      t = { s with rbuf := t.rbuf, rcnt := t.rcnt, name := t.name, host.arcPos := t.host.arcPos } := by
  induction xs generalizing fuel s bits with
  | nil => exact absurd rfl hne
  | cons x xs ih =>
    cases fuel with
    | zero => simp at hf
    | succ fuel =>
      obtain ⟨code, more, hcode, hmore, rfl⟩ := Block.exists_of_symBits_cons hbits
      rw [List.append_assoc] at hp
      obtain ⟨y, u, hu, hy, hpu, hok, hsh⟩ := getSymbol_spec h hd hcode hp
      have hname : u.name = s.name := by rw [hsh]
      have hmax : u.nameMax = s.nameMax := by rw [hsh]
      have hlt : ¬ y.toNat ≥ 256 := by have := x.isLt; omega
      have hfull : u.nameFull = false := by
        simp only [State.nameFull, hname, hmax]
        exact nameFull_of_nameFits hne hfit
      have hstep : nameLoop (fuel + 1) s =
          if nameComplete (s.name ++ [x]) then .done () { u with name := s.name ++ [x] }
          else nameLoop fuel { u with name := s.name ++ [x] } := by
        simp only [nameLoop, hu, Run.bind_done, if_neg hlt, hfull, Bool.false_eq_true, if_false, hname,
          setWidth_eq_of_toNat_eq hy]
      rw [hstep]
      cases xs with
      | nil =>
        obtain rfl : [] = more := Option.some.inj hmore
        refine ⟨{ u with name := s.name ++ [x] }, if_pos hgood.1, rfl, hpu, hok, by rw [hsh]⟩
      | cons x' xs =>
        have hassoc : s.name ++ [x] ++ x' :: xs = s.name ++ x :: x' :: xs := by simp
        have hopen : nameComplete (s.name ++ [x]) = false := by
          have := hgood.2 (s.name.length + 1) (by simp)
          rwa [show s.name ++ x :: x' :: xs = (s.name ++ [x]) ++ x' :: xs by simp,
            List.take_left' (by simp)] at this
        rw [hopen, if_neg (by decide)]
        obtain ⟨t, ht, htn, hpt, hok', hsh'⟩ := ih (fuel := fuel) (s := { u with name := s.name ++ [x] }) (by simp) hok
          (by rw [hsh]; exact hd) (by rw [hassoc]; exact hgood)
          (by rw [hassoc]; simp only [State.nameFits, State.nameTooLong, hmax]; exact hfit) (by simpa using hf) hmore
          hpu
        exact ⟨t, ht, by rw [htn, hassoc], hpt, hok', by rw [hsh', hsh]⟩

/-- The content phase takes the codes of the content and of FILENAME_END (R185). -/
theorem contentLoop_spec (xs : List Byte) {fuel : Nat} {s : State} {bits : List Bool}
    {os : List (List Byte × List Byte)} {o : List Byte × List Byte} (h : ReaderOk s) (hd : s.Decodes b)
    (hf : xs.length < fuel)
    (hbits : b.symBits (xs.map BitVec.toNat ++ [Config.filenameEnd]) = some bits) (hp : s.pending = bits ++ rest)
    (ho : s.host.outputs = os ++ [o]) :
    ∃ t, contentLoop fuel s = .done () t ∧ t.host.outputs = os ++ [(o.1, o.2 ++ xs)] ∧ t.pending = rest ∧ ReaderOk t ∧
      t = { s with
        rbuf := t.rbuf, rcnt := t.rcnt, host.arcPos := t.host.arcPos, host.outputs := t.host.outputs } := by
  induction xs generalizing fuel s bits o with
  | nil =>
    cases fuel with
    | zero => simp at hf
    | succ fuel =>
      obtain ⟨code, more, hcode, hmore, rfl⟩ := Block.exists_of_symBits_cons hbits
      obtain rfl : [] = more := Option.some.inj hmore
      rw [List.append_assoc] at hp
      obtain ⟨y, t, ht, hy, hpt, hok, hsh⟩ := getSymbol_spec h hd hcode hp
      have hge : ¬ y.toNat < 256 := by rw [hy]; decide
      refine ⟨t, ?_, ?_, hpt, hok, by rw [hsh]⟩
      · simp only [contentLoop, ht, Run.bind_done, if_neg hge, if_pos hy]
      · rw [hsh]; simpa using ho
  | cons x xs ih =>
    cases fuel with
    | zero => simp at hf
    | succ fuel =>
      obtain ⟨code, more, hcode, hmore, rfl⟩ := Block.exists_of_symBits_cons hbits
      rw [List.append_assoc] at hp
      obtain ⟨y, u, hu, hy, hpu, hok, hsh⟩ := getSymbol_spec h hd hcode hp
      have hlt : y.toNat < 256 := by rw [hy]; exact x.isLt
      have huo : u.host.outputs = os ++ [o] := by rw [hsh]; exact ho
      obtain ⟨t, ht, hto, hpt, hok', hsh'⟩ := ih (fuel := fuel) (s := memWriteDst u x) (o := (o.1, o.2 ++ [x])) hok
        (by rw [hsh]; exact hd) (by simpa using hf) hmore hpu
        (by simp only [memWriteDst, huo, appendToLast_concat])
      refine ⟨t, ?_, by rw [hto]; simp, hpt, hok', by rw [hsh', memWriteDst, hsh]⟩
      simp only [contentLoop, hu, Run.bind_done, if_pos hlt, setWidth_eq_of_toNat_eq hy, ht]

theorem trailer_spec {x : Nat} {code : List Bool} (h : ReaderOk s) (hd : s.Decodes b) (hc : b.code x = some code)
    (hx : x = Config.oneMoreFile ∨ x = Config.archiveEnd) (hp : s.pending = code ++ rest) :
    ∃ y t, trailer s = .done y t ∧ y.toNat = x ∧ t.pending = rest ∧ ReaderOk t ∧
      t = { s with rbuf := t.rbuf, rcnt := t.rcnt, host.arcPos := t.host.arcPos } := by
  obtain ⟨y, t, ht, hy, hpt, hok, hsh⟩ := getSymbol_spec h hd hc hp
  refine ⟨y, t, ?_, hy, hpt, hok, hsh⟩
  have hlegal : ¬ (y.toNat ≠ Config.oneMoreFile ∧ y.toNat ≠ Config.archiveEnd) := by rw [hy]; tauto
  simp only [trailer, ht, Run.bind_done, if_neg hlegal]

theorem dopenBody_of_ok (h : s.host.dst.ok s.name = true) :
    dopenBody s = .done () ({ s with host.outputs := s.host.outputs ++ [(s.name, [])] }.setFlag .dOpen true) := by
  obtain ⟨-, e⟩ | ⟨hno, -⟩ := hostOpenDst_cases s.name s
  · rw [dopenBody, e]
  · rw [h] at hno; cases hno

theorem State.bitsLeft_eq (s : State) : s.bitsLeft = s.pending.length := (State.pending_length s).symm

/-- A body that clears flags of the chain and then sets one of it leaves the other flags as they are (R40). -/
theorem flag_of_chain {s t : State} {fs : List Flag} {g : Flag}
    (hs : t.status = ((s.clearFlags fs).setFlag g true).status) (hsub : ∀ x ∈ g :: fs, x ∈ chainFromFreq) {f : Flag}
    (hf : f ∉ chainFromFreq) : t.flag f = s.flag f := by
  have hg : f ≠ g := by
    rintro rfl
    exact hf (hsub f (by simp))
  have hfs : f ∉ fs := fun hmem => hf (hsub f (List.mem_cons_of_mem _ hmem))
  rw [State.flag_congr hs, State.flag_setFlag, if_neg hg, State.flag_clearFlags]
  simp [hfs]

/-- The same for a body that sets two flags of the chain. -/
theorem flag_of_chain_pair {s t : State} {fs : List Flag} {g g' : Flag}
    (hs : t.status = (((s.clearFlags fs).setFlag g true).setFlag g' true).status)
    (hsub : ∀ x ∈ g' :: g :: fs, x ∈ chainFromFreq) {f : Flag} (hf : f ∉ chainFromFreq) : t.flag f = s.flag f := by
  have hg : f ≠ g' := by
    rintro rfl
    exact hf (hsub f (by simp))
  rw [State.flag_congr hs, State.flag_setFlag, if_neg hg]
  exact flag_of_chain rfl (fun x hx => hsub x (List.mem_cons_of_mem _ hx)) hf

theorem Block.ne_nil_of_code {x : Nat} {code : List Bool} (h : b.code x = some code) : b.syms ≠ [] := by
  obtain ⟨i, hi, -, -⟩ := Block.exists_of_code_eq_some h
  exact List.ne_nil_of_length_pos (by omega)

theorem ne_nil_of_goodName {name : List Byte} (h : GoodName name) : name ≠ [] := by
  rintro rfl
  exact absurd h.1 (by decide)

/-- DECFILE takes exactly the bits of a block and makes its output (R183). -/
theorem decfileBody_spec {trailer : Nat} (hb : b.HeaderOk) (hgood : GoodName b.name) (hfit : s.nameFits b.name)
    (hdst : s.host.dst.ok b.name = true) (htrailer : trailer = Config.oneMoreFile ∨ trailer = Config.archiveEnd)
    (hbits : b.bits trailer = some bits) (h : ReaderOk s) (hp : s.pending = bits ++ rest) :
    ∃ y t, decfileBody s = .done y t ∧ y.toNat = trailer ∧ t.pending = rest ∧ ReaderOk t ∧
      t.host.outputs = s.host.outputs ++ [(b.name, b.content)] ∧ t.flag .faulted = s.flag .faulted ∧
      t = { s with
        rbuf := t.rbuf, rcnt := t.rcnt, res := t.res, hn := t.hn, ord := t.ord, cntl := t.cntl, maxl := t.maxl,
        cl := t.cl, cc := t.cc, tn := t.tn, name := t.name, status := t.status, host.arcPos := t.host.arcPos,
        host.outputs := t.host.outputs } := by
  obtain ⟨n, c, e, hn, hc, he, rfl⟩ := Block.exists_of_bits hbits
  simp only [List.append_assoc] at hp
  obtain ⟨s1, h1, hheader, hp1, hok1, hsh1⟩ := rhdrBody_spec hb h hp
  obtain ⟨s2, h2, hdec, hsh2⟩ := tbuildBody_spec hheader hb (Block.ne_nil_of_code he)
  have hp2 : s2.pending = n ++ (c ++ (e ++ rest)) := by rw [hsh2]; exact hp1
  have hok2 : ReaderOk s2 := by rw [hsh2]; exact hok1
  have hnlen := hb.length_le_symBits hn
  obtain ⟨u2, hu2⟩ : ∃ u, u = { s2 with name := [] } := ⟨_, rfl⟩
  have hpu2 : u2.pending = n ++ (c ++ (e ++ rest)) := by rw [hu2]; exact hp2
  obtain ⟨s3, h3, hname, hp3, hok3, hsh3⟩ := nameLoop_spec b.name (fuel := u2.bitsLeft + 1) (s := u2)
    (ne_nil_of_goodName hgood) (by rw [hu2]; exact hok2) (by rw [hu2]; exact hdec) (by rw [hu2]; exact hgood)
    (by rw [hu2, hsh2, hsh1]; exact hfit) (by rw [State.bitsLeft_eq, hpu2]; simp at hnlen ⊢; omega) hn hpu2
  rw [hu2, List.nil_append] at hname
  have hdst3 : s3.host.dst.ok s3.name = true := by rw [hname, hsh3, hu2, hsh2, hsh1]; exact hdst
  have h4 := dopenBody_of_ok hdst3
  obtain ⟨s4, hs4⟩ : ∃ t, t = { s3 with host.outputs := s3.host.outputs ++ [(s3.name, [])] }.setFlag .dOpen true :=
    ⟨_, rfl⟩
  rw [← hs4] at h4
  have hp4 : s4.pending = c ++ (e ++ rest) := by rw [hs4]; exact hp3
  have hclen := hb.length_le_symBits hc
  obtain ⟨s5, h5, houts, hp5, hok5, hsh5⟩ := contentLoop_spec b.content (fuel := s4.bitsLeft + 1) (s := s4)
    (by rw [hs4]; exact hok3) (by rw [hs4, hsh3, hu2]; exact hdec)
    (by rw [State.bitsLeft_eq, hp4]; simp at hclen ⊢; omega) hc hp4 (by rw [hs4]; rfl)
  obtain ⟨y, s6, h6, hy, hp6, hok6, hsh6⟩ :=
    trailer_spec hok5 (by rw [hsh5, hs4, hsh3, hu2]; exact hdec) he htrailer hp5
  refine ⟨y, (closeDst s6).setRes y, ?_, hy, hp6, hok6, ?_, ?_, ?_⟩
  · simp only [decfileBody, h1, h2, Run.andThen_done, ← hu2, h3, h4, h5, h6, Run.bind_done]
  · have houts3 : s3.host.outputs = s.host.outputs := by rw [hsh3, hu2, hsh2, hsh1]
    have houts6 : s6.host.outputs = s5.host.outputs := by rw [hsh6]
    rw [State.setRes_host, closeDst, State.setFlag_host, houts6, houts, hname, houts3, List.nil_append]
  · have hstatus4 : s6.status = s4.status := by rw [hsh6, hsh5]
    have hstatus3 : s3.status = s2.status := by rw [hsh3, hu2]
    have hflag4 : s6.flag .faulted = s3.flag .faulted := by
      rw [State.flag_congr hstatus4, hs4, State.flag_setFlag]
      rfl
    have hflag2 : s2.flag .faulted = s1.flag .faulted := flag_of_chain_pair (by rw [hsh2]) (by decide) (by decide)
    have hflag1 : s1.flag .faulted = s.flag .faulted := flag_of_chain (by rw [hsh1]) (by decide) (by decide)
    rw [State.flag_setRes, closeDst, State.flag_setFlag, if_neg (by decide), hflag4, State.flag_congr hstatus3, hflag2,
      hflag1]
  · rw [hsh6, hsh5, hs4, hsh3, hu2, hsh2, hsh1]
    rfl

/-! ### The blocks of an archive -/

theorem exists_of_archiveBits_cons {c : Block} {bs : List Block} (h : archiveBits (b :: c :: bs) = some bits) :
    ∃ x y, b.bits Config.oneMoreFile = some x ∧ archiveBits (c :: bs) = some y ∧ bits = x ++ y := by
  obtain ⟨x, hx, h⟩ := Option.bind_eq_some_iff.mp h
  obtain ⟨y, hy, rfl⟩ := Option.map_eq_some_iff.mp h
  exact ⟨x, y, hx, hy, rfl⟩

theorem Block.length_pos_of_bits {trailer : Nat} (h : b.bits trailer = some bits) : 0 < bits.length := by
  obtain ⟨n, c, e, -, -, -, rfl⟩ := Block.exists_of_bits h
  simp [b.headerBits_eq, Config.symW]

theorem length_le_archiveBits {blocks : List Block} (h : archiveBits blocks = some bits) :
    blocks.length ≤ bits.length := by
  induction blocks generalizing bits with
  | nil => exact Nat.zero_le _
  | cons b bs ih =>
    cases bs with
    | nil => exact Block.length_pos_of_bits h
    | cons c bs =>
      obtain ⟨x, y, hx, hy, rfl⟩ := exists_of_archiveBits_cons h
      have := Block.length_pos_of_bits hx
      have := ih hy
      rw [List.length_cons, List.length_append]
      omega

/-- What a decoder with the host and NAME_MAX of `s` asks of a block: an acceptable header, a good name that fits, an
output the host opens. -/
structure State.Accepts (s : State) (b : Block) : Prop where
  header : b.HeaderOk
  goodName : GoodName b.name
  fits : s.nameFits b.name
  dst_ok : s.host.dst.ok b.name = true

theorem State.Accepts.of_eq {t : State} (h : s.Accepts b) (hmax : t.nameMax = s.nameMax)
    (hdst : t.host.dst = s.host.dst) : t.Accepts b := by
  obtain ⟨h1, h2, h3, h4⟩ := h
  exact ⟨h1, h2, by simpa only [State.nameFits, State.nameTooLong, hmax] using h3, by rwa [hdst]⟩

/-- DECOMPRESS's loop makes an output of each block, up to the one with the trailer ARCHIVE_END (R189). -/
theorem decompressLoop_spec (blocks : List Block) {fuel : Nat} {s : State} {bits : List Bool} (h : ReaderOk s)
    (hb : ∀ b ∈ blocks, s.Accepts b) (hf : blocks.length ≤ fuel) (hbits : archiveBits blocks = some bits)
    (hp : s.pending = bits ++ rest) :
    ∃ t, decompressLoop fuel s = .done () t ∧
      t.host.outputs = s.host.outputs ++ blocks.map (fun b => (b.name, b.content)) ∧
      t.flag .faulted = s.flag .faulted := by
  induction blocks generalizing fuel s bits with
  | nil => cases hbits
  | cons b bs ih =>
    have hacc := hb b (by simp)
    cases fuel with
    | zero => simp at hf
    | succ fuel =>
      cases bs with
      | nil =>
        obtain ⟨y, t, ht, hy, -, -, houts, hflag, -⟩ := decfileBody_spec hacc.header hacc.goodName hacc.fits hacc.dst_ok
          (.inr rfl) hbits h hp
        exact ⟨t, by simp only [decompressLoop, ht, Run.bind_done, if_pos hy], houts, hflag⟩
      | cons c bs =>
        obtain ⟨x, z, hx, hz, rfl⟩ := exists_of_archiveBits_cons hbits
        rw [List.append_assoc] at hp
        obtain ⟨y, u, hu, hy, hpu, hok, houts, hflag, hsh⟩ := decfileBody_spec hacc.header hacc.goodName hacc.fits
          hacc.dst_ok (.inl rfl) hx h hp
        obtain ⟨t, ht, houts', hflag'⟩ := ih (fuel := fuel) hok
          (fun d hd => (hb d (List.mem_cons_of_mem _ hd)).of_eq (by rw [hsh]) (by rw [hsh])) (by simpa using hf) hz hpu
        refine ⟨t, ?_, ?_, hflag'.trans hflag⟩
        · have hmore : ¬ y.toNat = Config.archiveEnd := by rw [hy]; decide
          simp only [decompressLoop, hu, Run.bind_done, if_neg hmore, ht]
        · rw [houts', houts, List.append_assoc]
          rfl

theorem aopenrBody_of_ok (h : s.host.arcROk = true) :
    aopenrBody s = .done () ({ s with rbuf := 0#8, rcnt := 0#4, host.arcPos := 0 }.setFlag .arOpen true) := by
  obtain ⟨-, e⟩ | ⟨hno, -⟩ := hostOpenArcR_cases s
  · rw [aopenrBody, e]
  · rw [h] at hno; cases hno

/-- CLOSE 0 touches the write buffer, the read cache, STATUS and ARC only (R208). -/
theorem closeArc_shape (s : State) :
    closeArc s = { s with
      wbuf := (closeArc s).wbuf, wcnt := (closeArc s).wcnt, rbuf := 0#8, rcnt := 0#4, status := (closeArc s).status,
      host.arc := (closeArc s).host.arc } := by
  unfold closeArc
  dsimp only
  split
  · rw [flush_shape]
    rfl
  · rfl

/-- DECOMPRESS on an archive whose bits are those of blocks it accepts, whatever follows them (R189). -/
theorem exec_decompress_spec {blocks : List Block} (hready : Ready s) (hclosed : s.allClosed = true)
    (harc : s.host.arcROk = true) (hb : ∀ b ∈ blocks, s.Accepts b) (hbits : archiveBits blocks = some bits)
    (hstream : streamBits s.host.arc = bits ++ rest) :
    ∃ t, exec .decompress s = .next t ∧ Ready t ∧
      t.host.outputs = s.host.outputs ++ blocks.map (fun b => (b.name, b.content)) := by
  obtain ⟨u, hu⟩ : ∃ u, u = { s with rbuf := 0#8, rcnt := 0#4, host.arcPos := 0 }.setFlag .arOpen true := ⟨_, rfl⟩
  have hopen := aopenrBody_of_ok harc
  rw [← hu] at hopen
  have hpu : u.pending = bits ++ rest := by
    rw [State.pending_of_rcnt_zero (by rw [hu]; rfl), hu]
    exact hstream
  have hfuel : blocks.length ≤ u.bitsLeft + 1 := by
    have := length_le_archiveBits hbits
    rw [State.bitsLeft_eq, hpu, List.length_append]
    omega
  obtain ⟨t, ht, houts, hflag⟩ := decompressLoop_spec blocks (readerOk_of_empty (by rw [hu]; rfl) (by rw [hu]; rfl))
    (fun b hmem => (hb b hmem).of_eq (by rw [hu]; rfl) (by rw [hu]; rfl)) hfuel hbits hpu
  have huready : Ready u := by rw [hu]; exact (State.flag_setFlag _ _ _ _).trans hready
  refine ⟨closeArc t, ?_, closeArc_ready (hflag.trans huready), ?_⟩
  · rw [exec, execDecompress, runCommand_body hready rfl hclosed]
    simp only [decompressBody, hopen, Run.andThen_done, ht, Run.outcome_done]
  · rw [closeArc_shape]
    exact houts.trans (by rw [hu]; rfl)

end Sys2Proof.Machine
end

section
/-! SCAN without an overflow (spec R120 to R122): FREQ counts the symbols of the block. -/

namespace Sys2Proof.Machine

/-- FREQ with one more for each symbol of a list, in order (R120). -/
def tally (f : Vector (BitVec 64) 259) (xs : List Nat) : Vector (BitVec 64) 259 :=
  xs.foldl (fun f x => tset f x (tget f x 0#64 + 1#64)) f

theorem tally_append (f : Vector (BitVec 64) 259) (xs ys : List Nat) : tally f (xs ++ ys) = tally (tally f xs) ys :=
  List.foldl_append

/-- No counter of `f` overflows while the symbols of `xs` are counted, and all of them have a counter (R122). -/
def NoOverflow (f : Vector (BitVec 64) 259) (xs : List Nat) : Prop :=
  (∀ x ∈ xs, x < Config.nsym) ∧ ∀ y, (tget f y 0#64).toNat + xs.count y < 2 ^ 64

theorem NoOverflow.of_append {f : Vector (BitVec 64) 259} {xs ys : List Nat} (h : NoOverflow f (xs ++ ys)) :
    NoOverflow f xs := by
  refine ⟨fun x hx => h.1 x (List.mem_append_left _ hx), fun y => ?_⟩
  have := h.2 y
  rw [List.count_append] at this
  omega

/-- R121: a counter's value is the number of occurrences. -/
theorem tget_tally {f : Vector (BitVec 64) 259} {xs : List Nat} (h : NoOverflow f xs) (y : Nat) :
    (tget (tally f xs) y 0#64).toNat = (tget f y 0#64).toNat + xs.count y := by
  induction xs using List.reverseRecOn with
  | nil => rfl
  | append_singleton xs x ih =>
    have hy := h.2 y
    rw [List.count_append] at hy ⊢
    have hprev := ih h.of_append
    rw [tally_append]
    show (tget (tset (tally f xs) x (tget (tally f xs) x 0#64 + 1#64)) y 0#64).toNat = _
    by_cases hxy : x = y
    · subst hxy
      have hx : x < 259 := h.1 x (by simp)
      rw [tget_tset_same _ hx, BitVec.toNat_add, hprev]
      simp at hy ⊢
      omega
    · rw [tget_tset_ne _ hxy, hprev]
      simp [hxy]

variable {s : State}

theorem count_of_noOverflow {f : Vector (BitVec 64) 259} {xs : List Nat} {x : Nat} (h : NoOverflow f (xs ++ [x]))
    (hs : s.freq = tally f xs) : count x s = .done () { s with freq := tally f (xs ++ [x]) } := by
  obtain ⟨hmax, -⟩ | ⟨-, e⟩ := count_cases x s
  · have hval := congrArg BitVec.toNat hmax
    rw [State.freqAt, hs, tget_tally h.of_append] at hval
    have := h.2 x
    rw [List.count_append] at this
    simp at this hval
    omega
  · rw [e, tally_append, ← hs]
    rfl

theorem countAll_of_noOverflow {f : Vector (BitVec 64) 259} (bs : List Byte) {xs : List Nat} {s : State}
    (h : NoOverflow f (xs ++ bs.map BitVec.toNat)) (hs : s.freq = tally f xs) :
    countAll bs s = .done () { s with freq := tally f (xs ++ bs.map BitVec.toNat) } := by
  induction bs generalizing xs s with
  | nil => rw [List.map_nil, List.append_nil, ← hs]; rfl
  | cons b bs ih =>
    have hsplit : xs ++ (b :: bs).map BitVec.toNat = xs ++ [b.toNat] ++ bs.map BitVec.toNat := by simp
    rw [hsplit] at h ⊢
    rw [countAll, count_of_noOverflow h.of_append hs, Run.andThen_done, ih h rfl]

/-- Where SCAN's content loop, begun in `s` with the symbols `xs` counted, stands with the bytes `left` to come. -/
def ScanProgress (f : Vector (BitVec 64) 259) (xs : List Nat) (s : State) (left : List Byte) (t : State) : Prop :=
  ∃ pre, s.srcRest = pre ++ left ∧ t.freq = tally f (xs ++ pre.map BitVec.toNat) ∧
    t = { s with freq := t.freq, host.srcPos := t.host.srcPos }

theorem ScanProgress.count {f : Vector (BitVec 64) 259} {xs : List Nat} {x : Byte} {left : List Byte} {t : State}
    (h : NoOverflow f (xs ++ s.srcRest.map BitVec.toNat)) (hleft : t.srcRest = x :: left)
    (ht : ScanProgress f xs s (x :: left) t) :
    ∃ u, count x.toNat { t with host.srcPos := t.host.srcPos + 1 } = .done () u ∧ u.srcRest = left ∧
      ScanProgress f xs s left u := by
  obtain ⟨pre, hpre, hfreq, hsh⟩ := ht
  have hsplit : s.srcRest.map BitVec.toNat = pre.map BitVec.toNat ++ [x.toNat] ++ left.map BitVec.toNat := by
    rw [hpre]; simp
  rw [hsplit, ← List.append_assoc, ← List.append_assoc] at h
  refine ⟨_, count_of_noOverflow h.of_append hfreq, (memReadSrc_cons hleft).2, pre ++ [x], by rw [hpre]; simp, ?_, ?_⟩
  · simp
  · rw [hsh]

/-- The content loop of SCAN counts the bytes left of SRC (R120). -/
theorem forSrc_count_of_noOverflow {f : Vector (BitVec 64) 259} {xs : List Nat}
    (h : NoOverflow f (xs ++ s.srcRest.map BitVec.toNat)) (hs : s.freq = tally f xs) :
    ∃ t, forSrc (fun x => count x.toNat) s.srcRest.length s = .done () t ∧
      t = { s with freq := tally f (xs ++ s.srcRest.map BitVec.toNat), host.srcPos := t.host.srcPos } := by
  obtain ⟨t, ht, -, pre, hpre, hfreq, hsh⟩ := forSrc_spec (body := fun x => count x.toNat)
    (P := ScanProgress f xs s) (fun _ _ _ hleft ht => ht.count h hleft) (s := s) ⟨[], rfl, by simpa using hs, rfl⟩
  rw [List.append_nil] at hpre
  exact ⟨t, ht, by rw [hpre, ← hfreq]; exact hsh⟩

/-- The symbols of a block apart from its header: name, content, control symbols (R120). -/
def blockSymbols (name content : List Byte) : List Nat :=
  (name ++ content).map BitVec.toNat ++ [Config.filenameEnd, Config.oneMoreFile, Config.archiveEnd]

theorem noOverflow_blockSymbols {name content : List Byte} (h : name.length + content.length < 2 ^ 64) :
    NoOverflow (Vector.replicate 259 0#64) (blockSymbols name content) := by
  refine ⟨fun x hx => ?_, fun y => ?_⟩
  · rcases List.mem_append.mp hx with hx | hx
    · obtain ⟨b, -, rfl⟩ := List.mem_map.mp hx
      exact b.isLt.trans (by decide)
    · have hctl : ∀ x ∈ [Config.filenameEnd, Config.oneMoreFile, Config.archiveEnd], x < Config.nsym := by decide
      exact hctl x hx
  · rw [tget_replicate_default, blockSymbols, List.count_append]
    rcases Nat.lt_or_ge y 256 with hy | hy
    · have hctl : [Config.filenameEnd, Config.oneMoreFile, Config.archiveEnd].count y = 0 :=
        List.count_eq_zero_of_not_mem (by simp [Config.filenameEnd, Config.oneMoreFile, Config.archiveEnd]; omega)
      have hle := List.count_le_length (a := y) (l := (name ++ content).map BitVec.toNat)
      simp at hle ⊢
      omega
    · have hbyte : ((name ++ content).map BitVec.toNat).count y = 0 := by
        refine List.count_eq_zero_of_not_mem fun hmem => ?_
        obtain ⟨b, -, rfl⟩ := List.mem_map.mp hmem
        have := b.isLt
        omega
      have hle := List.count_le_length (a := y) (l := [Config.filenameEnd, Config.oneMoreFile, Config.archiveEnd])
      rw [hbyte, BitVec.toNat_ofNat]
      simp only [List.length_cons, List.length_nil] at hle
      omega

theorem countControls_of_noOverflow {f : Vector (BitVec 64) 259} {xs : List Nat} (k : State → Run Unit)
    (h : NoOverflow f (xs ++ [256] ++ [257] ++ [258])) (hs : s.freq = tally f xs) :
    ((count 256 s).andThen fun s => (count 257 s).andThen fun s => (count 258 s).andThen k) =
      k { s with freq := tally f (xs ++ [256] ++ [257] ++ [258]) } := by
  rw [count_of_noOverflow h.of_append.of_append hs, Run.andThen_done, count_of_noOverflow h.of_append ?_,
    Run.andThen_done, count_of_noOverflow h ?_, Run.andThen_done] <;> rfl

/-- SCAN leaves a count of each symbol of the block (R120, R121). -/
theorem scanBody_spec (h : s.name.length + s.srcRest.length < 2 ^ 64) :
    ∃ t, scanBody s = .done () t ∧
      t = { s with
        freq := tally (Vector.replicate 259 0#64) (blockSymbols s.name s.srcRest),
        status := ((s.clearFlags chainFromFreq).setFlag .fValid true).status, host.srcPos := t.host.srcPos } := by
  have hno := noOverflow_blockSymbols h
  have hsplit : blockSymbols s.name s.srcRest =
      [] ++ s.name.map BitVec.toNat ++ s.srcRest.map BitVec.toNat ++ [256] ++ [257] ++ [258] := by
    simp [blockSymbols, Config.filenameEnd, Config.oneMoreFile, Config.archiveEnd]
  rw [hsplit] at hno ⊢
  obtain ⟨s0, hs0⟩ : ∃ u, u = { s.clearFlags chainFromFreq with freq := Vector.replicate 259 0#64 } := ⟨_, rfl⟩
  have hrest : s0.srcRest = s.srcRest := by
    rw [hs0]
    simp [State.srcRest, State.srcContent]
  have hname : s0.name = s.name := by rw [hs0]; simp
  rw [← hname, ← hrest] at hno ⊢
  have h1 := countAll_of_noOverflow s0.name (xs := []) (s := s0) hno.of_append.of_append.of_append.of_append
    (by rw [hs0]; rfl)
  obtain ⟨s1, hs1⟩ : ∃ u, u = { s0 with freq := tally (Vector.replicate 259 0#64) ([] ++ s0.name.map BitVec.toNat) } :=
    ⟨_, rfl⟩
  rw [← hs1] at h1
  have hrest1 : s1.srcRest = s0.srcRest := by rw [hs1]; rfl
  rw [← hrest1] at hno ⊢
  obtain ⟨s2, h2, hsh2⟩ := forSrc_count_of_noOverflow (s := s1) hno.of_append.of_append.of_append (by rw [hs1])
  have h3 := countControls_of_noOverflow (s := s2) (fun s => .done () (s.setFlag .fValid true)) hno (by rw [hsh2])
  refine ⟨_, Eq.trans ?_ h3, ?_⟩
  · show (let u := { s.clearFlags chainFromFreq with freq := Vector.replicate 259 0#64 }
      (countAll u.name u).andThen _) = _
    rw [← hs0]
    dsimp only
    rw [h1, Run.andThen_done, h2]
    rfl
  · rw [hsh2, hs1, hs0]
    have hc := State.clearFlags_shape s chainFromFreq
    generalize s.clearFlags chainFromFreq = c at hc ⊢
    rw [hc]
    rfl

theorem freqAt_ne_zero_of_scanned {s : State} {name content : List Byte} (h : name.length + content.length < 2 ^ 64)
    (hs : s.freq = tally (Vector.replicate 259 0#64) (blockSymbols name content)) {x : Nat}
    (hx : x ∈ blockSymbols name content) : s.freqAt x ≠ 0#64 := by
  intro hzero
  have hval := tget_tally (noOverflow_blockSymbols h) x
  rw [← hs] at hval
  have hpos := List.count_pos_iff.mpr hx
  have hz : (tget s.freq x 0#64).toNat = 0 := congrArg BitVec.toNat hzero
  omega

end Sys2Proof.Machine
end

section
/-! The tree of BUILD and the walk over it (spec R123 to R127): the arena holds a binary tree over the present symbols,
and the walk gives each its depth. Which nodes a merge takes makes no difference here. -/

namespace Sys2Proof.Machine

/-! ### Trees of symbols -/

/-- A binary tree with symbols at its leaves. -/
inductive CodeTree where
  | leaf (x : Nat)
  | node (l r : CodeTree)

/-- The symbols at the leaves, left to right. -/
def CodeTree.leaves : CodeTree → List Nat
  | .leaf x => [x]
  | .node l r => l.leaves ++ r.leaves

/-- The leaves with their depths, left to right, for a root at depth `d` (R126). -/
def CodeTree.depths : CodeTree → Nat → List (Nat × Nat)
  | .leaf x, d => [(x, d)]
  | .node l r, d => l.depths (d + 1) ++ r.depths (d + 1)

theorem CodeTree.map_fst_depths (c : CodeTree) (d : Nat) : (c.depths d).map Prod.fst = c.leaves := by
  induction c generalizing d with
  | leaf x => rfl
  | node l r ihl ihr => simp [depths, leaves, ihl, ihr]

theorem CodeTree.leaves_pos (c : CodeTree) : 0 < c.leaves.length := by
  induction c with
  | leaf x => simp [leaves]
  | node l r ihl _ => simp [leaves]; omega

/-- A tree is at most as deep as it has leaves (R127). -/
theorem CodeTree.depth_bounds {c : CodeTree} {d x k : Nat} (h : (x, k) ∈ c.depths d) :
    d ≤ k ∧ k + 1 ≤ d + c.leaves.length := by
  induction c generalizing d with
  | leaf y =>
    obtain ⟨rfl, rfl⟩ : x = y ∧ k = d := by simpa [depths] using h
    simp [leaves]
  | node l r ihl ihr =>
    have hl := l.leaves_pos
    have hr := r.leaves_pos
    rw [leaves, List.length_append]
    rcases List.mem_append.mp h with h | h
    · have := ihl h; omega
    · have := ihr h; omega

/-- With two leaves at least, no leaf is the root. -/
theorem CodeTree.depth_pos {c : CodeTree} {d x k : Nat} (hc : 2 ≤ c.leaves.length) (h : (x, k) ∈ c.depths d) :
    d < k := by
  cases c with
  | leaf y => simp [leaves] at hc
  | node l r =>
    rcases List.mem_append.mp h with h | h
    · exact (depth_bounds h).1
    · exact (depth_bounds h).1

theorem kraft_append (ls ms : List Nat) : kraft (ls ++ ms) = kraft ls + kraft ms := by
  simp [kraft]

/-- The depths of a tree fill the code space below its root exactly. -/
theorem CodeTree.kraft_depths (c : CodeTree) {d : Nat} (h : d + c.leaves.length ≤ Config.lmax + 1) :
    kraft ((c.depths d).map Prod.snd) = 2 ^ (Config.lmax - d) := by
  induction c generalizing d with
  | leaf x => simp [depths]
  | node l r ihl ihr =>
    have hl := l.leaves_pos
    have hr := r.leaves_pos
    rw [leaves, List.length_append] at h
    rw [depths, List.map_append, kraft_append, ihl (by omega), ihr (by omega), ← Nat.two_mul, ← Nat.pow_succ',
      Nat.succ_eq_add_one, show Config.lmax - (d + 1) + 1 = Config.lmax - d by omega]

/-- The arena's first `n` entries hold the tree below a handle (R28). -/
def CodeTree.At (arena : Vector Node 517) (n : Nat) : CodeTree → Handle → Prop
  | .leaf x, h => h.toNat < n ∧
      (tget arena h.toNat Node.zero).leaf = true ∧ (tget arena h.toNat Node.zero).sym.toNat = x
  | .node l r, h => h.toNat < n ∧ (tget arena h.toNat Node.zero).leaf = false ∧
      l.At arena n (tget arena h.toNat Node.zero).left ∧ r.At arena n (tget arena h.toNat Node.zero).right

/-- A new entry of the arena leaves the trees among the earlier ones as they are. -/
theorem CodeTree.At.tset {arena : Vector Node 517} {n : Nat} {c : CodeTree} {h : Handle} (hc : c.At arena n h)
    (nd : Node) : c.At (tset arena n nd) (n + 1) h := by
  have hkeep : ∀ g : Handle, g.toNat < n →
      tget (Machine.tset arena n nd) g.toNat Node.zero = tget arena g.toNat Node.zero :=
    fun g hg => tget_tset_ne _ (by omega) _ _
  induction c generalizing h with
  | leaf x =>
    obtain ⟨hlt, hleaf⟩ := hc
    exact ⟨by omega, by rwa [hkeep h hlt]⟩
  | node l r ihl ihr =>
    obtain ⟨hlt, hleaf, hl, hr⟩ := hc
    refine ⟨by omega, ?_⟩
    rw [hkeep h hlt]
    exact ⟨hleaf, ihl hl, ihr hr⟩

/-! ### BUILD -/

/-- The queue's handles are those of trees the arena holds. -/
structure State.Forest (s : State) (ts : List (Handle × CodeTree)) : Prop where
  queue : s.pq.Perm (ts.map Prod.fst)
  trees : ∀ p ∈ ts, p.2.At s.node s.ncnt.toNat p.1

/-- The symbols at the leaves of a forest's trees. -/
def forestLeaves (ts : List (Handle × CodeTree)) : List Nat := ts.flatMap fun p => p.2.leaves

variable {s : State} {ts : List (Handle × CodeTree)}

theorem ncnt_addNode (h : s.ncnt.toNat < 517) (nd : Node) : (addNode nd s).ncnt.toNat = s.ncnt.toNat + 1 := by
  show (s.ncnt + 1#10).toNat = _
  bv_omega

/-- A new node at the end of the queue, with its tree. -/
theorem State.Forest.addNode (h : s.Forest ts) (hn : s.ncnt.toNat < 517) {nd : Node} {c : CodeTree}
    (hc : c.At (tset s.node s.ncnt.toNat nd) (s.ncnt.toNat + 1) s.ncnt) :
    (addNode nd s).Forest (ts ++ [(s.ncnt, c)]) := by
  obtain ⟨hq, ht⟩ := h
  constructor
  · rw [List.map_append]
    exact hq.append_right _
  · rw [ncnt_addNode hn]
    intro p hp
    rcases List.mem_append.mp hp with hp | hp
    · exact (ht p hp).tset nd
    · obtain rfl := List.mem_singleton.mp hp
      exact hc

theorem nodeAt_new (h : s.ncnt.toNat < 517) (nd : Node) :
    tget (tset s.node s.ncnt.toNat nd) s.ncnt.toNat Node.zero = nd := tget_tset_same _ h _ _

theorem addLeaf_shape (s : State) (x : Nat) :
    addLeaf s x = { s with node := (addLeaf s x).node, pq := (addLeaf s x).pq, ncnt := (addLeaf s x).ncnt } := by
  unfold addLeaf addNode
  split <;> rfl

/-- A leaf for a present symbol, none for another (R123). -/
theorem addLeaf_forest (h : s.Forest ts) (hn : s.ncnt.toNat < 517) {x : Nat} (hx : x < 512) :
    ∃ us, (addLeaf s x).Forest (ts ++ us) ∧ forestLeaves us = [x].filter (fun x => s.freqAt x != 0#64) ∧
      (addLeaf s x).ncnt.toNat = s.ncnt.toNat + us.length ∧ us.length ≤ 1 := by
  unfold addLeaf
  split
  · rename_i hz
    exact ⟨[], by simpa using h, by simp [forestLeaves, hz], rfl, by simp⟩
  · rename_i hz
    refine ⟨[(s.ncnt, .leaf x)], h.addNode hn ⟨by omega, ?_⟩, ?_, ncnt_addNode hn _, by simp⟩
    · rw [nodeAt_new hn]
      exact ⟨rfl, by simpa using Nat.mod_eq_of_lt hx⟩
    · simp [forestLeaves, CodeTree.leaves, hz]

theorem foldl_addLeaf_shape (xs : List Nat) (s : State) :
    xs.foldl addLeaf s = { s with
      node := (xs.foldl addLeaf s).node, pq := (xs.foldl addLeaf s).pq, ncnt := (xs.foldl addLeaf s).ncnt } := by
  induction xs generalizing s with
  | nil => rfl
  | cons x xs ih =>
    rw [List.foldl_cons, ih, addLeaf_shape]

theorem foldl_addLeaf_forest (xs : List Nat) {s : State} {ts : List (Handle × CodeTree)} (h : s.Forest ts)
    (hn : s.ncnt.toNat + xs.length ≤ 517) (hx : ∀ x ∈ xs, x < 512) :
    ∃ us, (xs.foldl addLeaf s).Forest (ts ++ us) ∧ forestLeaves us = xs.filter (fun x => s.freqAt x != 0#64) ∧
      (xs.foldl addLeaf s).ncnt.toNat = s.ncnt.toNat + us.length ∧ us.length ≤ xs.length := by
  induction xs generalizing s ts with
  | nil => exact ⟨[], by simpa using h, rfl, rfl, by simp⟩
  | cons x xs ih =>
    rw [List.length_cons] at hn
    obtain ⟨us, hf, hleaves, hcnt, hle⟩ := addLeaf_forest h (by omega) (hx x (by simp))
    obtain ⟨vs, hf', hleaves', hcnt', hle'⟩ := ih hf (by omega) fun y hy => hx y (List.mem_cons_of_mem _ hy)
    have hfreq : (fun y => (addLeaf s x).freqAt y != 0#64) = fun y => s.freqAt y != 0#64 := by
      rw [addLeaf_shape]; rfl
    refine ⟨us ++ vs, by rwa [← List.append_assoc], ?_, ?_, ?_⟩
    · rw [← List.singleton_append, List.filter_append, ← hleaves, ← hfreq, ← hleaves']
      simp [forestLeaves]
    · rw [List.foldl_cons, hcnt', hcnt, List.length_append]
      omega
    · rw [List.length_append, List.length_cons]
      omega

/-- Taking a handle off the queue takes its tree out of the forest (R124). -/
theorem State.Forest.erase (h : s.Forest ts) {m : Handle} (hm : m ∈ s.pq) :
    ∃ c us, ts.Perm ((m, c) :: us) ∧ ({ s with pq := s.pq.erase m } : State).Forest us := by
  obtain ⟨hq, ht⟩ := h
  obtain ⟨⟨m', c⟩, hmem, rfl⟩ := List.mem_map.mp (hq.mem_iff.mp hm)
  obtain ⟨as, bs, rfl⟩ := List.append_of_mem hmem
  have hperm : (as ++ (m', c) :: bs).Perm ((m', c) :: (as ++ bs)) := List.perm_middle
  refine ⟨c, as ++ bs, hperm, ?_, fun p hp => ht p (hperm.mem_iff.mpr (List.mem_cons_of_mem _ hp))⟩
  have hcons : s.pq.Perm (m' :: (as ++ bs).map Prod.fst) := hq.trans (hperm.map _)
  simpa using hcons.erase m'

theorem forestLeaves_perm {us : List (Handle × CodeTree)} (h : ts.Perm us) :
    (forestLeaves ts).Perm (forestLeaves us) := h.flatMap_right _

/-- A merge puts two trees of the forest below a new node (R123). -/
theorem merge_forest (h : s.Forest ts) (hn : s.ncnt.toNat < 517) (hts : 2 ≤ ts.length) :
    ∃ us, (merge s).Forest us ∧ us.length + 1 = ts.length ∧ (forestLeaves us).Perm (forestLeaves ts) ∧
      (merge s).ncnt.toNat = s.ncnt.toNat + 1 ∧
      merge s = { s with node := (merge s).node, pq := (merge s).pq, ncnt := (merge s).ncnt } := by
  have hlen := h.queue.length_eq
  rw [List.length_map] at hlen
  obtain ⟨a, ha, hea⟩ := extractMin_shape (s := s) (List.ne_nil_of_length_pos (by omega))
  obtain ⟨ca, us, hua, hfa⟩ := h.erase ha
  have hlena := hua.length_eq
  have hlenq : (s.pq.erase a).length = us.length := by simpa using hfa.queue.length_eq
  rw [List.length_cons] at hlena
  obtain ⟨b, hb, heb⟩ := extractMin_shape (s := { s with pq := s.pq.erase a })
    (List.ne_nil_of_length_pos (l := s.pq.erase a) (by omega))
  obtain ⟨cb, vs, hvb, hfb⟩ := hfa.erase hb
  have hlenb := hvb.length_eq
  rw [List.length_cons] at hlenb
  have hperm : ts.Perm ((a, ca) :: (b, cb) :: vs) := hua.trans (hvb.cons _)
  obtain ⟨nd, hnd, hleaf, hleft, hright⟩ : ∃ nd, merge s = addNode nd { s with pq := (s.pq.erase a).erase b } ∧
      nd.leaf = false ∧ nd.left = a ∧ nd.right = b :=
    ⟨⟨false, 0#9, (s.nodeAt a).freq + (s.nodeAt b).freq, a, b⟩, by simp only [merge, hea, heb]; rfl, rfl, rfl, rfl⟩
  have hca := (h.trees _ (hperm.mem_iff.mpr (List.mem_cons_self ..))).tset nd
  have hcb := (h.trees _ (hperm.mem_iff.mpr (List.mem_cons_of_mem _ (List.mem_cons_self ..)))).tset nd
  refine ⟨vs ++ [(s.ncnt, .node ca cb)], ?_, ?_, ?_, ?_, ?_⟩
  · rw [hnd]
    refine hfb.addNode hn ⟨Nat.lt_succ_self _, ?_⟩
    show (tget (tset s.node s.ncnt.toNat nd) s.ncnt.toNat Node.zero).leaf = false ∧ _
    rw [nodeAt_new hn, hleft, hright]
    exact ⟨hleaf, hca, hcb⟩
  · rw [List.length_append, List.length_singleton]
    omega
  · refine List.Perm.trans ?_ (forestLeaves_perm hperm.symm)
    simp only [forestLeaves, List.flatMap_append, List.flatMap_cons, List.flatMap_nil, CodeTree.leaves, List.append_nil]
    rw [← List.append_assoc ca.leaves]
    exact List.perm_append_comm
  · rw [hnd]
    exact ncnt_addNode (s := { s with pq := (s.pq.erase a).erase b }) hn nd
  · rw [hnd]
    rfl

/-- The merges leave one tree with all the leaves (R123, R125). -/
theorem mergeLoop_forest (fuel : Nat) {s : State} {ts : List (Handle × CodeTree)} (h : s.Forest ts) (hne : ts ≠ [])
    (hf : ts.length ≤ fuel) (hn : s.ncnt.toNat + ts.length ≤ 518) :
    ∃ r c, (mergeLoop fuel s).Forest [(r, c)] ∧ c.leaves.Perm (forestLeaves ts) ∧
      mergeLoop fuel s = { s with
        node := (mergeLoop fuel s).node, pq := (mergeLoop fuel s).pq, ncnt := (mergeLoop fuel s).ncnt } ∧
      (mergeLoop fuel s).ncnt.toNat ≤ 517 := by
  have hpos := List.length_pos_iff.mpr hne
  have hlen := h.queue.length_eq
  rw [List.length_map] at hlen
  induction fuel generalizing s ts with
  | zero => omega
  | succ fuel ih =>
    rw [mergeLoop]
    split
    · obtain ⟨us, hfu, hlenu, hperm, hcnt, hsh⟩ := merge_forest h (by omega) (by omega)
      have hlenq := hfu.queue.length_eq
      rw [List.length_map] at hlenq
      obtain ⟨r, c, hfc, hpermc, hshc, hle⟩ := ih hfu (List.ne_nil_of_length_pos (by omega)) (by omega) (by omega)
        (by omega) hlenq
      exact ⟨r, c, hfc, hpermc.trans hperm, by rw [hshc, hsh], hle⟩
    · obtain ⟨⟨r, c⟩, rfl⟩ := List.length_eq_one_iff.mp (show ts.length = 1 by omega)
      refine ⟨r, c, h, by simp [forestLeaves], rfl, ?_⟩
      rw [List.length_singleton] at hn
      omega

/-- BUILD leaves a tree over the present symbols at ROOT (R123, R125). -/
theorem buildBody_spec (h : s.presentSyms ≠ []) :
    ∃ (t : State) (c : CodeTree), buildBody s = .done () t ∧ c.At t.node t.ncnt.toNat t.root ∧
      c.leaves.Perm s.presentSyms ∧ t.ncnt.toNat ≤ 517 ∧
      t = { s with
        node := t.node, ncnt := t.ncnt, root := t.root, pq := t.pq,
        status := ((s.clearFlags chainFromTree).setFlag .tValid true).status } := by
  obtain ⟨s0, hs0⟩ : ∃ u, u = { s.clearFlags chainFromTree with ncnt := 0#10, pq := [] } := ⟨_, rfl⟩
  have hempty : s0.Forest [] := ⟨by rw [hs0]; exact List.Perm.nil, by simp⟩
  have hncnt : s0.ncnt.toNat = 0 := by rw [hs0]; rfl
  have hrange : (List.range Config.nsym).length = 259 := by simp [Config.nsym]
  obtain ⟨us, hf, hleaves, hcnt, hle⟩ := foldl_addLeaf_forest (List.range Config.nsym) hempty (by omega)
    (fun x hx => (List.mem_range.mp hx).trans (by decide))
  obtain ⟨s1, hs1⟩ : ∃ u, u = (List.range Config.nsym).foldl addLeaf s0 := ⟨_, rfl⟩
  have hsh1 := foldl_addLeaf_shape (List.range Config.nsym) s0
  rw [← hs1] at hf hcnt hsh1
  rw [List.nil_append] at hf
  have hpresent : forestLeaves us = s.presentSyms := by
    rw [hleaves, State.presentSyms, hs0]
    simp [State.freqAt]
  have hne : us ≠ [] := by
    rintro rfl
    exact h hpresent.symm
  have hlenq := hf.queue.length_eq
  rw [List.length_map] at hlenq
  obtain ⟨r, c, hfc, hperm, hsh2, hle2⟩ := mergeLoop_forest s1.pq.length hf hne (by omega) (by omega)
  obtain ⟨s2, hs2⟩ : ∃ u, u = mergeLoop s1.pq.length s1 := ⟨_, rfl⟩
  rw [← hs2] at hfc hsh2 hle2
  have hpq : s2.pq = [r] := List.perm_singleton.mp hfc.queue
  refine ⟨{ s2 with root := r }.setFlag .tValid true, c, ?_, hfc.trees (r, c) (by simp), hpresent ▸ hperm, hle2, ?_⟩
  · unfold buildBody
    dsimp only
    rw [← hs0, ← hs1, ← hs2]
    simp only [hpq]
  · have hc := State.clearFlags_shape s chainFromTree
    rw [hsh2, hsh1, hs0]
    generalize s.clearFlags chainFromTree = c at hc ⊢
    rw [hc]
    rfl

/-! ### WALK -/

/-- LEN with each leaf's depth written to its symbol, in order (R126). -/
def writeDepths (len : Vector (BitVec 9) 259) (ps : List (Nat × Nat)) : Vector (BitVec 9) 259 :=
  ps.foldl (fun len p => tset len p.1 (BitVec.ofNat 9 p.2)) len

theorem tget_writeDepths_of_not_mem {ps : List (Nat × Nat)} (len : Vector (BitVec 9) 259) {x : Nat}
    (h : x ∉ ps.map Prod.fst) : tget (writeDepths len ps) x 0#9 = tget len x 0#9 := by
  induction ps generalizing len with
  | nil => rfl
  | cons p ps ih =>
    rw [List.map_cons, List.mem_cons, not_or] at h
    exact (ih _ h.2).trans (tget_tset_ne _ (Ne.symm h.1) _ _)

theorem tget_writeDepths_of_mem {ps : List (Nat × Nat)} (len : Vector (BitVec 9) 259) (hnd : (ps.map Prod.fst).Nodup)
    {x d : Nat} (hx : x < 259) (h : (x, d) ∈ ps) : tget (writeDepths len ps) x 0#9 = BitVec.ofNat 9 d := by
  induction ps generalizing len with
  | nil => cases h
  | cons p ps ih =>
    obtain ⟨hp, hnd'⟩ := List.nodup_cons.mp hnd
    obtain rfl | h := List.mem_cons.mp h
    · exact (tget_writeDepths_of_not_mem _ hp).trans (tget_tset_same _ hx _ _)
    · exact ih _ hnd' h

/-- `Visit` writes the depths of the tree below its handle (R126). -/
theorem visit_spec (c : CodeTree) {fuel d : Nat} {h : Handle} {s : State} (hc : c.At s.node s.ncnt.toNat h)
    (hn : s.ncnt.toNat ≤ 517) (hf : c.leaves.length ≤ fuel) :
    visit fuel h d s = .done () { s with len := writeDepths s.len (c.depths d) } := by
  induction c generalizing fuel d h s with
  | leaf x =>
    obtain ⟨hlt, hleaf, hsym⟩ := hc
    cases fuel with
    | zero => simp [CodeTree.leaves] at hf
    | succ fuel =>
      have hin : h.toNat < Config.nnode := Nat.lt_of_lt_of_le hlt hn
      simp only [visit, State.nodeAt, if_pos hin, hleaf, if_true, hsym]
      rfl
  | node l r ihl ihr =>
    obtain ⟨hlt, hleaf, hl, hr⟩ := hc
    have hlpos := l.leaves_pos
    have hrpos := r.leaves_pos
    rw [CodeTree.leaves, List.length_append] at hf
    cases fuel with
    | zero => omega
    | succ fuel =>
      have hin : h.toNat < Config.nnode := Nat.lt_of_lt_of_le hlt hn
      simp only [visit, State.nodeAt, if_pos hin, hleaf, Bool.false_eq_true, if_false]
      rw [ihl hl hn (by omega), Run.andThen_done,
        ihr (s := { s with len := writeDepths s.len (l.depths (d + 1)) }) hr hn (by omega), CodeTree.depths,
        writeDepths, writeDepths, writeDepths, List.foldl_append]

/-- WALK gives each symbol of the tree its depth and every other symbol 0 (R126). -/
theorem walkBody_spec {c : CodeTree} (hc : c.At s.node s.ncnt.toNat s.root) (hn : s.ncnt.toNat ≤ 517)
    (hnd : c.leaves.Nodup) (hsym : ∀ x ∈ c.leaves, x < 259) (hlen : c.leaves.length ≤ 259) :
    ∃ t, walkBody s = .done () t ∧ (∀ x d, (x, d) ∈ c.depths 0 → (t.lenAt x).toNat = d) ∧
      (∀ x, x ∉ c.leaves → t.lenAt x = 0#9) ∧
      t = { s with len := t.len, status := ((s.clearFlags chainFromLen).setFlag .lValid true).status } := by
  obtain ⟨s0, hs0⟩ : ∃ u, u = { s.clearFlags chainFromLen with len := Vector.replicate 259 0#9 } := ⟨_, rfl⟩
  have hnode : s0.node = s.node := by rw [hs0]; simp
  have hncnt : s0.ncnt = s.ncnt := by rw [hs0]; simp
  have hroot : s0.root = s.root := by rw [hs0]; simp
  have hlen0 : s0.len = Vector.replicate 259 0#9 := by rw [hs0]
  have hvisit := visit_spec c (fuel := Config.nnode) (d := 0) (h := s0.root) (s := s0)
    (by rw [hnode, hncnt, hroot]; exact hc) (by rw [hncnt]; exact hn) (hlen.trans (by decide))
  refine ⟨{ s0 with len := writeDepths s0.len (c.depths 0) }.setFlag .lValid true, ?_, fun x d hx => ?_,
    fun x hx => ?_, ?_⟩
  · show (let u := { s.clearFlags chainFromLen with len := Vector.replicate 259 0#9 }
      (visit Config.nnode u.root 0 u).andThen _) = _
    rw [← hs0]
    dsimp only
    rw [hvisit]
    rfl
  · have hleaf : x ∈ c.leaves := by
      rw [← c.map_fst_depths 0]
      exact List.mem_map_of_mem hx
    have hd := (CodeTree.depth_bounds hx).2
    show (tget (writeDepths s0.len (c.depths 0)) x 0#9).toNat = d
    rw [tget_writeDepths_of_mem _ (by rwa [c.map_fst_depths]) (hsym x hleaf) hx, BitVec.toNat_ofNat,
      Nat.mod_eq_of_lt (by omega)]
  · show tget (writeDepths s0.len (c.depths 0)) x 0#9 = 0#9
    rw [tget_writeDepths_of_not_mem _ (by rwa [c.map_fst_depths]), hlen0, tget_replicate_default]
  · rw [hs0]
    have hc := State.clearFlags_shape s chainFromLen
    generalize s.clearFlags chainFromLen = c at hc ⊢
    rw [hc]
    rfl

end Sys2Proof.Machine
end

section
/-! CANON from lengths that fit the code space (spec R140 to R143): the header and the codes of a block. -/

namespace Sys2Proof.Machine

/-! ### A sorted list of lengths from its counts -/

theorem count_lengthsFrom (cs : List Nat) (L l : Nat) :
    (lengthsFrom L cs).count l = if L ≤ l then cs.getD (l - L) 0 else 0 := by
  induction cs generalizing L with
  | nil => simp [lengthsFrom]
  | cons c cs ih =>
    rw [lengthsFrom, List.count_append, ih, List.count_replicate]
    rcases Nat.lt_trichotomy L l with h | h | h
    · obtain ⟨d, rfl⟩ : ∃ d, l = L + 1 + d := ⟨l - (L + 1), by omega⟩
      have hsub : L + 1 + d - L = d + 1 := by omega
      rw [if_neg (by simp; omega), if_pos (by omega), if_pos (by omega), hsub, Nat.add_sub_cancel_left,
        List.getD_cons_succ, Nat.zero_add]
    · subst h
      simp
    · rw [if_neg (by simp; omega), if_neg (by omega), if_neg (by omega)]

/-- The counts of a sorted list of lengths describe it (R74). -/
theorem lengthsFrom_counts {ls : List Nat} {m : Nat} (hs : ls.Pairwise (· ≤ ·)) (hl : ∀ l ∈ ls, 1 ≤ l ∧ l ≤ m) :
    lengthsFrom 1 ((List.range m).map fun k => ls.count (k + 1)) = ls := by
  refine List.Perm.eq_of_pairwise (fun a b _ _ => Nat.le_antisymm) (lengthsFrom_sorted _ _) hs
    (List.perm_iff_count.mpr fun l => ?_)
  rw [count_lengthsFrom]
  by_cases h : 1 ≤ l ∧ l ≤ m
  · obtain ⟨h1, hm⟩ := h
    rw [if_pos h1, List.getD_eq_getElem?_getD, List.getElem?_map, List.getElem?_range (by omega), Option.map_some,
      Option.getD_some, Nat.sub_add_cancel h1]
  · have h0 : ls.count l = 0 := List.count_eq_zero_of_not_mem fun hmem => h (hl l hmem)
    rw [h0]
    split
    · rw [List.getD_eq_getElem?_getD, List.getElem?_eq_none (by simp; omega)]
      rfl
    · rfl

variable {s : State}

/-! ### The sorted alphabet -/

theorem State.sortedAlphabet_perm (s : State) : s.sortedAlphabet.Perm s.alphabet := List.perm_insertionSort _ _

/-- R143: by length first. -/
theorem State.sortedAlphabet_lengths_sorted (s : State) :
    (s.sortedAlphabet.map fun x => (s.lenAt x).toNat).Pairwise (· ≤ ·) := by
  have htotal : Std.Total (sortedBefore s) := ⟨fun x y => by unfold sortedBefore; omega⟩
  have htrans : IsTrans Nat (sortedBefore s) := ⟨fun x y z hxy hyz => by unfold sortedBefore at *; omega⟩
  rw [List.pairwise_map]
  refine (List.pairwise_insertionSort (sortedBefore s) s.alphabet).imp fun h => ?_
  unfold sortedBefore at h
  omega

theorem State.mem_alphabet {x : Nat} : x ∈ s.alphabet ↔ x < 259 ∧ 1 ≤ (s.lenAt x).toNat := by
  simp [State.alphabet, Config.nsym]

theorem State.alphabet_length_le (s : State) : s.alphabet.length ≤ 259 := by
  simpa [State.alphabet, Config.nsym] using
    List.length_filter_le (fun x => decide (1 ≤ (s.lenAt x).toNat)) (List.range 259)

theorem State.clearFlags_sortedAlphabet (s : State) (fs : List Flag) :
    (s.clearFlags fs).sortedAlphabet = s.sortedAlphabet := by
  rw [State.clearFlags_shape]
  rfl

theorem take_countList (ls : List (BitVec 9)) {m : Nat} (hm : m ≤ 258) :
    (countList ls).toList.take m =
      ((List.range m).map fun k => (ls.map BitVec.toNat).count (k + 1)).map (BitVec.ofNat 9) := by
  show ((List.range Config.lmax).map fun k => BitVec.ofNat 9 (ls.count (BitVec.ofNat 9 (k + 1)))).take m = _
  rw [← List.map_take, List.take_range, Config.lmax, Nat.min_eq_left hm, List.map_map]
  refine List.map_congr_left fun k hk => ?_
  have hval : (BitVec.ofNat 9 (k + 1)).toNat = k + 1 := by
    have := List.mem_range.mp hk
    simp
    omega
  rw [Function.comp_apply, ← hval, List.count_map_of_injective _ _ (fun _ _ => BitVec.eq_of_toNat_eq), hval]

/-- The header CANON makes of the lengths of `s` (R142, R143), for a name and a content. -/
def State.canonBlock (s : State) (name content : List Byte) : Block where
  syms := s.sortedAlphabet
  counts :=
    let ls := s.sortedAlphabet.map fun x => (s.lenAt x).toNat
    (List.range (ls.getLastD 0)).map fun k => ls.count (k + 1)
  name := name
  content := content

/-- LEN has a symbol, its lengths are within LMAX, and they fit the code space. -/
structure State.LengthsOk (s : State) : Prop where
  le_lmax : ∀ x < 259, (s.lenAt x).toNat ≤ Config.lmax
  nonempty : s.alphabet ≠ []
  kraft : KraftOk s.usedLengths

theorem State.LengthsOk.sortedAlphabet_ne_nil (h : s.LengthsOk) : s.sortedAlphabet ≠ [] := by
  intro e
  have hperm := s.sortedAlphabet_perm
  rw [e] at hperm
  exact h.nonempty (List.nil_perm.mp hperm)

/-- The lengths of the sorted alphabet: sorted, between 1 and the last one. -/
theorem State.LengthsOk.sorted_lengths (h : s.LengthsOk) {ls : List Nat}
    (hls : s.sortedAlphabet.map (fun x => (s.lenAt x).toNat) = ls) :
    ls.Pairwise (· ≤ ·) ∧ (∀ l ∈ ls, 1 ≤ l ∧ l ≤ ls.getLastD 0) ∧ ls.getLastD 0 ∈ ls ∧ ls.getLastD 0 ≤ Config.lmax ∧
      KraftOk ls := by
  have hne : ls ≠ [] := by
    rw [← hls]
    exact fun e => h.sortedAlphabet_ne_nil (List.map_eq_nil_iff.mp e)
  have hsorted : ls.Pairwise (· ≤ ·) := hls ▸ s.sortedAlphabet_lengths_sorted
  have hlast : ls.getLastD 0 = ls.getLast hne := by
    rw [List.getLastD_eq_getLast?, List.getLast?_eq_some_getLast hne]
    rfl
  have hmem : ls.getLastD 0 ∈ ls := hlast ▸ List.getLast_mem hne
  have hrange : ∀ l ∈ ls, 1 ≤ l ∧ l ≤ Config.lmax := by
    intro l hl
    rw [← hls] at hl
    obtain ⟨x, hx, rfl⟩ := List.mem_map.mp hl
    obtain ⟨hlt, hpos⟩ := State.mem_alphabet.mp (s.sortedAlphabet_perm.mem_iff.mp hx)
    exact ⟨hpos, h.le_lmax x hlt⟩
  refine ⟨hsorted, fun l hl => ⟨(hrange l hl).1, ?_⟩, hmem, (hrange _ hmem).2, ?_⟩
  · rw [hlast]
    exact List.Pairwise.rel_getLast_of_rel_getLast_getLast hsorted hl (le_refl _)
  · have hperm : ls.Perm s.usedLengths := hls ▸ s.sortedAlphabet_perm.map _
    rw [KraftOk, kraft_perm hperm]
    exact h.kraft

/-- A decoder accepts the header (R74, R160). -/
theorem State.LengthsOk.headerOk (h : s.LengthsOk) (name content : List Byte) :
    lengthsFrom 1 (s.canonBlock name content).counts = s.sortedAlphabet.map (fun x => (s.lenAt x).toNat) ∧
      (s.canonBlock name content).HeaderOk := by
  obtain ⟨ls, hls⟩ : ∃ ls, s.sortedAlphabet.map (fun x => (s.lenAt x).toNat) = ls := ⟨_, rfl⟩
  obtain ⟨hsorted, hrange, hmem, hlast, hk⟩ := h.sorted_lengths hls
  have hcounts : (s.canonBlock name content).counts = (List.range (ls.getLastD 0)).map fun k => ls.count (k + 1) := by
    rw [← hls]; rfl
  have hlens := lengthsFrom_counts hsorted hrange
  rw [← hcounts] at hlens
  rw [hls]
  refine ⟨hlens, ?_, fun x hx => ?_, ?_, ?_, ?_, hlens ▸ hk⟩
  · show s.sortedAlphabet.length ≤ 511
    rw [s.sortedAlphabet_perm.length_eq]
    exact s.alphabet_length_le.trans (by decide)
  · exact (State.mem_alphabet.mp (s.sortedAlphabet_perm.mem_iff.mp hx)).1
  · rw [hcounts]
    simpa using hlast
  · rw [← lengthsFrom_length _ 1, hlens, ← hls, List.length_map]
    rfl
  · have hpos := (hrange _ hmem).1
    have hcount := List.count_pos_iff.mpr hmem
    obtain ⟨m, hm⟩ : ∃ m, ls.getLastD 0 = m + 1 := ⟨ls.getLastD 0 - 1, by omega⟩
    rw [hm] at hcount
    rw [hcounts, hm, List.range_succ, List.map_append, List.map_singleton, List.getLast?_append]
    simp only [List.getLast?_singleton, Option.some_or, ne_eq, Option.some.injEq]
    omega

/-- The state in which CANON begins to make the codes (R142). -/
def State.canonHeader (s : State) : State :=
  let lens := s.sortedAlphabet.map s.lenAt
  { s.clearFlags chainFromHeader with
    hn := BitVec.ofNat 10 s.sortedAlphabet.length
    ord := tsetPrefix s.ord (s.sortedAlphabet.map (BitVec.ofNat 9))
    cl := tsetPrefix s.cl lens
    maxl := lens.getLastD 0#9
    cntl := countList lens }

theorem canonBody_eq (op : Opcode) (h : s.LengthsOk) :
    canonBody op s = (canonCodes s.sortedAlphabet.length s.canonHeader).andThen fun s =>
      .done () ((s.setFlag .hValid true).setFlag .cValid true) := by
  have hne : s.sortedAlphabet.isEmpty = false := by simpa using h.sortedAlphabet_ne_nil
  unfold canonBody
  dsimp only
  rw [State.clearFlags_sortedAlphabet, hne, if_neg (by decide), State.canonHeader]
  rfl

theorem State.LengthsOk.canonHeader_hasHeader (h : s.LengthsOk) (name content : List Byte) :
    s.canonHeader.HasHeader (s.canonBlock name content) := by
  obtain ⟨lens, hlens⟩ : ∃ lens, lens = s.sortedAlphabet.map s.lenAt := ⟨_, rfl⟩
  have hls : s.sortedAlphabet.map (fun x => (s.lenAt x).toNat) = lens.map BitVec.toNat := by
    rw [hlens, List.map_map]; rfl
  obtain ⟨-, -, -, hlast, -⟩ := h.sorted_lengths hls
  have hlen : s.sortedAlphabet.length ≤ 259 := by
    rw [s.sortedAlphabet_perm.length_eq]
    exact s.alphabet_length_le
  have hlastD : (lens.getLastD 0#9).toNat = (lens.map BitVec.toNat).getLastD 0 := by
    rw [List.getLastD_eq_getLast?, List.getLastD_eq_getLast?, List.getLast?_map]
    cases lens.getLast? <;> rfl
  have hcounts : (s.canonBlock name content).counts =
      (List.range (lens.getLastD 0#9).toNat).map fun k => (lens.map BitVec.toNat).count (k + 1) := by
    rw [State.canonBlock, hls, hlastD]
  have hmaxl : (s.canonBlock name content).counts.length = (lens.getLastD 0#9).toNat := by
    rw [hcounts, List.length_map, List.length_range]
  constructor
  · show (BitVec.ofNat 10 s.sortedAlphabet.length).toNat = s.sortedAlphabet.length
    simp
    omega
  · show ((tsetPrefix s.ord (s.sortedAlphabet.map (BitVec.ofNat 9))).toList.take s.sortedAlphabet.length).map _ =
      s.sortedAlphabet
    have htake := take_tsetPrefix s.ord (xs := s.sortedAlphabet.map (BitVec.ofNat 9)) (by rw [List.length_map]; omega)
    rw [List.length_map] at htake
    rw [htake]
    exact map_toNat_map_ofNat fun x hx => ((h.headerOk name content).2.2.1 x hx).trans (by decide)
  · rw [hmaxl, hlens]
    rfl
  · rw [hmaxl]
    show ((countList (s.sortedAlphabet.map s.lenAt)).toList.take _).map _ = _
    rw [← hlens, take_countList lens (by rw [hlastD]; exact hlast), hcounts]
    refine map_toNat_map_ofNat fun c hc => ?_
    obtain ⟨k, -, rfl⟩ := List.mem_map.mp hc
    have hle := List.count_le_length (a := k + 1) (l := lens.map BitVec.toNat)
    rw [List.length_map, hlens, List.length_map] at hle
    rw [hlens]
    omega

theorem State.LengthsOk.canonHeader_hasLengths (h : s.LengthsOk) (name content : List Byte) :
    s.canonHeader.HasLengths (s.canonBlock name content) := by
  have hlen : (s.sortedAlphabet.map s.lenAt).length ≤ 511 := by
    rw [List.length_map, s.sortedAlphabet_perm.length_eq]
    exact s.alphabet_length_le.trans (by decide)
  have htake := take_tsetPrefix s.cl hlen
  rw [List.length_map] at htake
  rw [State.HasLengths, (h.headerOk name content).1]
  show ((tsetPrefix s.cl (s.sortedAlphabet.map s.lenAt)).toList.take s.sortedAlphabet.length).map _ = _
  rw [htake, List.map_map]
  rfl

theorem State.HasHeader.setFlag {b : Block} (h : s.HasHeader b) (f : Flag) (v : Bool) : (s.setFlag f v).HasHeader b :=
  ⟨h.hn, h.ord, h.maxl, h.cntl⟩

theorem State.HasCodes.setFlag {b : Block} (h : s.HasCodes b) (f : Flag) (v : Bool) : (s.setFlag f v).HasCodes b := h

/-- CANON completes and makes the header and the codes of the lengths (R142). -/
theorem canonBody_spec (op : Opcode) (h : s.LengthsOk) (name content : List Byte) :
    ∃ t, canonBody op s = .done () t ∧ t.HasHeader (s.canonBlock name content) ∧
      t.HasCodes (s.canonBlock name content) ∧
      t = { s with
        hn := t.hn, ord := t.ord, cntl := t.cntl, maxl := t.maxl, cl := t.cl, cc := t.cc,
        status := (((s.clearFlags chainFromHeader).setFlag .hValid true).setFlag .cValid true).status } := by
  have hheader := h.canonHeader_hasHeader name content
  obtain ⟨cc, hrun, hcodes⟩ :=
    canonCodes_of_hasLengths (h.headerOk name content).2 (h.canonHeader_hasLengths name content)
  have hheader' : ({ s.canonHeader with cc := cc } : State).HasHeader (s.canonBlock name content) :=
    ⟨hheader.hn, hheader.ord, hheader.maxl, hheader.cntl⟩
  refine ⟨_, ?_, (hheader'.setFlag .hValid true).setFlag .cValid true,
    (hcodes.setFlag .hValid true).setFlag .cValid true, ?_⟩
  · rw [canonBody_eq op h]
    show ((canonCodes (s.canonBlock name content).syms.length s.canonHeader).andThen _) = _
    rw [hrun]
    rfl
  · have hc := State.clearFlags_shape s chainFromHeader
    unfold State.canonHeader
    generalize s.clearFlags chainFromHeader = c at hc ⊢
    rw [hc]
    rfl

end Sys2Proof.Machine
end

section
/-! ENCFILE on an input at its start (spec R181): the four unit bodies make a header that lists the present symbols, and
the rest writes the block. -/

namespace Sys2Proof.Machine

variable {s : State} {b : Block} {bits : List Bool}

/-! ### Lengths of a tree -/

/-- LEN holds the depths of the tree's leaves, and 0 for every other symbol (R126). -/
structure State.HasDepths (s : State) (c : CodeTree) : Prop where
  depth : ∀ x d, (x, d) ∈ c.depths 0 → (s.lenAt x).toNat = d
  other : ∀ x, x ∉ c.leaves → s.lenAt x = 0#9
  nodup : c.leaves.Nodup
  sym_lt : ∀ x ∈ c.leaves, x < 259
  two_le : 2 ≤ c.leaves.length
  le_nsym : c.leaves.length ≤ 259

variable {c : CodeTree}

theorem CodeTree.exists_depth {x : Nat} (hx : x ∈ c.leaves) : ∃ d, (x, d) ∈ c.depths 0 := by
  rw [← c.map_fst_depths 0] at hx
  obtain ⟨⟨y, d⟩, hmem, rfl⟩ := List.mem_map.mp hx
  exact ⟨d, hmem⟩

/-- The symbols with a code are the tree's. -/
theorem State.HasDepths.alphabet_perm (h : s.HasDepths c) : s.alphabet.Perm c.leaves := by
  refine (List.perm_ext_iff_of_nodup (List.nodup_range.filter _) h.nodup).mpr fun x => ?_
  rw [← State.alphabet, State.mem_alphabet]
  constructor
  · rintro ⟨-, hpos⟩
    by_contra hx
    rw [h.other x hx] at hpos
    exact absurd hpos (by decide)
  · intro hx
    obtain ⟨d, hd⟩ := CodeTree.exists_depth hx
    have := CodeTree.depth_pos h.two_le hd
    exact ⟨h.sym_lt x hx, by rw [h.depth x d hd]; omega⟩

/-- The lengths of a tree's symbols fill the code space exactly (R127, R142). -/
theorem State.HasDepths.lengthsOk (h : s.HasDepths c) : s.LengthsOk := by
  have hperm := h.alphabet_perm
  refine ⟨fun x _ => ?_, fun e => ?_, ?_⟩
  · by_cases hx : x ∈ c.leaves
    · obtain ⟨d, hd⟩ := CodeTree.exists_depth hx
      have := (CodeTree.depth_bounds hd).2
      have := h.le_nsym
      rw [h.depth x d hd, Config.lmax]
      omega
    · rw [h.other x hx]
      exact Nat.zero_le _
  · have hlen := hperm.length_eq
    have htwo := h.two_le
    rw [e, List.length_nil] at hlen
    omega
  · have hlens : s.usedLengths.Perm ((c.depths 0).map Prod.snd) := by
      refine (hperm.map _).trans ?_
      rw [← c.map_fst_depths 0, List.map_map]
      exact .of_eq (List.map_congr_left fun p hp => h.depth p.1 p.2 hp)
    rw [KraftOk, kraft_perm hlens, c.kraft_depths (by have := h.le_nsym; rw [Config.lmax]; omega), Nat.sub_zero]

/-! ### The header of a block -/

/-- What the encoder's tables may differ in after its four unit bodies, beside STATUS (R181). -/
abbrev State.EncoderFrame (s t : State) : Prop :=
  (∀ f, f ∉ chainFromFreq → t.flag f = s.flag f) ∧
  t = { s with
    freq := t.freq, node := t.node, ncnt := t.ncnt, root := t.root, pq := t.pq, len := t.len, hn := t.hn, ord := t.ord,
    cntl := t.cntl, maxl := t.maxl, cl := t.cl, cc := t.cc, status := t.status, host.srcPos := t.host.srcPos }

/-- The four unit bodies ENCFILE begins with (R181). -/
def unitBodies (op : Opcode) (s : State) : Run Unit :=
  (scanBody s).andThen fun s => (buildBody s).andThen fun s => (walkBody s).andThen fun s => canonBody op s

/-- SCAN, BUILD, WALK and CANON make a header a decoder accepts, which lists every symbol of the block, and its
codes. -/
theorem unitBodies_spec (op : Opcode) (h : s.name.length + s.srcRest.length < 2 ^ 64) :
    ∃ t b, unitBodies op s = .done () t ∧ b.HeaderOk ∧ b.name = s.name ∧ b.content = s.srcRest ∧
      (∀ x ∈ blockSymbols s.name s.srcRest, x ∈ b.syms) ∧
      t.HasHeader b ∧ t.HasCodes b ∧ s.EncoderFrame t := by
  obtain ⟨s1, h1, hsh1⟩ := scanBody_spec h
  have hpresent : ∀ x ∈ blockSymbols s.name s.srcRest, x ∈ s1.presentSyms := fun x hx =>
    List.mem_filter.mpr ⟨List.mem_range.mpr ((noOverflow_blockSymbols h).1 x hx),
      by simpa using freqAt_ne_zero_of_scanned h (by rw [hsh1]) hx⟩
  have h256 := hpresent 256 (by simp [blockSymbols, Config.filenameEnd])
  have h257 := hpresent 257 (by simp [blockSymbols, Config.oneMoreFile])
  obtain ⟨s2, c, h2, hat, hperm, hncnt, hsh2⟩ := buildBody_spec (List.ne_nil_of_mem h256)
  have hnd : c.leaves.Nodup := hperm.nodup_iff.mpr s1.presentSyms_nodup
  have hlt : ∀ x ∈ c.leaves, x < 259 := fun x hx =>
    List.mem_range.mp (List.mem_of_mem_filter (hperm.mem_iff.mp hx))
  have hle : c.leaves.length ≤ 259 := by
    rw [hperm.length_eq]
    simpa [State.presentSyms, Config.nsym] using List.length_filter_le (fun x => s1.freqAt x != 0#64) (List.range 259)
  obtain ⟨s3, h3, hdepth, hother, hsh3⟩ := walkBody_spec hat hncnt hnd hlt hle
  have htwo : 2 ≤ c.leaves.length := by
    rw [hperm.length_eq]
    exact (List.subperm_of_subset (l₁ := [256, 257]) (by decide) (by simp [h256, h257])).length_le
  have hdepths : s3.HasDepths c := ⟨hdepth, hother, hnd, hlt, htwo, hle⟩
  have hok := hdepths.lengthsOk
  obtain ⟨t, h4, hheader, hcodes, hsh4⟩ := canonBody_spec op hok s.name s.srcRest
  refine ⟨t, s3.canonBlock s.name s.srcRest, ?_, (hok.headerOk _ _).2, rfl, rfl, fun x hx => ?_, hheader, hcodes,
    fun f hf => ?_, ?_⟩
  · simp only [unitBodies, h1, h2, h3, h4, Run.andThen_done]
  · refine (s3.sortedAlphabet_perm.trans hdepths.alphabet_perm).mem_iff.mpr (hperm.mem_iff.mpr (hpresent x hx))
  · rw [flag_of_chain_pair (s := s3) (by rw [hsh4]) (by decide) hf,
      flag_of_chain (s := s2) (by rw [hsh3]) (by decide) hf, flag_of_chain (s := s1) (by rw [hsh2]) (by decide) hf,
      flag_of_chain (s := s) (by rw [hsh1]) (by decide) hf]
  · rw [hsh4, hsh3, hsh2, hsh1]

/-! ### The bits of the block -/

/-- The bits are appended to the bits written; beside the writer only ARC and the SRC cursor change. -/
structure State.Writes (s t : State) (bits : List Bool) : Prop where
  written : t.written = s.written ++ bits
  writerOk : WriterOk t
  shape : t = { s with wbuf := t.wbuf, wcnt := t.wcnt, host.arc := t.host.arc, host.srcPos := t.host.srcPos }

variable {t u : State}

theorem State.Writes.refl (h : WriterOk s) : s.Writes s [] := ⟨by simp, h, rfl⟩

theorem State.Writes.trans {cs : List Bool} (h : s.Writes t bits) (h' : t.Writes u cs) : s.Writes u (bits ++ cs) := by
  obtain ⟨hw, -, hsh⟩ := h
  obtain ⟨hw', hok, hsh'⟩ := h'
  exact ⟨by rw [hw', hw, List.append_assoc], hok, by rw [hsh', hsh]⟩

/-- Moving the SRC cursor writes nothing. -/
theorem State.Writes.srcPos (h : s.Writes t bits) (p : Nat) : s.Writes { t with host.srcPos := p } bits := by
  obtain ⟨hw, hok, hsh⟩ := h
  exact ⟨hw, hok, by rw [hsh]⟩

theorem writes_writeBitList (h : WriterOk s) (bs : List Bool) : s.Writes (writeBitList s bs) bs := by
  obtain ⟨hw, hok⟩ := writeBitList_spec h bs
  exact ⟨hw, hok, by rw [writeBitList_shape]⟩

/-- The encoder's header and codes are the block's. -/
structure State.Encodes (s : State) (b : Block) : Prop where
  header : s.HasHeader b
  codes : s.HasCodes b

theorem State.Writes.encodes (h : s.Writes t bits) (hb : s.Encodes b) : t.Encodes b := by
  obtain ⟨⟨h1, h2, h3, h4⟩, hc⟩ := hb
  rw [h.shape]
  exact ⟨⟨h1, h2, h3, h4⟩, hc⟩

/-- WHDR writes the header's fields (R147). -/
theorem whdrBody_eq (h : s.HasHeader b) : whdrBody s = writeBitList s b.headerBits := by
  have hfields : s.headerFields = b.syms.length :: (b.syms ++ b.counts) := by
    rw [State.headerFields, h.hn, h.maxl, h.ord, h.cntl]
  have hpairs := writeAll_eq_writeBitList (s.headerFields.map fun v => (v, Config.symW)) s
  rw [writeAll, List.foldl_map, fieldBits, List.flatMap_map, hfields] at hpairs
  rw [whdrBody, hfields]
  exact hpairs

/-- `PutSymbol` of a listed symbol writes its code (R166). -/
theorem putSymbol_of_code (op : Opcode) {x : Sym} {code : List Bool} (h : s.Encodes b)
    (hc : b.code x.toNat = some code) : putSymbol op x s = .done () (writeBitList s code) := by
  obtain ⟨i, hi, hcode⟩ := Option.bind_eq_some_iff.mp hc
  have hpos : s.position x = some i := by
    have hpred : ((· == x.toNat) ∘ BitVec.toNat : Sym → Bool) = (· == x) := by
      funext y
      simp [BitVec.toNat_inj]
    rw [← hi, ← h.header.ord, List.findIdx?_map, hpred, State.position, h.header.hn]
  have hat : s.codeAt i = code := by
    obtain ⟨hlt, -⟩ := List.findIdx?_eq_some_iff_getElem.mp hi
    rw [← h.codes, List.getElem?_map, List.getElem?_range hlt] at hcode
    exact Option.some.inj hcode
  rw [putSymbol, hpos, ← hat]

theorem putSymbol_writes (op : Opcode) {x : Sym} {code : List Bool} (hs : WriterOk s) (h : s.Encodes b)
    (hc : b.code x.toNat = some code) : ∃ t, putSymbol op x s = .done () t ∧ s.Writes t code :=
  ⟨_, putSymbol_of_code op h hc, writes_writeBitList hs code⟩

theorem toNat_setWidth_byte (x : Byte) : (x.setWidth 9).toNat = x.toNat := by
  rw [BitVec.toNat_setWidth, Nat.mod_eq_of_lt (x.isLt.trans (by decide))]

theorem putAll_of_symBits (op : Opcode) (xs : List Byte) {s : State} {bits : List Bool} (hs : WriterOk s)
    (h : s.Encodes b) (hbits : b.symBits (xs.map BitVec.toNat) = some bits) :
    putAll op xs s = .done () (writeBitList s bits) := by
  induction xs generalizing s bits with
  | nil =>
    obtain rfl : [] = bits := Option.some.inj hbits
    rfl
  | cons x xs ih =>
    obtain ⟨code, more, hcode, hmore, rfl⟩ := Block.exists_of_symBits_cons hbits
    have hw := writes_writeBitList hs code
    rw [putAll, putSymbol_of_code op (x := x.setWidth 9) h (by rwa [toNat_setWidth_byte]), Run.andThen_done,
      ih hw.writerOk (hw.encodes h) hmore, writeBitList_append]

theorem srcRest_writeBitList (s : State) (bs : List Bool) : (writeBitList s bs).srcRest = s.srcRest := by
  rw [writeBitList_shape]
  rfl

/-- Where ENCFILE's content loop, begun in `s`, stands with the bytes `left` to come: the codes of the others are
written. -/
def PutProgress (b : Block) (s : State) (left : List Byte) (t : State) : Prop :=
  ∃ pre bits, s.srcRest = pre ++ left ∧ b.symBits (pre.map BitVec.toNat) = some bits ∧ s.Writes t bits

theorem PutProgress.put (op : Opcode) {x : Byte} {left : List Byte} (h : s.Encodes b)
    (hbits : b.symBits (s.srcRest.map BitVec.toNat) = some bits) (hleft : t.srcRest = x :: left)
    (ht : PutProgress b s (x :: left) t) :
    ∃ u, putSymbol op (x.setWidth 9) { t with host.srcPos := t.host.srcPos + 1 } = .done () u ∧ u.srcRest = left ∧
      PutProgress b s left u := by
  obtain ⟨pre, done, hpre, hdone, hw⟩ := ht
  have hw' := hw.srcPos (t.host.srcPos + 1)
  rw [hpre, List.map_append, List.map_cons] at hbits
  obtain ⟨-, ds, -, hds, -⟩ := Block.exists_of_symBits_append hbits
  obtain ⟨code, -, hcode, -, -⟩ := Block.exists_of_symBits_cons hds
  refine ⟨_, putSymbol_of_code op (hw'.encodes h) (by rwa [toNat_setWidth_byte]), ?_, pre ++ [x], done ++ code,
    by rw [hpre]; simp, ?_, hw'.trans (writes_writeBitList hw'.writerOk code)⟩
  · rw [srcRest_writeBitList, (memReadSrc_cons hleft).2]
  · rw [List.map_append, Block.symBits_append, hdone, List.map_singleton, Block.symBits_cons, hcode]
    simp

/-- The content loop of ENCFILE writes the codes of the bytes left of SRC (R181). -/
theorem forSrc_put_writes (op : Opcode) (hs : WriterOk s) (h : s.Encodes b)
    (hbits : b.symBits (s.srcRest.map BitVec.toNat) = some bits) :
    ∃ t, forSrc (fun x => putSymbol op (x.setWidth 9)) s.srcRest.length s = .done () t ∧ s.Writes t bits := by
  obtain ⟨t, ht, -, pre, done, hpre, hdone, hw⟩ := forSrc_spec (body := fun x => putSymbol op (x.setWidth 9))
    (P := PutProgress b s) (fun _ _ _ hleft ht => ht.put op h hbits hleft) (s := s) ⟨[], [], rfl, rfl, .refl hs⟩
  rw [List.append_nil] at hpre
  rw [hpre, hdone] at hbits
  exact ⟨t, ht, Option.some.inj hbits ▸ hw⟩

/-- What ENCFILE does once it has the codes (R181). -/
def writeBlock (op : Opcode) (last : Bool) (s : State) : Run Unit :=
  let s := hostRewindSrc (whdrBody s)
  (putAll op s.name s).andThen fun s =>
  (forSrc (fun x => putSymbol op (x.setWidth 9)) s.srcRest.length s).andThen fun s =>
  (putSymbol op (BitVec.ofNat 9 Config.filenameEnd) s).andThen fun s =>
  putSymbol op (BitVec.ofNat 9 (if last then Config.archiveEnd else Config.oneMoreFile)) s

/-- The trailer symbol of a block (R181, R77). -/
abbrev trailerSymbol (last : Bool) : Nat := if last then Config.archiveEnd else Config.oneMoreFile

theorem toNat_trailerSymbol (last : Bool) : (BitVec.ofNat 9 (trailerSymbol last)).toNat = trailerSymbol last := by
  cases last <;> decide

/-- ENCFILE writes the bits of the block of NAME and the whole input (R181, R71). -/
theorem writeBlock_writes (op : Opcode) (last : Bool) (hs : WriterOk s) (h : s.Encodes b) (hname : b.name = s.name)
    (hcontent : b.content = s.srcContent) (hbits : b.bits (trailerSymbol last) = some bits) :
    ∃ t, writeBlock op last s = .done () t ∧ s.Writes t bits := by
  obtain ⟨n, c, e, hn, hc, he, rfl⟩ := Block.exists_of_bits hbits
  obtain ⟨cs, ds, hcs, hds, rfl⟩ := Block.exists_of_symBits_append hc
  obtain ⟨code, last', hcode, hlast', rfl⟩ := Block.exists_of_symBits_cons hds
  obtain rfl : [] = last' := Option.some.inj hlast'
  obtain ⟨s1, hs1⟩ : ∃ u, u = hostRewindSrc (whdrBody s) := ⟨_, rfl⟩
  have hw1 : s.Writes s1 b.headerBits := by
    rw [hs1, whdrBody_eq h.header]
    exact (writes_writeBitList hs b.headerBits).srcPos 0
  have hname1 : s1.name = b.name := by rw [hw1.shape, hname]
  have hrest1 : s1.srcRest = b.content := by
    rw [hcontent, hs1, whdrBody_eq h.header, writeBitList_shape]
    rfl
  have h2 := putAll_of_symBits op s1.name hw1.writerOk (hw1.encodes h) (by rwa [hname1])
  have hw2 := hw1.trans (writes_writeBitList hw1.writerOk n)
  obtain ⟨s3, h3, hw3⟩ := forSrc_put_writes op hw2.writerOk (hw2.encodes h) (by rwa [srcRest_writeBitList, hrest1])
  have hw3 := hw2.trans hw3
  obtain ⟨s4, h4, hw4⟩ := putSymbol_writes op (x := BitVec.ofNat 9 Config.filenameEnd) hw3.writerOk
    (hw3.encodes h) hcode
  have hw4 := hw3.trans hw4
  obtain ⟨s5, h5, hw5⟩ := putSymbol_writes op (x := BitVec.ofNat 9 (trailerSymbol last)) hw4.writerOk (hw4.encodes h)
    (by rwa [toNat_trailerSymbol])
  refine ⟨s5, ?_, by simpa using hw4.trans hw5⟩
  simp only [writeBlock, ← hs1, h2, h3, h4, h5, Run.andThen_done]

/-! ### ENCFILE -/

theorem Run.andThen_assoc {α : Type} (r : Run Unit) (k : State → Run Unit) (g : State → Run α) :
    (r.andThen k).andThen g = r.andThen fun s => (k s).andThen g := Run.bind_assoc _ _ _

theorem encfileBody_eq (op : Opcode) (last : Bool) (s : State) :
    encfileBody op last s = (unitBodies op s).andThen (writeBlock op last) := by
  simp only [unitBodies, Run.andThen_assoc]
  rfl

/-- What ENCFILE may change: the encoder's tables, the writer, ARC, the SRC cursor, and the flags of the tables
(R181). -/
structure State.EncfileFrame (s t : State) : Prop where
  flags : ∀ f, f ∉ chainFromFreq → t.flag f = s.flag f
  shape : t = { s with
    wbuf := t.wbuf, wcnt := t.wcnt, freq := t.freq, node := t.node, ncnt := t.ncnt, root := t.root, pq := t.pq,
    len := t.len, hn := t.hn, ord := t.ord, cntl := t.cntl, maxl := t.maxl, cl := t.cl, cc := t.cc,
    status := t.status, host.arc := t.host.arc, host.srcPos := t.host.srcPos }

/-- ENCFILE on an input at its start writes a block a decoder accepts, of NAME and the input (R181). -/
theorem encfileBody_spec (op : Opcode) (last : Bool) (hs : WriterOk s) (hpos : s.host.srcPos = 0)
    (h : s.name.length + s.srcContent.length < 2 ^ 64) :
    ∃ (t : State) (b : Block) (bits : List Bool), encfileBody op last s = .done () t ∧ b.HeaderOk ∧
      b.name = s.name ∧ b.content = s.srcContent ∧
      b.bits (trailerSymbol last) = some bits ∧ t.written = s.written ++ bits ∧ WriterOk t ∧ s.EncfileFrame t := by
  have hrest : s.srcRest = s.srcContent := by rw [State.srcRest, hpos, List.drop_zero]
  rw [← hrest] at h
  obtain ⟨u, b, hu, hok, hname, hcontent, hsyms, hheader, hcodes, hflags, hsh⟩ := unitBodies_spec op h
  have hused : ∀ x ∈ (b.name ++ b.content).map BitVec.toNat ++ [Config.filenameEnd, trailerSymbol last],
      x ∈ b.syms := by
    intro x hx
    have hctl : ∀ last : Bool, ∀ x ∈ [Config.filenameEnd, trailerSymbol last],
        x ∈ [Config.filenameEnd, Config.oneMoreFile, Config.archiveEnd] := by decide
    refine hsyms x ?_
    rw [hname, hcontent] at hx
    rcases List.mem_append.mp hx with hx | hx
    · exact List.mem_append_left _ hx
    · exact List.mem_append_right _ (hctl last x hx)
  obtain ⟨codes, hcodes'⟩ := hok.exists_symBits hused
  have hbits : b.bits (trailerSymbol last) = some (b.headerBits ++ codes) := by rw [Block.bits, hcodes']; rfl
  obtain ⟨t, ht, hw⟩ := writeBlock_writes op last (s := u) (by rw [hsh]; exact hs) ⟨hheader, hcodes⟩
    (by rw [hname, hsh]) (by rw [hcontent, hrest, hsh]; rfl) hbits
  refine ⟨t, b, _, ?_, hok, hname, hcontent.trans hrest, hbits, ?_, hw.writerOk, ?_, ?_⟩
  · rw [encfileBody_eq, hu, Run.andThen_done, ht]
  · rw [hw.written, hsh]
    rfl
  · intro f hf
    exact (State.flag_congr (t := u) (by rw [hw.shape]) f).trans (hflags f hf)
  · rw [hw.shape, hsh]

end Sys2Proof.Machine
end

section
/-! COMPRESS of files the host opens (spec R188), and the round trip (R191). -/

namespace Sys2Proof.Machine

variable {s t : State}

/-- A name and a content (R51). -/
abbrev FileData := List Byte × List Byte

/-- What COMPRESS's loop leaves alone: the reader, RES, RLEN, the fault registers, the trie, the host but for ARC and
the SRC cursor, and the flags that are not the encoder's or S_OPEN (R188). -/
structure State.CompressFrame (s t : State) : Prop where
  flags : ∀ f, f ∉ chainFromFreq → f ≠ .sOpen → t.flag f = s.flag f
  shape : t = { s with
    wbuf := t.wbuf, wcnt := t.wcnt, freq := t.freq, node := t.node, ncnt := t.ncnt, root := t.root, pq := t.pq,
    len := t.len, hn := t.hn, ord := t.ord, cntl := t.cntl, maxl := t.maxl, cl := t.cl, cc := t.cc,
    status := t.status, name := t.name, sidx := t.sidx, host.arc := t.host.arc, host.srcPos := t.host.srcPos }

theorem State.CompressFrame.trans {u : State} (h : s.CompressFrame t) (h' : t.CompressFrame u) : s.CompressFrame u := by
  refine ⟨fun f hf ho => (h'.flags f hf ho).trans (h.flags f hf ho), ?_⟩
  obtain ⟨-, hsh⟩ := h
  obtain ⟨-, hsh'⟩ := h'
  rw [hsh', hsh]

theorem sopenBody_of_file (op : Opcode) {idx : BitVec 16} {f : FileData}
    (hin : s.host.inputs[idx.toNat]? = some (.file f.1 f.2)) (hfit : s.nameFits f.1) :
    sopenBody op idx s = .done () ({ s with sidx := idx, name := f.1, host.srcPos := 0 }.setFlag .sOpen true) := by
  obtain ⟨hno, -⟩ | ⟨name, content, hin', h⟩ := sopenBody_cases op idx s
  · rw [hin] at hno
    simp at hno
  · rw [hin] at hin'
    obtain ⟨rfl, rfl⟩ := InputFile.file.inj (Option.some.inj hin')
    obtain ⟨hlong, -⟩ | ⟨-, e⟩ := h
    · exact absurd (hfit.symm.trans hlong) (by decide)
    · exact e

theorem srcContent_of_input {f : InputFile} (h : s.host.inputs[s.sidx.toNat]? = some f) : s.srcContent = f.content := by
  rw [State.srcContent, h]

/-- One round of COMPRESS: the input is opened, its block written, the input closed (R188). -/
theorem compressRound_spec (op : Opcode) (last : Bool) {i : Nat} {f : FileData} (hi : i < 2 ^ 16) (hs : WriterOk s)
    (hin : s.host.inputs[i]? = some (.file f.1 f.2)) (hfit : s.nameFits f.1) (hlen : f.1.length + f.2.length < 2 ^ 64) :
    ∃ (u v : State) (b : Block) (bits : List Bool), sopenBody op (BitVec.ofNat 16 i) s = .done () u ∧
      encfileBody op last u = .done () v ∧ b.HeaderOk ∧ (b.name, b.content) = f ∧
      b.bits (trailerSymbol last) = some bits ∧ (closeSrc v).written = s.written ++ bits ∧ WriterOk (closeSrc v) ∧
      (closeSrc v).flag .sOpen = false ∧ s.CompressFrame (closeSrc v) := by
  have hidx : (BitVec.ofNat 16 i).toNat = i := by rw [BitVec.toNat_ofNat, Nat.mod_eq_of_lt hi]
  have hopen := sopenBody_of_file (s := s) op (idx := BitVec.ofNat 16 i) (by rwa [hidx]) hfit
  obtain ⟨u, hu⟩ : ∃ u, u = { s with sidx := BitVec.ofNat 16 i, name := f.1, host.srcPos := 0 }.setFlag .sOpen true :=
    ⟨_, rfl⟩
  rw [← hu] at hopen
  have hname : u.name = f.1 := by rw [hu]; rfl
  have hcontent : u.srcContent = f.2 := by
    rw [srcContent_of_input (f := .file f.1 f.2)
      (by rw [hu]; show s.host.inputs[(BitVec.ofNat 16 i).toNat]? = _; rwa [hidx])]
    rfl
  have huw : WriterOk u := by rw [hu]; exact hs
  obtain ⟨v, b, bits, hv, hok, hbn, hbc, hbits, hwritten, hvw, hflags, hshape⟩ :=
    encfileBody_spec op last huw (by rw [hu]; rfl) (by rwa [hname, hcontent])
  refine ⟨u, v, b, bits, hopen, hv, hok, by rw [hbn, hbc, hname, hcontent], hbits, ?_, hvw,
    (State.flag_setFlag _ _ _ _).trans (if_pos rfl), ⟨fun g hg ho => ?_, ?_⟩⟩
  · show v.written = _
    rw [hwritten, hu]
    rfl
  · rw [closeSrc, State.flag_setFlag, if_neg ho, hflags g hg, hu, State.flag_setFlag, if_neg ho]
    rfl
  · rw [closeSrc, hshape, hu]
    rfl

/-- COMPRESS's loop writes the blocks of an archive (R188, R70). -/
theorem compressLoop_spec (op : Opcode) (fs : List FileData) {f : FileData} {i : Nat} {s : State}
    (hi : i + (f :: fs).length ≤ 2 ^ 16) (hs : WriterOk s)
    (hin : ∀ j (h : j < (f :: fs).length), s.host.inputs[i + j]? = some (.file (f :: fs)[j].1 (f :: fs)[j].2))
    (hfs : ∀ g ∈ f :: fs, s.nameFits g.1 ∧ g.1.length + g.2.length < 2 ^ 64) :
    ∃ (t : State) (blocks : List Block) (bits : List Bool), compressLoop op i (f :: fs).length s = .done () t ∧
      blocks.map (fun b => (b.name, b.content)) = f :: fs ∧ (∀ b ∈ blocks, b.HeaderOk) ∧
      archiveBits blocks = some bits ∧ t.written = s.written ++ bits ∧ WriterOk t ∧ t.flag .sOpen = false ∧
      s.CompressFrame t := by
  induction fs generalizing f i s with
  | nil =>
    obtain ⟨hfit, hlen⟩ := hfs f (by simp)
    obtain ⟨u, v, b, bits, hu, hv, hok, hb, hbits, hwritten, hvw, hso, hframe⟩ :=
      compressRound_spec op true (i := i) (f := f) (by simp at hi; omega) hs (hin 0 (by simp)) hfit hlen
    refine ⟨closeSrc v, [b], bits, ?_, by rw [List.map_singleton, hb], by simpa using hok, hbits, hwritten, hvw, hso,
      hframe⟩
    simp only [List.length_cons, List.length_nil, compressLoop, hu, Run.andThen_done]
    rw [show ((0 : Nat) == 0) = true from rfl, hv]
    rfl
  | cons g gs ih =>
    obtain ⟨hfit, hlen⟩ := hfs f (by simp)
    obtain ⟨u, v, b, bits, hu, hv, hok, hb, hbits, hwritten, hvw, hso, hframe⟩ :=
      compressRound_spec op false (i := i) (f := f) (by simp at hi; omega) hs (hin 0 (by simp)) hfit hlen
    have hinputs : (closeSrc v).host.inputs = s.host.inputs := by rw [hframe.shape]
    have hmax : (closeSrc v).nameMax = s.nameMax := by rw [hframe.shape]
    obtain ⟨t, blocks, more, ht, hbs, hoks, hmore, hwritten', htw, hso', hframe'⟩ := ih (f := g) (i := i + 1)
      (s := closeSrc v) (by simp at hi ⊢; omega) hvw
      (fun j hj => by
        rw [hinputs, Nat.add_assoc, Nat.add_comm 1]
        exact hin (j + 1) (by simpa using hj))
      (fun h hmem => by
        simp only [State.nameFits, State.nameTooLong, hmax]
        exact hfs h (List.mem_cons_of_mem _ hmem))
    refine ⟨t, b :: blocks, bits ++ more, ?_, by rw [List.map_cons, hb, hbs], ?_, ?_, ?_, htw, hso',
      hframe.trans hframe'⟩
    · rw [List.length_cons, compressLoop, hu, Run.andThen_done]
      rw [show ((g :: gs).length == 0) = false from rfl, hv]
      exact ht
    · exact fun c hc => (List.mem_cons.mp hc).elim (fun e => e ▸ hok) (hoks c)
    · cases blocks with
      | nil => cases hbs
      | cons c rest =>
        have hb' : b.bits Config.oneMoreFile = some bits := hbits
        rw [archiveBits, hb', hmore]
        rfl
    · rw [hwritten', hwritten, List.append_assoc]

theorem aopenwBody_of_ok (h : s.host.arcWOk = true) :
    aopenwBody s = .done () ({ s with wbuf := 0#8, wcnt := 0#4, host.arc := [] }.setFlag .awOpen true) := by
  obtain ⟨-, e⟩ | ⟨hno, -⟩ := hostOpenArcW_cases s
  · rw [aopenwBody, e]
  · rw [h] at hno; cases hno

/-- CLOSE 0 on an archive open for writing leaves the bits written in ARC, with zero bits to the last byte's end
(R208). -/
theorem closeArc_stream (h : WriterOk s) (ho : s.flag .awOpen = true) :
    ∃ pad, streamBits (closeArc s).host.arc = s.written ++ List.replicate pad false := by
  obtain ⟨hw, hcnt, -⟩ := flush_spec h
  rw [State.written_of_wcnt_zero hcnt] at hw
  refine ⟨_, Eq.trans ?_ hw⟩
  unfold closeArc
  rw [ho]
  rfl

theorem flag_closeArc (s : State) (f : Flag) :
    (closeArc s).flag f = (s.flag f && !decide (f = .awOpen) && !decide (f = .arOpen)) := by
  have hstatus : (if s.flag .awOpen then flush s else s).status = s.status := by
    split
    · rw [flush_shape]
    · rfl
  show ((State.setFlag _ .awOpen false).setFlag .arOpen false).flag f = _
  rw [State.flag_setFlag, State.flag_setFlag, State.flag_congr hstatus]
  by_cases har : f = .arOpen
  · simp [har]
  · by_cases haw : f = .awOpen <;> simp [har, haw]

/-- The streams are closed exactly while their four flags are 0. -/
theorem State.allClosed_iff (s : State) :
    s.allClosed = true ↔
      s.flag .awOpen = false ∧ s.flag .arOpen = false ∧ s.flag .sOpen = false ∧ s.flag .dOpen = false := by
  simp [State.allClosed, and_assoc]

/-- COMPRESS of files the host opens, with names that fit: an archive of one block each, every stream closed (R188). -/
theorem exec_compress_spec {idx : BitVec 16} {files : List FileData} (hready : Ready s) (hclosed : s.allClosed = true)
    (harc : s.host.arcWOk = true) (hne : files ≠ []) (hlen : files.length = idx.toNat)
    (hin : s.host.inputs.take idx.toNat = files.map (fun f => .file f.1 f.2))
    (hfiles : ∀ f ∈ files, s.nameFits f.1 ∧ f.1.length + f.2.length < 2 ^ 64) :
    ∃ (t : State) (blocks : List Block) (bits : List Bool) (pad : Nat), exec (.compress idx) s = .next t ∧ Ready t ∧
      t.allClosed = true ∧ blocks.map (fun b => (b.name, b.content)) = files ∧ (∀ b ∈ blocks, b.HeaderOk) ∧
      archiveBits blocks = some bits ∧ streamBits t.host.arc = bits ++ List.replicate pad false ∧
      t.nameMax = s.nameMax ∧ t.host = { s.host with arc := t.host.arc, srcPos := t.host.srcPos } := by
  obtain ⟨f, fs, rfl⟩ := List.exists_cons_of_ne_nil hne
  have hopen := aopenwBody_of_ok harc
  obtain ⟨u, hu⟩ : ∃ u, u = { s with wbuf := 0#8, wcnt := 0#4, host.arc := [] }.setFlag .awOpen true := ⟨_, rfl⟩
  rw [← hu] at hopen
  have huw : WriterOk u := writerOk_of_empty (by rw [hu]; rfl) (by rw [hu]; rfl)
  have huwritten : u.written = [] := by rw [hu]; rfl
  have hget : ∀ j (h : j < (f :: fs).length), u.host.inputs[0 + j]? = some (.file (f :: fs)[j].1 (f :: fs)[j].2) := by
    intro j hj
    have hj' := congrArg (fun l => l[j]?) hin
    rw [List.getElem?_take, if_pos (hlen ▸ hj), List.getElem?_map, List.getElem?_eq_getElem hj] at hj'
    rw [Nat.zero_add, hu]
    exact hj'
  obtain ⟨v, blocks, bits, hv, hbs, hoks, hbits, hwritten, hvw, hso, hframe⟩ := compressLoop_spec 0x17#6 fs (f := f)
    (i := 0) (s := u) (by rw [hlen, Nat.zero_add]; exact idx.isLt.le) huw hget
    (fun g hg => by rw [hu]; exact hfiles g hg)
  rw [huwritten, List.nil_append] at hwritten
  have hflag : ∀ g, g ∉ chainFromFreq → g ≠ .sOpen → g ≠ .awOpen → v.flag g = s.flag g := fun g hg ho hw => by
    rw [hframe.flags g hg ho, hu, State.flag_setFlag, if_neg hw]
    rfl
  obtain ⟨-, -, -, hdo⟩ := s.allClosed_iff.mp hclosed
  have hvaw : v.flag .awOpen = true := by
    rw [hframe.flags _ (by decide) (by decide), hu, State.flag_setFlag, if_pos rfl]
  obtain ⟨pad, hstream⟩ := closeArc_stream hvw hvaw
  refine ⟨closeArc v, blocks, bits, pad, ?_, ?_, ?_, hbs, hoks, hbits, by rw [hstream, hwritten], ?_, ?_⟩
  · have hrange : countInRange idx = true := by
      rw [countInRange, decide_eq_true_eq, ← hlen, List.length_cons]
      omega
    rw [exec, execCompress, runCommand_body hready hrange hclosed, ← hlen]
    simp only [compressBody, hopen, Run.andThen_done, hv, Run.outcome_done]
  · exact closeArc_ready ((hflag _ (by decide) (by decide) (by decide)).trans hready)
  · rw [State.allClosed_iff]
    simp [flag_closeArc, hso, hflag .dOpen (by decide) (by decide) (by decide), hdo]
  · rw [closeArc_shape]
    show v.nameMax = _
    rw [hframe.shape, hu]
    rfl
  · rw [closeArc_shape, hframe.shape, hu]
    rfl

/-- Settles O49: COMPRESS leaves the bits of an archive of the files' blocks and padding, and DECOMPRESS makes the
blocks' outputs of them. -/
theorem compressDecompressRoundTrip : Obligations.CompressDecompressRoundTrip := by
  unfold Obligations.CompressDecompressRoundTrip
  intro idx files s hready hpre hw hr houts hne hlen hin hfiles
  obtain ⟨t, blocks, bits, pad, ht, htready, htclosed, hblocks, hoks, hbits, hstream, hmax, hhost⟩ :=
    exec_compress_spec hready hpre hw hne hlen hin fun f hf => by
      obtain ⟨-, hfit, -, hshort⟩ := hfiles f hf
      exact ⟨hfit, by omega⟩
  have haccepts : ∀ b ∈ blocks, t.Accepts b := fun b hb => by
    have hmem : (b.name, b.content) ∈ files := hblocks ▸ List.mem_map_of_mem hb
    obtain ⟨hgood, hfit, hdst, -⟩ := hfiles _ hmem
    exact State.Accepts.of_eq (s := s) ⟨hoks b hb, hgood, hfit, hdst⟩ hmax (by rw [hhost])
  obtain ⟨u, hu, huready, huouts⟩ :=
    exec_decompress_spec htready htclosed (by rw [hhost]; exact hr) haccepts hbits hstream
  refine ⟨t, u, ht, htready, hu, huready, ?_⟩
  have htouts : t.host.outputs = [] := by rw [hhost]; exact houts
  rw [huouts, htouts, hblocks, List.nil_append]

end Sys2Proof.Machine
end

section
/-! Faults (spec R225, R227): what fault entry writes, and what a FAULTED engine still executes. -/

namespace Sys2Proof.Machine

/-- FAULTED is bit 0 of STATUS (R37), so setting it is an OR with 1. -/
theorem statusWith_faulted_true (w : BitVec 16) : statusWith w .faulted true = w ||| 1#16 := rfl

/-- Settles O8: fault entry with and without a recorded fault, and a sequence that ends at its `raise`. -/
theorem faultEntryRecordsOnce : Obligations.FaultEntryRecordsOnce := by
  unfold Obligations.FaultEntryRecordsOnce
  refine ⟨fun s k info h => ?_, fun s k info h => State.raise_of_faulted h k info, fun s k info rest => ?_⟩
  · rw [State.raise_of_ready h, statusWith_faulted_true]
  · rw [Run.bind_raise, Run.outcome_raise]

/-! ### The words the decoder accepts as RESET and RDSR -/

theorem checkZero_eq_ok {w mbz : Word} {i j : Instr} (h : checkZero w mbz i = .ok j) : w &&& mbz = 0#32 ∧ i = j := by
  by_cases hz : w &&& mbz = 0#32
  · rw [checkZero, if_pos hz] at h
    exact ⟨hz, Decoded.ok.inj h⟩
  · rw [checkZero_of_ne hz] at h
    cases h

/-- The decoder reads a command from a word of that command's opcode only (R84). -/
theorem opField_of_decode {w : Word} {i : Instr} (h : decode w = .ok i) : opField w = i.opcode := by
  unfold decode at h
  split at h
  case h_33 => cases h
  all_goals
    rename_i hop
    obtain ⟨-, rfl⟩ := checkZero_eq_ok h
    exact BitVec.eq_of_toNat_eq hop

theorem decode_of_opField_reset {w : Word} (h : opField w = 0x19#6) : decode w = checkZero w mbzZ .reset := by
  simp [decode, h]

theorem decode_of_opField_rdsr {w : Word} (h : opField w = 0x1A#6) :
    decode w = checkZero w mbzA (.rdsr (aField w)) := by
  simp [decode, h]

/-- A mask of the low `k` bits that finds no bit set: those bits are 0. -/
theorem extractLsb'_zero_of_mask {w mbz : Word} {k : Nat} (hm : mbz.toNat = 2 ^ k - 1) (h : w &&& mbz = 0#32) :
    w.extractLsb' 0 k = 0#k := by
  apply BitVec.eq_of_toNat_eq
  rw [BitVec.extractLsb'_toNat, Nat.shiftRight_zero, ← Nat.and_two_pow_sub_one_eq_mod, ← hm, ← BitVec.toNat_and, h,
    BitVec.toNat_ofNat, BitVec.toNat_ofNat, Nat.zero_mod, Nat.zero_mod]

/-- A word of format Z is its opcode (R83). -/
theorem eq_wordZ_of_mask {w : Word} (h : w &&& mbzZ = 0#32) : w = wordZ (opField w) := by
  rw [wordZ, opField, ← extractLsb'_zero_of_mask (k := 26) rfl h,
    BitVec.extractLsb'_append_extractLsb'_eq_extractLsb' (by rfl), BitVec.extractLsb'_eq_self]

/-- A word of format A is its opcode and its operand (R83). -/
theorem eq_wordA_of_mask {w : Word} (h : w &&& mbzA = 0#32) : w = wordA (opField w) (aField w) := by
  rw [wordA, opField, aField, ← extractLsb'_zero_of_mask (k := 17) rfl h,
    BitVec.extractLsb'_append_extractLsb'_eq_extractLsb' (by rfl),
    BitVec.extractLsb'_append_extractLsb'_eq_extractLsb' (by rfl), BitVec.extractLsb'_eq_self]

theorem eq_of_decode_reset {w : Word} (h : decode w = .ok .reset) : w = wordZ 0x19#6 := by
  have hop : opField w = 0x19#6 := opField_of_decode h
  rw [decode_of_opField_reset hop] at h
  obtain ⟨hz, -⟩ := checkZero_eq_ok h
  rw [eq_wordZ_of_mask hz, hop]

theorem eq_of_decode_rdsr {w : Word} {a : BitVec 9} (h : decode w = .ok (.rdsr a)) : w = wordA 0x1A#6 a := by
  have hop : opField w = 0x1A#6 := opField_of_decode h
  rw [decode_of_opField_rdsr hop] at h
  obtain ⟨hz, ha⟩ := checkZero_eq_ok h
  rw [eq_wordA_of_mask hz, hop, Instr.rdsr.inj ha]

/-! ### What a FAULTED engine executes -/

/-- The commands R226 does not refuse while FAULTED, where their operand is in range. -/
def exemptFaulted : Instr → Bool
  | .reset | .rdsr _ => true
  | _ => false

/-- The commands accepted while FAULTED (R227). -/
def acceptedFaulted (i : Instr) : Bool := exemptFaulted i && i.wf

/-- Every command runs through the checks of R91 in order: FAULTED, its operands' range, its preconditions. -/
theorem exec_eq_runCommand (i : Instr) (s : State) :
    ∃ pre body, exec i s = runCommand i.opcode (exemptFaulted i) i.wf pre body s := by
  cases i <;> rw [exec] <;> exact ⟨_, _, rfl⟩

theorem exec_of_faulted {s : State} {i : Instr} (h : s.flag .faulted = true) (hi : acceptedFaulted i = false) :
    exec i s = .next s := by
  obtain ⟨pre, body, hrun⟩ := exec_eq_runCommand i s
  rw [hrun, runCommand_faulted h hi]

/-- A command accepted while FAULTED runs its body in every state (R226). -/
theorem runCommand_always {op : Opcode} {inRange : Bool} {body : State → Run Unit} {s : State} (h : inRange = true) :
    runCommand op true inRange true body s = (body s).outcome := by
  simp [runCommand, h]

theorem exec_reset (s : State) : exec .reset s = .next s.resetCore := by
  rw [exec, execReset, runCommand_always rfl, Run.outcome_done]

/-- FAULT is narrower than the register RDSR reads it through (R202). -/
theorem State.statusRegister_one (s : State) : s.statusRegister 1#9 = s.fault.setWidth 16 := rfl

theorem exec_rdsr {a : BitVec 9} (h : srInRange a = true) (s : State) :
    exec (.rdsr a) s = .next (s.setRes (s.statusRegister a)) := by
  rw [exec, execRdsr, runCommand_always h, Run.outcome_done]

/-- The words a FAULTED engine executes are five (R84, R227). -/
theorem word_of_acceptedFaulted {w : Word} {i : Instr} (h : decode w = .ok i) (hi : acceptedFaulted i = true) :
    w = 0x64000000#32 ∨ w = 0x68000000#32 ∨ w = 0x68020000#32 ∨ w = 0x68040000#32 ∨ w = 0x68060000#32 := by
  cases i with
  | reset => exact .inl (eq_of_decode_reset h)
  | rdsr a =>
    have ha : a.toNat ≤ 3 := of_decide_eq_true hi
    have hcases : a = 0#9 ∨ a = 1#9 ∨ a = 2#9 ∨ a = 3#9 := by bv_omega
    rw [eq_of_decode_rdsr h]
    rcases hcases with rfl | rfl | rfl | rfl <;> decide
  | _ => cases hi

/-! ### A step on a pending word -/

section
variable {w : Word} {rest : List Word} {s : State}

theorem fetch_of_cmds (hc : s.host.cmds = w :: rest) : fetch s = some (w, { s with host.cmds := rest }) := by
  rw [fetch, hc]

theorem step_of_decode {i : Instr} (hc : s.host.cmds = w :: rest) (hd : decode w = .ok i) :
    step s = exec i { s with host.cmds := rest } := by
  simp only [step, fetch_of_cmds hc, hd]

/-- While FAULTED a rejected word and a command not accepted change nothing but that the word is taken (R227). -/
theorem step_of_faulted (hc : s.host.cmds = w :: rest) (h : s.flag .faulted = true)
    (hw : ∀ i, decode w = .ok i → acceptedFaulted i = false) : step s = .next { s with host.cmds := rest } := by
  have ht : State.flag { s with host.cmds := rest } .faulted = true := h
  cases hd : decode w with
  | ok i => rw [step_of_decode hc hd, exec_of_faulted ht (hw i hd)]
  | reservedOpcode op => simp only [step, fetch_of_cmds hc, hd, rejectWord, State.raise_of_faulted ht]
  | mustBeZero op => rw [step_of_mustBeZero hc hd, State.raise_of_faulted ht]

/-- A step on a well-formed RDSR, in every state (R202). -/
theorem step_rdsr {a : BitVec 9} (hc : s.host.cmds = w :: rest) (hd : decode w = .ok (.rdsr a))
    (ha : srInRange a = true) :
    step s = .next { s with host.cmds := rest, res := (s.statusRegister a).setWidth 258 } := by
  rw [step_of_decode hc hd, exec_rdsr ha]
  rfl

end

/-- Settles O7: five words decode to a command that is accepted while FAULTED, and the step on any other is without
effect. -/
theorem faultedEngineRefuses : Obligations.FaultedEngineRefuses := by
  unfold Obligations.FaultedEngineRefuses
  intro w rest s hc hf
  split_ifs with hreset hstatus hfault hfinfo hsidx
  · subst hreset
    rw [step_of_decode hc (i := .reset) (by decide), exec_reset]
  · subst hstatus
    exact step_rdsr hc (a := 0#9) (by decide) (by decide)
  · subst hfault
    rw [step_rdsr hc (a := 1#9) (by decide) (by decide), State.statusRegister_one, BitVec.setWidth_setWidth (by decide)]
  · subst hfinfo
    exact step_rdsr hc (a := 2#9) (by decide) (by decide)
  · subst hsidx
    exact step_rdsr hc (a := 3#9) (by decide) (by decide)
  · refine step_of_faulted hc hf fun i hd => ?_
    by_contra hi
    have hwords := word_of_acceptedFaulted hd (eq_true_of_ne_false hi)
    tauto

end Sys2Proof.Machine
end

section
/-! Decode and encode are inverse (spec R82 to R86). A word is read as a number: each field is a digit of it, and a
mask of bits that must be zero says that a digit is 0. -/

namespace Sys2Proof.Machine

/-! ### Words as numbers -/

theorem toNat_append_eq {m n : Nat} (x : BitVec m) (y : BitVec n) : (x ++ y).toNat = x.toNat * 2 ^ n + y.toNat := by
  rw [BitVec.toNat_append, ← Nat.shiftLeft_add_eq_or_of_lt y.isLt, Nat.shiftLeft_eq]

theorem toNat_wordZ (op : Opcode) : (wordZ op).toNat = op.toNat * 2 ^ 26 := by
  simp only [wordZ, toNat_append_eq, BitVec.toNat_ofNat]; omega

theorem toNat_wordA (op : Opcode) (a : BitVec 9) : (wordA op a).toNat = op.toNat * 2 ^ 26 + a.toNat * 2 ^ 17 := by
  simp only [wordA, toNat_append_eq, BitVec.toNat_ofNat]; omega

theorem toNat_wordAB (op : Opcode) (a b : BitVec 9) :
    (wordAB op a b).toNat = op.toNat * 2 ^ 26 + a.toNat * 2 ^ 17 + b.toNat * 2 ^ 8 := by
  simp only [wordAB, toNat_append_eq, BitVec.toNat_ofNat]; omega

theorem toNat_wordV (op : Opcode) (n : BitVec 5) (v : BitVec 16) :
    (wordV op n v).toNat = op.toNat * 2 ^ 26 + n.toNat * 2 ^ 21 + v.toNat := by
  simp only [wordV, toNat_append_eq, BitVec.toNat_ofNat]; omega

theorem toNat_wordI (op : Opcode) (idx : BitVec 16) : (wordI op idx).toNat = op.toNat * 2 ^ 26 + idx.toNat := by
  simp only [wordI, toNat_append_eq, BitVec.toNat_ofNat]; omega

theorem toNat_opField (w : Word) : (opField w).toNat = w.toNat / 2 ^ 26 := by
  rw [← toNat_ushiftRight_opcode, BitVec.toNat_ushiftRight, Nat.shiftRight_eq_div_pow]

theorem toNat_aField (w : Word) : (aField w).toNat = w.toNat / 2 ^ 17 % 2 ^ 9 := by
  rw [aField, BitVec.extractLsb'_toNat, Nat.shiftRight_eq_div_pow]

theorem toNat_bField (w : Word) : (bField w).toNat = w.toNat / 2 ^ 8 % 2 ^ 9 := by
  rw [bField, BitVec.extractLsb'_toNat, Nat.shiftRight_eq_div_pow]

theorem toNat_nField (w : Word) : (nField w).toNat = w.toNat / 2 ^ 21 % 2 ^ 5 := by
  rw [nField, BitVec.extractLsb'_toNat, Nat.shiftRight_eq_div_pow]

theorem toNat_vField (w : Word) : (vField w).toNat = w.toNat % 2 ^ 16 := by
  rw [vField, BitVec.extractLsb'_toNat, Nat.shiftRight_zero]

theorem and_ones_mul_two_pow (x k p : Nat) : x &&& (2 ^ k - 1) * 2 ^ p = x / 2 ^ p % 2 ^ k * 2 ^ p := by
  refine Nat.eq_of_testBit_eq fun i => ?_
  rw [Nat.testBit_and, Nat.testBit_mul_two_pow, Nat.testBit_two_pow_sub_one, Nat.testBit_mul_two_pow,
    Nat.testBit_mod_two_pow, Nat.testBit_div_two_pow]
  by_cases h : p ≤ i
  · simp [h, Bool.and_comm]
  · simp [h]

/-- A mask of `k` ones from bit `p` on finds no bit set where that digit of the word is 0. -/
theorem and_mask_eq_zero_iff {w mbz : Word} (p k : Nat) (hm : mbz.toNat = (2 ^ k - 1) * 2 ^ p) :
    w &&& mbz = 0#32 ↔ w.toNat / 2 ^ p % 2 ^ k = 0 := by
  rw [← BitVec.toNat_inj, BitVec.toNat_and, hm, and_ones_mul_two_pow, BitVec.toNat_ofNat, Nat.zero_mod,
    Nat.mul_eq_zero]
  exact or_iff_left (Nat.two_pow_pos p).ne'

theorem and_mbzZ_iff (w : Word) : w &&& mbzZ = 0#32 ↔ w.toNat / 2 ^ 0 % 2 ^ 26 = 0 := and_mask_eq_zero_iff 0 26 rfl
theorem and_mbzA_iff (w : Word) : w &&& mbzA = 0#32 ↔ w.toNat / 2 ^ 0 % 2 ^ 17 = 0 := and_mask_eq_zero_iff 0 17 rfl
theorem and_mbzAB_iff (w : Word) : w &&& mbzAB = 0#32 ↔ w.toNat / 2 ^ 0 % 2 ^ 8 = 0 := and_mask_eq_zero_iff 0 8 rfl
theorem and_mbzV_iff (w : Word) : w &&& mbzV = 0#32 ↔ w.toNat / 2 ^ 16 % 2 ^ 5 = 0 := and_mask_eq_zero_iff 16 5 rfl
theorem and_mbzVn_iff (w : Word) : w &&& mbzVn = 0#32 ↔ w.toNat / 2 ^ 0 % 2 ^ 21 = 0 := and_mask_eq_zero_iff 0 21 rfl
theorem and_mbzI_iff (w : Word) : w &&& mbzI = 0#32 ↔ w.toNat / 2 ^ 16 % 2 ^ 10 = 0 := and_mask_eq_zero_iff 16 10 rfl

/-! ### A word is its opcode and its fields where the bits of its format are zero -/

theorem eq_wordAB_of_mask {w : Word} (h : w &&& mbzAB = 0#32) : w = wordAB (opField w) (aField w) (bField w) := by
  rw [and_mbzAB_iff] at h
  rw [← BitVec.toNat_inj, toNat_wordAB, toNat_opField, toNat_aField, toNat_bField]
  omega

theorem eq_wordV_of_mask {w : Word} (h : w &&& mbzV = 0#32) : w = wordV (opField w) (nField w) (vField w) := by
  rw [and_mbzV_iff] at h
  rw [← BitVec.toNat_inj, toNat_wordV, toNat_opField, toNat_nField, toNat_vField]
  omega

theorem eq_wordV_zero_of_mask {w : Word} (h : w &&& mbzVn = 0#32) : w = wordV (opField w) (nField w) 0#16 := by
  rw [and_mbzVn_iff] at h
  rw [← BitVec.toNat_inj, toNat_wordV, toNat_opField, toNat_nField, BitVec.toNat_ofNat]
  omega

theorem eq_wordI_of_mask {w : Word} (h : w &&& mbzI = 0#32) : w = wordI (opField w) (vField w) := by
  rw [and_mbzI_iff] at h
  rw [← BitVec.toNat_inj, toNat_wordI, toNat_opField, toNat_vField]
  omega

/-- Settles O3: a word that passes its format's mask is its opcode and the fields the decoder reads. -/
theorem encodeOfDecode : Obligations.EncodeOfDecode := by
  unfold Obligations.EncodeOfDecode
  intro w i h
  have hop := opField_of_decode h
  unfold decode at h
  split at h
  case h_33 => cases h
  all_goals
    obtain ⟨hz, rfl⟩ := checkZero_eq_ok h
    rw [encode, ← hop]
  case h_2 | h_3 => exact (eq_wordV_of_mask hz).symm
  case h_6 | h_7 => exact (eq_wordV_zero_of_mask hz).symm
  case h_11 | h_14 | h_15 | h_20 | h_21 | h_26 | h_32 => exact (eq_wordA_of_mask hz).symm
  case h_12 => exact (eq_wordAB_of_mask hz).symm
  case h_23 | h_29 => exact (eq_wordI_of_mask hz).symm
  all_goals exact (eq_wordZ_of_mask hz).symm

/-! ### The fields of a command's word -/

theorem checkZero_of_eq {w mbz : Word} (h : w &&& mbz = 0#32) (i : Instr) : checkZero w mbz i = .ok i := if_pos h

theorem checkZero_wordZ (op : Opcode) (i : Instr) : checkZero (wordZ op) mbzZ i = .ok i := by
  refine checkZero_of_eq ((and_mbzZ_iff _).mpr ?_) i
  rw [toNat_wordZ]
  omega

theorem checkZero_wordA (op : Opcode) (a : BitVec 9) (i : Instr) : checkZero (wordA op a) mbzA i = .ok i := by
  refine checkZero_of_eq ((and_mbzA_iff _).mpr ?_) i
  rw [toNat_wordA]
  omega

theorem checkZero_wordAB (op : Opcode) (a b : BitVec 9) (i : Instr) : checkZero (wordAB op a b) mbzAB i = .ok i := by
  refine checkZero_of_eq ((and_mbzAB_iff _).mpr ?_) i
  rw [toNat_wordAB]
  omega

theorem checkZero_wordV (op : Opcode) (n : BitVec 5) (v : BitVec 16) (i : Instr) :
    checkZero (wordV op n v) mbzV i = .ok i := by
  refine checkZero_of_eq ((and_mbzV_iff _).mpr ?_) i
  have := v.isLt
  rw [toNat_wordV]
  omega

theorem checkZero_wordV_zero (op : Opcode) (n : BitVec 5) (i : Instr) :
    checkZero (wordV op n 0#16) mbzVn i = .ok i := by
  refine checkZero_of_eq ((and_mbzVn_iff _).mpr ?_) i
  rw [toNat_wordV, BitVec.toNat_ofNat]
  omega

theorem checkZero_wordI (op : Opcode) (idx : BitVec 16) (i : Instr) : checkZero (wordI op idx) mbzI i = .ok i := by
  refine checkZero_of_eq ((and_mbzI_iff _).mpr ?_) i
  have := idx.isLt
  rw [toNat_wordI]
  omega

theorem aField_wordA (op : Opcode) (a : BitVec 9) : aField (wordA op a) = a := by
  rw [← BitVec.toNat_inj, toNat_aField, toNat_wordA]
  omega

theorem aField_wordAB (op : Opcode) (a b : BitVec 9) : aField (wordAB op a b) = a := by
  rw [← BitVec.toNat_inj, toNat_aField, toNat_wordAB]
  omega

theorem bField_wordAB (op : Opcode) (a b : BitVec 9) : bField (wordAB op a b) = b := by
  rw [← BitVec.toNat_inj, toNat_bField, toNat_wordAB]
  omega

theorem nField_wordV (op : Opcode) (n : BitVec 5) (v : BitVec 16) : nField (wordV op n v) = n := by
  rw [← BitVec.toNat_inj, toNat_nField, toNat_wordV]
  omega

theorem vField_wordV (op : Opcode) (n : BitVec 5) (v : BitVec 16) : vField (wordV op n v) = v := by
  rw [← BitVec.toNat_inj, toNat_vField, toNat_wordV]
  omega

theorem vField_wordI (op : Opcode) (idx : BitVec 16) : vField (wordI op idx) = idx := by
  rw [← BitVec.toNat_inj, toNat_vField, toNat_wordI]
  omega

theorem opField_encode (i : Instr) : opField (encode i) = i.opcode := by
  cases i <;> exact Laws.OpcodeField.opField_append _ _

/-- Settles O2: the encoded word has the command's opcode, its format's zeros and its operands. -/
theorem decodeOfEncode : Obligations.DecodeOfEncode := by
  unfold Obligations.DecodeOfEncode
  intro i
  have hop := congrArg BitVec.toNat (opField_encode i)
  unfold decode
  rw [hop]
  cases i with
  | wbits n v | wint n v =>
    show checkZero _ _ _ = _
    rw [encode, nField_wordV, vField_wordV, checkZero_wordV]
  | rbits n | rint n =>
    show checkZero _ _ _ = _
    rw [encode, nField_wordV, checkZero_wordV_zero]
  | ldlen a b =>
    show checkZero _ _ _ = _
    rw [encode, aField_wordAB, bField_wordAB, checkZero_wordAB]
  | rdfreq a | rdlen a | rdcode a | wsym a | encfile a | rdsr a | close a =>
    show checkZero _ _ _ = _
    rw [encode, aField_wordA, checkZero_wordA]
  | compress idx | sopen idx =>
    show checkZero _ _ _ = _
    rw [encode, vField_wordI, checkZero_wordI]
  | _ => exact checkZero_wordZ _ _

/-! ### Reserved opcodes -/

theorem decode_of_reserved {w : Word} (h : (opField w).toNat = 0x07 ∨ 0x21 ≤ (opField w).toNat) :
    decode w = .reservedOpcode (opField w) := by
  unfold decode
  split
  case h_33 => rfl
  all_goals omega

/-- Settles O5: the decoder's map has an entry for every opcode that is not reserved, and the mask is the listed one. -/
theorem reservedOpcodeFaults : Obligations.ReservedOpcodeFaults := by
  unfold Obligations.ReservedOpcodeFaults
  refine ⟨fun w rest s hc _ hop => ?_, fun w zeros hzeros hw => ?_⟩
  · rw [toNat_ushiftRight_opcode] at hop
    rw [setWidth_ushiftRight_opcode]
    simp only [step, fetch_of_cmds hc, decode_of_reserved hop, rejectWord]
  · rw [toNat_ushiftRight_opcode] at hzeros
    obtain ⟨i, hi⟩ := decode_eq_checkZero_of_formatZeros hzeros
    exact ⟨i, hi.trans (checkZero_of_eq hw i)⟩

/-! ### Sample words and steps -/

/-- Settles O1: each word is evaluated. -/
theorem sampleWordsDecode : Obligations.SampleWordsDecode := by
  unfold Obligations.SampleWordsDecode
  decide

/-- Settles O6: the step on a pending word, and the waiting step. -/
theorem stepRunsDecodedCommand : Obligations.StepRunsDecodedCommand := by
  unfold Obligations.StepRunsDecodedCommand
  refine ⟨fun w rest i s hc hd => step_of_decode hc hd, fun s hc => ?_⟩
  simp only [step, (fetch_none_iff s).mpr hc]

end Sys2Proof.Machine
end

section
/-! Every command as one run of the checks of R91 (spec R226): its preconditions are `preOk`, and then it runs its
body. -/

namespace Sys2Proof.Machine

/-- What a command executes after its checks (R91 step 5). -/
def bodyOf : Instr → State → Run Unit
  | .nop => fun s => .done () s
  | .wbits n v | .wint n v => fun s => .done () (writeBits s v.toNat n.toNat)
  | .wflush => fun s => .done () (flush s)
  | .rbit => fun s => (readBit s).bind fun b s => .done () (s.setRes (BitVec.ofBool b))
  | .rbits n | .rint n => readField n.toNat
  | .scan => scanBody
  | .build => buildBody
  | .walk => walkBody
  | .rdfreq a => fun s => .done () (s.setRes (s.freqAt a.toNat))
  | .ldlen a b => fun s => .done () (ldlenBody a b s)
  | .canon => canonBody 0x0D#6
  | .rdlen a => fun s => .done () (s.setRes (s.lenAt a.toNat))
  | .rdcode a => rdcodeBody 0x0F#6 a
  | .whdr => fun s => .done () (whdrBody s)
  | .rhdr => rhdrBody
  | .tbuild => tbuildBody
  | .getsym => fun s => (getSymbol s).bind fun x s => .done () (s.setRes x)
  | .wsym a => putSymbol 0x14#6 a
  | .encfile a => encfileBody 0x15#6 (a == 1#9)
  | .decfile => fun s => (decfileBody s).bind fun _ s => .done () s
  | .compress idx => compressBody 0x17#6 idx.toNat
  | .decompress => decompressBody
  | .reset => fun s => .done () s.resetCore
  | .rdsr a => fun s => .done () (s.setRes (s.statusRegister a))
  | .aopenw => aopenwBody
  | .aopenr => aopenrBody
  | .sopen idx => sopenBody 0x1D#6 idx
  | .srewind => fun s => .done () (hostRewindSrc s)
  | .dopen => dopenBody
  | .close a => fun s => .done () (closeBody a s)

theorem preOk_close (a : BitVec 9) (s : State) :
    preOk (.close a) s =
      if a = 0#9 then s.flag .awOpen || s.flag .arOpen else if a = 1#9 then s.flag .sOpen else s.flag .dOpen := rfl

theorem streamOpen_eq_preOk (a : BitVec 9) (s : State) : s.streamOpen a = preOk (.close a) s := by
  rw [preOk_close]
  unfold State.streamOpen
  split
  · rename_i h0
    rw [if_pos (BitVec.eq_of_toNat_eq h0)]
  · rename_i h1
    obtain rfl : a = 1#9 := BitVec.eq_of_toNat_eq h1
    rfl
  · rename_i h0 h1
    rw [if_neg (fun e => h0 (congrArg BitVec.toNat e)), if_neg (fun e => h1 (congrArg BitVec.toNat e))]

/-- Every command runs through the checks of R91 in order: FAULTED, its operands' range, its preconditions, its body. -/
theorem exec_eq (i : Instr) (s : State) :
    exec i s = runCommand i.opcode (exemptFaulted i) i.wf (preOk i s) (bodyOf i) s := by
  cases i with
  | close a => rw [← streamOpen_eq_preOk]; rfl
  | _ => rfl

theorem exec_of_ready {i : Instr} {s : State} (h : Ready s) (hw : i.wf = true) (hp : preOk i s = true) :
    exec i s = (bodyOf i s).outcome := by rw [exec_eq, runCommand_body h hw hp]

/-- Settles O10: the checks before the body are the operands' range and `preOk`. -/
theorem preconditionFaults : Obligations.PreconditionFaults := by
  unfold Obligations.PreconditionFaults
  intro i s h hw hp
  rw [exec_eq, runCommand_pre h hw hp]
  rfl

theorem preOk_of_exemptFaulted {i : Instr} (h : exemptFaulted i = true) (s : State) : preOk i s = true := by
  cases i with
  | reset | rdsr a => rfl
  | _ => cases h

/-- What exec can answer: the state unchanged while FAULTED, one of the two faults of the checks, or the end of the
command's body. -/
theorem exec_cases {i : Instr} {s t : State} (h : exec i s = .next t) :
    (s.flag .faulted = true ∧ t = s) ∨
    (Ready s ∧ i.wf = false ∧ t = s.raise .illegalOperation (illegalInfo i.opcode 3)) ∨
    (Ready s ∧ i.wf = true ∧ preOk i s = false ∧ t = s.raise .illegalOperation (illegalInfo i.opcode 4)) ∨
    (Ready s ∧ i.wf = true ∧ preOk i s = true ∧ (bodyOf i s).outcome = .next t) ∨
    (s.flag .faulted = true ∧ acceptedFaulted i = true ∧ (bodyOf i s).outcome = .next t) := by
  rw [exec_eq] at h
  cases hf : s.flag .faulted with
  | true =>
    cases ha : acceptedFaulted i with
    | false =>
      rw [runCommand_faulted hf ha] at h
      exact .inl ⟨rfl, (Host.Outcome.next.inj h).symm⟩
    | true =>
      obtain ⟨hex, hw⟩ := (Bool.and_eq_true _ _).mp ha
      rw [hex, preOk_of_exemptFaulted hex, runCommand_always hw] at h
      exact .inr (.inr (.inr (.inr ⟨rfl, rfl, h⟩)))
  | false =>
    cases hw : i.wf with
    | false =>
      rw [runCommand_range hf hw] at h
      exact .inr (.inl ⟨hf, rfl, (Host.Outcome.next.inj h).symm⟩)
    | true =>
      cases hp : preOk i s with
      | false =>
        rw [runCommand_pre hf hw hp] at h
        exact .inr (.inr (.inl ⟨hf, rfl, rfl, (Host.Outcome.next.inj h).symm⟩))
      | true =>
        rw [runCommand_body hf hw hp] at h
        exact .inr (.inr (.inr (.inl ⟨hf, rfl, rfl, h⟩)))

theorem Run.EndsIn.of_outcome {P : State → Prop} {r : Run Unit} {t : State} (h : r.EndsIn P)
    (ht : r.outcome = .next t) :
    P t := by
  obtain rfl | rfl := Run.outcome_eq_next.mp ht
  · exact h
  · exact h

/-- The body of a command accepted while FAULTED resets the core or writes RES (R201, R202). -/
theorem outcome_of_acceptedFaulted {i : Instr} {s t : State} (hi : acceptedFaulted i = true)
    (h : (bodyOf i s).outcome = .next t) :
    (i = .reset ∧ t = s.resetCore) ∨ ∃ a, i = .rdsr a ∧ t = s.setRes (s.statusRegister a) := by
  cases i with
  | reset => exact .inl ⟨rfl, (Host.Outcome.next.inj h).symm⟩
  | rdsr a => exact .inr ⟨a, rfl, (Host.Outcome.next.inj h).symm⟩
  | _ => cases hi

/-- Settles O13: while FAULTED only RESET and RDSR do anything, and RDSR writes RES. -/
theorem onlyResetLeavesFaulted : Obligations.OnlyResetLeavesFaulted := by
  unfold Obligations.OnlyResetLeavesFaulted
  intro i s t hf h hi
  have hready : ¬ Ready s := by simp [Ready, hf]
  obtain ⟨-, rfl⟩ | ⟨hr, -⟩ | ⟨hr, -⟩ | ⟨hr, -⟩ | ⟨-, ha, h⟩ := exec_cases h
  · exact ⟨hf, rfl, rfl⟩
  · exact absurd hr hready
  · exact absurd hr hready
  · exact absurd hr hready
  · obtain ⟨rfl, -⟩ | ⟨a, -, rfl⟩ := outcome_of_acceptedFaulted ha h
    · exact absurd rfl hi
    · exact ⟨hf, rfl, rfl⟩

/-- Settles O12: RESET is accepted in every state, and its body is `resetCore`. -/
theorem resetCommandClearsCore : Obligations.ResetCommandClearsCore := by
  unfold Obligations.ResetCommandClearsCore
  exact exec_reset

theorem exec_nop (s : State) : exec .nop s = .next s := by
  cases hf : s.flag .faulted with
  | true => exact exec_of_faulted hf rfl
  | false => exact exec_of_ready hf rfl rfl

/-- Settles O14: NOP has no effect in either case, and RDSR's four numbers are in range. -/
theorem nopAndRdsrComplete : Obligations.NopAndRdsrComplete := by
  unfold Obligations.NopAndRdsrComplete
  exact fun s => ⟨exec_nop s, exec_rdsr rfl s, (exec_rdsr rfl s).trans (by
    rw [State.statusRegister_one, State.setRes, BitVec.setWidth_setWidth (by decide)]), exec_rdsr rfl s,
      exec_rdsr rfl s⟩

end Sys2Proof.Machine
end

section
/-! STATUS as a word (spec R24): a flag set is an OR, flags cleared are an AND, and both after each other compose. -/

namespace Sys2Proof.Machine

variable {s : State}

/-- The bits that stay where flags are cleared. -/
def keepMask (fs : List Flag) : BitVec 16 := fs.foldr (fun f m => ~~~(1#16 <<< f.bit) &&& m) (BitVec.allOnes 16)

theorem status_clearFlags (fs : List Flag) (s : State) : (s.clearFlags fs).status = s.status &&& keepMask fs := by
  induction fs generalizing s with
  | nil => exact (BitVec.and_allOnes).symm
  | cons f fs ih =>
    show ((s.setFlag f false).clearFlags fs).status = _
    rw [ih]
    exact BitVec.and_assoc _ _ _

/-- Clearing and setting bits twice is clearing and setting once. -/
theorem and_or_and_or (w a b k d : BitVec 16) : (w &&& a ||| b) &&& k ||| d = w &&& (a &&& k) ||| (b &&& k ||| d) := by
  ext i hi
  simp only [BitVec.getElem_or, BitVec.getElem_and, Bool.and_or_distrib_right, Bool.and_assoc, Bool.or_assoc]

theorem State.raise_eq (h : Ready s) (k : FaultKind) (info : BitVec 16) :
    s.raise k info = { s with fault := k.code, finfo := info, status := s.status ||| 1#16 } := by
  rw [State.raise_of_ready h, statusWith_faulted_true]

theorem Ready.of_status {t : State} (h : Ready s) (hs : t.status = s.status) : Ready t :=
  (State.flag_congr hs _).trans h

end Sys2Proof.Machine
end

section
/-! The system and stream commands (spec R203 to R208). -/

namespace Sys2Proof.Machine

variable {s : State}

theorem aopenwBody_of_refused (h : s.host.arcWOk = false) : aopenwBody s = .raise .openFailure 0#16 s := by
  obtain ⟨hok, -⟩ | ⟨-, e⟩ := hostOpenArcW_cases s
  · rw [h] at hok; cases hok
  · rw [aopenwBody, e]

theorem aopenrBody_of_refused (h : s.host.arcROk = false) : aopenrBody s = .raise .openFailure 1#16 s := by
  obtain ⟨hok, -⟩ | ⟨-, e⟩ := hostOpenArcR_cases s
  · rw [h] at hok; cases hok
  · rw [aopenrBody, e]

theorem dopenBody_of_refused (h : s.host.dst.ok s.name = false) : dopenBody s = .raise .openFailure 3#16 s := by
  obtain ⟨hok, -⟩ | ⟨-, e⟩ := hostOpenDst_cases s.name s
  · rw [h] at hok; cases hok
  · rw [dopenBody, e]

/-- Settles O15: the bodies of the two opens, with the host's two answers. -/
theorem archiveOpens : Obligations.ArchiveOpens := by
  unfold Obligations.ArchiveOpens
  intro s h haw har
  have hclosed : (!s.flag .awOpen && !s.flag .arOpen) = true := by rw [haw, har]; rfl
  have hw : exec .aopenw s = (aopenwBody s).outcome := exec_of_ready h rfl hclosed
  have hr : exec .aopenr s = (aopenrBody s).outcome := exec_of_ready h rfl hclosed
  refine ⟨fun ho => ?_, fun ho => ?_, fun ho => ?_, fun ho => ?_⟩
  · rw [hw, aopenwBody_of_ok ho]; rfl
  · rw [hw, aopenwBody_of_refused ho, Run.outcome_raise, State.raise_eq h]; rfl
  · rw [hr, aopenrBody_of_ok ho]; rfl
  · rw [hr, aopenrBody_of_refused ho, Run.outcome_raise, State.raise_eq h]; rfl

theorem sopenBody_of_no_file (op : Opcode) {idx : BitVec 16}
    (h : s.host.inputs[idx.toNat]? = none ∨ s.host.inputs[idx.toNat]? = some .unopenable) :
    sopenBody op idx s = .raise .openFailure 2#16 { s with sidx := idx } := by
  obtain ⟨-, e⟩ | ⟨name, content, hin, -⟩ := sopenBody_cases op idx s
  · exact e
  · simp [hin] at h

theorem nameTooLong_of_lt {name : List Byte} {m : Nat} (hm : s.nameMax = some m) (h : m < name.length) :
    s.nameTooLong name = true := by
  rw [State.nameTooLong, hm]
  exact decide_eq_true h

theorem sopenBody_of_long_name (op : Opcode) {idx : BitVec 16} {name content : List Byte}
    (hin : s.host.inputs[idx.toNat]? = some (.file name content)) (hlong : s.nameTooLong name = true) :
    sopenBody op idx s =
      .raise .illegalOperation (illegalInfo op 3#4) { s with sidx := idx, host.srcPos := 0 } := by
  obtain ⟨hno, -⟩ | ⟨name', content', hin', h⟩ := sopenBody_cases op idx s
  · simp [hin] at hno
  · rw [hin] at hin'
    obtain ⟨rfl, rfl⟩ := InputFile.file.inj (Option.some.inj hin')
    obtain ⟨-, e⟩ | ⟨hfit, -⟩ := h
    · exact e
    · rw [State.nameFits, hlong] at hfit; cases hfit

/-- Settles O16: the three ends of SOPEN's body. -/
theorem sopenLoadsName : Obligations.SopenLoadsName := by
  unfold Obligations.SopenLoadsName
  intro idx s h ho
  have hrun : exec (.sopen idx) s = (sopenBody 0x1D#6 idx s).outcome :=
    exec_of_ready h rfl (show (!s.flag .sOpen) = true by rw [ho]; rfl)
  refine ⟨fun name content hin hfit => ?_, fun hno => ?_, fun name content m hin hm hlt => ?_⟩
  · rw [hrun, sopenBody_of_file _ (f := (name, content)) hin hfit]; rfl
  · rw [hrun, sopenBody_of_no_file _ hno, Run.outcome_raise]
    exact congrArg Host.Outcome.next (State.raise_eq (h.of_status (by rfl)) _ _)
  · rw [hrun, sopenBody_of_long_name _ hin (nameTooLong_of_lt hm hlt), Run.outcome_raise]
    exact congrArg Host.Outcome.next (State.raise_eq (h.of_status (by rfl)) _ _)

/-- Settles O17: SREWIND's body, and DOPEN's with the host's two answers. -/
theorem srewindAndDopen : Obligations.SrewindAndDopen := by
  unfold Obligations.SrewindAndDopen
  have hdopen : ∀ s : State, Ready s → s.flag .dOpen = false → exec .dopen s = (dopenBody s).outcome :=
    fun s h ho => exec_of_ready h rfl (show (!s.flag .dOpen) = true by rw [ho]; rfl)
  refine ⟨fun s h ho => exec_of_ready h rfl ho, fun s h ho hok => ?_, fun s h ho hno => ?_⟩
  · rw [hdopen s h ho, dopenBody_of_ok hok]; rfl
  · rw [hdopen s h ho, dopenBody_of_refused hno, Run.outcome_raise, State.raise_eq h]; rfl

theorem flush_wbuf (s : State) : (flush s).wbuf = if s.wcnt = 0#4 then s.wbuf else 0#8 := by
  unfold flush
  split <;> rfl

/-- CLOSE 0 in terms of `Flush` (R208). -/
theorem closeArc_of_awOpen (h : s.flag .awOpen = true) :
    closeArc s = { flush s with rbuf := 0#8, rcnt := 0#4, status := s.status &&& 0xFFF9#16 } := by
  have hs : (flush s).status = s.status := by rw [flush_shape]
  have hclear : closeArc s =
      { (flush s).clearFlags [.awOpen, .arOpen] with rbuf := 0#8, rcnt := 0#4 } := by
    unfold closeArc
    rw [h]
    rfl
  rw [hclear, State.clearFlags_shape, status_clearFlags, hs]
  rfl

theorem closeArc_of_not_awOpen (h : s.flag .awOpen = false) :
    closeArc s = { s with rbuf := 0#8, rcnt := 0#4, status := s.status &&& 0xFFF9#16 } := by
  have hclear : closeArc s = { s.clearFlags [.awOpen, .arOpen] with rbuf := 0#8, rcnt := 0#4 } := by
    unfold closeArc
    rw [h]
    rfl
  rw [hclear, State.clearFlags_shape, status_clearFlags]
  rfl

/-- Settles O18: CLOSE 0 with and without the flush, and the two flags of CLOSE 1 and CLOSE 2. -/
theorem closeStreams : Obligations.CloseStreams := by
  unfold Obligations.CloseStreams
  refine ⟨fun s h ho hw => ?_, fun s h hno ho => ?_, fun s h ho => exec_of_ready h rfl ho,
    fun s h ho => exec_of_ready h rfl ho⟩
  · have hrun : exec (.close 0#9) s = .next (closeArc s) :=
      exec_of_ready h rfl (show (s.flag .awOpen || s.flag .arOpen) = true by rw [ho]; rfl)
    obtain ⟨hwritten, hcnt, -⟩ := flush_spec hw
    refine ⟨_, hrun, ?_, ?_, ?_⟩
    · rw [closeArc_of_awOpen ho]
      exact hwritten
    · rw [closeArc_of_awOpen ho]
      exact flush_wbuf s
    · rw [closeArc_of_awOpen ho, flush_shape, hcnt]
  · have hrun : exec (.close 0#9) s = .next (closeArc s) :=
      exec_of_ready h rfl (show (s.flag .awOpen || s.flag .arOpen) = true by rw [ho, Bool.or_true])
    rw [hrun, closeArc_of_not_awOpen hno]

end Sys2Proof.Machine
end

section
/-! The bit stream commands (spec R104 to R109). -/

namespace Sys2Proof.Machine

/-- Settles O19: `WriteBits` appends its bits. -/
theorem wbitsAndWintAppend : Obligations.WbitsAndWintAppend := by
  unfold Obligations.WbitsAndWintAppend
  intro n v s h ho hw hn
  obtain ⟨hwritten, hok⟩ := writeBitList_spec hw (valueBits v.toNat n.toNat)
  exact ⟨_, exec_of_ready h (decide_eq_true hn) ho,
    fun h1 => exec_of_ready (i := .wint n v) h (by simp [Instr.wf, fieldWidthInRange, Config.immW, h1, hn]) ho,
    hwritten, hok, writeBitList_arc s _, writeBitList_shape s _⟩

theorem flush_of_pending {s : State} (h : 1 ≤ s.wcnt.toNat) :
    flush s = { s with wbuf := 0#8, wcnt := 0#4, host.arc := s.host.arc ++ [s.wbuf] } := by
  have hne : s.wcnt ≠ 0#4 := fun e => by simp [e] at h
  rw [flush, if_neg hne]
  rfl

/-- Settles O20: `Flush` with bits pending and with none. -/
theorem wflushPads : Obligations.WflushPads := by
  unfold Obligations.WflushPads
  have hrun : ∀ s : State, Ready s → s.flag .awOpen = true → exec .wflush s = .next (flush s) :=
    fun s h ho => exec_of_ready h rfl ho
  refine ⟨fun s h ho hpos hw => ?_, fun s h ho h0 => ?_⟩
  · rw [hrun s h ho, flush_of_pending hpos]
    refine ⟨rfl, ?_⟩
    obtain ⟨hwritten, -, -⟩ := flush_spec hw
    obtain ⟨h7, -⟩ := hw
    rw [flush_of_pending hpos, State.written_of_wcnt_zero rfl, Nat.mod_eq_of_lt (by omega)] at hwritten
    exact hwritten
  · rw [hrun s h ho, flush, if_pos h0]

/-- RBIT is RBITS of one bit (R107, R108). -/
theorem bodyOf_rbit (s : State) : bodyOf .rbit s = readField 1 s := by
  have hval : ∀ b : Bool, (BitVec.ofBool b).setWidth 258 = (BitVec.ofNat 258 (b.toNat + 2 * 0)).setWidth 258 := by
    intro b
    rw [BitVec.setWidth_eq, ← BitVec.toNat_inj, BitVec.toNat_setWidth, BitVec.toNat_ofBool, BitVec.toNat_ofNat,
      Nat.mul_zero, Nat.add_zero]
  rw [readField, readBits, Run.bind_assoc]
  refine congrArg (readBit s).bind (funext fun b => funext fun t => ?_)
  exact congrArg (fun v => Run.done () { t with res := v }) (hval b)

section Reads

variable {n : BitVec 5} {s : State} (h : Ready s) (ho : s.flag .arOpen = true)
include h ho

theorem exec_rbits_eq (hn : n.toNat ≤ 16) : exec (.rbits n) s = (readField n.toNat s).outcome :=
  exec_of_ready h (decide_eq_true hn) ho

theorem exec_rint_eq (hn : n.toNat ≤ 16) (h1 : 1 ≤ n.toNat) : exec (.rint n) s = (readField n.toNat s).outcome :=
  exec_of_ready h (by simp [Instr.wf, fieldWidthInRange, Config.immW, h1, hn]) ho

theorem exec_rbit_eq (h1 : n.toNat = 1) : exec .rbit s = (readField n.toNat s).outcome := by
  rw [exec_of_ready (i := .rbit) h rfl ho, bodyOf_rbit, h1]

end Reads

/-- Settles O21: the three commands are `ReadBits` of as many bits as are asked for. -/
theorem rbitRbitsRintRead : Obligations.RbitRbitsRintRead := by
  unfold Obligations.RbitRbitsRintRead
  intro n s h ho hr hn hlen
  obtain ⟨u, hu, hpu, hok, hsh⟩ := readBits_spec n.toNat hr hlen
  have hrun : (readField n.toNat s).outcome =
      .next (u.setRes (BitVec.ofNat 258 (bitsValue (s.pending.take n.toNat)))) := by
    rw [readField, hu]
    rfl
  refine ⟨_, (exec_rbits_eq h ho hn).trans hrun, fun h1 => (exec_rint_eq h ho hn h1).trans hrun,
    fun h1 => (exec_rbit_eq h ho h1).trans hrun, BitVec.setWidth_eq _, hpu, hok, ?_⟩
  rw [hsh]
  rfl

/-- Settles O22: `ReadBits` with too few bits pending. -/
theorem readPastEndFaults : Obligations.ReadPastEndFaults := by
  unfold Obligations.ReadPastEndFaults
  intro n s h ho hr hn hlen
  obtain ⟨u, hu, hpu, hok, hsh⟩ := readBits_end n.toNat hr hlen
  have hrun : (readField n.toNat s).outcome = .next (u.raise .unexpectedEndOfStream 0#16) := by
    rw [readField, hu]
    rfl
  have heq := State.raise_eq (h.of_status (t := u) (by rw [hsh])) .unexpectedEndOfStream 0#16
  refine ⟨_, (exec_rbits_eq h ho hn).trans hrun, (exec_rint_eq h ho hn (by omega)).trans hrun,
    fun h1 => (exec_rbit_eq h ho h1).trans hrun, ?_, ?_, ?_⟩
  · rw [heq]; exact hpu
  · rw [heq]; exact hok
  · rw [heq, hsh]
    rfl

end Sys2Proof.Machine
end

section
/-! Single entries, single symbols (spec R120, R124, R128, R141, R145 to R147, R164 to R166). -/

namespace Sys2Proof.Machine

variable {s : State}

/-! ### Counters and queue -/

theorem overflowInfo_eq (x : Nat) : overflowInfo x = BitVec.ofNat 16 (x * 128) := by
  rw [overflowInfo, ← BitVec.toNat_inj, BitVec.toNat_shiftLeft, BitVec.toNat_setWidth, BitVec.toNat_ofNat,
    BitVec.toNat_ofNat, Nat.shiftLeft_eq]
  omega

/-- Settles O25: the two cases of `Count`. -/
theorem countAddsOneOrFaults : Obligations.CountAddsOneOrFaults := by
  unfold Obligations.CountAddsOneOrFaults
  intro x s hx h
  have hmax : s.freqAt x = BitVec.allOnes 64 ↔ (s.freqAt x).toNat = 2 ^ 64 - 1 := by
    rw [← BitVec.toNat_inj, BitVec.toNat_allOnes]
  obtain ⟨hfull, e⟩ | ⟨hfree, e⟩ := count_cases x s
  · refine ⟨fun _ => ?_, fun hlt => absurd (hmax.mp hfull) (by omega)⟩
    rw [e, ← overflowInfo_eq]
    exact congrArg Run.raised (State.raise_eq h _ _)
  · refine ⟨fun hval => absurd (hmax.mpr hval) hfree, fun hlt => ⟨_, e, ?_, fun y hy => ?_, rfl⟩⟩
    · show (tget (tset s.freq x _) x 0#64).toNat = _
      rw [tget_tset_same _ hx, BitVec.toNat_add]
      exact Nat.mod_eq_of_lt (by simpa using Nat.add_lt_of_lt_sub hlt)
    · exact tget_tset_ne _ (Ne.symm hy) _ _

theorem before_iff_nodeBelow (s : State) (a b : Handle) : before s a b = true ↔ s.nodeBelow a b := by
  simp only [before, State.nodeBelow, Bool.or_eq_true, Bool.and_eq_true, BitVec.ult, decide_eq_true_eq, beq_iff_eq,
    BitVec.toNat_inj]

theorem nodeBelow_trans {a b c : Handle} (h : s.nodeBelow a b) (h' : s.nodeBelow b c) : s.nodeBelow a c := by
  unfold State.nodeBelow at *
  omega

theorem nodeBelow_of_ne {a b : Handle} (h : ¬ s.nodeBelow a b) (hne : a ≠ b) : s.nodeBelow b a := by
  have : a.toNat ≠ b.toNat := fun e => hne (BitVec.eq_of_toNat_eq e)
  unfold State.nodeBelow at *
  omega

theorem leastFrom_cons (s : State) (h x : Handle) (q : List Handle) :
    leastFrom s h (x :: q) = leastFrom s (if before s x h then x else h) q := rfl

/-- The fold finds an element below all others (R124). -/
theorem leastFrom_le (s : State) (h : Handle) (q : List Handle) :
    ∀ x ∈ h :: q, x ≠ leastFrom s h q → s.nodeBelow (leastFrom s h q) x := by
  induction q generalizing h with
  | nil =>
    intro x hx hne
    exact absurd (List.mem_singleton.mp hx) hne
  | cons y q ih =>
    intro x hx hne
    rw [leastFrom_cons] at hne ⊢
    by_cases hb : s.nodeBelow y h
    · rw [if_pos ((before_iff_nodeBelow s y h).mpr hb)] at hne ⊢
      obtain rfl | hx := List.mem_cons.mp hx
      · by_cases hy : y = leastFrom s y q
        · rwa [← hy]
        · exact nodeBelow_trans (ih y y (by simp) hy) hb
      · exact ih y x hx hne
    · rw [if_neg (fun e => hb ((before_iff_nodeBelow s y h).mp e))] at hne ⊢
      obtain rfl | hx := List.mem_cons.mp hx
      · exact ih x x (by simp) hne
      · obtain rfl | hx := List.mem_cons.mp hx
        · by_cases hxh : x = h
          · exact ih h x (by simp [hxh]) hne
          · have hhx := nodeBelow_of_ne hb hxh
            by_cases hh : h = leastFrom s h q
            · rwa [← hh]
            · exact nodeBelow_trans (ih h h (by simp) hh) hhx
        · exact ih h x (List.mem_cons_of_mem _ hx) hne

/-- `ExtractMin` takes the least handle off the queue (R124). -/
theorem extractMin_least (hq : s.pq ≠ []) :
    ∃ m, extractMin s = some (m, { s with pq := s.pq.erase m }) ∧ m ∈ s.pq ∧
      ∀ h ∈ s.pq, h ≠ m → s.nodeBelow m h := by
  obtain ⟨a, q, hpq⟩ := List.exists_cons_of_ne_nil hq
  refine ⟨leastFrom s a q, ?_, ?_, ?_⟩
  · rw [extractMin, hpq]
  · rw [hpq]
    exact leastFrom_mem s a q
  · rw [hpq]
    exact leastFrom_le s a q

/-- Settles O27: the fold keeps the least pair seen so far. -/
theorem extractMinTakesLeast : Obligations.ExtractMinTakesLeast := by
  unfold Obligations.ExtractMinTakesLeast
  exact fun s hq _ => extractMin_least hq

/-! ### One entry of a table -/

theorem symInRange_of_le {a : Sym} (h : a.toNat ≤ 258) : symInRange a = true :=
  decide_eq_true (Nat.lt_succ_of_le h)

/-- Settles O26: each body is one write of RES. -/
theorem rdfreqAndRdlenRead : Obligations.RdfreqAndRdlenRead := by
  unfold Obligations.RdfreqAndRdlenRead
  exact ⟨fun a s h hv ha => exec_of_ready h (symInRange_of_le ha) hv,
    fun a s h hv ha => exec_of_ready h (symInRange_of_le ha) hv⟩

theorem ldlenBody_eq (a : Sym) (l : BitVec 9) (s : State) :
    ldlenBody a l s = { s with
      len := tset (if s.flag .lValid then s.len else Vector.replicate 259 0#9) a.toNat l,
      status := (s.status &&& 0xF8FF#16) ||| 0x0080#16 } := by
  have hmask : keepMask chainFromHeader = 0xF8FF#16 := by decide
  unfold ldlenBody
  cases s.flag .lValid <;>
  · dsimp only [Bool.false_eq_true, if_false, if_true]
    rw [State.clearFlags_shape, status_clearFlags, hmask]
    rfl

/-- Settles O31: LDLEN is one write to the table, which it first empties where L_VALID is 0. -/
theorem ldlenWrites : Obligations.LdlenWrites := by
  unfold Obligations.LdlenWrites
  intro a l s h ha hl
  have hw : Instr.wf (.ldlen a l) = true := by simp [Instr.wf, symInRange_of_le ha, lenInRange, Config.lmax, hl]
  refine ⟨_, exec_of_ready h hw rfl, ?_, fun x hx => ?_, ?_⟩
  · rw [ldlenBody_eq]
    exact tget_tset_same _ (by omega) _ _
  · rw [ldlenBody_eq]
    refine (tget_tset_ne _ (Ne.symm hx) _ _).trans ?_
    split
    · rfl
    · exact tget_replicate_default _ _ _
  · rw [ldlenBody_eq]

/-! ### One symbol's listing -/

theorem tget_take {α : Type} {n k i : Nat} (t : Vector α n) (h : i < k) (hk : k ≤ n) (d : α) :
    (t.toList.take k)[i]? = some (tget t i d) := by
  have hn : i < t.toList.length := by simp; omega
  rw [List.getElem?_take, if_pos h, tget, List.getD_eq_getElem?_getD, List.getElem?_eq_getElem hn, Option.getD_some]

/-- The position of a symbol is that of its first listing (R146, R166). -/
theorem position_eq_some {a : Sym} {i : Nat} (hn : s.hn.toNat ≤ 511) (hi : i < s.hn.toNat) (ha : s.ordAt i = a)
    (hfirst : ∀ j < i, s.ordAt j ≠ a) : s.position a = some i := by
  have hlen : i < (s.ord.toList.take s.hn.toNat).length := by simp; omega
  have hget : ∀ j (hj : j < (s.ord.toList.take s.hn.toNat).length), (s.ord.toList.take s.hn.toNat)[j] = s.ordAt j :=
    fun j hj => by
      have := tget_take s.ord (i := j) (k := s.hn.toNat) (by simp at hj; omega) hn 0#9
      rw [List.getElem?_eq_getElem hj] at this
      exact Option.some.inj this
  rw [State.position, List.findIdx?_eq_some_iff_getElem]
  refine ⟨hlen, by simpa [hget i hlen] using ha, fun j hj => ?_⟩
  simpa [hget j (hj.trans hlen)] using hfirst j hj

theorem position_eq_none {a : Sym} (hn : s.hn.toNat ≤ 511) (h : ∀ i < s.hn.toNat, s.ordAt i ≠ a) :
    s.position a = none := by
  rw [State.position, List.findIdx?_eq_none_iff]
  intro x hx
  obtain ⟨i, hi, rfl⟩ := List.mem_iff_getElem.mp hx
  have hi' : i < s.hn.toNat := by simp at hi; omega
  have hget := tget_take s.ord hi' hn 0#9
  rw [List.getElem?_eq_getElem hi] at hget
  rw [Option.some.inj hget]
  exact beq_eq_false_iff_ne.mpr (h i hi')

/-- Settles O35: RDCODE at the first listing, and without one. -/
theorem rdcodeReadsFirstListing : Obligations.RdcodeReadsFirstListing := by
  unfold Obligations.RdcodeReadsFirstListing
  intro a s h hv ha hn
  have hrun : exec (.rdcode a) s = (rdcodeBody 0x0F#6 a s).outcome := exec_of_ready h (symInRange_of_le ha) hv
  refine ⟨fun i hi hord hfirst => ?_, fun hno => ?_⟩
  · rw [hrun, rdcodeBody, position_eq_some hn hi hord hfirst]
    exact congrArg (fun v => Host.Outcome.next { s with res := v, rlen := s.clAt i }) (BitVec.setWidth_eq _)
  · rw [hrun, rdcodeBody, position_eq_none hn hno]
    exact congrArg Host.Outcome.next (State.raise_eq h _ _)

/-- A code's bits are those of its number, highest first (R15, R58). -/
theorem codeAt_eq (s : State) (i : Nat) :
    s.codeAt i = (List.range (s.clAt i).toNat).map fun j => (s.ccAt i).getLsbD ((s.clAt i).toNat - 1 - j) := by
  refine List.map_congr_left fun j _ => ?_
  rw [BitVec.testBit_toNat]

/-- Settles O43: `PutSymbol` at the first listing, and without one. -/
theorem wsymWritesCode : Obligations.WsymWritesCode := by
  unfold Obligations.WsymWritesCode
  intro a s h hv ho hw ha hn
  have hrun : exec (.wsym a) s = (putSymbol 0x14#6 a s).outcome :=
    exec_of_ready h (symInRange_of_le ha) (show (s.flag .cValid && s.flag .awOpen) = true by rw [hv, ho]; rfl)
  refine ⟨fun i hi hord hfirst => ?_, fun hno => ?_⟩
  · obtain ⟨hwritten, hok⟩ := writeBitList_spec hw (s.codeAt i)
    refine ⟨writeBitList s (s.codeAt i), ?_, ?_, hok, writeBitList_arc s _, writeBitList_shape s _⟩
    · rw [hrun, putSymbol, position_eq_some hn hi hord hfirst]
      rfl
    · rw [hwritten, codeAt_eq]
  · rw [hrun, putSymbol, position_eq_none hn hno]
    exact congrArg Host.Outcome.next (State.raise_eq h _ _)

/-- The first entries of a table, one by one. -/
theorem map_take_eq {α β : Type} {n k : Nat} (t : Vector α n) (hk : k ≤ n) (d : α) (f : α → β) :
    (t.toList.take k).map f = (List.range k).map fun i => f (tget t i d) := by
  refine List.ext_getElem? fun i => ?_
  rcases Nat.lt_or_ge i k with h | h
  · rw [List.getElem?_map, tget_take t h hk d, List.getElem?_map, List.getElem?_range h]
    rfl
  · rw [List.getElem?_eq_none (by simp; omega), List.getElem?_eq_none (by simpa using h)]

theorem whdrBody_eq_writeBitList (s : State) :
    whdrBody s = writeBitList s (s.headerFields.flatMap fun v => valueBits v Config.symW) := by
  have hpairs := writeAll_eq_writeBitList (s.headerFields.map fun v => (v, Config.symW)) s
  rwa [writeAll, List.foldl_map, fieldBits, List.flatMap_map] at hpairs

/-- Settles O36: WHDR writes the fields of the header. -/
theorem whdrWritesHeader : Obligations.WhdrWritesHeader := by
  unfold Obligations.WhdrWritesHeader
  intro s h hv ho hw hn hm
  have hrun : exec .whdr s = .next (whdrBody s) :=
    exec_of_ready h rfl (show (s.flag .hValid && s.flag .awOpen) = true by rw [hv, ho]; rfl)
  obtain ⟨hwritten, hok⟩ := writeBitList_spec hw (s.headerFields.flatMap fun v => valueBits v Config.symW)
  rw [whdrBody_eq_writeBitList] at hrun
  refine ⟨_, hrun, ?_, hok, writeBitList_arc s _, writeBitList_shape s _⟩
  rw [hwritten, State.headerFields, map_take_eq s.ord hn 0#9, map_take_eq s.cntl hm 0#9]
  simp only [List.flatMap_cons, List.flatMap_append, List.flatMap_map, Config.symW, List.append_assoc]
  rfl

end Sys2Proof.Machine
end

section
/-! What every command's pseudocode is made of: single writes of the state, each with the condition it is made under.
What each of them keeps, every step keeps (spec R20 to R36, R50 to R54, R61). -/

namespace Sys2Proof.Machine

/-! ### The writes -/

/-- The commands that may write RES (R23), beside RESET. -/
def writesRes : Instr → Bool
  | .rbit | .rbits _ | .rint _ | .rdfreq _ | .rdlen _ | .rdcode _ | .getsym | .decfile | .rdsr _ | .decompress => true
  | _ => false

/-- The commands that may empty ARC (R61). -/
def opensArcW : Instr → Bool
  | .aopenw | .compress _ => true
  | _ => false

/-- The commands that may write RLEN (R23), beside RESET. -/
def writesRlen : Instr → Bool
  | .rdcode _ => true
  | _ => false

/-- The commands that may write the tables or the validity flags (R27 to R34, R40), beside RESET. -/
def writesTables : Instr → Bool
  | .scan | .build | .walk | .ldlen _ _ | .canon | .rhdr | .tbuild | .encfile _ | .decfile | .compress _
    | .decompress =>
    true
  | _ => false

/-- One write of the pseudocode of command `i`, RESET's apart. -/
inductive OneWrite (i : Instr) (s : State) : State → Prop where
  | raise (k : FaultKind) (info : BitVec 16) : OneWrite i s (s.raise k info)
  | tables {t : State} (h : t = { s with
      freq := t.freq, node := t.node, ncnt := t.ncnt, root := t.root, pq := t.pq, len := t.len, hn := t.hn,
      ord := t.ord, cntl := t.cntl, maxl := t.maxl, cl := t.cl, cc := t.cc, tn := t.tn })
      (hi : writesTables i = true) : OneWrite i s t
  | chainFlag {f : Flag} (b : Bool) (h : f ∈ chainFromFreq) (hi : writesTables i = true) :
      OneWrite i s (s.setFlag f b)
  | clearFlag {f : Flag} (h : f ≠ .faulted) (hi : f ∉ chainFromFreq ∨ writesTables i = true) :
      OneWrite i s (s.setFlag f false)
  | res {w : Nat} (v : BitVec w) (h : writesRes i = true) : OneWrite i s (s.setRes v)
  | rlen (v : BitVec 9) (h : writesRlen i = true) : OneWrite i s { s with rlen := v }
  | writeBit (b : Bool) : OneWrite i s (writeBit s b)
  | flush : OneWrite i s (flush s)
  | fetchByte (h0 : s.rcnt = 0#4) (h : s.host.arcPos < s.host.arc.length) : OneWrite i s { s with
      rbuf := s.host.arc[s.host.arcPos], rcnt := 8#4, host.arcPos := s.host.arcPos + 1 }
  | takeBit (h : s.rcnt ≠ 0#4) : OneWrite i s { s with rbuf := s.rbuf >>> 1, rcnt := s.rcnt - 1#4 }
  | dropCache : OneWrite i s { s with rbuf := 0#8, rcnt := 0#4 }
  | openArcW (hi : opensArcW i = true) (h : s.flag .arOpen = false) :
      OneWrite i s ({ s with wbuf := 0#8, wcnt := 0#4, host.arc := [] }.setFlag .awOpen true)
  | openArcR (h : s.flag .awOpen = false) :
      OneWrite i s ({ s with rbuf := 0#8, rcnt := 0#4, host.arcPos := 0 }.setFlag .arOpen true)
  | readSrc (h : s.host.srcPos < s.srcContent.length) : OneWrite i s { s with host.srcPos := s.host.srcPos + 1 }
  | rewindSrc : OneWrite i s { s with host.srcPos := 0 }
  | selectSrc (idx : BitVec 16) (h : s.flag .sOpen = false) : OneWrite i s { s with sidx := idx }
  | openSrc {name content : List Byte} (h : s.host.inputs[s.sidx.toNat]? = some (.file name content))
      (hfit : s.nameFits name) : OneWrite i s ({ s with name := name, host.srcPos := 0 }.setFlag .sOpen true)
  | openDst : OneWrite i s ({ s with host.outputs := s.host.outputs ++ [(s.name, [])] }.setFlag .dOpen true)
  | writeDst (v : Byte) : OneWrite i s (memWriteDst s v)
  | clearName : OneWrite i s { s with name := [] }
  | growName (x : Byte) (h : s.nameFull = false) : OneWrite i s { s with name := s.name ++ [x] }

/-- Any number of writes of the pseudocode of command `i`. -/
def Changes (i : Instr) : State → State → Prop := Relation.ReflTransGen (OneWrite i)

variable {i : Instr} {s t u : State}

theorem Changes.refl (s : State) : Changes i s s := Relation.ReflTransGen.refl

theorem Changes.trans (h : Changes i s t) (h' : Changes i t u) : Changes i s u := Relation.ReflTransGen.trans h h'

theorem OneWrite.changes (h : OneWrite i s t) : Changes i s t := Relation.ReflTransGen.single h

theorem Changes.next (h : Changes i s t) (h' : OneWrite i t u) : Changes i s u := h.trans h'.changes

theorem Changes.clearFlags {fs : List Flag} (h : ∀ f ∈ fs, f ≠ .faulted) (hi : writesTables i = true) :
    Changes i s (s.clearFlags fs) := by
  induction fs generalizing s with
  | nil => exact .refl s
  | cons f fs ih =>
    exact (OneWrite.clearFlag (h f (by simp)) (.inr hi)).changes.trans (ih fun g hg => h g (List.mem_cons_of_mem _ hg))

theorem Changes.writeBitList (bs : List Bool) : Changes i s (writeBitList s bs) := by
  induction bs generalizing s with
  | nil => exact .refl s
  | cons b bs ih => exact (OneWrite.writeBit b).changes.trans ih

/-- The stretch, begun in `s`, makes writes of command `i` only. -/
abbrev Run.Changes {α : Type} (i : Instr) (s : State) (r : Run α) : Prop :=
  r.Ends (Machine.Changes i s) (Machine.Changes i s)

variable {α β : Type}

theorem Run.Changes.bind {r : Run α} {k : α → State → Run β} (h : r.Changes i s)
    (hk : ∀ a t, Machine.Changes i s t → (k a t).Changes i t) : (r.bind k).Changes i s :=
  Run.Ends.bind h fun a t ht => (hk a t ht).imp (fun _ hu => ht.trans hu) fun _ hu => ht.trans hu

theorem Run.Changes.andThen {r : Run Unit} {k : State → Run β} (h : r.Changes i s)
    (hk : ∀ t, Machine.Changes i s t → (k t).Changes i t) : (r.andThen k).Changes i s := h.bind fun _ => hk

/-- A stretch after some writes. -/
theorem Run.Changes.after {r : Run α} (h : r.Changes i t) (ht : Machine.Changes i s t) : r.Changes i s :=
  h.imp (fun _ hu => ht.trans hu) fun _ hu => ht.trans hu

theorem Run.Changes.raise {k : FaultKind} {info : BitVec 16} : (Run.raise k info s : Run α).Changes i s :=
  .raised (OneWrite.raise k info).changes

/-! ### The encoder -/

theorem count_changes (ht : writesTables i = true) (x : Nat) (s : State) : (count x s).Changes i s := by
  obtain ⟨-, e⟩ | ⟨-, e⟩ := count_cases x s
  · rw [e]; exact .raise
  · rw [e]; exact .done (OneWrite.tables rfl ht).changes

theorem countAll_changes (ht : writesTables i = true) (xs : List Byte) (s : State) : (countAll xs s).Changes i s := by
  induction xs generalizing s with
  | nil => exact .done (.refl s)
  | cons x xs ih => exact (count_changes ht x.toNat s).andThen fun t _ => ih t

theorem forSrc_changes {body : Byte → State → Run Unit} (hbody : ∀ x t, (body x t).Changes i t) (n : Nat) (s : State) :
    (forSrc body n s).Changes i s := by
  induction n generalizing s with
  | zero => exact .done (.refl s)
  | succ n ih =>
    cases hs : s.srcRest with
    | nil =>
      rw [forSrc, memReadSrc_eod hs]
      exact .done (.refl s)
    | cons x xs =>
      have hlt : s.host.srcPos < s.srcContent.length := by
        by_contra hge
        rw [State.srcRest, List.drop_eq_nil_of_le (by omega)] at hs
        cases hs
      rw [forSrc, (memReadSrc_cons hs).1]
      exact ((hbody x _).andThen fun t _ => ih t).after (OneWrite.readSrc hlt).changes

theorem scanBody_changes (ht : writesTables i = true) (s : State) : (scanBody s).Changes i s := by
  refine Run.Changes.after (t := { s.clearFlags chainFromFreq with freq := Vector.replicate 259 0#64 }) ?_
    (Changes.next (.clearFlags (by decide) ht) (.tables rfl ht))
  refine (countAll_changes ht _ _).andThen fun t _ => ?_
  refine (forSrc_changes (fun x t => count_changes ht x.toNat t) _ t).andThen fun t _ => ?_
  refine (count_changes ht _ t).andThen fun t _ => (count_changes ht _ t).andThen fun t _ => ?_
  exact (count_changes ht _ t).andThen fun t _ => .done (OneWrite.chainFlag true (by decide) ht).changes

theorem merge_shape (s : State) :
    merge s = { s with node := (merge s).node, pq := (merge s).pq, ncnt := (merge s).ncnt } := by
  have hex : ∀ {s : State} {m : Handle} {t : State}, extractMin s = some (m, t) → t = { s with pq := t.pq } := by
    intro s m t h
    unfold extractMin at h
    split at h
    · cases h
    · cases h; rfl
  unfold merge
  split
  · rfl
  · rename_i a s1 h1
    split
    · rfl
    · rename_i b s2 h2
      rw [addNode, hex h2, hex h1]

theorem mergeLoop_shape (n : Nat) (s : State) :
    mergeLoop n s =
      { s with node := (mergeLoop n s).node, pq := (mergeLoop n s).pq, ncnt := (mergeLoop n s).ncnt } := by
  induction n generalizing s with
  | zero => rfl
  | succ n ih =>
    rw [mergeLoop]
    split
    · rw [ih, merge_shape]
    · rfl

theorem buildBody_changes (ht : writesTables i = true) (s : State) : (buildBody s).Changes i s := by
  have hstart : Changes i s { s.clearFlags chainFromTree with ncnt := 0#10, pq := [] } :=
    Changes.next (.clearFlags (by decide) ht) (.tables rfl ht)
  unfold buildBody
  dsimp only
  split
  · exact .stuck
  · refine .done ((hstart.next (.tables ?_ ht)).next (.chainFlag true (by decide) ht))
    dsimp only
    rw [mergeLoop_shape, foldl_addLeaf_shape]

theorem visit_changes (ht : writesTables i = true) (n : Nat) (h : Handle) (d : Nat) (s : State) :
    (visit n h d s).Changes i s := by
  induction n generalizing h d s with
  | zero => exact .stuck
  | succ n ih =>
    unfold visit
    dsimp only
    split
    · split
      · exact .done (OneWrite.tables rfl ht).changes
      · exact (ih _ _ s).andThen fun t _ => ih _ _ t
    · exact .stuck

theorem walkBody_changes (ht : writesTables i = true) (s : State) : (walkBody s).Changes i s := by
  refine Run.Changes.after (t := { s.clearFlags chainFromLen with len := Vector.replicate 259 0#9 }) ?_
    (Changes.next (.clearFlags (by decide) ht) (.tables rfl ht))
  exact (visit_changes ht _ _ _ _).andThen fun t _ => .done (OneWrite.chainFlag true (by decide) ht).changes

theorem canonFrom_changes (ht : writesTables i = true) (ls : List Nat) (j prev code : Nat) (s : State) :
    (canonFrom j prev code ls s).Changes i s := by
  induction ls generalizing j prev code s with
  | nil => exact .done (.refl s)
  | cons l ls ih =>
    unfold canonFrom
    dsimp only
    split
    · exact .raise
    · exact (ih _ _ _ _).after (OneWrite.tables rfl ht).changes

/-- CANON on an empty alphabet (R142). -/
theorem canonBody_of_empty (op : Opcode) (h : s.sortedAlphabet = []) :
    canonBody op s =
      .raise .illegalOperation (illegalInfo op 6#4) { s.clearFlags chainFromHeader with hn := 0#10 } := by
  unfold canonBody
  dsimp only
  rw [State.clearFlags_sortedAlphabet, h]
  rfl

/-- CANON on an alphabet with a symbol makes the header, then the codes (R142). -/
theorem canonBody_of_nonempty (op : Opcode) (h : s.sortedAlphabet ≠ []) :
    canonBody op s = (canonCodes s.sortedAlphabet.length s.canonHeader).andThen fun s =>
      .done () ((s.setFlag .hValid true).setFlag .cValid true) := by
  have hne : s.sortedAlphabet.isEmpty = false := by simpa using h
  unfold canonBody
  dsimp only
  rw [State.clearFlags_sortedAlphabet, hne, if_neg (by decide), State.canonHeader]
  rfl

theorem canonBody_changes (ht : writesTables i = true) (op : Opcode) (s : State) : (canonBody op s).Changes i s := by
  have hclear : Changes i s (s.clearFlags chainFromHeader) := .clearFlags (by decide) ht
  by_cases h : s.sortedAlphabet = []
  · rw [canonBody_of_empty op h]
    exact Run.Changes.raise.after (hclear.next (.tables rfl ht))
  · rw [canonBody_of_nonempty op h]
    refine Run.Changes.after (t := s.canonHeader) ?_ (hclear.next (.tables rfl ht))
    refine (canonFrom_changes ht _ _ _ _ _).andThen fun t _ => .done ?_
    exact (OneWrite.chainFlag true (by decide) ht).changes.next (.chainFlag true (by decide) ht)

theorem ldlenBody_changes (ht : writesTables i = true) (a : Sym) (l : BitVec 9) (s : State) :
    Changes i s (ldlenBody a l s) := by
  have hlen : Changes i s (if s.flag .lValid then s else { s with len := Vector.replicate 259 0#9 }) := by
    split
    · exact .refl s
    · exact (OneWrite.tables rfl ht).changes
  exact ((hlen.trans (.clearFlags (fs := chainFromHeader) (by decide) ht)).next (.tables rfl ht)).next
    (.chainFlag (f := .lValid) true (by decide) ht)

theorem whdrBody_changes (s : State) : Changes i s (whdrBody s) := by
  rw [whdrBody_eq_writeBitList]
  exact .writeBitList _

theorem putSymbol_changes (op : Opcode) (x : Sym) (s : State) : (putSymbol op x s).Changes i s := by
  obtain ⟨-, e⟩ | ⟨j, -, e⟩ := putSymbol_cases op x s
  · rw [e]; exact .raise
  · rw [e]; exact .done (.writeBitList _)

theorem putAll_changes (op : Opcode) (xs : List Byte) (s : State) : (putAll op xs s).Changes i s := by
  induction xs generalizing s with
  | nil => exact .done (.refl s)
  | cons x xs ih => exact (putSymbol_changes op _ s).andThen fun t _ => ih t

theorem encfileBody_changes (ht : writesTables i = true) (op : Opcode) (last : Bool) (s : State) :
    (encfileBody op last s).Changes i s := by
  refine (scanBody_changes ht s).andThen fun t _ => ?_
  refine (buildBody_changes ht t).andThen fun t _ => ?_
  refine (walkBody_changes ht t).andThen fun t _ => ?_
  refine (canonBody_changes ht op t).andThen fun t _ => ?_
  refine Run.Changes.after (t := hostRewindSrc (whdrBody t)) ?_ ((whdrBody_changes t).next .rewindSrc)
  refine (putAll_changes op _ _).andThen fun t _ => ?_
  refine (forSrc_changes (fun x t => putSymbol_changes op _ t) _ t).andThen fun t _ => ?_
  exact (putSymbol_changes op _ t).andThen fun t _ => putSymbol_changes op _ t

/-! ### The decoder -/

theorem readBit_changes (s : State) : (readBit s).Changes i s := by
  unfold readBit
  split
  · rename_i h0
    rcases Nat.lt_or_ge s.host.arcPos s.host.arc.length with hlt | hge
    · rw [memReadArc_some hlt]
      exact .done ((OneWrite.fetchByte h0 hlt).changes.next (.takeBit (by simp)))
    · rw [memReadArc_eod hge]
      exact .raise
  · rename_i h0
    exact .done (OneWrite.takeBit h0).changes

theorem readBits_changes (n : Nat) (s : State) : (readBits n s).Changes i s := by
  induction n generalizing s with
  | zero => exact .done (.refl s)
  | succ n ih => exact (readBit_changes s).bind fun _ t _ => (ih t).bind fun _ u _ => .done (.refl u)

theorem rhdrSymbols_changes (ht : writesTables i = true) (j k : Nat) (s : State) : (rhdrSymbols j k s).Changes i s := by
  induction k generalizing j s with
  | zero => exact .done (.refl s)
  | succ k ih =>
    refine (readBits_changes _ s).bind fun x t _ => ?_
    split
    · exact .raise
    · exact (ih _ _).after (OneWrite.tables rfl ht).changes

theorem rhdrCounts_changes (ht : writesTables i = true) (sum room : Nat) (s : State) :
    (rhdrCounts sum room s).Changes i s := by
  induction room generalizing sum s with
  | zero =>
    unfold rhdrCounts
    split
    · exact .raise
    · exact .done (.refl s)
  | succ room ih =>
    unfold rhdrCounts
    split
    · refine Run.Changes.after ?_ (OneWrite.tables (t := { s with maxl := s.maxl + 1#9 }) rfl ht).changes
      refine (readBits_changes _ _).bind fun c t _ => ?_
      dsimp only
      refine Run.Changes.after ?_
        (OneWrite.tables (t := { t with cntl := tset t.cntl (t.maxl.toNat - 1) (BitVec.ofNat 9 c) }) rfl ht).changes
      split
      · exact .raise
      · exact ih _ _
    · exact .done (.refl s)

theorem rhdrBody_changes (ht : writesTables i = true) (s : State) : (rhdrBody s).Changes i s := by
  refine Run.Changes.after (t := s.clearFlags chainFromHeader) ?_ (.clearFlags (by decide) ht)
  refine (readBits_changes _ _).bind fun n t _ => ?_
  refine Run.Changes.after (t := { t with hn := BitVec.ofNat 10 n }) ?_ (OneWrite.tables rfl ht).changes
  refine (rhdrSymbols_changes ht _ _ _).andThen fun t _ => ?_
  refine Run.Changes.after (t := { t with cntl := Vector.replicate 258 0#9, maxl := 0#9 }) ?_
    (OneWrite.tables rfl ht).changes
  exact (rhdrCounts_changes ht _ _ _).andThen fun t _ => .done (OneWrite.chainFlag true (by decide) ht).changes

theorem tbuildBody_changes (ht : writesTables i = true) (s : State) : (tbuildBody s).Changes i s := by
  refine Run.Changes.after (t := { s.clearFlags chainFromCodes with
      cl := tsetPrefix (s.clearFlags chainFromCodes).cl (s.clearFlags chainFromCodes).headerLengths }) ?_
    (Changes.next (.clearFlags (by decide) ht) (.tables rfl ht))
  refine (canonFrom_changes ht _ _ _ _ _).andThen fun t _ => .done ?_
  exact ((OneWrite.tables (t := { t with tn := t.headerTrie }) rfl ht).changes.next
    (.chainFlag (f := .cValid) true (by decide) ht)).next (.chainFlag (f := .trValid) true (by decide) ht)

theorem trieWalk_changes (tr : Trie) (s : State) : (trieWalk tr s).Changes i s := by
  induction tr generalizing s with
  | nil => exact .raise
  | node c0 c1 v ih0 ih1 =>
    unfold trieWalk
    split
    · cases v with
      | none => exact .raise
      | some x => exact .done (.refl s)
    · refine (readBit_changes s).bind fun b t _ => ?_
      split
      · exact ih1 t
      · exact ih0 t

theorem getSymbol_changes (s : State) : (getSymbol s).Changes i s := by
  unfold getSymbol
  split
  · exact .raise
  · exact trieWalk_changes _ s

theorem nameLoop_changes (fuel : Nat) (s : State) : (nameLoop fuel s).Changes i s := by
  induction fuel generalizing s with
  | zero => exact .stuck
  | succ fuel ih =>
    refine (getSymbol_changes s).bind fun x t _ => ?_
    dsimp only
    split
    · exact .raise
    · split
      · exact .raise
      · rename_i hfull
        refine Run.Changes.after ?_ (OneWrite.growName (x.setWidth 8) (by simpa using hfull)).changes
        split
        · exact .done (.refl _)
        · exact ih _

theorem contentLoop_changes (fuel : Nat) (s : State) : (contentLoop fuel s).Changes i s := by
  induction fuel generalizing s with
  | zero => exact .stuck
  | succ fuel ih =>
    refine (getSymbol_changes s).bind fun x t _ => ?_
    split
    · exact (ih _).after (OneWrite.writeDst _).changes
    · split
      · exact .done (.refl t)
      · exact .raise

theorem trailer_changes (s : State) : (trailer s).Changes i s := by
  refine (getSymbol_changes s).bind fun x t _ => ?_
  split
  · exact .raise
  · exact .done (.refl t)

theorem dopenBody_changes (s : State) : (dopenBody s).Changes i s := by
  cases hok : s.host.dst.ok s.name with
  | true => rw [dopenBody_of_ok hok]; exact .done OneWrite.openDst.changes
  | false => rw [dopenBody_of_refused hok]; exact .raise

theorem decfileBody_changes (ht : writesTables i = true) (hi : writesRes i = true) (s : State) :
    (decfileBody s).Changes i s := by
  refine (rhdrBody_changes ht s).andThen fun t _ => ?_
  refine (tbuildBody_changes ht t).andThen fun t _ => ?_
  refine Run.Changes.after (t := { t with name := [] }) ?_ OneWrite.clearName.changes
  refine (nameLoop_changes _ _).andThen fun t _ => ?_
  refine (dopenBody_changes t).andThen fun t _ => ?_
  refine (contentLoop_changes _ t).andThen fun t _ => ?_
  refine (trailer_changes t).bind fun y t _ => .done ?_
  exact (OneWrite.clearFlag (f := .dOpen) (by decide) (.inl (by decide))).changes.next (.res y hi)

/-! ### Streams -/

theorem aopenwBody_changes (hi : opensArcW i = true) (h : s.flag .arOpen = false) : (aopenwBody s).Changes i s := by
  cases hok : s.host.arcWOk with
  | true => rw [aopenwBody_of_ok hok]; exact .done (OneWrite.openArcW hi h).changes
  | false => rw [aopenwBody_of_refused hok]; exact .raise

theorem aopenrBody_changes (h : s.flag .awOpen = false) : (aopenrBody s).Changes i s := by
  cases hok : s.host.arcROk with
  | true => rw [aopenrBody_of_ok hok]; exact .done (OneWrite.openArcR h).changes
  | false => rw [aopenrBody_of_refused hok]; exact .raise

theorem sopenBody_changes (op : Opcode) (idx : BitVec 16) (h : s.flag .sOpen = false) :
    (sopenBody op idx s).Changes i s := by
  have hsel : Changes i s { s with sidx := idx } := (OneWrite.selectSrc idx h).changes
  obtain ⟨-, e⟩ | ⟨name, content, hin, ⟨-, e⟩ | ⟨hfit, e⟩⟩ := sopenBody_cases op idx s
  · rw [e]; exact Run.Changes.raise.after hsel
  · rw [e]; exact Run.Changes.raise.after (hsel.next .rewindSrc)
  · rw [e]; exact .done (hsel.next (.openSrc (s := { s with sidx := idx }) hin hfit))

theorem closeArc_changes (s : State) : Changes i s (closeArc s) := by
  have hflush : Changes i s (if s.flag .awOpen then flush s else s) := by
    split
    · exact OneWrite.flush.changes
    · exact .refl s
  exact ((hflush.next (.clearFlag (f := .awOpen) (by decide) (.inl (by decide)))).next
    (.clearFlag (f := .arOpen) (by decide) (.inl (by decide)))).next
    .dropCache

theorem closeBody_changes (a : BitVec 9) (s : State) : Changes i s (closeBody a s) := by
  unfold closeBody
  split
  · exact closeArc_changes s
  · exact (OneWrite.clearFlag (f := .sOpen) (by decide) (.inl (by decide))).changes
  · exact (OneWrite.clearFlag (f := .dOpen) (by decide) (.inl (by decide))).changes

theorem compressLoop_changes (ht : writesTables i = true) (op : Opcode) (j k : Nat) (h : s.flag .sOpen = false) :
    (compressLoop op j k s).Changes i s := by
  induction k generalizing j s with
  | zero => exact .done (.refl s)
  | succ k ih =>
    refine (sopenBody_changes op _ h).andThen fun t _ => ?_
    refine (encfileBody_changes ht op _ t).andThen fun t _ => ?_
    exact (ih _ (State.flag_setFlag t .sOpen .sOpen false)).after
      (OneWrite.clearFlag (f := .sOpen) (by decide) (.inl (by decide))).changes

theorem decompressLoop_changes (ht : writesTables i = true) (hi : writesRes i = true) (fuel : Nat) (s : State) :
    (decompressLoop fuel s).Changes i s := by
  induction fuel generalizing s with
  | zero => exact .stuck
  | succ fuel ih =>
    refine (decfileBody_changes ht hi s).bind fun y t _ => ?_
    split
    · exact .done (.refl t)
    · exact ih t

/-! ### All commands -/

/-- Every command but RESET makes writes of the list only. -/
theorem bodyOf_changes (hi : i ≠ .reset) (hp : preOk i s = true) : (bodyOf i s).Changes i s := by
  cases i with
  | nop => exact .done (.refl s)
  | wbits n v => exact .done (.writeBitList _)
  | wint n v => exact .done (.writeBitList _)
  | wflush => exact .done OneWrite.flush.changes
  | rbit => exact (readBit_changes s).bind fun _ t _ => .done (OneWrite.res _ rfl).changes
  | rbits n => exact (readBits_changes _ s).bind fun _ t _ => .done (OneWrite.res _ rfl).changes
  | rint n => exact (readBits_changes _ s).bind fun _ t _ => .done (OneWrite.res _ rfl).changes
  | scan => exact scanBody_changes rfl s
  | build => exact buildBody_changes rfl s
  | walk => exact walkBody_changes rfl s
  | rdfreq a => exact .done (OneWrite.res _ rfl).changes
  | ldlen a l => exact .done (ldlenBody_changes rfl a l s)
  | canon => exact canonBody_changes rfl _ s
  | rdlen a => exact .done (OneWrite.res _ rfl).changes
  | rdcode a =>
    show (rdcodeBody _ a s).Changes _ s
    unfold rdcodeBody
    split
    · exact .raise
    · exact .done ((OneWrite.res _ rfl).changes.next (.rlen _ rfl))
  | whdr => exact .done (whdrBody_changes s)
  | rhdr => exact rhdrBody_changes rfl s
  | tbuild => exact tbuildBody_changes rfl s
  | getsym => exact (getSymbol_changes s).bind fun _ t _ => .done (OneWrite.res _ rfl).changes
  | wsym a => exact putSymbol_changes _ a s
  | encfile a => exact encfileBody_changes rfl _ _ s
  | decfile => exact (decfileBody_changes rfl rfl s).bind fun _ t _ => .done (.refl t)
  | compress idx =>
    obtain ⟨-, har, hso, -⟩ := s.allClosed_iff.mp hp
    show ((aopenwBody s).andThen _).Changes _ s
    cases hok : s.host.arcWOk with
    | false =>
      rw [aopenwBody_of_refused hok, Run.andThen_raise]
      exact .raise
    | true =>
      rw [aopenwBody_of_ok hok, Run.andThen_done]
      refine Run.Changes.after ?_ (OneWrite.openArcW rfl har).changes
      refine (compressLoop_changes rfl _ _ _ ?_).andThen fun t _ => .done (closeArc_changes t)
      exact (State.flag_setFlag _ _ _ _).trans hso
  | decompress =>
    obtain ⟨haw, -, -, -⟩ := s.allClosed_iff.mp hp
    refine (aopenrBody_changes haw).andThen fun t _ => ?_
    exact (decompressLoop_changes rfl rfl _ t).andThen fun t _ => .done (closeArc_changes t)
  | reset => exact absurd rfl hi
  | rdsr a => exact .done (OneWrite.res _ rfl).changes
  | aopenw =>
    obtain ⟨-, har⟩ := (Bool.and_eq_true _ _).mp hp
    exact aopenwBody_changes rfl (by simpa using har)
  | aopenr =>
    obtain ⟨haw, -⟩ := (Bool.and_eq_true _ _).mp hp
    exact aopenrBody_changes (by simpa using haw)
  | sopen idx => exact sopenBody_changes _ idx (by simpa [preOk] using hp)
  | srewind => exact .done OneWrite.rewindSrc.changes
  | dopen => exact dopenBody_changes s
  | close a => exact .done (closeBody_changes a s)

end Sys2Proof.Machine
end

section
/-! What each write of the list keeps, every command and every step keeps. -/

namespace Sys2Proof.Machine

variable {i : Instr} {s t : State} {P : State → Prop}

theorem Changes.keeps (hwrite : ∀ s t, OneWrite i s t → P s → P t) (h : Changes i s t) (hs : P s) : P t := by
  induction h with
  | refl => exact hs
  | tail _ hw ih => exact hwrite _ _ hw ih

theorem outcome_keeps_of_changes {r : Run Unit} (hwrite : ∀ s t, OneWrite i s t → P s → P t) (h : r.Changes i s)
    (hs : P s) (ht : r.outcome = .next t) : P t := by
  obtain e | e := Run.outcome_eq_next.mp ht <;> rw [e] at h
  · cases h with
    | done hc => exact hc.keeps hwrite hs
  · cases h with
    | raised hc => exact hc.keeps hwrite hs

/-- What the writes of a command keep, the command keeps; RESET's effect is asked for apart. -/
theorem exec_keeps (hwrite : ∀ s t, OneWrite i s t → P s → P t) (hreset : i = .reset → P s → P s.resetCore)
    (h : exec i s = .next t) (hs : P s) : P t := by
  by_cases hi : i = .reset
  · rw [hi, exec_reset] at h
    obtain rfl := Host.Outcome.next.inj h
    exact hreset hi hs
  · obtain ⟨-, rfl⟩ | ⟨-, -, rfl⟩ | ⟨-, -, -, rfl⟩ | ⟨-, -, hp, ht⟩ | ⟨-, ha, ht⟩ := exec_cases h
    · exact hs
    · exact hwrite _ _ (.raise _ _) hs
    · exact hwrite _ _ (.raise _ _) hs
    · exact outcome_keeps_of_changes hwrite (bodyOf_changes hi hp) hs ht
    · have hp := preOk_of_exemptFaulted ((Bool.and_eq_true _ _).mp ha).1 s
      exact outcome_keeps_of_changes hwrite (bodyOf_changes hi hp) hs ht

/-- What every command keeps, every step keeps: the word taken apart, a step is a command, a fault or nothing. -/
theorem step_keeps (hcmds : ∀ (s : State) (ws : List Word), P s → P { s with host.cmds := ws })
    (hraise : ∀ (s : State) k info, P s → P (s.raise k info))
    (hexec : ∀ (i : Instr) (s t : State), exec i s = .next t → P s → P t)
    (h : step s = .next t) (hs : P s) : P t := by
  cases hc : s.host.cmds with
  | nil =>
    simp only [step, (fetch_none_iff s).mpr hc] at h
    exact Host.Outcome.next.inj h ▸ hs
  | cons w rest =>
    have hs' := hcmds s rest hs
    simp only [step, fetch_of_cmds hc] at h
    cases hd : decode w with
    | ok i =>
      rw [hd] at h
      exact hexec i _ t h hs'
    | reservedOpcode op | mustBeZero op =>
      rw [hd] at h
      exact Host.Outcome.next.inj h ▸ hraise _ _ _ hs'

/-- The two together, for what the writes of every command keep. -/
theorem step_keeps_of_writes (hcmds : ∀ (s : State) (ws : List Word), P s → P { s with host.cmds := ws })
    (hwrite : ∀ i s t, OneWrite i s t → P s → P t) (hreset : ∀ s, P s → P s.resetCore) (h : step s = .next t)
    (hs : P s) : P t :=
  step_keeps hcmds (fun s k info => hwrite .nop s _ (.raise k info))
    (fun i _ _ he => exec_keeps (hwrite i) (fun _ => hreset _) he) h hs

/-! ### The partial-byte buffers -/

theorem BuffersInv.of_eq (h : BuffersInv s) (hwb : t.wbuf = s.wbuf) (hwc : t.wcnt = s.wcnt) (hrb : t.rbuf = s.rbuf)
    (hrc : t.rcnt = s.rcnt) : BuffersInv t := by
  simpa only [BuffersInv, WriterOk, ReaderOk, hwb, hwc, hrb, hrc] using h

theorem OneWrite.buffersInv (h : OneWrite i s t) (hs : BuffersInv s) : BuffersInv t := by
  obtain ⟨hw, hr⟩ := hs
  cases h with
  | raise k info => exact BuffersInv.of_eq ⟨hw, hr⟩ (by simp) (by simp) (by simp) (by simp)
  | tables h => exact BuffersInv.of_eq ⟨hw, hr⟩ (by rw [h]) (by rw [h]) (by rw [h]) (by rw [h])
  | writeBit b =>
    refine ⟨(writeBit_spec hw b).2, ?_⟩
    rw [writeBit_shape]
    exact hr
  | flush =>
    refine ⟨(flush_spec hw).2.2, ?_⟩
    rw [flush_shape]
    exact hr
  | fetchByte h0 h => exact ⟨hw, Nat.le_refl 8, fun i h8 hi => absurd hi (Nat.not_le.mpr h8)⟩
  | takeBit h =>
    obtain ⟨t, ht, -, hok, -⟩ := takeBit_spec hr h
    cases ht
    exact ⟨hw, hok⟩
  | dropCache => exact ⟨hw, readerOk_of_empty rfl rfl⟩
  | openArcW hi h => exact ⟨writerOk_of_empty rfl rfl, hr⟩
  | openArcR h => exact ⟨hw, readerOk_of_empty rfl rfl⟩
  | _ => exact ⟨hw, hr⟩

/-- Settles O50: the writer's and the reader's operations keep their buffers in range, and no other write touches
them. -/
theorem stepKeepsBuffers : Obligations.StepKeepsBuffers := by
  unfold Obligations.StepKeepsBuffers
  intro s t hs h
  exact step_keeps_of_writes (fun _ _ hs => hs) (fun _ _ _ => OneWrite.buffersInv)
    (fun s _ => ⟨writerOk_of_empty rfl rfl, readerOk_of_empty rfl rfl⟩) h hs

/-! ### STATUS, FAULT and FINFO -/

theorem Flag.bit_lt_eleven (f : Flag) : f.bit < 11 := by cases f <;> decide

theorem FaultKind.code_range (k : FaultKind) : 1 ≤ k.code.toNat ∧ k.code.toNat ≤ 6 := by cases k <;> decide

theorem StatusInv.of_eq (h : StatusInv s) (hs : t.status = s.status) (hf : t.fault = s.fault)
    (hi : t.finfo = s.finfo) : StatusInv t := by
  simpa only [StatusInv, State.flag, hs, hf, hi] using h

/-- A flag other than FAULTED may be written where that does not leave both archive flags 1. -/
theorem StatusInv.setFlag (h : StatusInv s) {f : Flag} {b : Bool} (hf : f ≠ .faulted)
    (hopen : ¬ ((s.setFlag f b).flag .awOpen = true ∧ (s.setFlag f b).flag .arOpen = true)) :
    StatusInv (s.setFlag f b) := by
  obtain ⟨hhigh, -, hready, hfaulted⟩ := h
  have hkeep : (s.setFlag f b).flag .faulted = s.flag .faulted :=
    (State.flag_setFlag _ _ _ _).trans (if_neg (Ne.symm hf))
  refine ⟨fun j h16 h11 => ?_, hopen, fun h => hready (hkeep ▸ h), fun h => hfaulted (hkeep ▸ h)⟩
  have hj : j ≠ f.bit := by have := f.bit_lt_eleven; omega
  exact (statusWith_getLsbD _ _ _ _).trans ((if_neg hj).trans (hhigh j h16 h11))

/-- Clearing a flag, or writing one that is not an archive flag, leaves not both archive flags 1. -/
theorem StatusInv.setFlag_of_ne (h : StatusInv s) {f : Flag} {b : Bool} (hf : f ≠ .faulted)
    (ha : b = false ∨ (f ≠ .awOpen ∧ f ≠ .arOpen)) : StatusInv (s.setFlag f b) := by
  have hle : ∀ g, b = false ∨ f ≠ g → (s.setFlag f b).flag g = true → s.flag g = true := by
    intro g hg hflag
    rw [State.flag_setFlag] at hflag
    by_cases hgf : g = f
    · obtain rfl | hne := hg
      · rw [if_pos hgf] at hflag; cases hflag
      · exact absurd hgf.symm hne
    · rwa [if_neg hgf] at hflag
  refine h.setFlag hf fun ⟨haw, har⟩ => h.2.1 ⟨hle _ ?_ haw, hle _ ?_ har⟩
  · exact ha.imp id fun e => e.1
  · exact ha.imp id fun e => e.2

theorem StatusInv.raise (h : StatusInv s) (k : FaultKind) (info : BitVec 16) : StatusInv (s.raise k info) := by
  cases hf : s.flag .faulted with
  | true => rwa [State.raise_of_faulted hf]
  | false =>
    obtain ⟨hhigh, hopen, -, -⟩ := h
    have hfaulted : (s.raise k info).flag .faulted = true := by simp
    refine ⟨fun j h16 h11 => ?_, by simpa using hopen, fun h => ?_, fun _ => ?_⟩
    · rw [State.raise_of_ready hf]
      exact (statusWith_getLsbD _ _ _ _).trans ((if_neg (by simp only [Flag.bit]; omega)).trans (hhigh j h16 h11))
    · rw [hfaulted] at h; cases h
    · rw [State.raise_of_ready hf]
      exact k.code_range

theorem OneWrite.statusInv (h : OneWrite i s t) (hs : StatusInv s) : StatusInv t := by
  cases h with
  | raise k info => exact hs.raise k info
  | tables h => exact hs.of_eq (by rw [h]) (by rw [h]) (by rw [h])
  | chainFlag b h =>
    refine hs.setFlag_of_ne ?_ (.inr ⟨?_, ?_⟩) <;> rintro rfl <;> exact absurd h (by decide)
  | clearFlag h => exact hs.setFlag_of_ne h (.inl rfl)
  | writeBit b => rw [writeBit_shape]; exact hs
  | flush => rw [flush_shape]; exact hs
  | openArcW hi h =>
    refine StatusInv.setFlag (hs.of_eq rfl rfl rfl) (by decide) fun ⟨_, har⟩ => ?_
    rw [State.flag_setFlag, if_neg (by decide)] at har
    exact absurd (h.symm.trans har) (by decide)
  | openArcR h =>
    refine StatusInv.setFlag (hs.of_eq rfl rfl rfl) (by decide) fun ⟨haw, _⟩ => ?_
    rw [State.flag_setFlag, if_neg (by decide)] at haw
    exact absurd (h.symm.trans haw) (by decide)
  | openSrc h hfit => exact (hs.of_eq rfl rfl rfl).setFlag_of_ne (by decide) (.inr ⟨by decide, by decide⟩)
  | openDst => exact (hs.of_eq rfl rfl rfl).setFlag_of_ne (by decide) (.inr ⟨by decide, by decide⟩)
  | _ => exact hs

theorem statusInv_resetCore (s : State) : StatusInv s.resetCore :=
  ⟨fun j _ _ => BitVec.getLsbD_zero, by simp, fun _ => ⟨rfl, rfl⟩, by simp⟩

/-- Settles O51: a write sets an archive flag only while the other is 0, and FAULT and FINFO only with FAULTED. -/
theorem stepKeepsStatus : Obligations.StepKeepsStatus := by
  unfold Obligations.StepKeepsStatus
  intro s t hs h
  exact step_keeps_of_writes (fun _ _ hs => hs) (fun _ _ _ => OneWrite.statusInv)
    (fun s _ => statusInv_resetCore s) h hs

/-! ### Streams -/

/-- The streams' invariant speaks of four flags, NAME, SIDX and the host only. -/
theorem StreamsInv.of_eq (h : StreamsInv s) (har : t.flag .arOpen = s.flag .arOpen)
    (hso : t.flag .sOpen = s.flag .sOpen) (hdo : t.flag .dOpen = s.flag .dOpen) (hn : t.name = s.name)
    (hx : t.sidx = s.sidx) (hm : t.nameMax = s.nameMax) (hh : t.host = s.host) : StreamsInv t := by
  simpa only [StreamsInv, State.nameFits, State.nameTooLong, State.srcContent, har, hso, hdo, hn, hx, hm, hh] using h

theorem length_appendToLast (v : Byte) (os : List (List Byte × List Byte)) :
    (appendToLast v os).length = os.length := by
  fun_induction appendToLast v os with
  | case1 => rfl
  | case2 => rfl
  | case3 o p rest ih => simpa using ih

theorem nameFits_append {x : Byte} (hfit : s.nameFits s.name) (hfull : s.nameFull = false) :
    s.nameFits (s.name ++ [x]) := by
  unfold State.nameFits State.nameTooLong at *
  unfold State.nameFull at hfull
  cases hm : s.nameMax with
  | none => rfl
  | some m =>
    rw [hm] at hfit hfull
    simp only [decide_eq_false_iff_not, beq_eq_false_iff_ne, List.length_append, List.length_singleton] at *
    omega

theorem nameFits_nil (s : State) : s.nameFits [] := by
  unfold State.nameFits State.nameTooLong
  cases s.nameMax <;> simp

/-- Clearing a flag asks for less. -/
theorem StreamsInv.clearFlag (h : StreamsInv s) (f : Flag) : StreamsInv (s.setFlag f false) := by
  obtain ⟨har, hso, hdo, hn⟩ := h
  have hle : ∀ g, (s.setFlag f false).flag g = true → s.flag g = true := by
    intro g hg
    rw [State.flag_setFlag] at hg
    split at hg
    · cases hg
    · exact hg
  exact ⟨fun e => har (hle _ e), fun e => hso (hle _ e), fun e => hdo (hle _ e), hn⟩

theorem OneWrite.streamsInv (h : OneWrite i s t) (hs : StreamsInv s) : StreamsInv t := by
  have hinv := hs
  obtain ⟨har, hso, hdo, hn⟩ := hs
  cases h with
  | raise k info => exact hinv.of_eq (by simp) (by simp) (by simp) (by simp) (by simp) (by simp) (by simp)
  | tables h =>
    have hflag := fun f => State.flag_congr (s := t) (t := s) (by rw [h]) f
    exact hinv.of_eq (hflag _) (hflag _) (hflag _) (by rw [h]) (by rw [h]) (by rw [h]) (by rw [h])
  | @chainFlag f b h =>
    have hkeep : ∀ g, g ∉ chainFromFreq → (s.setFlag f b).flag g = s.flag g := fun g hg =>
      (State.flag_setFlag _ _ _ _).trans (if_neg (by rintro rfl; exact hg h))
    exact hinv.of_eq (hkeep _ (by decide)) (hkeep _ (by decide)) (hkeep _ (by decide)) rfl rfl rfl rfl
  | clearFlag h => exact hinv.clearFlag _
  | writeBit b =>
    have hle := (writeBitList_arc s [b]).length_le
    refine ⟨fun e => ?_, ?_⟩
    · rw [writeBit_shape] at e ⊢
      exact (har e).trans hle
    · rw [writeBit_shape]
      exact ⟨hso, hdo, hn⟩
  | flush =>
    have hle := (flush_arc_prefix s).length_le
    refine ⟨fun e => ?_, ?_⟩
    · rw [flush_shape] at e ⊢
      exact (har e).trans hle
    · rw [flush_shape]
      exact ⟨hso, hdo, hn⟩
  | fetchByte h0 h => exact ⟨fun _ => h, hso, hdo, hn⟩
  | openArcW hi h =>
    have hkeep : ∀ f, f ≠ .awOpen → ({ s with wbuf := 0#8, wcnt := 0#4, host.arc := [] }.setFlag .awOpen true).flag f =
        s.flag f := fun f hf => (State.flag_setFlag _ _ _ _).trans (if_neg hf)
    refine ⟨fun e => ?_, fun e => hso (hkeep .sOpen (by decide) ▸ e), fun e => hdo (hkeep .dOpen (by decide) ▸ e), hn⟩
    rw [hkeep _ (by decide), h] at e
    cases e
  | openArcR h =>
    have hkeep : ∀ f, f ≠ .arOpen →
        ({ s with rbuf := 0#8, rcnt := 0#4, host.arcPos := 0 }.setFlag .arOpen true).flag f = s.flag f :=
      fun f hf => (State.flag_setFlag _ _ _ _).trans (if_neg hf)
    exact ⟨fun _ => Nat.zero_le _, fun e => hso (hkeep .sOpen (by decide) ▸ e),
      fun e => hdo (hkeep .dOpen (by decide) ▸ e), hn⟩
  | readSrc h => exact ⟨har, fun e => ⟨h, (hso e).2⟩, hdo, hn⟩
  | rewindSrc => exact ⟨har, fun e => ⟨Nat.zero_le _, (hso e).2⟩, hdo, hn⟩
  | selectSrc idx h => exact ⟨har, fun e => absurd (h.symm.trans e) (by decide), hdo, hn⟩
  | @openSrc name content h hfit =>
    have hkeep : ∀ f, f ≠ .sOpen → ({ s with name := name, host.srcPos := 0 }.setFlag .sOpen true).flag f =
        s.flag f := fun f hf => (State.flag_setFlag _ _ _ _).trans (if_neg hf)
    refine ⟨fun e => har (hkeep .arOpen (by decide) ▸ e), fun _ => ⟨Nat.zero_le _, ?_, ?_⟩,
      fun e => hdo (hkeep .dOpen (by decide) ▸ e), hfit⟩
    · show s.host.inputs[s.sidx.toNat]? ≠ none
      rw [h]
      exact Option.some_ne_none _
    · show s.host.inputs[s.sidx.toNat]? ≠ some .unopenable
      rw [h]
      exact fun e => InputFile.noConfusion (Option.some.inj e)
  | openDst =>
    have hkeep : ∀ f, f ≠ .dOpen → ({ s with host.outputs := s.host.outputs ++ [(s.name, [])] }.setFlag .dOpen
        true).flag f = s.flag f := fun f hf => (State.flag_setFlag _ _ _ _).trans (if_neg hf)
    exact ⟨fun e => har (hkeep .arOpen (by decide) ▸ e), fun e => hso (hkeep .sOpen (by decide) ▸ e),
      fun _ => List.append_ne_nil_of_right_ne_nil _ (by simp), hn⟩
  | writeDst v =>
    refine ⟨har, hso, fun e => List.ne_nil_of_length_pos ?_, hn⟩
    rw [memWriteDst, length_appendToLast]
    exact List.length_pos_of_ne_nil (hdo e)
  | clearName => exact ⟨har, hso, hdo, nameFits_nil s⟩
  | growName x h => exact ⟨har, hso, hdo, nameFits_append hn h⟩
  | _ => exact ⟨har, hso, hdo, hn⟩

theorem streamsInv_resetCore (s : State) : StreamsInv s.resetCore :=
  ⟨by simp, by simp, by simp, nameFits_nil _⟩

/-- Settles O53: a flag of a stream is set only with the stream's data, and what is written later stays in range. -/
theorem stepKeepsStreams : Obligations.StepKeepsStreams := by
  unfold Obligations.StepKeepsStreams
  intro s t hs h
  exact step_keeps_of_writes (fun _ _ hs => hs) (fun _ _ _ => OneWrite.streamsInv)
    (fun s _ => streamsInv_resetCore s) h hs

/-! ### What no command changes -/

/-- What the host is, and the parameter NAME_MAX, as in `s`. -/
def SameHost (s t : State) : Prop :=
  t.host.inputs = s.host.inputs ∧ t.host.arcWOk = s.host.arcWOk ∧ t.host.arcROk = s.host.arcROk ∧
  t.host.dst = s.host.dst ∧ t.host.cmds = s.host.cmds ∧ t.nameMax = s.nameMax

theorem OneWrite.sameHost (h : OneWrite i s t) : SameHost s t := by
  cases h with
  | raise k info => simp [SameHost]
  | tables h => rw [h]; exact ⟨rfl, rfl, rfl, rfl, rfl, rfl⟩
  | writeBit b => rw [writeBit_shape]; exact ⟨rfl, rfl, rfl, rfl, rfl, rfl⟩
  | flush => rw [flush_shape]; exact ⟨rfl, rfl, rfl, rfl, rfl, rfl⟩
  | _ => exact ⟨rfl, rfl, rfl, rfl, rfl, rfl⟩

/-- Settles O57: no write of the list touches them, and RESET leaves the host as it is. -/
theorem hostParametersFixed : Obligations.HostParametersFixed := by
  unfold Obligations.HostParametersFixed
  intro i s t h
  refine exec_keeps (P := SameHost s) (fun u v hw hu => ?_) (fun _ hu => hu) h ⟨rfl, rfl, rfl, rfl, rfl, rfl⟩
  obtain ⟨h1, h2, h3, h4, h5, h6⟩ := hu
  obtain ⟨k1, k2, k3, k4, k5, k6⟩ := hw.sameHost
  exact ⟨k1.trans h1, k2.trans h2, k3.trans h3, k4.trans h4, k5.trans h5, k6.trans h6⟩

theorem OneWrite.res_eq (h : OneWrite i s t) (hi : writesRes i = false) : t.res = s.res := by
  cases h with
  | raise k info => simp
  | tables h => rw [h]
  | res v hv => rw [hi] at hv; cases hv
  | writeBit b => rw [writeBit_shape]
  | flush => rw [flush_shape]
  | _ => rfl

theorem OneWrite.rlen_eq (h : OneWrite i s t) (hi : writesRlen i = false) : t.rlen = s.rlen := by
  cases h with
  | raise k info => simp
  | tables h => rw [h]
  | rlen v hv => rw [hi] at hv; cases hv
  | writeBit b => rw [writeBit_shape]
  | flush => rw [flush_shape]
  | _ => rfl

theorem exec_res_eq (hi : writesRes i = false) (hr : i ≠ .reset) (h : exec i s = .next t) : t.res = s.res :=
  exec_keeps (P := fun u => u.res = s.res) (fun _ _ hw hu => (hw.res_eq hi).trans hu) (fun e => absurd e hr) h rfl

theorem exec_rlen_eq (hi : writesRlen i = false) (hr : i ≠ .reset) (h : exec i s = .next t) : t.rlen = s.rlen :=
  exec_keeps (P := fun u => u.rlen = s.rlen) (fun _ _ hw hu => (hw.rlen_eq hi).trans hu) (fun e => absurd e hr) h rfl

/-- Settles O58: the commands not named make no write of the register. -/
theorem resultRegistersFrame : Obligations.ResultRegistersFrame := by
  unfold Obligations.ResultRegistersFrame
  intro i s t h
  have hres : writesRes i = false → i ≠ .reset → t.res = s.res := fun hi hr => exec_res_eq hi hr h
  have hrlen : writesRlen i = false → i ≠ .reset → t.rlen = s.rlen := fun hi hr => exec_rlen_eq hi hr h
  constructor
  · cases i <;> simp_all [writesRes]
  · cases i <;> simp_all [writesRlen]

/-! ### Streams only grow -/

/-- The outputs of `os` are there in `ps`, in order, with their names, and their contents are longer at most. -/
def OutputsGrow (os ps : List (List Byte × List Byte)) : Prop :=
  os.length ≤ ps.length ∧
    ∀ k (h : k < os.length) (h' : k < ps.length), ps[k].1 = os[k].1 ∧ os[k].2 <+: ps[k].2

theorem OutputsGrow.refl (os : List (List Byte × List Byte)) : OutputsGrow os os :=
  ⟨Nat.le_refl _, fun _ _ _ => ⟨rfl, List.prefix_rfl⟩⟩

theorem OutputsGrow.trans {os ps qs : List (List Byte × List Byte)} (h : OutputsGrow os ps) (h' : OutputsGrow ps qs) :
    OutputsGrow os qs := by
  obtain ⟨hlen, hk⟩ := h
  obtain ⟨hlen', hk'⟩ := h'
  refine ⟨hlen.trans hlen', fun k ho hq => ?_⟩
  have hp : k < ps.length := by omega
  exact ⟨(hk' k hp hq).1.trans (hk k ho hp).1, (hk k ho hp).2.trans (hk' k hp hq).2⟩

theorem outputsGrow_append (os ps : List (List Byte × List Byte)) : OutputsGrow os (os ++ ps) := by
  refine ⟨by simp, fun k h h' => ?_⟩
  rw [List.getElem_append_left h]
  exact ⟨rfl, List.prefix_rfl⟩

theorem outputsGrow_appendToLast (v : Byte) (os : List (List Byte × List Byte)) :
    OutputsGrow os (appendToLast v os) := by
  rcases List.eq_nil_or_concat os with rfl | ⟨ps, o, rfl⟩
  · exact .refl _
  · rw [List.concat_eq_append, appendToLast_concat]
    refine ⟨by simp, fun k h h' => ?_⟩
    rcases Nat.lt_or_ge k ps.length with hk | hk
    · rw [List.getElem_append_left hk, List.getElem_append_left hk]
      exact ⟨rfl, List.prefix_rfl⟩
    · obtain rfl : k = ps.length := by simp at h; omega
      simp

theorem OneWrite.outputsGrow (h : OneWrite i s t) : OutputsGrow s.host.outputs t.host.outputs := by
  cases h with
  | raise k info => rw [State.raise_host]; exact .refl _
  | tables h => rw [h]; exact .refl _
  | writeBit b => rw [writeBit_shape]; exact .refl _
  | flush => rw [flush_shape]; exact .refl _
  | openDst => exact outputsGrow_append _ _
  | writeDst v => exact outputsGrow_appendToLast v _
  | _ => exact .refl _

theorem OneWrite.arc_grows (h : OneWrite i s t) (hi : opensArcW i = false) : s.host.arc <+: t.host.arc := by
  cases h with
  | raise k info => rw [State.raise_host]
  | tables h => rw [h]
  | writeBit b => exact writeBitList_arc s [b]
  | flush => exact flush_arc_prefix s
  | openArcW ho h => rw [hi] at ho; cases ho
  | _ => exact List.prefix_rfl

theorem exec_arc_grows (hi : opensArcW i = false) (h : exec i s = .next t) : s.host.arc <+: t.host.arc :=
  exec_keeps (P := fun u => s.host.arc <+: u.host.arc) (fun _ _ hw hu => hu.trans (hw.arc_grows hi)) (fun _ hu => hu) h
    List.prefix_rfl

/-- AOPENW leaves ARC as it is, or empty (R203). -/
theorem exec_aopenw_arc (h : exec .aopenw s = .next t) : t.host.arc = s.host.arc ∨ t.host.arc = [] := by
  obtain ⟨-, rfl⟩ | ⟨-, -, rfl⟩ | ⟨-, -, -, rfl⟩ | ⟨-, -, -, ht⟩ | ⟨-, ha, -⟩ := exec_cases h
  · exact .inl rfl
  · exact .inl (congrArg HostSide.arc (State.raise_host _ _ _))
  · exact .inl (congrArg HostSide.arc (State.raise_host _ _ _))
  · change (aopenwBody s).outcome = .next t at ht
    cases hok : s.host.arcWOk with
    | true =>
      rw [aopenwBody_of_ok hok] at ht
      exact .inr (Host.Outcome.next.inj ht ▸ rfl)
    | false =>
      rw [aopenwBody_of_refused hok] at ht
      exact .inl (Host.Outcome.next.inj ht ▸ congrArg HostSide.arc (State.raise_host _ _ _))
  · cases ha

/-- Settles O56: no write but that of an open for writing takes a byte away. -/
theorem streamsAreAppendOnly : Obligations.StreamsAreAppendOnly := by
  unfold Obligations.StreamsAreAppendOnly
  intro i s t h
  refine ⟨?_, exec_keeps (P := fun u => OutputsGrow s.host.outputs u.host.outputs)
    (fun _ _ hw hu => hu.trans hw.outputsGrow) (fun _ hu => hu) h (.refl _)⟩
  cases hi : opensArcW i with
  | false => exact .inl (exec_arc_grows hi h)
  | true =>
    cases i with
    | aopenw =>
      obtain e | e := exec_aopenw_arc h
      · exact .inl (e ▸ List.prefix_rfl)
      · exact .inr (.inl ⟨rfl, e⟩)
    | compress n => exact .inr (.inr ⟨n, rfl⟩)
    | _ => cases hi

end Sys2Proof.Machine
end

section
/-! `GetSymbol` on a trie (spec R164): a path to a symbol, a path to a missing child, a path on which the bits run
out. -/

namespace Sys2Proof.Machine

variable {s : State} {tr c : Trie} {path rest : List Bool}

theorem Trie.subtrie_cons (t : Trie) (b : Bool) (p : List Bool) : t.subtrie (b :: p) = (t.child b).subtrie p := by
  cases t with
  | nil => cases b <;> simp [Trie.subtrie, Trie.child]
  | node c0 c1 v => cases b <;> rfl

theorem Trie.subtrie_nil_path (t : Trie) : t.subtrie [] = if t.isNil then none else some t := by
  cases t <;> rfl

theorem Trie.isNil_of_subtrie_none {b : Bool} (h : c.subtrie [b] = none) : c.child b = .nil := by
  rw [Trie.subtrie_cons, Trie.subtrie_nil_path] at h
  cases hc : c.child b with
  | nil => rfl
  | node c0 c1 v => rw [hc] at h; cases h

theorem Trie.isNil_of_subtrie_isSome {b : Bool} (h : (c.subtrie (b :: path)).isSome = true) :
    (c.child b).isNil = false := by
  rw [Trie.subtrie_cons] at h
  cases hc : c.child b with
  | nil => rw [hc] at h; cases path <;> simp [Trie.subtrie] at h
  | node c0 c1 v => rfl

theorem trieWalk_node {c0 c1 : Trie} {v : Option Sym} (h : (c0.isNil && c1.isNil) = false) (s : State) :
    trieWalk (.node c0 c1 v) s = (readBit s).bind fun b s => if b then trieWalk c1 s else trieWalk c0 s := by
  rw [trieWalk.eq_def]
  simp only [h, Bool.false_eq_true, if_false]

/-- A node with a child is no leaf: the walk takes a bit and goes on in the child it leads to (R164). -/
theorem trieWalk_inner {b : Bool} (h : (tr.child b).isNil = false) (s : State) :
    trieWalk tr s = (readBit s).bind fun a s => trieWalk (tr.child a) s := by
  cases tr with
  | nil => cases b <;> cases h
  | node c0 c1 v =>
    have hinner : (c0.isNil && c1.isNil) = false := by
      cases b <;>
      · simp only [Trie.child, if_true, if_false, Bool.false_eq_true] at h
        simp [h]
    rw [trieWalk_node hinner]
    refine congrArg (readBit s).bind (funext fun a => funext fun t => ?_)
    cases a <;> rfl

/-- A path to an inner node takes its bits and leaves the walk at that node (R164). -/
theorem trieWalk_to_inner {b : Bool} (hok : ReaderOk s) (hsub : tr.subtrie path = some c)
    (hc : (c.subtrie [b]).isSome = true) (hp : s.pending = path ++ rest) :
    ∃ t, trieWalk tr s = trieWalk c t ∧ t.pending = rest ∧ ReaderOk t ∧
      t = { s with rbuf := t.rbuf, rcnt := t.rcnt, host.arcPos := t.host.arcPos } := by
  induction path generalizing tr s with
  | nil =>
    rw [Trie.subtrie_nil_path] at hsub
    split at hsub
    · cases hsub
    · obtain rfl := Option.some.inj hsub
      exact ⟨s, rfl, hp, hok, rfl⟩
  | cons a path ih =>
    have hchild : (tr.child a).isNil = false := Trie.isNil_of_subtrie_isSome (path := path) (by rw [hsub]; rfl)
    obtain ⟨u, hu, hpu, hoku, hsh⟩ := readBit_spec hok hp
    rw [Trie.subtrie_cons] at hsub
    obtain ⟨t, ht, hpt, hokt, hsht⟩ := ih hoku hsub hpu
    exact ⟨t, by rw [trieWalk_inner hchild, hu, Run.bind_done, ht], hpt, hokt, by rw [hsht, hsh]⟩

/-- A bit to a missing child is taken, and then MalformedCode(5) (R164). -/
theorem trieWalk_missing {b b' : Bool} (hok : ReaderOk s) (hsub : tr.subtrie path = some c)
    (hc : (c.subtrie [b']).isSome = true) (hmiss : c.subtrie [b] = none) (hp : s.pending = path ++ b :: rest) :
    ∃ t, trieWalk tr s = .raise .malformedCode 5#16 t ∧ t.pending = rest ∧ ReaderOk t ∧
      t = { s with rbuf := t.rbuf, rcnt := t.rcnt, host.arcPos := t.host.arcPos } := by
  obtain ⟨u, hu, hpu, hoku, hsh⟩ := trieWalk_to_inner hok hsub hc hp
  obtain ⟨t, ht, hpt, hokt, hsht⟩ := readBit_spec hoku hpu
  refine ⟨t, ?_, hpt, hokt, by rw [hsht, hsh]⟩
  rw [hu, trieWalk_inner (Trie.isNil_of_subtrie_isSome hc), ht, Run.bind_done, Trie.isNil_of_subtrie_none hmiss]
  rfl

/-- Where the bits run out at an inner node they are all taken, and then UnexpectedEndOfStream (R164, R102). -/
theorem trieWalk_end {b : Bool} (hok : ReaderOk s) (hsub : tr.subtrie path = some c)
    (hc : (c.subtrie [b]).isSome = true) (hp : s.pending = path) :
    ∃ t, trieWalk tr s = .raise .unexpectedEndOfStream 0#16 t ∧ t.pending = [] ∧ ReaderOk t ∧
      t = { s with rbuf := t.rbuf, rcnt := t.rcnt, host.arcPos := t.host.arcPos } := by
  obtain ⟨t, ht, hpt, hokt, hsh⟩ := trieWalk_to_inner hok hsub hc (rest := []) (by rw [hp, List.append_nil])
  refine ⟨t, ?_, hpt, hokt, hsh⟩
  rw [ht, trieWalk_inner (Trie.isNil_of_subtrie_isSome hc), readBit_end hpt, Run.bind_raise]

theorem Trie.isNil_of_lookup {x : Sym} (h : tr.lookup path = some x) : tr.isNil = false := by
  cases tr with
  | nil => rw [Trie.lookup_nil] at h; cases h
  | node c0 c1 v => rfl

theorem Trie.isNil_of_subtrie (h : tr.subtrie path = some c) : tr.isNil = false := by
  cases tr with
  | nil => cases path <;> cases h
  | node c0 c1 v => rfl

theorem getSymbol_eq (h : s.tn.isNil = false) : getSymbol s = trieWalk s.tn s := by
  rw [getSymbol, h]
  rfl

/-- `GetSymbol` on the bits of a path to a symbol takes them and answers the symbol (R164). -/
theorem getSymbol_path {x : Sym} (hok : ReaderOk s) (hprop : s.tn.proper = true) (hl : s.tn.lookup path = some x)
    (hp : s.pending = path ++ rest) :
    ∃ t, getSymbol s = .done x t ∧ t.pending = rest ∧ ReaderOk t ∧
      t = { s with rbuf := t.rbuf, rcnt := t.rcnt, host.arcPos := t.host.arcPos } := by
  rw [getSymbol_eq (Trie.isNil_of_lookup hl)]
  exact trieWalk_path hok hprop hl hp

/-- `GetSymbol` on the trie of a root alone (R164). -/
theorem getSymbol_root (h : s.tn = .node .nil .nil none) : getSymbol s = .raise .malformedCode 6#16 s := by
  rw [getSymbol, h]
  rfl

theorem exec_getsym_eq (h : Ready s) (hv : s.flag .trValid = true) (ho : s.flag .arOpen = true) :
    exec .getsym s = ((getSymbol s).bind fun x s => .done () (s.setRes x)).outcome :=
  exec_of_ready h rfl (show (s.flag .trValid && s.flag .arOpen) = true by rw [hv, ho]; rfl)

/-- Settles O41: the walk takes the path, and GETSYM writes RES. -/
theorem getsymDecodesPath : Obligations.GetsymDecodesPath := by
  unfold Obligations.GetsymDecodesPath
  intro path rest x s h hv ho hok hprop hl hp
  obtain ⟨u, hu, hpu, hoku, hsh⟩ := getSymbol_path hok hprop hl hp
  refine ⟨u.setRes x, by rw [exec_getsym_eq h hv ho, hu]; rfl, rfl, hpu, hoku, ?_⟩
  rw [hsh]
  rfl

/-- A stretch that reads and then faults, as the command's end: what the fault adds to the state. -/
theorem raise_after_read {t : State} (h : Ready s) (k : FaultKind) (info : BitVec 16)
    (hsh : t = { s with rbuf := t.rbuf, rcnt := t.rcnt, host.arcPos := t.host.arcPos }) :
    t.raise k info = { s with
      rbuf := t.rbuf, rcnt := t.rcnt, fault := k.code, finfo := info, status := s.status ||| 1#16,
      host.arcPos := t.host.arcPos } := by
  rw [State.raise_eq (h.of_status (by rw [hsh])), hsh]

/-- Settles O42: the three ends of the walk without a symbol. -/
theorem getsymFaults : Obligations.GetsymFaults := by
  unfold Obligations.GetsymFaults
  intro s h hv ho hok
  have hrun := exec_getsym_eq h hv ho
  refine ⟨fun hroot => ?_, fun path rest b c _ hsub hc hmiss hp => ?_, fun path c b _ hsub hc hp => ?_⟩
  · rw [hrun, getSymbol_root hroot, Run.bind_raise, Run.outcome_raise]
    exact congrArg Host.Outcome.next (State.raise_eq h _ _)
  · obtain ⟨t, ht, hpt, -, hsh⟩ := trieWalk_missing hok hsub hc hmiss hp
    rw [← getSymbol_eq (Trie.isNil_of_subtrie hsub)] at ht
    have heq := raise_after_read h .malformedCode 5#16 hsh
    refine ⟨_, by rw [hrun, ht, Run.bind_raise, Run.outcome_raise], ?_, ?_⟩
    · rw [heq, ← hpt, hsh]; rfl
    · rw [heq]; rfl
  · obtain ⟨t, ht, hpt, -, hsh⟩ := trieWalk_end hok hsub hc hp
    rw [← getSymbol_eq (Trie.isNil_of_subtrie hsub)] at ht
    have heq := raise_after_read h .unexpectedEndOfStream 0#16 hsh
    refine ⟨_, by rw [hrun, ht, Run.bind_raise, Run.outcome_raise], ?_, ?_⟩
    · rw [heq, ← hpt, hsh]; rfl
    · rw [heq]; rfl

/-! ### Symbols out of their place (spec R184 to R186, R236) -/

theorem nameLoop_control {x : Sym} {t : State} (fuel : Nat) (h : getSymbol s = .done x t) (hx : 256 ≤ x.toNat) :
    nameLoop (fuel + 1) s = .raise .framingError 1#16 t := by
  simp only [nameLoop, h, Run.bind_done, if_pos (show x.toNat ≥ 256 from hx)]

theorem nameFull_of_length {m : Nat} (hm : s.nameMax = some m) (hlen : s.name.length = m) : s.nameFull = true := by
  rw [State.nameFull, hm]
  exact beq_iff_eq.mpr hlen

theorem nameLoop_full {x : Sym} {t : State} (fuel : Nat) (h : getSymbol s = .done x t) (hx : x.toNat < 256)
    (hfull : t.nameFull = true) : nameLoop (fuel + 1) s = .raise .framingError 4#16 t := by
  simp only [nameLoop, h, Run.bind_done, if_neg (show ¬ x.toNat ≥ 256 by omega), hfull, if_true]

theorem contentLoop_control {x : Sym} {t : State} (fuel : Nat) (h : getSymbol s = .done x t)
    (hx : x.toNat = 257 ∨ x.toNat = 258) : contentLoop (fuel + 1) s = .raise .framingError 2#16 t := by
  simp only [contentLoop, h, Run.bind_done, if_neg (show ¬ x.toNat < 256 by omega),
    if_neg (show ¬ x.toNat = Config.filenameEnd by rw [Config.filenameEnd]; omega)]

theorem trailer_of_le {x : Sym} {t : State} (h : getSymbol s = .done x t) (hx : x.toNat ≤ 256) :
    trailer s = .raise .framingError 3#16 t := by
  have hbad : x.toNat ≠ Config.oneMoreFile ∧ x.toNat ≠ Config.archiveEnd := by
    rw [Config.oneMoreFile, Config.archiveEnd]; omega
  simp only [trailer, h, Run.bind_done, if_pos hbad]

/-- Settles O46: the symbol is taken, and each phase looks at it. -/
theorem framingViolationsFault : Obligations.FramingViolationsFault := by
  unfold Obligations.FramingViolationsFault
  intro x path rest fuel s h hok hprop hl hp
  obtain ⟨u, hu, hpu, -, hsh⟩ := getSymbol_path hok hprop hl hp
  have hraised : ∀ info : BitVec 16, ∃ t, (Run.raise .framingError info u : Run Unit) = .raised t ∧ t.fault = 4#4 ∧
      t.finfo = info ∧ t.pending = rest := by
    intro info
    refine ⟨_, rfl, ?_⟩
    rw [State.raise_eq (h.of_status (by rw [hsh]))]
    exact ⟨rfl, rfl, hpu⟩
  refine ⟨fun hx => ?_, fun hx hm => ?_, fun hx => ?_, fun hx => ?_⟩
  · rw [nameLoop_control fuel hu hx]
    exact hraised _
  · rw [nameLoop_full fuel hu hx (nameFull_of_length (by rw [hsh]; exact hm) (by rw [hsh]))]
    exact hraised _
  · rw [contentLoop_control fuel hu hx]
    exact hraised _
  · obtain ⟨t, ht, hspec⟩ := hraised 3#16
    exact ⟨t, by rw [trailer_of_le hu hx]; exact congrArg Run.raised (Run.raised.inj ht), hspec⟩

end Sys2Proof.Machine
end

section
/-! SCAN (spec R120, R121): the counts, and where it leaves SRC. -/

namespace Sys2Proof.Machine

variable {s t : State}

/-- SRC is read to its end by a content loop whose body leaves SRC alone (R190). -/
theorem forSrc_srcPos {body : Byte → State → Run Unit}
    (hbody : ∀ x s t, body x s = .done () t → t.srcContent = s.srcContent ∧ t.host.srcPos = s.host.srcPos)
    (h : forSrc body s.srcRest.length s = .done () t) :
    t.srcContent = s.srcContent ∧ t.host.srcPos = s.host.srcPos + s.srcRest.length := by
  generalize hl : s.srcRest = l at h ⊢
  induction l generalizing s with
  | nil =>
    obtain ⟨-, rfl⟩ := Run.done.inj h
    exact ⟨rfl, rfl⟩
  | cons x xs ih =>
    rw [List.length_cons, forSrc, (memReadSrc_cons hl).1] at h
    obtain ⟨_, u, hu, ht⟩ := Run.bind_eq_done h
    obtain ⟨hcontent, hpos⟩ := hbody x _ u hu
    have hrest : u.srcRest = xs := by
      rw [State.srcRest, hcontent, hpos]
      exact (memReadSrc_cons hl).2
    obtain ⟨hc, hp⟩ := ih hrest ht
    refine ⟨hc.trans hcontent, ?_⟩
    rw [hp, hpos, List.length_cons]
    dsimp only
    omega

theorem srcRest_eq_nil_of_srcPos (hc : t.srcContent = s.srcContent)
    (hp : t.host.srcPos = s.host.srcPos + s.srcRest.length) : t.srcRest = [] := by
  rw [State.srcRest, List.drop_eq_nil_iff, hc, hp, State.srcRest, List.length_drop]
  omega

/-- `Count` writes FREQ only, where it completes (R120). -/
theorem count_done {x : Nat} (h : count x s = .done () t) : t = { s with freq := t.freq } := by
  obtain ⟨-, e⟩ | ⟨-, e⟩ := count_cases x s
  · rw [e] at h; cases h
  · rw [e] at h; cases h; rfl

theorem countAll_done {xs : List Byte} (h : countAll xs s = .done () t) : t = { s with freq := t.freq } := by
  induction xs generalizing s with
  | nil => cases h; rfl
  | cons x xs ih =>
    obtain ⟨_, u, hu, ht⟩ := Run.bind_eq_done h
    rw [ih ht, count_done hu]

theorem scanBody_srcPos (h : scanBody s = .done () t) :
    t.srcContent = s.srcContent ∧ t.host.srcPos = s.host.srcPos + s.srcRest.length := by
  obtain ⟨_, s1, h1, h⟩ := Run.bind_eq_done h
  obtain ⟨_, s2, h2, h⟩ := Run.bind_eq_done h
  obtain ⟨_, s3, h3, h⟩ := Run.bind_eq_done h
  obtain ⟨_, s4, h4, h⟩ := Run.bind_eq_done h
  obtain ⟨_, s5, h5, h⟩ := Run.bind_eq_done h
  cases h
  obtain ⟨hc, hp⟩ := forSrc_srcPos (fun x s t h => by rw [count_done h]; exact ⟨rfl, rfl⟩) h2
  have hstart : s1.srcContent = s.srcContent ∧ s1.host.srcPos = s.host.srcPos := by
    rw [countAll_done h1, State.clearFlags_shape]
    exact ⟨rfl, rfl⟩
  have hend : s5.srcContent = s2.srcContent ∧ s5.host.srcPos = s2.host.srcPos := by
    rw [count_done h5, count_done h4, count_done h3]
    exact ⟨rfl, rfl⟩
  have hrest : s1.srcRest = s.srcRest := by rw [State.srcRest, hstart.1, hstart.2, ← State.srcRest]
  exact ⟨hend.1.trans (hc.trans hstart.1), hend.2.trans (by rw [hp, hstart.2, hrest])⟩

theorem count_blockSymbols_byte (name content : List Byte) (b : Byte) :
    (blockSymbols name content).count b.toNat = name.count b + content.count b := by
  have hctl : [Config.filenameEnd, Config.oneMoreFile, Config.archiveEnd].count b.toNat = 0 := by
    have := b.isLt
    exact List.count_eq_zero_of_not_mem (by simp [Config.filenameEnd, Config.oneMoreFile, Config.archiveEnd]; omega)
  rw [blockSymbols, List.count_append, hctl, List.count_map_of_injective _ _ (fun _ _ => BitVec.eq_of_toNat_eq),
    List.count_append, Nat.add_zero]

theorem count_blockSymbols_control (name content : List Byte) {x : Nat} (hx : x = 256 ∨ x = 257 ∨ x = 258) :
    (blockSymbols name content).count x = 1 := by
  have hbyte : ((name ++ content).map BitVec.toNat).count x = 0 := by
    refine List.count_eq_zero_of_not_mem fun hmem => ?_
    obtain ⟨b, -, rfl⟩ := List.mem_map.mp hmem
    have := b.isLt
    omega
  rw [blockSymbols, List.count_append, hbyte]
  rcases hx with rfl | rfl | rfl <;> decide

/-- The effect of SCAN on STATUS (R120, R40). -/
theorem status_scanned (s : State) :
    ((s.clearFlags chainFromFreq).setFlag .fValid true).status = (s.status &&& 0xF81F#16) ||| 0x0020#16 := by
  show statusWith (s.clearFlags chainFromFreq).status .fValid true = _
  rw [status_clearFlags, show keepMask chainFromFreq = 0xF81F#16 by decide]
  rfl

/-- Settles O24: each counter holds the number of occurrences of its symbol among those SCAN counts. -/
theorem scanCounts : Obligations.ScanCounts := by
  unfold Obligations.ScanCounts
  intro s h ho hlen
  obtain ⟨t, ht, hsh⟩ := scanBody_spec hlen
  obtain ⟨hc, hp⟩ := scanBody_srcPos ht
  have hfreq : ∀ x, (t.freqAt x).toNat = (blockSymbols s.name s.srcRest).count x := fun x => by
    rw [hsh]
    refine (tget_tally (noOverflow_blockSymbols hlen) x).trans ?_
    rw [tget_replicate_default, BitVec.toNat_ofNat, Nat.zero_mod, Nat.zero_add]
  have hctl : ∀ x, x = 256 ∨ x = 257 ∨ x = 258 → t.freqAt x = 1#64 := fun x hx =>
    BitVec.eq_of_toNat_eq ((hfreq x).trans (count_blockSymbols_control _ _ hx))
  refine ⟨t, ?_, fun b => ?_, hctl 256 (.inl rfl), hctl 257 (.inr (.inl rfl)), hctl 258 (.inr (.inr rfl)),
    srcRest_eq_nil_of_srcPos hc hp, ?_⟩
  · rw [exec_of_ready (i := .scan) h rfl ho]
    exact congrArg Run.outcome ht
  · refine BitVec.eq_of_toNat_eq ?_
    rw [hfreq, count_blockSymbols_byte, BitVec.toNat_ofNat, Nat.mod_eq_of_lt]
    have := List.count_le_length (a := b) (l := s.name)
    have := List.count_le_length (a := b) (l := s.srcRest)
    omega
  · rw [hsh] at hp ⊢
    dsimp only at hp ⊢
    rw [hp, status_scanned]

end Sys2Proof.Machine
end

section
/-! What a read of bits changes (spec R102, R103), whatever the reader's buffer holds. -/

namespace Sys2Proof.Machine

variable {s t : State}

/-- Only the reader and ARC's cursor differ. -/
def ReaderMoved (s t : State) : Prop :=
  t = { s with rbuf := t.rbuf, rcnt := t.rcnt, host.arcPos := t.host.arcPos }

theorem ReaderMoved.refl (s : State) : ReaderMoved s s := rfl

theorem ReaderMoved.trans {u : State} (h : ReaderMoved s t) (h' : ReaderMoved t u) : ReaderMoved s u := by
  rw [ReaderMoved] at h h' ⊢
  rw [h', h]

/-- A read that the archive's end cuts short. -/
def CutShort (s t : State) : Prop := ∃ u, ReaderMoved s u ∧ t = u.raise .unexpectedEndOfStream 0#16

theorem CutShort.after {u : State} (h' : CutShort t u) (h : ReaderMoved s t) : CutShort s u := by
  obtain ⟨v, hv, rfl⟩ := h'
  exact ⟨v, h.trans hv, rfl⟩

theorem readBit_moves (s : State) : (readBit s).Ends (ReaderMoved s) (CutShort s) := by
  unfold readBit
  split
  · rcases Nat.lt_or_ge s.host.arcPos s.host.arc.length with hlt | hge
    · rw [memReadArc_some hlt]
      exact .done rfl
    · rw [memReadArc_eod hge]
      exact .raise ⟨s, .refl s, rfl⟩
  · exact .done rfl

theorem readBits_moves (n : Nat) (s : State) : (readBits n s).Ends (ReaderMoved s) (CutShort s) := by
  induction n generalizing s with
  | zero => exact .done (.refl s)
  | succ n ih =>
    refine (readBit_moves s).bind fun b t ht => ?_
    refine ((ih t).imp (fun u hu => ht.trans hu) fun u hu => hu.after ht).bind fun v u hu => ?_
    exact .done hu

theorem Run.Ends.of_done {α : Type} {D R : State → Prop} {r : Run α} {a : α} (h : r.Ends D R) (hr : r = .done a t) :
    D t := by
  subst hr
  cases h with
  | done h => exact h

theorem readBits_lt {n v : Nat} (h : readBits n s = .done v t) : v < 2 ^ n := by
  induction n generalizing s v with
  | zero => cases h; decide
  | succ n ih =>
    obtain ⟨b, u, -, h⟩ := Run.bind_eq_done h
    obtain ⟨w, x, hw, h⟩ := Run.bind_eq_done h
    cases h
    have := ih hw
    have := b.toNat_lt
    rw [Nat.pow_succ]
    omega

end Sys2Proof.Machine
end

section
/-! RHDR (spec R160, R161): a header field by field, up to a fault or its end. -/

namespace Sys2Proof.Machine

variable {s : State} {rest : List Bool}

/-- The status of a header being read (R40). -/
theorem status_cleared_header (s : State) : (s.clearFlags chainFromHeader).status = s.status &&& 0xF8FF#16 := by
  rw [status_clearFlags, show keepMask chainFromHeader = 0xF8FF#16 by decide]

/-- RHDR from its counts on (R160). -/
def rhdrCountsPhase (s : State) : Run Unit :=
  (rhdrCounts 0 Config.lmax { s with cntl := Vector.replicate 258 0#9, maxl := 0#9 }).andThen fun s =>
    .done () (s.setFlag .hValid true)

/-- What RHDR has changed before it completes or faults. -/
def HeaderPart (s t : State) : Prop :=
  t = { s with
    rbuf := t.rbuf, rcnt := t.rcnt, hn := t.hn, ord := t.ord, cntl := t.cntl, maxl := t.maxl,
    status := s.status &&& 0xF8FF#16, host.arcPos := t.host.arcPos }

theorem HeaderPart.setFlag {t : State} (h : HeaderPart s t) :
    t.setFlag .hValid true = { s with
      rbuf := t.rbuf, rcnt := t.rcnt, hn := t.hn, ord := t.ord, cntl := t.cntl, maxl := t.maxl,
      status := (s.status &&& 0xF8FF#16) ||| 0x0100#16, host.arcPos := t.host.arcPos } := by
  rw [HeaderPart] at h
  conv_lhs => rw [h]
  rfl

/-- The size field is read (R160). -/
theorem rhdrBody_of_size {n : Nat} (h : ReaderOk s) (hn : n ≤ 511) (hp : s.pending = valueBits n 9 ++ rest) :
    ∃ u, rhdrBody s = (rhdrSymbols 0 n u).andThen rhdrCountsPhase ∧ u.hn.toNat = n ∧ u.pending = rest ∧ ReaderOk u ∧
      HeaderPart s u := by
  obtain ⟨u, hu, hpu, hok, hsh⟩ := readBits_valueBits (v := n) (n := Config.symW)
    (s := s.clearFlags chainFromHeader) (h.clearFlags _) (by rw [Config.symW]; omega)
    (by rw [State.pending_clearFlags]; exact hp)
  refine ⟨{ u with hn := BitVec.ofNat 10 n }, by rw [rhdrBody, hu, Run.bind_done]; rfl, ?_, hpu, hok, ?_⟩
  · exact (BitVec.toNat_ofNat _ _).trans (Nat.mod_eq_of_lt (by omega))
  · rw [HeaderPart, hsh, State.clearFlags_shape, status_cleared_header]

theorem rhdrSymbols_add (i k m : Nat) (s : State) :
    rhdrSymbols i (k + m) s = (rhdrSymbols i k s).andThen (rhdrSymbols (i + k) m) := by
  induction k generalizing i s with
  | zero => rw [Nat.zero_add]; rfl
  | succ k ih =>
    rw [Nat.add_right_comm, rhdrSymbols, rhdrSymbols]
    refine Eq.trans ?_ (Run.bind_assoc _ _ _).symm
    refine congrArg (readBits Config.symW s).bind (funext fun x => funext fun t => ?_)
    split
    · rfl
    · rw [ih, Nat.add_assoc, Nat.add_comm 1]
      rfl

/-- The size field and some of the symbols are read (R160). -/
theorem rhdrBody_of_symbols {n : Nat} {xs : List Nat} (h : ReaderOk s) (hn : n ≤ 511) (hx : ∀ x ∈ xs, x ≤ 258)
    (hlen : xs.length ≤ n) (hp : s.pending = fields9 (n :: xs) ++ rest) :
    ∃ u, rhdrBody s = (rhdrSymbols xs.length (n - xs.length) u).andThen rhdrCountsPhase ∧ u.hn.toNat = n ∧
      u.ord.toList.take xs.length = xs.map (BitVec.ofNat 9) ∧ u.pending = rest ∧ ReaderOk u ∧ HeaderPart s u := by
  rw [fields9, List.flatMap_cons, List.append_assoc] at hp
  obtain ⟨v, hv, hvn, hpv, hokv, hshv⟩ := rhdrBody_of_size h hn hp
  obtain ⟨u, hu, hord, hpu, hoku, hsh⟩ := rhdrSymbols_spec xs (i := 0) hokv (fun x hx' => Nat.lt_succ_of_le (hx x hx'))
    (by omega) hpv
  refine ⟨u, ?_, by rw [hsh, hvn], by simpa using hord, hpu, hoku, ?_⟩
  · have hsplit := rhdrSymbols_add 0 xs.length (n - xs.length) v
    rw [Nat.add_sub_cancel' hlen, hu, Run.andThen_done, Nat.zero_add] at hsplit
    rw [hv, hsplit]
  · rw [HeaderPart, hsh, hshv]

/-- What RHDR does with a count it has read (R160). -/
def rhdrCount (sum room c : Nat) (s : State) : Run Unit :=
  let s := { s with cntl := tset s.cntl (s.maxl.toNat - 1) (BitVec.ofNat 9 c) }
  if sum + c > s.hn.toNat then .raise .malformedCode 2#16 s else rhdrCounts (sum + c) room s

theorem rhdrCounts_of_lt {sum : Nat} (h : sum < s.hn.toNat) (room : Nat) :
    rhdrCounts sum (room + 1) s = (readBits Config.symW { s with maxl := s.maxl + 1#9 }).bind (rhdrCount sum room) := by
  rw [rhdrCounts, if_pos h]
  rfl

theorem rhdrCounts_of_not_lt {sum : Nat} (h : ¬ sum < s.hn.toNat) (room : Nat) :
    rhdrCounts sum room s = .done () s := by
  cases room <;> rw [rhdrCounts, if_neg h]

/-- The counts the reader does not come to are those before (R160). -/
theorem rhdrCounts_beyond {sum room : Nat} {s t : State} (h : rhdrCounts sum room s = .done () t)
    (hroom : s.maxl.toNat + room = 258) :
    s.maxl.toNat ≤ t.maxl.toNat ∧ ∀ i, t.maxl.toNat ≤ i → tget t.cntl i 0#9 = tget s.cntl i 0#9 := by
  induction room generalizing sum s with
  | zero =>
    rw [rhdrCounts] at h
    split at h
    · cases h
    · cases h
      exact ⟨le_rfl, fun _ _ => rfl⟩
  | succ room ih =>
    by_cases hsum : sum < s.hn.toNat
    · rw [rhdrCounts_of_lt hsum] at h
      obtain ⟨c, u, hu, h⟩ := Run.bind_eq_done h
      have hsh : u = _ := (readBits_moves _ _).of_done hu
      have hum : u.maxl.toNat = s.maxl.toNat + 1 := by rw [hsh]; dsimp only; bv_omega
      rw [rhdrCount] at h
      dsimp only at h
      split at h
      · cases h
      · obtain ⟨hle, hrest⟩ := ih h (by dsimp only; omega)
        dsimp only at hle hrest
        refine ⟨by omega, fun i hi => ?_⟩
        rw [hrest i hi, tget_tset_ne _ (by omega), hsh]
    · rw [rhdrCounts_of_not_lt hsum] at h
      cases h
      exact ⟨le_rfl, fun _ _ => rfl⟩

/-- Some of the counts are read, and the running sum has not reached the size yet (R160). -/
theorem rhdrCounts_of_counts {cs : List Nat} {sum room : Nat} {s : State} (h : ReaderOk s)
    (hsum : sum + cs.sum < s.hn.toNat) (hroom : cs.length ≤ room) (hhn : s.hn.toNat ≤ 511)
    (hp : s.pending = fields9 cs ++ rest) :
    ∃ t, rhdrCounts sum room s = rhdrCounts (sum + cs.sum) (room - cs.length) t ∧ t.hn = s.hn ∧ t.pending = rest ∧
      ReaderOk t ∧ t = { s with
        rbuf := t.rbuf, rcnt := t.rcnt, cntl := t.cntl, maxl := t.maxl, host.arcPos := t.host.arcPos } := by
  induction cs generalizing sum room s with
  | nil => exact ⟨s, rfl, rfl, hp, h, rfl⟩
  | cons c cs ih =>
    rw [List.sum_cons] at hsum
    obtain ⟨m, rfl⟩ : ∃ m, room = m + 1 := ⟨room - 1, by simp at hroom; omega⟩
    rw [fields9, List.flatMap_cons, List.append_assoc] at hp
    obtain ⟨u, hu, hpu, hok, hsh⟩ := readBits_valueBits (v := c) (n := Config.symW)
      (s := { s with maxl := s.maxl + 1#9 }) h (by simp only [Config.symW]; omega) hp
    have huh : u.hn = s.hn := by rw [hsh]
    obtain ⟨t, ht, hth, hpt, hok', hsh'⟩ := ih (sum := sum + c) (room := m)
      (s := { u with cntl := tset u.cntl (u.maxl.toNat - 1) (BitVec.ofNat 9 c) }) hok
      (by dsimp only; rw [huh]; omega) (by simpa using hroom) (by dsimp only; rw [huh]; exact hhn) hpu
    refine ⟨t, ?_, hth.trans huh, hpt, hok', by rw [hsh', hsh]⟩
    rw [rhdrCounts_of_lt (by omega), hu, Run.bind_done, rhdrCount,
      if_neg (show ¬ sum + c > u.hn.toNat by rw [huh]; omega), ht, List.sum_cons, List.length_cons, Nat.add_assoc,
      Nat.add_sub_add_right]

/-- The size field, the symbols and some of the counts are read, and more counts are needed (R160). -/
theorem rhdrBody_of_counts {n : Nat} {xs cs : List Nat} (h : ReaderOk s) (hn : n ≤ 511) (hx : ∀ x ∈ xs, x ≤ 258)
    (hlen : xs.length = n) (hcs : cs.length ≤ 258) (hsum : cs.sum < n)
    (hp : s.pending = fields9 (n :: (xs ++ cs)) ++ rest) :
    ∃ u, rhdrBody s = (rhdrCounts cs.sum (258 - cs.length) u).andThen (fun s => .done () (s.setFlag .hValid true)) ∧
      u.hn.toNat = n ∧ u.pending = rest ∧ ReaderOk u ∧ HeaderPart s u := by
  have hp' : s.pending = fields9 (n :: xs) ++ (fields9 cs ++ rest) := by rw [hp]; simp [fields9]
  obtain ⟨v, hv, hvn, -, hpv, hokv, hshv⟩ := rhdrBody_of_symbols h hn hx hlen.le hp'
  obtain ⟨u, hu, huh, hpu, hoku, hsh⟩ := rhdrCounts_of_counts (cs := cs) (sum := 0) (room := 258)
    (s := { v with cntl := Vector.replicate 258 0#9, maxl := 0#9 }) hokv (by dsimp only; omega) hcs
    (by dsimp only; omega) hpv
  refine ⟨u, ?_, by rw [huh]; exact hvn, hpu, hoku, ?_⟩
  · rw [hv, hlen, Nat.sub_self]
    show rhdrCountsPhase v = _
    rw [rhdrCountsPhase, Config.lmax, hu, Nat.zero_add]
  · rw [HeaderPart, hsh, hshv]

/-- Settles O37: the size and the symbols, then the counts up to the one that completes the sum. -/
theorem rhdrReadsHeader : Obligations.RhdrReadsHeader := by
  unfold Obligations.RhdrReadsHeader
  intro b rest s h ho hok hlen hsyms hcounts hsum hlast hp
  have hp' : s.pending = fields9 (b.syms.length :: b.syms) ++ (fields9 b.counts ++ rest) := by
    rw [hp, b.headerBits_eq]; simp [fields9, Config.symW]
  obtain ⟨v, hv, hvn, hord, hpv, hokv, hshv⟩ := rhdrBody_of_symbols hok hlen hsyms le_rfl hp'
  obtain ⟨u, hu, hmaxl, hcntl, hpu, hoku, hshu⟩ := rhdrCounts_spec b.counts (sum := 0) (room := Config.lmax)
    (s := { v with cntl := Vector.replicate 258 0#9, maxl := 0#9 }) hokv (by dsimp only; omega) hlast hcounts rfl
    (by dsimp only; omega) hpv
  have hrun : exec .rhdr s = .next (u.setFlag .hValid true) := by
    rw [exec_of_ready (i := .rhdr) h rfl ho]
    show (rhdrBody s).outcome = _
    rw [hv, Nat.sub_self]
    show (rhdrCountsPhase v).outcome = _
    rw [rhdrCountsPhase, hu]
    rfl
  have huo : u.ord = v.ord := by rw [hshu]
  have hcl : ∀ c ∈ b.counts, c < 2 ^ 9 := fun c hc => by
    have := List.single_le_sum (fun _ _ => Nat.zero_le _) c hc
    omega
  simp only [BitVec.toNat_ofNat, Nat.zero_mod, Nat.zero_add, List.take_zero, List.nil_append] at hmaxl hcntl
  have hcnt := congrArg (List.map BitVec.toNat) hcntl
  rw [map_toNat_map_ofNat hcl] at hcnt
  have hsym := congrArg (List.map BitVec.toNat) hord
  rw [map_toNat_map_ofNat fun x hx => (hsyms x hx).trans_lt (by decide)] at hsym
  refine ⟨_, hrun, by rw [State.setFlag_hn, hshu]; exact hvn, fun i hi => ?_, hmaxl, fun L hL => ?_, hpu, hoku, ?_⟩
  · rw [State.ordAt, State.setFlag_ord, huo]
    exact tget_of_map_take hsym hi _
  · rw [State.cntlAt, State.setFlag_cntl, List.getD_eq_getElem?_getD]
    by_cases hi : L - 1 < b.counts.length
    · rw [List.getElem?_eq_getElem hi]
      exact tget_of_map_take hcnt hi _
    · rw [List.getElem?_eq_none (by omega), (rhdrCounts_beyond hu rfl).2 _ (by omega), tget_replicate_default]
      rfl
  · exact HeaderPart.setFlag (by rw [HeaderPart, hshu, hshv])

end Sys2Proof.Machine
end

section
/-! RHDR's faults (spec R161). -/

namespace Sys2Proof.Machine

variable {s : State} {rest : List Bool}

/-- RHDR takes the bits before `left`, then records the fault. -/
def RhdrFaults (s : State) (k : FaultKind) (info : BitVec 16) (left : List Bool) : Prop :=
  ∃ t, rhdrBody s = .raise k info t ∧ t.pending = left ∧ HeaderPart s t

theorem RhdrFaults.exec {k : FaultKind} {info : BitVec 16} {left : List Bool} (h : Ready s)
    (ho : s.flag .arOpen = true) (hf : RhdrFaults s k info left) :
    ∃ t, exec .rhdr s = .next t ∧ t.pending = left ∧
      t = { s with
        rbuf := t.rbuf, rcnt := t.rcnt, hn := t.hn, ord := t.ord, cntl := t.cntl, maxl := t.maxl, fault := k.code,
        finfo := info, status := (s.status &&& 0xF8FF#16) ||| 1#16, host.arcPos := t.host.arcPos } := by
  obtain ⟨t, ht, hp, hpart⟩ := hf
  have hready : Ready t := by
    rw [Ready, State.flag_congr (s := t) (t := s.clearFlags chainFromHeader) (by rw [hpart, status_cleared_header]),
      State.flag_clearFlags, h]
    rfl
  have hstatus : t.status = s.status &&& 0xF8FF#16 := by rw [hpart]
  refine ⟨t.raise k info, ?_, ?_, ?_⟩
  · rw [exec_of_ready (i := .rhdr) h rfl ho]
    exact congrArg Run.outcome ht
  · rw [State.raise_eq hready]
    exact hp
  · rw [State.raise_eq hready, hstatus]
    rw [HeaderPart] at hpart
    dsimp only
    conv_lhs => rw [hpart]

/-- A symbol field above 258 (R161). -/
theorem rhdrFaults_symbol {n x : Nat} {xs : List Nat} (h : ReaderOk s) (hn : n ≤ 511) (hx : ∀ x ∈ xs, x ≤ 258)
    (hlen : xs.length < n) (hlow : 258 < x) (hhigh : x ≤ 511) (hp : s.pending = fields9 (n :: (xs ++ [x])) ++ rest) :
    RhdrFaults s .malformedCode 1#16 rest := by
  have hp' : s.pending = fields9 (n :: xs) ++ (valueBits x 9 ++ rest) := by
    rw [hp]; simp [fields9, Config.symW]
  obtain ⟨u, hu, -, -, hpu, hoku, hpart⟩ := rhdrBody_of_symbols h hn hx hlen.le hp'
  obtain ⟨t, ht, hpt, -, hsh⟩ := readBits_valueBits hoku (by omega) hpu
  obtain ⟨m, hm⟩ : ∃ m, n - xs.length = m + 1 := ⟨n - xs.length - 1, by omega⟩
  refine ⟨t, ?_, hpt, by rw [HeaderPart, hsh, hpart]⟩
  rw [hu, hm, rhdrSymbols, Config.symW, ht, Run.bind_done, if_pos hlow]
  rfl

/-- A count that takes the running sum past the size (R161). -/
theorem rhdrFaults_count {n c : Nat} {xs cs : List Nat} (h : ReaderOk s) (hn : n ≤ 511) (hx : ∀ x ∈ xs, x ≤ 258)
    (hlen : xs.length = n) (hcs : cs.length < 258) (hsum : cs.sum < n) (hover : n < cs.sum + c) (hc : c ≤ 511)
    (hp : s.pending = fields9 (n :: (xs ++ (cs ++ [c]))) ++ rest) : RhdrFaults s .malformedCode 2#16 rest := by
  have hp' : s.pending = fields9 (n :: (xs ++ cs)) ++ (valueBits c 9 ++ rest) := by
    rw [hp]; simp [fields9, Config.symW]
  obtain ⟨u, hu, hun, hpu, hoku, hpart⟩ := rhdrBody_of_counts h hn hx hlen hcs.le hsum hp'
  obtain ⟨t, ht, hpt, -, hsh⟩ := readBits_valueBits (s := { u with maxl := u.maxl + 1#9 }) hoku (by omega) hpu
  have htn : t.hn.toNat = n := by rw [hsh]; exact hun
  obtain ⟨m, hm⟩ : ∃ m, 258 - cs.length = m + 1 := ⟨258 - cs.length - 1, by omega⟩
  refine ⟨{ t with cntl := tset t.cntl (t.maxl.toNat - 1) (BitVec.ofNat 9 c) }, ?_, hpt, by
    rw [HeaderPart, hsh, hpart]⟩
  rw [hu, hm, rhdrCounts_of_lt (by omega), Config.symW, ht, Run.bind_done, rhdrCount]
  dsimp only
  rw [if_pos (by omega)]
  rfl

/-- 258 counts that do not reach the size (R161). -/
theorem rhdrFaults_short {n : Nat} {xs cs : List Nat} (h : ReaderOk s) (hn : n ≤ 511) (hx : ∀ x ∈ xs, x ≤ 258)
    (hlen : xs.length = n) (hcs : cs.length = 258) (hsum : cs.sum < n)
    (hp : s.pending = fields9 (n :: (xs ++ cs)) ++ rest) : RhdrFaults s .malformedCode 3#16 rest := by
  obtain ⟨u, hu, hun, hpu, -, hpart⟩ := rhdrBody_of_counts h hn hx hlen hcs.le hsum hp
  refine ⟨u, ?_, hpu, hpart⟩
  rw [hu, hcs, Nat.sub_self, rhdrCounts, if_pos (by omega)]
  rfl

/-- A size field cut short (R105). -/
theorem rhdrFaults_cutSize (h : ReaderOk s) (hp : s.pending.length < 9) :
    RhdrFaults s .unexpectedEndOfStream 0#16 [] := by
  obtain ⟨t, ht, hpt, -, hsh⟩ := readBits_end Config.symW (s := s.clearFlags chainFromHeader) (h.clearFlags _)
    (by rw [State.pending_clearFlags]; exact hp)
  refine ⟨t, by rw [rhdrBody, ht]; rfl, hpt, ?_⟩
  rw [HeaderPart, hsh, State.clearFlags_shape, status_cleared_header]

/-- A symbol field cut short (R105). -/
theorem rhdrFaults_cutSymbol {n : Nat} {xs : List Nat} (h : ReaderOk s) (hn : n ≤ 511) (hx : ∀ x ∈ xs, x ≤ 258)
    (hlen : xs.length < n) (hcut : rest.length < 9) (hp : s.pending = fields9 (n :: xs) ++ rest) :
    RhdrFaults s .unexpectedEndOfStream 0#16 [] := by
  obtain ⟨u, hu, -, -, hpu, hoku, hpart⟩ := rhdrBody_of_symbols h hn hx hlen.le hp
  obtain ⟨t, ht, hpt, -, hsh⟩ := readBits_end 9 hoku (by rw [hpu]; exact hcut)
  obtain ⟨m, hm⟩ : ∃ m, n - xs.length = m + 1 := ⟨n - xs.length - 1, by omega⟩
  refine ⟨t, ?_, hpt, by rw [HeaderPart, hsh, hpart]⟩
  rw [hu, hm, rhdrSymbols, Config.symW, ht]
  rfl

/-- A count field cut short (R105). -/
theorem rhdrFaults_cutCount {n : Nat} {xs cs : List Nat} (h : ReaderOk s) (hn : n ≤ 511) (hx : ∀ x ∈ xs, x ≤ 258)
    (hlen : xs.length = n) (hcs : cs.length < 258) (hsum : cs.sum < n) (hcut : rest.length < 9)
    (hp : s.pending = fields9 (n :: (xs ++ cs)) ++ rest) : RhdrFaults s .unexpectedEndOfStream 0#16 [] := by
  obtain ⟨u, hu, hun, hpu, hoku, hpart⟩ := rhdrBody_of_counts h hn hx hlen hcs.le hsum hp
  obtain ⟨t, ht, hpt, -, hsh⟩ := readBits_end 9 (s := { u with maxl := u.maxl + 1#9 }) hoku
    (by rw [show State.pending { u with maxl := u.maxl + 1#9 } = u.pending from rfl, hpu]; exact hcut)
  obtain ⟨m, hm⟩ : ∃ m, 258 - cs.length = m + 1 := ⟨258 - cs.length - 1, by omega⟩
  refine ⟨t, ?_, hpt, by rw [HeaderPart, hsh, hpart]⟩
  rw [hu, hm, rhdrCounts_of_lt (by omega), Config.symW, ht]
  rfl

/-- Settles O38: the fields before the bad or missing one are read as in a good header. -/
theorem rhdrRejectsMalformed : Obligations.RhdrRejectsMalformed := by
  unfold Obligations.RhdrRejectsMalformed
  intro n syms counts part rest s h ho hok hn hsyms
  refine ⟨fun x hlow hhigh hlen hp => ?_, fun c hlen hcs hsum hover hc hp => ?_, fun hlen hcs hsum hp => ?_,
    fun hcut hp => ?_, fun hcut hlen hp => ?_, fun hcut hlen hcs hsum hp => ?_⟩
  · exact (rhdrFaults_symbol hok hn hsyms hlen hlow hhigh hp).exec h ho
  · exact (rhdrFaults_count hok hn hsyms hlen hcs hsum hover hc hp).exec h ho
  · exact (rhdrFaults_short hok hn hsyms hlen hcs hsum hp).exec h ho
  · exact (rhdrFaults_cutSize hok (by rw [hp]; exact hcut)).exec h ho
  · exact (rhdrFaults_cutSymbol hok hn hsyms hlen hcut hp).exec h ho
  · exact (rhdrFaults_cutCount hok hn hsyms hlen hcs hsum hcut hp).exec h ho

end Sys2Proof.Machine
end

section
/-! `CanonCodes` (spec R140): it completes exactly where the lengths fit the code space, and the values of its codes. -/

namespace Sys2Proof.Machine

variable {s t : State} {i prev code l : Nat} {ls : List Nat}

/-- One position of `CanonCodes` (R140). -/
theorem canonFrom_cons_of_lt (h : code * 2 ^ (l - prev) < 2 ^ l) :
    canonFrom i prev code (l :: ls) s = canonFrom (i + 1) l (code * 2 ^ (l - prev) + 1) ls
      { s with cc := tset s.cc i (BitVec.ofNat 258 (code * 2 ^ (l - prev))) } := by
  simp only [canonFrom, Nat.shiftLeft_eq, ge_iff_le, Nat.not_le.mpr h, if_false]

theorem canonFrom_cons_of_le (h : 2 ^ l ≤ code * 2 ^ (l - prev)) :
    canonFrom i prev code (l :: ls) s = .raise .malformedCode 4#16 s := by
  simp only [canonFrom, Nat.shiftLeft_eq, ge_iff_le, h, if_true]

/-- Lengths that overfill the code space are found out (R140): some code does not fit its length. -/
theorem canonFrom_overfull {s : State} (hs : ls.Pairwise (· ≤ ·)) (hprev : ∀ l ∈ ls, prev ≤ l)
    (hmax : ∀ l ∈ ls, l ≤ Config.lmax) (hcode : code * 2 ^ (Config.lmax - prev) ≤ 2 ^ Config.lmax)
    (hover : 2 ^ Config.lmax < code * 2 ^ (Config.lmax - prev) + kraft ls) :
    ∃ cc, canonFrom i prev code ls s = .raise .malformedCode 4#16 { s with cc := cc } := by
  induction ls generalizing i prev code s with
  | nil => exact absurd hcode (by simpa using hover)
  | cons l ls ih =>
    obtain ⟨hge, hs⟩ := List.pairwise_cons.mp hs
    have hp := hprev l (by simp)
    have hl := hmax l (by simp)
    by_cases hlt : code * 2 ^ (l - prev) < 2 ^ l
    · have hshift : code * 2 ^ (l - prev) * 2 ^ (Config.lmax - l) = code * 2 ^ (Config.lmax - prev) := by
        rw [Nat.mul_assoc, ← Nat.pow_add]
        congr 2
        omega
      have hroom : (code * 2 ^ (l - prev) + 1) * 2 ^ (Config.lmax - l) ≤ 2 ^ Config.lmax :=
        calc _ ≤ 2 ^ l * 2 ^ (Config.lmax - l) := Nat.mul_le_mul_right _ hlt
          _ = 2 ^ Config.lmax := by rw [← Nat.pow_add, Nat.add_sub_of_le hl]
      rw [canonFrom_cons_of_lt hlt]
      obtain ⟨cc, hcc⟩ := ih (i := i + 1)
        (s := { s with cc := tset s.cc i (BitVec.ofNat 258 (code * 2 ^ (l - prev))) }) hs hge
        (fun k hk => hmax k (List.mem_cons_of_mem _ hk)) hroom (by
          rw [kraft_cons, ← hshift] at hover
          rw [Nat.add_mul, Nat.one_mul, Nat.add_assoc]
          exact hover)
      exact ⟨cc, hcc⟩
    · exact ⟨s.cc, canonFrom_cons_of_le (Nat.le_of_not_lt hlt)⟩

/-- What a completed `CanonCodes` leaves in CC: each code fits its length, the first is the running integer at its
length, and each later one is the one before plus one, shifted to its length (R140). -/
theorem canonFrom_values {s : State} (h : canonFrom i prev code ls s = .done () t) (hi : i + ls.length ≤ 511)
    (hmax : ∀ l ∈ ls, l ≤ Config.lmax) :
    (∀ j < i, t.ccAt j = s.ccAt j) ∧ (∀ j (hj : j < ls.length), (t.ccAt (i + j)).toNat < 2 ^ ls[j]) ∧
      (∀ h0 : 0 < ls.length, (t.ccAt i).toNat = code * 2 ^ (ls[0] - prev)) ∧
      ∀ j (hj : j + 1 < ls.length),
        (t.ccAt (i + (j + 1))).toNat = ((t.ccAt (i + j)).toNat + 1) * 2 ^ (ls[j + 1] - ls[j]) := by
  induction ls generalizing i prev code s with
  | nil =>
    cases h
    exact ⟨fun _ _ => rfl, fun j hj => absurd hj (Nat.not_lt_zero _), fun h0 => absurd h0 (Nat.not_lt_zero _),
      fun j hj => absurd hj (Nat.not_lt_zero _)⟩
  | cons l ls ih =>
    by_cases hlt : code * 2 ^ (l - prev) < 2 ^ l
    · rw [canonFrom_cons_of_lt hlt] at h
      rw [List.length_cons] at hi
      obtain ⟨hkeep, hfit, hfirst, hnext⟩ := ih h (by omega) fun k hk => hmax k (List.mem_cons_of_mem _ hk)
      have hci : (t.ccAt i).toNat = code * 2 ^ (l - prev) := by
        rw [hkeep i (by omega), State.ccAt, tget_tset_same _ (by omega)]
        exact toNat_ofNat_of_lt_two_pow (hmax l (by simp)) hlt
      refine ⟨fun j hj => (hkeep j (by omega)).trans (tget_tset_ne _ (by omega) _ _), fun j hj => ?_, fun _ => hci,
        fun j hj => ?_⟩
      · cases j with
        | zero => exact hci.trans_lt hlt
        | succ j =>
          have := hfit j (by simpa using hj)
          rw [Nat.add_assoc, Nat.add_comm 1] at this
          exact this
      · cases j with
        | zero => exact (hfirst (by simpa using hj)).trans (by rw [← hci]; rfl)
        | succ j =>
          have := hnext j (by simpa using hj)
          rw [Nat.add_assoc, Nat.add_assoc, Nat.add_comm 1, Nat.add_comm 1] at this
          exact this
    · rw [canonFrom_cons_of_le (Nat.le_of_not_lt hlt)] at h
      cases h

end Sys2Proof.Machine
end

section
/-! CANON (spec R142, R143): the tables it makes. -/

namespace Sys2Proof.Machine

variable {s t : State}

theorem State.usedLengths_perm (s : State) :
    (s.sortedAlphabet.map fun x => (s.lenAt x).toNat).Perm s.usedLengths := s.sortedAlphabet_perm.map _

theorem State.sortedAlphabet_length_le (s : State) : s.sortedAlphabet.length ≤ 259 := by
  rw [s.sortedAlphabet_perm.length_eq]
  exact s.alphabet_length_le

theorem State.mem_sortedAlphabet {x : Nat} : x ∈ s.sortedAlphabet ↔ x < 259 ∧ 1 ≤ (s.lenAt x).toNat :=
  s.sortedAlphabet_perm.mem_iff.trans State.mem_alphabet

theorem State.sortedAlphabet_eq_nil : s.sortedAlphabet = [] ↔ s.alphabet = [] := by
  rw [← List.length_eq_zero_iff, s.sortedAlphabet_perm.length_eq, List.length_eq_zero_iff]

/-- R143: by length, then by symbol. -/
theorem State.sortedAlphabet_sorted (s : State) :
    s.sortedAlphabet.Pairwise fun x y =>
      (s.lenAt x).toNat < (s.lenAt y).toNat ∨ ((s.lenAt x).toNat = (s.lenAt y).toNat ∧ x < y) := by
  have htotal : Std.Total (sortedBefore s) := ⟨fun x y => by unfold sortedBefore; omega⟩
  have htrans : IsTrans Nat (sortedBefore s) := ⟨fun x y z hxy hyz => by unfold sortedBefore at *; omega⟩
  have hnodup : s.sortedAlphabet.Nodup := s.sortedAlphabet_perm.nodup_iff.mpr (List.nodup_range.filter _)
  refine ((List.pairwise_insertionSort (sortedBefore s) s.alphabet).and hnodup).imp fun h => ?_
  obtain ⟨hle, hne⟩ := h
  unfold sortedBefore at hle
  omega

theorem State.canonHeader_hn (s : State) : s.canonHeader.hn.toNat = s.sortedAlphabet.length := by
  have := s.sortedAlphabet_length_le
  show (BitVec.ofNat 10 s.sortedAlphabet.length).toNat = _
  rw [BitVec.toNat_ofNat, Nat.mod_eq_of_lt (by omega)]

theorem State.canonHeader_ordAt {i : Nat} (hi : i < s.sortedAlphabet.length) :
    (s.canonHeader.ordAt i).toNat = s.sortedAlphabet[i] := by
  have hlen := s.sortedAlphabet_length_le
  have hlt := (State.mem_sortedAlphabet.mp (List.getElem_mem hi)).1
  show (tget (tsetPrefix s.ord (s.sortedAlphabet.map (BitVec.ofNat 9))) i 0#9).toNat = _
  rw [tget_tsetPrefix _ _ (by rw [List.length_map]; omega), dif_pos (by rwa [List.length_map]), List.getElem_map,
    BitVec.toNat_ofNat, Nat.mod_eq_of_lt (by omega)]

theorem State.canonHeader_clAt {i : Nat} (hi : i < s.sortedAlphabet.length) :
    s.canonHeader.clAt i = s.lenAt s.sortedAlphabet[i] := by
  have hlen := s.sortedAlphabet_length_le
  show tget (tsetPrefix s.cl (s.sortedAlphabet.map s.lenAt)) i 0#9 = _
  rw [tget_tsetPrefix _ _ (by rw [List.length_map]; omega), dif_pos (by rwa [List.length_map]), List.getElem_map]

theorem State.canonHeader_maxl (h : s.sortedAlphabet ≠ []) :
    s.canonHeader.maxl = s.canonHeader.clAt (s.sortedAlphabet.length - 1) := by
  have hpos := List.length_pos_iff.mpr h
  rw [State.canonHeader_clAt (by omega)]
  show (s.sortedAlphabet.map s.lenAt).getLastD 0#9 = _
  rw [List.getLastD_eq_getLast?, List.getLast?_map, List.getLast?_eq_some_getLast h, List.getLast_eq_getElem]
  rfl

theorem State.canonHeader_cntlAt {L : Nat} (h1 : 1 ≤ L) (hL : L < 259) :
    (s.canonHeader.cntlAt L).toNat = s.usedLengths.count L := by
  obtain ⟨k, rfl⟩ : ∃ k, L = k + 1 := ⟨L - 1, by omega⟩
  have htake := take_countList (s.sortedAlphabet.map s.lenAt) (m := 258) le_rfl
  have hcounts := congrArg (List.map BitVec.toNat) htake
  rw [map_toNat_map_ofNat] at hcounts
  · show (tget (countList (s.sortedAlphabet.map s.lenAt)) k 0#9).toNat = _
    rw [tget_of_map_take hcounts (by simp; omega), List.getElem_map, List.getElem_range, List.map_map,
      ← s.usedLengths_perm.count_eq]
    rfl
  · intro c hc
    obtain ⟨j, -, rfl⟩ := List.mem_map.mp hc
    have := List.count_le_length (a := j + 1) (l := (s.sortedAlphabet.map s.lenAt).map BitVec.toNat)
    have := s.sortedAlphabet_length_le
    simp only [List.length_map] at *
    omega

/-- The lengths CANON works on (R142). -/
theorem State.canonHeader_lengths (s : State) :
    (s.canonHeader.cl.toList.take s.sortedAlphabet.length).map BitVec.toNat =
      s.sortedAlphabet.map fun x => (s.lenAt x).toNat := by
  have hlen : (s.sortedAlphabet.map s.lenAt).length ≤ 511 := by
    have := s.sortedAlphabet_length_le
    rw [List.length_map]
    omega
  have htake := take_tsetPrefix s.cl hlen
  rw [List.length_map] at htake
  show ((tsetPrefix s.cl (s.sortedAlphabet.map s.lenAt)).toList.take s.sortedAlphabet.length).map _ = _
  rw [htake, List.map_map]
  rfl

theorem State.canonHeader_canonCodes (s : State) :
    canonCodes s.sortedAlphabet.length s.canonHeader =
      canonFrom 0 0 0 (s.sortedAlphabet.map fun x => (s.lenAt x).toNat) s.canonHeader := by
  rw [canonCodes, s.canonHeader_lengths]

/-- CANON on lengths that fit the code space (R142). -/
theorem canonBody_of_room (op : Opcode) (h : s.LengthsOk) :
    ∃ cc, canonFrom 0 0 0 (s.sortedAlphabet.map fun x => (s.lenAt x).toNat) s.canonHeader =
        .done () { s.canonHeader with cc := cc } ∧
      canonBody op s =
        .done () ((({ s.canonHeader with cc := cc } : State).setFlag .hValid true).setFlag .cValid true) := by
  obtain ⟨cc, hrun, -⟩ := canonCodes_of_hasLengths (h.headerOk [] []).2 (h.canonHeader_hasLengths [] [])
  have hrun' : canonCodes s.sortedAlphabet.length s.canonHeader = _ := hrun
  refine ⟨cc, by rw [← s.canonHeader_canonCodes, hrun'], ?_⟩
  rw [canonBody_of_nonempty op h.sortedAlphabet_ne_nil, hrun']
  rfl

/-- CANON on lengths that overfill it (R140, R142). -/
theorem canonBody_of_overfull (op : Opcode) (hmax : ∀ x < 259, (s.lenAt x).toNat ≤ 258)
    (hk : 2 ^ 258 < kraft s.usedLengths) :
    ∃ cc, canonBody op s = .raise .malformedCode 4#16 { s.canonHeader with cc := cc } := by
  rw [← kraft_perm s.usedLengths_perm] at hk
  have hne : s.sortedAlphabet ≠ [] := fun e => by
    rw [e, List.map_nil, kraft_nil] at hk
    exact absurd hk (Nat.not_lt_zero _)
  obtain ⟨cc, hcc⟩ := canonFrom_overfull (i := 0) (prev := 0) (code := 0) (s := s.canonHeader)
    s.sortedAlphabet_lengths_sorted (fun _ _ => Nat.zero_le _) (fun l hl => by
      obtain ⟨x, hx, rfl⟩ := List.mem_map.mp hl
      exact hmax x (State.mem_sortedAlphabet.mp hx).1) (by rw [Nat.zero_mul]; exact Nat.zero_le _)
    (by rw [Nat.zero_mul, Nat.zero_add]; rwa [Config.lmax])
  refine ⟨cc, ?_⟩
  rw [canonBody_of_nonempty op hne, s.canonHeader_canonCodes, hcc]
  rfl

theorem map_ordAt_range (s : State) {n : Nat} (h : n ≤ 511) :
    (List.range n).map (fun i => (s.ordAt i).toNat) = (s.ord.toList.take n).map BitVec.toNat := by
  refine List.ext_getElem (by simp; omega) fun i h1 h2 => ?_
  rw [List.getElem_map, List.getElem_range]
  exact tget_of_map_take rfl (by simpa using h2) _

theorem canonHeader_shape (s : State) :
    s.canonHeader = { s with
      hn := s.canonHeader.hn, ord := s.canonHeader.ord, cntl := s.canonHeader.cntl, maxl := s.canonHeader.maxl,
      cl := s.canonHeader.cl, status := s.status &&& 0xF8FF#16 } := by
  rw [← status_cleared_header]
  have hc := State.clearFlags_shape s chainFromHeader
  unfold State.canonHeader
  generalize s.clearFlags chainFromHeader = c at hc ⊢
  rw [hc]

/-- Settles O32: the header is read off the sorted alphabet, and the codes off `CanonCodes`. -/
theorem canonMakesHeaderAndCodes : Obligations.CanonMakesHeaderAndCodes := by
  unfold Obligations.CanonMakesHeaderAndCodes
  intro s h ho hmax hne hk
  have hok : s.LengthsOk := ⟨hmax, hne, hk⟩
  obtain ⟨cc, hcc, hrun⟩ := canonBody_of_room 0x0D#6 hok
  have hlen := s.sortedAlphabet_length_le
  have hnil := hok.sortedAlphabet_ne_nil
  have hpos := List.length_pos_iff.mpr hnil
  obtain ⟨-, hfit, hfirst, hnext⟩ := canonFrom_values hcc (by simp; omega) fun l hl => by
    obtain ⟨x, hx, rfl⟩ := List.mem_map.mp hl
    exact hmax x (State.mem_sortedAlphabet.mp hx).1
  have hn := s.canonHeader_hn
  have hord : ∀ i (hi : i < s.sortedAlphabet.length), (s.canonHeader.ordAt i).toNat = s.sortedAlphabet[i] :=
    fun i hi => State.canonHeader_ordAt hi
  have hcl : ∀ i (hi : i < s.sortedAlphabet.length), s.canonHeader.clAt i = s.lenAt s.sortedAlphabet[i] :=
    fun i hi => State.canonHeader_clAt hi
  have hle : ∀ i, i < s.canonHeader.hn.toNat → i < s.sortedAlphabet.length := fun i hi => hn ▸ hi
  refine ⟨(({ s.canonHeader with cc := cc } : State).setFlag .hValid true).setFlag .cValid true, ?_,
    hn.trans s.sortedAlphabet_perm.length_eq, ?_, fun i hi => ?_, fun i hi => ?_, ?_, fun L hL h1 => ?_, ?_,
    fun i hi => ?_, fun i hi => ?_, ?_⟩
  · rw [exec_of_ready (i := .canon) h rfl ho]
    exact congrArg Run.outcome hrun
  · show ((List.range s.canonHeader.hn.toNat).map fun i => (s.canonHeader.ordAt i).toNat).Perm s.alphabet
    refine (List.Perm.of_eq (List.ext_getElem (by simp [hn]) fun i h1 h2 => ?_)).trans s.sortedAlphabet_perm
    rw [List.getElem_map, List.getElem_range, hord i h2]
  · show (s.canonHeader.clAt i).toNat < (s.canonHeader.clAt (i + 1)).toNat ∨
      ((s.canonHeader.clAt i).toNat = (s.canonHeader.clAt (i + 1)).toNat ∧
        (s.canonHeader.ordAt i).toNat < (s.canonHeader.ordAt (i + 1)).toNat)
    have hi1 := hle _ hi
    rw [hcl i (by omega), hcl _ hi1, hord i (by omega), hord _ hi1]
    exact List.pairwise_iff_getElem.mp s.sortedAlphabet_sorted i (i + 1) _ hi1 (Nat.lt_succ_self i)
  · show s.canonHeader.clAt i = s.lenAt (s.canonHeader.ordAt i).toNat
    rw [hcl i (hle i hi), hord i (hle i hi)]
  · show s.canonHeader.maxl = s.canonHeader.clAt (s.canonHeader.hn.toNat - 1)
    rw [hn, s.canonHeader_maxl hnil]
  · exact State.canonHeader_cntlAt h1 hL
  · exact BitVec.eq_of_toNat_eq ((hfirst (by simpa using hpos)).trans (by simp))
  · have hi1 := hle _ hi
    have hstep := hnext i (by simpa using hi1)
    rw [Nat.zero_add, Nat.zero_add, List.getElem_map, List.getElem_map, ← hcl _ hi1, ← hcl i (by omega)] at hstep
    exact hstep
  · have hfits := hfit i (by simpa using hle i hi)
    rw [Nat.zero_add, List.getElem_map, ← hcl i (hle i hi)] at hfits
    exact hfits
  · conv_lhs => rw [canonHeader_shape s]
    rw [show (0x0300#16 : BitVec 16) = 0x0100#16 ||| 0x0200#16 by decide, ← BitVec.or_assoc]
    rfl

/-- Settles O33: no symbol to list, or some code that does not fit its length. -/
theorem canonFaults : Obligations.CanonFaults := by
  unfold Obligations.CanonFaults
  refine ⟨fun s h ho hempty => ?_, fun s h ho hmax hk => ?_⟩
  · have hready : Ready { s.clearFlags chainFromHeader with hn := 0#10 } := by
      show (s.clearFlags chainFromHeader).flag .faulted = false
      rw [State.flag_clearFlags, h]
      rfl
    rw [exec_of_ready (i := .canon) h rfl ho]
    show (canonBody 0x0D#6 s).outcome = _
    rw [canonBody_of_empty _ (State.sortedAlphabet_eq_nil.mpr hempty)]
    refine congrArg Host.Outcome.next ((State.raise_eq hready _ _).trans ?_)
    have hc := State.clearFlags_shape s chainFromHeader
    rw [status_cleared_header] at hc
    rw [hc]
    rfl
  · obtain ⟨cc, hrun⟩ := canonBody_of_overfull 0x0D#6 hmax hk
    have hready : Ready { s.canonHeader with cc := cc } := by
      show (s.clearFlags chainFromHeader).flag .faulted = false
      rw [State.flag_clearFlags, h]
      rfl
    refine ⟨{ s.canonHeader with
      cc := cc, fault := 3#4, finfo := 4#16, status := s.canonHeader.status ||| 1#16 }, ?_, rfl, rfl, ?_⟩
    · rw [exec_of_ready (i := .canon) h rfl ho]
      exact (congrArg Run.outcome hrun).trans (congrArg Host.Outcome.next (State.raise_eq hready _ _))
    · conv_lhs => rw [canonHeader_shape s]

end Sys2Proof.Machine
end

section
/-! TBUILD on any header the invariant allows (spec R162, R163, R167), the empty one too. -/

namespace Sys2Proof.Machine

variable {s t : State}

/-- What the reader and CANON leave while H_VALID is 1 (R31, R32). -/
def State.HeaderInRange (s : State) : Prop :=
  s.hn.toNat ≤ Config.hnMax ∧ s.maxl.toNat ≤ Config.lmax ∧
    ((s.cntl.toList.take s.maxl.toNat).map BitVec.toNat).sum = s.hn.toNat ∧
    (1 ≤ s.maxl.toNat → 1 ≤ (s.cntlAt s.maxl.toNat).toNat) ∧ ∀ i < s.hn.toNat, (s.ordAt i).toNat < Config.nsym

/-- The counts in use (R32). -/
def State.counts (s : State) : List Nat := (s.cntl.toList.take s.maxl.toNat).map BitVec.toNat

/-- The header in the tables as a block's. -/
def State.headerBlock (s : State) : Block where
  syms := (s.ord.toList.take s.hn.toNat).map BitVec.toNat
  counts := s.counts
  name := []
  content := []

theorem State.HeaderInRange.length_syms (h : s.HeaderInRange) : s.headerBlock.syms.length = s.hn.toNat := by
  have := h.1
  rw [Config.hnMax] at this
  simp [State.headerBlock]
  omega

theorem State.HeaderInRange.length_counts (h : s.HeaderInRange) : s.counts.length = s.maxl.toNat := by
  have := h.2.1
  rw [Config.lmax] at this
  simp [State.counts]
  omega

theorem State.HeaderInRange.hasHeader (h : s.HeaderInRange) : s.HasHeader s.headerBlock := by
  refine ⟨h.length_syms.symm, ?_, h.length_counts.symm, ?_⟩
  · rw [h.length_syms]
    rfl
  · show (s.cntl.toList.take s.counts.length).map _ = _
    rw [h.length_counts]
    rfl

/-- A decoder accepts the header where its lengths fit the code space. -/
theorem State.HeaderInRange.headerOk (h : s.HeaderInRange) (hk : KraftOk (lengthsFrom 1 s.counts)) :
    s.headerBlock.HeaderOk := by
  obtain ⟨hhn, hmaxl, hsum, hlast, hord⟩ := id h
  have hlen := h.length_syms
  refine ⟨hlen ▸ hhn, fun x hx => ?_, ?_, ?_, fun e => ?_, hk⟩
  · obtain ⟨i, hi, rfl⟩ := List.mem_iff_getElem.mp hx
    rw [← h.hasHeader.ordAt hi]
    exact hord i (hlen ▸ hi)
  · exact h.length_counts ▸ hmaxl
  · exact hsum.trans hlen.symm
  · obtain ⟨m, hm⟩ : ∃ m, s.maxl.toNat = m + 1 := by
      cases hm : s.maxl.toNat with
      | zero =>
        have hnil : s.counts = [] := List.eq_nil_of_length_eq_zero (h.length_counts.trans hm)
        rw [State.headerBlock, hnil] at e
        cases e
      | succ m => exact ⟨m, rfl⟩
    have hml : m < s.headerBlock.counts.length := by
      show m < s.counts.length
      rw [h.length_counts, hm]
      exact Nat.lt_succ_self m
    have hlast' := hlast (by omega)
    rw [hm, h.hasHeader.cntlAt hml] at hlast'
    rw [List.getLast?_eq_getElem?, show s.headerBlock.counts.length - 1 = m by
      show s.counts.length - 1 = m
      rw [h.length_counts, hm, Nat.add_sub_cancel], List.getElem?_eq_getElem hml] at e
    rw [Option.some.inj e] at hlast'
    exact absurd hlast' (by decide)

/-- The state in which TBUILD begins to make the codes (R162). -/
def State.tbuildStart (s : State) : State :=
  { s.clearFlags chainFromCodes with cl := tsetPrefix s.cl s.headerLengths }

theorem State.tbuildStart_shape (s : State) :
    s.tbuildStart = { s with cl := s.tbuildStart.cl, status := s.status &&& 0xF9FF#16 } := by
  rw [show s.status &&& 0xF9FF#16 = (s.clearFlags chainFromCodes).status by
    rw [status_clearFlags, show keepMask chainFromCodes = 0xF9FF#16 by decide]]
  have hc := State.clearFlags_shape s chainFromCodes
  unfold State.tbuildStart
  generalize s.clearFlags chainFromCodes = c at hc ⊢
  rw [hc]

theorem tbuildBody_eq (s : State) :
    tbuildBody s = (canonCodes s.hn.toNat s.tbuildStart).andThen fun s =>
      .done () (({ s with tn := s.headerTrie }.setFlag .cValid true).setFlag .trValid true) := by
  have hlens : (s.clearFlags chainFromCodes).headerLengths = s.headerLengths := by
    simp [State.headerLengths, State.cntlAt]
  unfold tbuildBody State.tbuildStart
  dsimp only
  rw [hlens, State.clearFlags_shape]

/-- A header's lengths are as many as its symbols. -/
theorem State.HeaderInRange.map_headerLengths (h : s.HeaderInRange) :
    s.headerLengths.map BitVec.toNat = lengthsFrom 1 s.counts := by
  have hmaxl := h.2.1
  rw [Config.lmax] at hmaxl
  rw [State.headerLengths, lengthsFrom_eq_flatMap, h.length_counts, List.map_flatMap]
  refine List.flatMap_congr fun k hk => ?_
  have hk' : k < s.headerBlock.counts.length := by
    show k < s.counts.length
    rw [h.length_counts]
    exact List.mem_range.mp hk
  have := List.mem_range.mp hk
  rw [List.map_replicate, h.hasHeader.cntlAt hk', List.getD_eq_getElem?_getD,
    show s.counts[k]? = some s.headerBlock.counts[k] from List.getElem?_eq_getElem hk', BitVec.toNat_ofNat,
    Nat.mod_eq_of_lt (by omega), Nat.add_comm]
  rfl

theorem State.HeaderInRange.length_headerLengths (h : s.HeaderInRange) : s.headerLengths.length = s.hn.toNat := by
  rw [← List.length_map (f := BitVec.toNat), h.map_headerLengths, lengthsFrom_length]
  exact h.2.2.1

theorem State.HeaderInRange.tbuildStart_lengths (h : s.HeaderInRange) :
    (s.tbuildStart.cl.toList.take s.hn.toNat).map BitVec.toNat = lengthsFrom 1 s.counts := by
  have hle : s.headerLengths.length ≤ 511 := h.length_headerLengths ▸ h.1
  rw [← h.length_headerLengths, State.tbuildStart, take_tsetPrefix _ hle, h.map_headerLengths]

theorem State.HeaderInRange.lengths_le (h : s.HeaderInRange) : ∀ l ∈ lengthsFrom 1 s.counts, 1 ≤ l ∧ l ≤ Config.lmax :=
  fun l hl => by
    have hmem := mem_lengthsFrom hl
    have := h.2.1
    rw [h.length_counts] at hmem
    omega

/-- The trie of a header is empty where it does not lead to one of its codes (R163, R167 (b)). -/
theorem Trie.mem_of_lookup_insertAll {t : Trie} {ps : List (List Bool × Sym)} {q : List Bool} {x : Sym}
    (h : (t.insertAll ps).lookup q = some x) : (q, x) ∈ ps ∨ t.lookup q = some x := by
  induction ps generalizing t with
  | nil => exact .inr h
  | cons p ps ih =>
    rw [insertAll_cons] at h
    rcases ih h with hmem | hlook
    · exact .inl (List.mem_cons_of_mem _ hmem)
    · rw [Trie.lookup_insert] at hlook
      split at hlook
      · rename_i hq
        refine .inl (List.mem_cons.mpr (.inl ?_))
        rw [hq, ← Option.some.inj hlook]
      · exact .inr hlook

theorem Trie.lookup_root (q : List Bool) : Trie.root.lookup q = none := by
  cases q with
  | nil => rfl
  | cons b q => cases b <;> simp [Trie.root, Trie.lookup]

/-- What a completed TBUILD leaves (R162, R167). -/
structure State.HasTrie (s t : State) : Prop where
  lengths : (List.range s.hn.toNat).map (fun i => (t.clAt i).toNat) = lengthsFrom 1 s.counts
  codes : (List.range s.hn.toNat).map t.codeAt = canonicalCodes 0 0 (lengthsFrom 1 s.counts)
  path : ∀ i < s.hn.toNat, t.tn.lookup (t.codeAt i) = some (s.ordAt i)
  only : ∀ p x, t.tn.lookup p = some x → ∃ i < s.hn.toNat, p = t.codeAt i ∧ x = s.ordAt i
  proper : 1 ≤ s.hn.toNat → t.tn.proper = true
  root : s.hn = 0#10 → t.tn = .node .nil .nil none
  fits : ∀ i < s.hn.toNat, (t.ccAt i).toNat < 2 ^ (t.clAt i).toNat
  shape : t = { s with cl := t.cl, cc := t.cc, tn := t.tn, status := (s.status &&& 0xF9FF#16) ||| 0x0600#16 }

/-- TBUILD on lengths that fit the code space (R162, R167). -/
theorem tbuildBody_of_room (h : s.HeaderInRange) (hk : KraftOk (lengthsFrom 1 s.counts)) :
    ∃ t, tbuildBody s = .done () t ∧ s.HasTrie t := by
  have hb := h.headerOk hk
  have hlen := h.length_syms
  have hlens : s.tbuildStart.HasLengths s.headerBlock := by
    rw [State.HasLengths, hlen]
    exact h.tbuildStart_lengths
  obtain ⟨cc, hrun, hcodes⟩ := canonCodes_of_hasLengths hb hlens
  rw [hlen] at hrun
  have hvalues := hrun
  rw [canonCodes, h.tbuildStart_lengths] at hvalues
  obtain ⟨-, hfits, -, -⟩ := canonFrom_values hvalues
    (by rw [lengthsFrom_length, Nat.zero_add]; exact h.2.2.1.le.trans h.1) fun l hl => (h.lengths_le l hl).2
  obtain ⟨v, hv⟩ : ∃ v : State, v = { s.tbuildStart with cc := cc } := ⟨_, rfl⟩
  rw [← hv] at hcodes hrun
  have hvs : v = { s with cl := v.cl, cc := v.cc, status := s.status &&& 0xF9FF#16 } := by
    rw [hv]
    conv_lhs => rw [s.tbuildStart_shape]
  have hvh : v.HasHeader s.headerBlock := by
    rw [hvs]
    exact ⟨h.hasHeader.hn, h.hasHeader.ord, h.hasHeader.maxl, h.hasHeader.cntl⟩
  have hvn : v.hn = s.hn := by rw [hvs]
  have hvo : ∀ i, v.ordAt i = s.ordAt i := fun i => by rw [hvs]; rfl
  have hcl : ∀ i (hi : i < (lengthsFrom 1 s.counts).length), (v.clAt i).toNat = (lengthsFrom 1 s.counts)[i] :=
    fun i hi => by rw [hv]; exact tget_of_map_take h.tbuildStart_lengths hi _
  have hnum : (lengthsFrom 1 s.counts).length = s.hn.toNat := by rw [lengthsFrom_length]; exact h.2.2.1
  have hfst := hvh.map_fst_headerPairs hcodes
  rw [State.HasCodes, hlen] at hcodes
  have hdone : tbuildBody s =
      .done () (({ v with tn := v.headerTrie }.setFlag .cValid true).setFlag .trValid true) := by
    rw [tbuildBody_eq, hrun]
    rfl
  refine ⟨_, hdone, ?_, hcodes, fun i hi => ?_, fun p x hx => ?_, fun hpos => ?_, fun h0 => ?_, fun i hi => ?_, ?_⟩
  · refine List.ext_getElem (by simp [hnum]) fun i h1 h2 => ?_
    rw [List.getElem_map, List.getElem_range]
    exact hcl i h2
  · show v.headerTrie.lookup (v.codeAt i) = _
    rw [v.headerTrie_eq, ← hvo i]
    refine Trie.lookup_insertAll_of_mem _ (hfst ▸ nodup_of_pairwise_apart hb.codes_apart) ?_
    exact List.mem_map.mpr ⟨i, List.mem_range.mpr (hvn ▸ hi), rfl⟩
  · have hx' : v.headerTrie.lookup p = some x := hx
    rw [v.headerTrie_eq] at hx'
    rcases Trie.mem_of_lookup_insertAll hx' with hmem | hroot
    · obtain ⟨i, hi, hpair⟩ := List.mem_map.mp hmem
      obtain ⟨hp, hsym⟩ := Prod.mk.inj hpair
      exact ⟨i, hvn ▸ List.mem_range.mp hi, hp.symm, by rw [← hvo i]; exact hsym.symm⟩
    · rw [Trie.lookup_root] at hroot
      cases hroot
  · refine hvh.proper_headerTrie (by rw [State.HasCodes, hlen]; exact hcodes) hb fun e => ?_
    rw [e, List.length_nil] at hlen
    omega
  · show v.headerTrie = _
    rw [State.headerTrie, hvn, h0]
    rfl
  · have hfit := hfits i (hnum ▸ hi)
    rw [Nat.zero_add, ← hcl i (hnum ▸ hi), ← hv] at hfit
    exact hfit
  · generalize v.headerTrie = trie
    conv_lhs => rw [hvs]
    rw [show (0x0600#16 : BitVec 16) = 0x0200#16 ||| 0x0400#16 by decide, ← BitVec.or_assoc]
    rfl

/-- TBUILD on lengths that overfill it (R162). -/
theorem tbuildBody_of_overfull (h : s.HeaderInRange) (hk : 2 ^ Config.lmax < kraft (lengthsFrom 1 s.counts)) :
    ∃ cc, tbuildBody s = .raise .malformedCode 4#16 { s.tbuildStart with cc := cc } := by
  obtain ⟨cc, hcc⟩ := canonFrom_overfull (i := 0) (prev := 0) (code := 0) (s := s.tbuildStart)
    (lengthsFrom_sorted s.counts 1) (fun _ _ => Nat.zero_le _) (fun l hl => (h.lengths_le l hl).2)
    (by rw [Nat.zero_mul]; exact Nat.zero_le (2 ^ Config.lmax)) (by rwa [Nat.zero_mul, Nat.zero_add])
  refine ⟨cc, ?_⟩
  rw [tbuildBody_eq, canonCodes, h.tbuildStart_lengths, hcc]
  rfl

/-- Settles O39: the trie of the canonical codes of the header's lengths. -/
theorem tbuildMakesTrie : Obligations.TbuildMakesTrie := by
  unfold Obligations.TbuildMakesTrie
  intro s h ho hinv hk
  obtain ⟨t, ht, htrie⟩ := tbuildBody_of_room (hinv.1 ho) hk
  refine ⟨t, ?_, htrie.lengths, htrie.codes, htrie.path, htrie.only, htrie.proper, htrie.root, htrie.shape⟩
  rw [exec_of_ready (i := .tbuild) h rfl ho]
  exact congrArg Run.outcome ht

/-- Settles O40: some code does not fit its length, before the trie is touched. -/
theorem tbuildRejectsOverfull : Obligations.TbuildRejectsOverfull := by
  unfold Obligations.TbuildRejectsOverfull
  intro s h ho hinv hk
  obtain ⟨cc, hrun⟩ := tbuildBody_of_overfull (hinv.1 ho) (by rwa [Config.lmax])
  have hready : Ready { s.tbuildStart with cc := cc } := by
    show (s.clearFlags chainFromCodes).flag .faulted = false
    rw [State.flag_clearFlags, h]
    rfl
  refine ⟨{ s.tbuildStart with
    cc := cc, fault := 3#4, finfo := 4#16, status := s.tbuildStart.status ||| 1#16 }, ?_, ?_⟩
  · rw [exec_of_ready (i := .tbuild) h rfl ho]
    exact (congrArg Run.outcome hrun).trans (congrArg Host.Outcome.next (State.raise_eq hready _ _))
  · conv_lhs => rw [s.tbuildStart_shape]

end Sys2Proof.Machine
end

section
/-! Where CANON and TBUILD complete (spec R140, R142, R162), no code begins another (R144). -/

namespace Sys2Proof.Machine

variable {s t : State}

theorem not_ready_raise (s : State) (k : FaultKind) (info : BitVec 16) : ¬ Ready (s.raise k info) := by
  simp [Ready, State.flag_raise]

/-- A command that leaves no fault has run its body to its end or to a fault (R225). -/
theorem outcome_of_ready {i : Instr} (hs : Ready s) (h : exec i s = .next t) (ht : Ready t) :
    preOk i s = true ∧ (bodyOf i s).outcome = .next t := by
  have hlive : ¬ s.flag .faulted = true := by rw [hs]; decide
  obtain ⟨hf, -⟩ | ⟨-, -, rfl⟩ | ⟨-, -, -, rfl⟩ | ⟨-, -, hp, hr⟩ | ⟨hf, -⟩ := exec_cases h
  · exact absurd hf hlive
  · exact absurd ht (not_ready_raise _ _ _)
  · exact absurd ht (not_ready_raise _ _ _)
  · exact ⟨hp, hr⟩
  · exact absurd hf hlive

/-- The ends of CANON (R142). -/
theorem canonBody_cases (op : Opcode) (hmax : ∀ x < 259, (s.lenAt x).toNat ≤ 258) :
    (s.LengthsOk ∧ ∃ t, canonBody op s = .done () t) ∨
    (s.alphabet = [] ∧ canonBody op s =
      .raise .illegalOperation (illegalInfo op 6#4) { s.clearFlags chainFromHeader with hn := 0#10 }) ∨
    ∃ cc, canonBody op s = .raise .malformedCode 4#16 { s.canonHeader with cc := cc } := by
  by_cases hne : s.alphabet = []
  · exact .inr (.inl ⟨hne, canonBody_of_empty op (State.sortedAlphabet_eq_nil.mpr hne)⟩)
  · by_cases hk : KraftOk s.usedLengths
    · obtain ⟨cc, -, hrun⟩ := canonBody_of_room op ⟨hmax, hne, hk⟩
      exact .inl ⟨⟨hmax, hne, hk⟩, _, hrun⟩
    · exact .inr (.inr (canonBody_of_overfull op hmax (Nat.lt_of_not_le hk)))

/-- The ends of TBUILD (R162). -/
theorem tbuildBody_cases (h : s.HeaderInRange) :
    (KraftOk (lengthsFrom 1 s.counts) ∧ ∃ t, tbuildBody s = .done () t ∧ s.HasTrie t) ∨
    ∃ cc, tbuildBody s = .raise .malformedCode 4#16 { s.tbuildStart with cc := cc } := by
  by_cases hk : KraftOk (lengthsFrom 1 s.counts)
  · exact .inl ⟨hk, tbuildBody_of_room h hk⟩
  · exact .inr (tbuildBody_of_overfull h (Nat.lt_of_not_le hk))

theorem not_ready_of_raise {r : Run Unit} {k : FaultKind} {info : BitVec 16} (hr : r = .raise k info s)
    (h : r.outcome = .next t) : ¬ Ready t := by
  subst hr
  cases h
  exact not_ready_raise _ _ _

theorem not_begins_of_codes {n : Nat} {codes : List (List Bool)} (h : (List.range n).map s.codeAt = codes)
    (hapart : codes.Pairwise Apart) {j k : Nat} (hj : j < n) (hk : k < n) (hne : j ≠ k) :
    ¬ s.codeAt j <+: s.codeAt k := by
  have hpair := List.pairwise_map.mp (h ▸ hapart)
  have hat := List.pairwise_iff_getElem.mp hpair
  rcases Nat.lt_or_gt_of_ne hne with hlt | hlt
  · have := hat j k (by simpa using hj) (by simpa using hk) hlt
    rw [List.getElem_range, List.getElem_range] at this
    exact this.1
  · have := hat k j (by simpa using hk) (by simpa using hj) hlt
    rw [List.getElem_range, List.getElem_range] at this
    exact this.2

/-- Settles O34: both commands make the canonical codes of lengths that fit the code space. -/
theorem canonicalCodesPrefixFree : Obligations.CanonicalCodesPrefixFree := by
  unfold Obligations.CanonicalCodesPrefixFree
  rintro i s t hi hs ⟨⟨-, -, hlen⟩, ⟨hheader, -⟩, -⟩ h ht j k hj hk hne
  obtain ⟨hp, hout⟩ := outcome_of_ready hs h ht
  rcases hi with rfl | rfl
  · rcases canonBody_cases 0x0D#6 (hlen hp) with ⟨hok, u, hu⟩ | ⟨-, hu⟩ | ⟨cc, hu⟩
    · obtain ⟨v, hv, hhv, hcodes, -⟩ := canonBody_spec 0x0D#6 hok [] []
      obtain rfl : v = t := Host.Outcome.next.inj ((congrArg Run.outcome hv).symm.trans hout)
      rw [hhv.hn] at hj hk
      exact not_begins_of_codes hcodes (hok.headerOk [] []).2.codes_apart hj hk hne
    · exact absurd ht (not_ready_of_raise hu hout)
    · exact absurd ht (not_ready_of_raise hu hout)
  · have hrange : s.HeaderInRange := hheader hp
    rcases tbuildBody_cases hrange with ⟨hk', u, hu, htrie⟩ | ⟨cc, hu⟩
    · obtain rfl : u = t := Host.Outcome.next.inj ((congrArg Run.outcome hu).symm.trans hout)
      have hn : u.hn = s.hn := by rw [htrie.shape]
      rw [hn] at hj hk
      exact not_begins_of_codes htrie.codes (hrange.headerOk hk').codes_apart hj hk hne
    · exact absurd ht (not_ready_of_raise hu hout)

end Sys2Proof.Machine
end

section
/-! BUILD's leaves (spec R123): one node for each present symbol, in ascending order. -/

namespace Sys2Proof.Machine

variable {s t : State}

theorem toNat_ofNat_handle {h : Nat} (hh : h < 1024) : (BitVec.ofNat 10 h).toNat = h := by
  rw [BitVec.toNat_ofNat, Nat.mod_eq_of_lt (by omega)]

theorem ofNat_toNat_handle (h : Handle) : BitVec.ofNat 10 h.toNat = h := by
  rw [BitVec.ofNat_toNat, BitVec.setWidth_eq]

theorem nodeAt_addNode_self (nd : Node) (h : s.ncnt.toNat < 517) : (addNode nd s).nodeAt s.ncnt = nd := nodeAt_new h nd

theorem nodeAt_addNode_of_ne (nd : Node) {h : Handle} (hh : h ≠ s.ncnt) : (addNode nd s).nodeAt h = s.nodeAt h :=
  tget_tset_ne _ (fun e => hh (BitVec.eq_of_toNat_eq e.symm)) _ _

/-- The leaf of a symbol (R123). -/
def State.leafNode (s : State) (x : Nat) : Node := ⟨true, BitVec.ofNat 9 x, (s.freqAt x).setWidth 73, 0#10, 0#10⟩

theorem foldl_addLeaf_eq (xs : List Nat) (s : State) :
    xs.foldl addLeaf s =
      ((xs.filter fun x => s.freqAt x != 0#64).map s.leafNode).foldl (fun s nd => addNode nd s) s := by
  induction xs generalizing s with
  | nil => rfl
  | cons x xs ih =>
    have hsh := addLeaf_shape s x
    have hfreq : ∀ y, (addLeaf s x).freqAt y = s.freqAt y := fun y => by rw [hsh]; rfl
    have hleaf : (addLeaf s x).leafNode = s.leafNode := funext fun y => by rw [State.leafNode, hfreq]; rfl
    rw [List.foldl_cons, ih, hleaf]
    simp only [hfreq]
    by_cases hx : s.freqAt x = 0#64
    · rw [List.filter_cons_of_neg (by simpa using hx), addLeaf, if_pos hx]
    · rw [List.filter_cons_of_pos (by simpa using hx), addLeaf, if_neg hx]
      rfl

/-- Nodes added one after another stand in the arena and in the queue one after another (R123). -/
theorem foldl_addNode_spec (nds : List Node) {s : State} (h : s.ncnt.toNat + nds.length ≤ 517) :
    ∃ t, nds.foldl (fun s nd => addNode nd s) s = t ∧ t.ncnt.toNat = s.ncnt.toNat + nds.length ∧
      t.pq = s.pq ++ (List.range' s.ncnt.toNat nds.length).map (BitVec.ofNat 10) ∧
      (∀ h : Handle, h.toNat < s.ncnt.toNat → t.nodeAt h = s.nodeAt h) ∧
      ∀ j (hj : j < nds.length), t.nodeAt (BitVec.ofNat 10 (s.ncnt.toNat + j)) = nds[j] := by
  induction nds generalizing s with
  | nil => exact ⟨s, rfl, rfl, by simp, fun _ _ => rfl, fun j hj => absurd hj (Nat.not_lt_zero _)⟩
  | cons nd nds ih =>
    rw [List.length_cons] at h
    have hn := ncnt_addNode (s := s) (by omega) nd
    obtain ⟨t, ht, hcnt, hpq, hkeep, hnew⟩ := ih (s := addNode nd s) (by omega)
    rw [hn] at hcnt hpq hkeep hnew
    refine ⟨t, ht, by rw [hcnt, List.length_cons]; omega, ?_, fun g hg => ?_, fun j hj => ?_⟩
    · rw [hpq, List.length_cons, List.range'_succ, List.map_cons, ofNat_toNat_handle]
      simp [addNode]
    · rw [hkeep g (by omega), nodeAt_addNode_of_ne _ (fun e => by rw [e] at hg; omega)]
    · cases j with
      | zero =>
        rw [Nat.add_zero, ofNat_toNat_handle, hkeep _ (by omega), nodeAt_addNode_self _ (by omega)]
        rfl
      | succ j =>
        have := hnew j (by simpa using hj)
        rw [Nat.add_assoc, Nat.add_comm 1] at this
        exact this

end Sys2Proof.Machine
end

section
/-! BUILD's merges (spec R123 to R125). -/

namespace Sys2Proof.Machine

variable {s t : State} {n total : Nat}

/-- Node `p` merges the two least nodes below it that have no parent yet (R124). -/
structure State.MergedAt (s : State) (p : Nat) : Prop where
  inner : (s.nodeAt (BitVec.ofNat 10 p)).leaf = false
  left_lt : (s.nodeAt (BitVec.ofNat 10 p)).left.toNat < p
  right_lt : (s.nodeAt (BitVec.ofNat 10 p)).right.toNat < p
  freq : (s.nodeAt (BitVec.ofNat 10 p)).freq.toNat =
    (s.nodeAt (s.nodeAt (BitVec.ofNat 10 p)).left).freq.toNat +
      (s.nodeAt (s.nodeAt (BitVec.ofNat 10 p)).right).freq.toNat
  ne : (s.nodeAt (BitVec.ofNat 10 p)).left ≠ (s.nodeAt (BitVec.ofNat 10 p)).right
  free : ∀ q < p, ¬ s.isParent q (s.nodeAt (BitVec.ofNat 10 p)).left.toNat ∧
    ¬ s.isParent q (s.nodeAt (BitVec.ofNat 10 p)).right.toNat
  below : s.nodeBelow (s.nodeAt (BitVec.ofNat 10 p)).left (s.nodeAt (BitVec.ofNat 10 p)).right
  least : ∀ h < p, (∀ q < p, ¬ s.isParent q h) → h ≠ (s.nodeAt (BitVec.ofNat 10 p)).left.toNat →
    h ≠ (s.nodeAt (BitVec.ofNat 10 p)).right.toNat →
    s.nodeBelow (s.nodeAt (BitVec.ofNat 10 p)).right (BitVec.ofNat 10 h)

/-- The arenas agree below `k`. -/
def AgreeBelow (k : Nat) (s t : State) : Prop := ∀ h : Handle, h.toNat < k → t.nodeAt h = s.nodeAt h

theorem AgreeBelow.isParent {k q : Nat} (ha : AgreeBelow k s t) (hq : q < k) (hk : k ≤ 517) (h : Nat) :
    t.isParent q h ↔ s.isParent q h := by
  have hnode := ha (BitVec.ofNat 10 q) (by rw [toNat_ofNat_handle (by omega)]; exact hq)
  simp only [State.isParent, hnode]

theorem State.MergedAt.of_agree {k p : Nat} (h : s.MergedAt p) (ha : AgreeBelow k s t) (hp : p < k) (hk : k ≤ 517) :
    t.MergedAt p := by
  have hnode := ha (BitVec.ofNat 10 p) (by rw [toNat_ofNat_handle (by omega)]; exact hp)
  have hleft := ha _ (h.left_lt.trans hp)
  have hright := ha _ (h.right_lt.trans hp)
  have hpar : ∀ q < p, ∀ g, t.isParent q g ↔ s.isParent q g := fun q hq g => ha.isParent (hq.trans hp) hk g
  obtain ⟨h1, h2, h3, h4, h5, h6, h7, h8⟩ := h
  refine ⟨?_, ?_, ?_, ?_, ?_, fun q hq => ?_, ?_, fun g hg hfree hl hr => ?_⟩ <;> rw [hnode] at *
  · exact h1
  · exact h2
  · exact h3
  · rw [hleft, hright]; exact h4
  · exact h5
  · rw [hpar q hq, hpar q hq]; exact h6 q hq
  · rw [State.nodeBelow, hleft, hright]; exact h7
  · have hg' := ha (BitVec.ofNat 10 g) (by rw [toNat_ofNat_handle (by omega)]; omega)
    rw [State.nodeBelow, hright, hg']
    exact h8 g hg (fun q hq hpq => hfree q hq ((hpar q hq g).mpr hpq)) hl hr

/-- The frequency of a node as a number. -/
def State.weight (s : State) (h : Handle) : Nat := (s.nodeAt h).freq.toNat

/-- What holds between merges: the queue holds the nodes without a parent, every other node has one. -/
structure State.Merging (s : State) (n total : Nat) : Prop where
  count : s.ncnt.toNat + s.pq.length = 2 * n
  ge : n ≤ s.ncnt.toNat
  le : n ≤ 259
  leaf : ∀ h < n, (s.nodeAt (BitVec.ofNat 10 h)).leaf = true
  merged : ∀ p < s.ncnt.toNat, n ≤ p → s.MergedAt p
  queue : ∀ h : Handle, h ∈ s.pq ↔ h.toNat < s.ncnt.toNat ∧ ∀ q < s.ncnt.toNat, ¬ s.isParent q h.toNat
  nodup : s.pq.Nodup
  once : ∀ h : Handle, h.toNat < s.ncnt.toNat → h ∉ s.pq →
    (List.range s.ncnt.toNat).countP (fun p => decide (s.isParent p h.toNat)) = 1
  sum : (s.pq.map s.weight).sum = total

/-- A parent is above its children. -/
theorem State.Merging.lt_of_isParent (h : s.Merging n total) {p c : Nat} (hp : p < s.ncnt.toNat) (hc : s.isParent p c) :
    c < p := by
  obtain ⟨hinner, hchild⟩ := hc
  rcases Nat.lt_or_ge p n with hlt | hge
  · rw [h.leaf p hlt] at hinner
    cases hinner
  · have hm := h.merged p hp hge
    have := hm.left_lt
    have := hm.right_lt
    omega

/-- A merge takes the two least handles off the queue (R123, R124). -/
theorem merge_eq (hlen : 2 ≤ s.pq.length) :
    ∃ a b rest, merge s = addNode ⟨false, 0#9, (s.nodeAt a).freq + (s.nodeAt b).freq, a, b⟩ { s with pq := rest } ∧
      s.pq.Perm (a :: b :: rest) ∧ (∀ h ∈ b :: rest, h ≠ a → s.nodeBelow a h) ∧
        ∀ h ∈ rest, h ≠ b → s.nodeBelow b h := by
  obtain ⟨a, hea, ha, hleast⟩ := extractMin_least (s := s) (List.ne_nil_of_length_pos (by omega))
  have hlena := List.length_erase_of_mem ha
  obtain ⟨b, heb, hb, hleast'⟩ := extractMin_least (s := { s with pq := s.pq.erase a })
    (List.ne_nil_of_length_pos (l := s.pq.erase a) (by omega))
  have hperm : s.pq.Perm (a :: b :: (s.pq.erase a).erase b) :=
    (List.perm_cons_erase ha).trans ((List.perm_cons_erase hb).cons a)
  refine ⟨a, b, (s.pq.erase a).erase b, by simp only [merge, hea, heb]; rfl, hperm, fun h hh => ?_, fun h hh => ?_⟩
  · exact hleast h (hperm.mem_iff.mpr (List.mem_cons_of_mem _ hh))
  · exact hleast' h (List.mem_of_mem_erase hh)

/-- The state after a merge of `a` and `b`. -/
def State.mergeOf (s : State) (a b : Handle) (rest : List Handle) : State :=
  addNode ⟨false, 0#9, (s.nodeAt a).freq + (s.nodeAt b).freq, a, b⟩ { s with pq := rest }

section

variable {a b : Handle} {rest : List Handle}

theorem State.ncnt_mergeOf (hk : s.ncnt.toNat < 517) : (s.mergeOf a b rest).ncnt.toNat = s.ncnt.toNat + 1 :=
  ncnt_addNode (s := { s with pq := rest }) hk _

theorem State.nodeAt_mergeOf (hk : s.ncnt.toNat < 517) :
    (s.mergeOf a b rest).nodeAt s.ncnt = ⟨false, 0#9, (s.nodeAt a).freq + (s.nodeAt b).freq, a, b⟩ :=
  nodeAt_addNode_self (s := { s with pq := rest }) _ hk

theorem State.agreeBelow_mergeOf : AgreeBelow s.ncnt.toNat s (s.mergeOf a b rest) := fun h hh =>
  nodeAt_addNode_of_ne (s := { s with pq := rest }) _ (fun e => by rw [e] at hh; exact absurd hh (Nat.lt_irrefl _))

theorem State.isParent_mergeOf (hk : s.ncnt.toNat < 517) (g : Handle) :
    (s.mergeOf a b rest).isParent s.ncnt.toNat g.toNat ↔ g = a ∨ g = b := by
  rw [State.isParent, ofNat_toNat_handle, State.nodeAt_mergeOf hk]
  simp only [true_and, BitVec.toNat_inj]
  exact or_congr eq_comm eq_comm

/-- The new node merges the two least (R124). -/
theorem State.Merging.mergedAt_mergeOf (h : s.Merging n total) (htotal : total < 2 ^ 73)
    (hperm : s.pq.Perm (a :: b :: rest)) (hleasta : ∀ h ∈ b :: rest, h ≠ a → s.nodeBelow a h)
    (hleastb : ∀ h ∈ rest, h ≠ b → s.nodeBelow b h) : (s.mergeOf a b rest).MergedAt s.ncnt.toNat := by
  have hcount := h.count
  have hle := h.le
  have hplen := hperm.length_eq
  rw [List.length_cons, List.length_cons] at hplen
  have hk : s.ncnt.toNat < 517 := by omega
  have hnode := State.nodeAt_mergeOf (a := a) (b := b) (rest := rest) hk
  have hagree := State.agreeBelow_mergeOf (s := s) (a := a) (b := b) (rest := rest)
  have hpar : ∀ q < s.ncnt.toNat, ∀ g, (s.mergeOf a b rest).isParent q g ↔ s.isParent q g := fun q hq g =>
    hagree.isParent hq hk.le g
  obtain ⟨hka, hfreea⟩ := (h.queue a).mp (hperm.mem_iff.mpr (by simp))
  obtain ⟨hkb, hfreeb⟩ := (h.queue b).mp (hperm.mem_iff.mpr (by simp))
  obtain ⟨hnota, -⟩ := List.nodup_cons.mp (hperm.nodup_iff.mp h.nodup)
  have hab : b ≠ a := fun e => hnota (by rw [e]; simp)
  have hsum := h.sum
  rw [(hperm.map s.weight).sum_eq, List.map_cons, List.map_cons, List.sum_cons, List.sum_cons, State.weight,
    State.weight] at hsum
  constructor <;> rw [ofNat_toNat_handle, hnode] <;> dsimp only
  · exact hka
  · exact hkb
  · rw [hagree a hka, hagree b hkb, BitVec.toNat_add, Nat.mod_eq_of_lt (by omega)]
  · exact hab.symm
  · exact fun q hq => ⟨fun hp => hfreea q hq ((hpar q hq _).mp hp), fun hp => hfreeb q hq ((hpar q hq _).mp hp)⟩
  · rw [State.nodeBelow, hagree a hka, hagree b hkb]
    exact hleasta b (by simp) hab
  · intro g hg hfree hga hgb
    have hgn := toNat_ofNat_handle (h := g) (by omega)
    have hmem : BitVec.ofNat 10 g ∈ s.pq := (h.queue _).mpr ⟨by rwa [hgn], fun q hq hp => hfree q hq (by
      rw [hgn] at hp
      exact (hpar q hq g).mpr hp)⟩
    have hrest : BitVec.ofNat 10 g ∈ rest := by
      have hmem' := hperm.mem_iff.mp hmem
      rw [List.mem_cons, List.mem_cons] at hmem'
      rcases hmem' with e | e | hr
      · exact absurd (by rw [← e, hgn]) hga
      · exact absurd (by rw [← e, hgn]) hgb
      · exact hr
    rw [State.nodeBelow, hagree b hkb, hagree _ (by rwa [hgn])]
    exact hleastb _ hrest fun e => hgb (by rw [← e, hgn])

theorem State.Merging.mergeOf (h : s.Merging n total) (htotal : total < 2 ^ 73)
    (hperm : s.pq.Perm (a :: b :: rest)) (hleasta : ∀ h ∈ b :: rest, h ≠ a → s.nodeBelow a h)
    (hleastb : ∀ h ∈ rest, h ≠ b → s.nodeBelow b h) : (s.mergeOf a b rest).Merging n total := by
  have hnew := h.mergedAt_mergeOf htotal hperm hleasta hleastb
  have hcount := h.count
  have hge := h.ge
  have hle := h.le
  have hplen := hperm.length_eq
  rw [List.length_cons, List.length_cons] at hplen
  have hk : s.ncnt.toNat < 517 := by omega
  have hcnt := State.ncnt_mergeOf (a := a) (b := b) (rest := rest) hk
  have hpq : (s.mergeOf a b rest).pq = rest ++ [s.ncnt] := rfl
  have hagree := State.agreeBelow_mergeOf (s := s) (a := a) (b := b) (rest := rest)
  have hpar : ∀ q < s.ncnt.toNat, ∀ g, (s.mergeOf a b rest).isParent q g ↔ s.isParent q g := fun q hq g =>
    hagree.isParent hq hk.le g
  have hpark := State.isParent_mergeOf (s := s) (a := a) (b := b) (rest := rest) hk
  obtain ⟨hka, hfreea⟩ := (h.queue a).mp (hperm.mem_iff.mpr (by simp))
  obtain ⟨hkb, hfreeb⟩ := (h.queue b).mp (hperm.mem_iff.mpr (by simp))
  obtain ⟨hnota, hnodup⟩ := List.nodup_cons.mp (hperm.nodup_iff.mp h.nodup)
  obtain ⟨hnotb, hnodup⟩ := List.nodup_cons.mp hnodup
  have hnotc : s.ncnt ∉ rest := fun hmem =>
    absurd ((h.queue _).mp (hperm.mem_iff.mpr (by simp [hmem]))).1 (Nat.lt_irrefl _)
  have hmem : ∀ g, g ∈ s.pq ↔ g = a ∨ g = b ∨ g ∈ rest := fun g => by rw [hperm.mem_iff, List.mem_cons, List.mem_cons]
  refine ⟨?_, by omega, hle, fun g hg => ?_, fun p hp hnp => ?_, fun g => ?_, ?_, fun g hg hnot => ?_, ?_⟩
  · rw [hcnt, hpq, List.length_append, List.length_singleton]
    omega
  · rw [hagree _ (by rw [toNat_ofNat_handle (by omega)]; omega)]
    exact h.leaf g hg
  · rw [hcnt] at hp
    rcases Nat.lt_succ_iff_lt_or_eq.mp hp with hlt | rfl
    · exact (h.merged p hlt hnp).of_agree hagree hlt hk.le
    · exact hnew
  · rw [hpq, List.mem_append, List.mem_singleton, hcnt]
    constructor
    · rintro (hr | rfl)
      · obtain ⟨hlt, hfree⟩ := (h.queue g).mp ((hmem g).mpr (.inr (.inr hr)))
        refine ⟨by omega, fun q hq hp => ?_⟩
        rcases Nat.lt_succ_iff_lt_or_eq.mp hq with hq | rfl
        · exact hfree q hq ((hpar q hq _).mp hp)
        · rcases (hpark g).mp hp with rfl | rfl
          · exact hnota (List.mem_cons_of_mem _ hr)
          · exact hnotb hr
      · refine ⟨Nat.lt_succ_self _, fun q hq hp => ?_⟩
        rcases Nat.lt_succ_iff_lt_or_eq.mp hq with hq | rfl
        · have := h.lt_of_isParent hq ((hpar q hq _).mp hp)
          omega
        · rcases (hpark s.ncnt).mp hp with e | e
          · exact absurd (e ▸ hka) (Nat.lt_irrefl _)
          · exact absurd (e ▸ hkb) (Nat.lt_irrefl _)
    · rintro ⟨hlt, hfree⟩
      rcases Nat.lt_succ_iff_lt_or_eq.mp hlt with hlt | heq
      · have hq := (h.queue g).mpr ⟨hlt, fun q hq hp => hfree q (by omega) ((hpar q hq _).mpr hp)⟩
        rcases (hmem g).mp hq with e | e | hr
        · exact absurd ((hpark g).mpr (.inl e)) (hfree _ (Nat.lt_succ_self _))
        · exact absurd ((hpark g).mpr (.inr e)) (hfree _ (Nat.lt_succ_self _))
        · exact .inl hr
      · exact .inr (BitVec.eq_of_toNat_eq heq)
  · rw [hpq]
    exact List.nodup_append.mpr ⟨hnodup, by simp, fun x hx y hy e => hnotc (by
      rw [List.mem_singleton] at hy
      rwa [← hy, ← e])⟩
  · rw [hpq, List.mem_append, List.mem_singleton, not_or] at hnot
    obtain ⟨hr, hc⟩ := hnot
    have hlt : g.toNat < s.ncnt.toNat := by
      have hne : g.toNat ≠ s.ncnt.toNat := fun e => hc (BitVec.eq_of_toNat_eq e)
      rw [hcnt] at hg
      omega
    have hold : (List.range s.ncnt.toNat).countP (fun p => decide ((s.mergeOf a b rest).isParent p g.toNat)) =
        (List.range s.ncnt.toNat).countP fun p => decide (s.isParent p g.toNat) :=
      List.countP_congr fun q hq => by simpa using hpar q (List.mem_range.mp hq) g.toNat
    rw [hcnt, List.range_succ, List.countP_append, hold, List.countP_singleton]
    by_cases hab : g = a ∨ g = b
    · have hfree : ∀ q < s.ncnt.toNat, ¬ s.isParent q g.toNat := by
        rcases hab with rfl | rfl
        · exact hfreea
        · exact hfreeb
      rw [List.countP_eq_zero.mpr fun q hq => by simpa using hfree q (List.mem_range.mp hq),
        if_pos (decide_eq_true ((hpark g).mpr hab))]
    · have hnotq : g ∉ s.pq := fun hq => by
        rcases (hmem g).mp hq with e | e | hr'
        · exact hab (.inl e)
        · exact hab (.inr e)
        · exact hr hr'
      rw [h.once g hlt hnotq, if_neg (by rw [decide_eq_true_eq, hpark]; exact hab)]
  · have hsum := h.sum
    rw [(hperm.map s.weight).sum_eq, List.map_cons, List.map_cons, List.sum_cons, List.sum_cons, State.weight,
      State.weight] at hsum
    have hrest : rest.map (s.mergeOf a b rest).weight = rest.map s.weight := List.map_congr_left fun g hg => by
      rw [State.weight, hagree g ((h.queue g).mp ((hmem g).mpr (.inr (.inr hg)))).1]
      rfl
    have hw : (s.mergeOf a b rest).weight s.ncnt = (s.nodeAt a).freq.toNat + (s.nodeAt b).freq.toNat := by
      rw [State.weight, State.nodeAt_mergeOf hk, BitVec.toNat_add, Nat.mod_eq_of_lt (by omega)]
    rw [hpq, List.map_append, List.sum_append, hrest, List.map_singleton, List.sum_singleton, hw]
    omega

end

theorem merge_merging (h : s.Merging n total) (hlen : 2 ≤ s.pq.length) (htotal : total < 2 ^ 73) :
    (merge s).Merging n total ∧ AgreeBelow s.ncnt.toNat s (merge s) ∧ (merge s).pq.length + 1 = s.pq.length ∧
      (merge s).ncnt.toNat = s.ncnt.toNat + 1 := by
  obtain ⟨a, b, rest, hmerge, hperm, hleasta, hleastb⟩ := merge_eq hlen
  have hcount := h.count
  have hle := h.le
  have hplen := hperm.length_eq
  rw [List.length_cons, List.length_cons] at hplen
  rw [hmerge]
  refine ⟨h.mergeOf htotal hperm hleasta hleastb, State.agreeBelow_mergeOf, ?_, State.ncnt_mergeOf (by omega)⟩
  rw [hplen]
  simp [addNode]

/-- The merges end with one handle in the queue (R123). -/
theorem mergeLoop_merging (fuel : Nat) {s : State} (h : s.Merging n total) (hf : s.pq.length ≤ fuel)
    (hne : s.pq ≠ []) (htotal : total < 2 ^ 73) :
    (mergeLoop fuel s).Merging n total ∧ AgreeBelow s.ncnt.toNat s (mergeLoop fuel s) ∧
      (mergeLoop fuel s).pq.length = 1 := by
  have hpos := List.length_pos_iff.mpr hne
  induction fuel generalizing s with
  | zero => omega
  | succ fuel ih =>
    rw [mergeLoop]
    split
    · obtain ⟨hm, ha, hl, hk⟩ := merge_merging h (by omega) htotal
      obtain ⟨hm', ha', hl'⟩ := ih hm (by omega) (List.ne_nil_of_length_pos (by omega)) (by omega)
      exact ⟨hm', fun g hg => (ha' g (by omega)).trans (ha g hg), hl'⟩
    · exact ⟨h, fun _ _ => rfl, by omega⟩

end Sys2Proof.Machine
end

section
/-! BUILD (spec R123 to R125): the leaves, then the merges. -/

namespace Sys2Proof.Machine

variable {s t : State}

theorem State.presentCount_le (s : State) : s.presentCount ≤ 259 := by
  simpa [State.presentCount, Config.nsym] using List.countP_le_length (p := fun x => s.freqAt x != 0#64)
    (l := List.range 259)

theorem State.mem_presentSyms {x : Nat} : x ∈ s.presentSyms ↔ x < 259 ∧ s.freqAt x ≠ 0#64 := by
  simp [State.presentSyms, Config.nsym]

/-- The sum of all counts (R125). -/
def State.totalFreq (s : State) : Nat := ((List.range 259).map fun x => (s.freqAt x).toNat).sum

theorem sum_map_filter_ne_zero (f : Nat → BitVec 64) (xs : List Nat) :
    ((xs.filter fun x => f x != 0#64).map fun x => (f x).toNat).sum = (xs.map fun x => (f x).toNat).sum := by
  induction xs with
  | nil => rfl
  | cons x xs ih =>
    by_cases hx : f x = 0#64
    · rw [List.filter_cons_of_neg (by simpa using hx), ih, List.map_cons, List.sum_cons, hx]
      simp
    · rw [List.filter_cons_of_pos (by simpa using hx), List.map_cons, List.sum_cons, ih, List.map_cons, List.sum_cons]

theorem State.totalFreq_eq (s : State) : (s.presentSyms.map fun x => (s.freqAt x).toNat).sum = s.totalFreq :=
  sum_map_filter_ne_zero s.freqAt _

/-- 73 bits hold the sum of 259 counts (R125). -/
theorem State.totalFreq_lt (s : State) : s.totalFreq < 2 ^ 73 := by
  have hle := List.sum_le_card_nsmul ((List.range 259).map fun x => (s.freqAt x).toNat) (2 ^ 64) fun y hy => by
    obtain ⟨x, -, rfl⟩ := List.mem_map.mp hy
    exact (s.freqAt x).isLt.le
  rw [List.length_map, List.length_range, smul_eq_mul] at hle
  exact lt_of_le_of_lt hle (by decide)

/-- BUILD with its leaves added (R123). -/
def State.leavesAdded (s : State) : State :=
  (List.range Config.nsym).foldl addLeaf { s.clearFlags chainFromTree with ncnt := 0#10, pq := [] }

theorem State.leavesAdded_eq (s : State) : s.leavesAdded =
    (List.range Config.nsym).foldl addLeaf { s.clearFlags chainFromTree with ncnt := 0#10, pq := [] } := rfl

theorem State.leavesAdded_spec (s : State) :
    s.leavesAdded.ncnt.toNat = s.presentCount ∧
      s.leavesAdded.pq = (List.range s.presentCount).map (BitVec.ofNat 10) ∧
      ∀ h (hh : h < s.presentSyms.length), s.leavesAdded.nodeAt (BitVec.ofNat 10 h) = s.leafNode s.presentSyms[h] := by
  obtain ⟨s0, hs0⟩ : ∃ u : State, u = { s.clearFlags chainFromTree with ncnt := 0#10, pq := [] } := ⟨_, rfl⟩
  have hfreq : ∀ x, s0.freqAt x = s.freqAt x := fun x => by rw [hs0, State.clearFlags_shape]; rfl
  have hleaf : s0.leafNode = s.leafNode := funext fun x => by rw [State.leafNode, hfreq]; rfl
  have hadded : s.leavesAdded = (s.presentSyms.map s.leafNode).foldl (fun s nd => addNode nd s) s0 := by
    rw [State.leavesAdded, ← hs0, foldl_addLeaf_eq, hleaf]
    simp only [hfreq]
    rfl
  have hlen := s.presentSyms_length
  have hle := s.presentCount_le
  have h0 : s0.ncnt.toNat = 0 := by rw [hs0]; rfl
  obtain ⟨t, ht, hcnt, hpq, -, hnew⟩ := foldl_addNode_spec (s.presentSyms.map s.leafNode) (s := s0)
    (by rw [List.length_map]; omega)
  rw [h0, List.length_map, hlen] at hcnt hpq
  rw [h0] at hnew
  rw [hadded, ht]
  refine ⟨hcnt.trans (Nat.zero_add _), ?_, fun h hh => ?_⟩
  · rw [hpq, List.range_eq_range', show s0.pq = [] by rw [hs0], List.nil_append]
  · have := hnew h (by rwa [List.length_map])
    rwa [Nat.zero_add, List.getElem_map] at this

theorem State.leavesAdded_merging (s : State) : s.leavesAdded.Merging s.presentCount s.totalFreq := by
  obtain ⟨hcnt, hpq, hnode⟩ := s.leavesAdded_spec
  have hle := s.presentCount_le
  have hlen := s.presentSyms_length
  have hleaf : ∀ h < s.presentCount, (s.leavesAdded.nodeAt (BitVec.ofNat 10 h)).leaf = true := fun h hh => by
    rw [hnode h (hlen ▸ hh)]
    rfl
  have hfree : ∀ q < s.presentCount, ∀ g, ¬ s.leavesAdded.isParent q g := fun q hq g hp => by
    rw [State.isParent, hleaf q hq] at hp
    cases hp.1
  have hmem : ∀ h : Handle, h ∈ s.leavesAdded.pq ↔ h.toNat < s.presentCount := fun h => by
    rw [hpq, List.mem_map]
    constructor
    · rintro ⟨k, hk, rfl⟩
      have := List.mem_range.mp hk
      rwa [toNat_ofNat_handle (by omega)]
    · exact fun hh => ⟨h.toNat, List.mem_range.mpr hh, ofNat_toNat_handle h⟩
  refine ⟨?_, by omega, hle, hleaf, fun p hp hn => by omega, fun h => ?_, ?_, fun h hh hnot => ?_, ?_⟩
  · rw [hpq, hcnt, List.length_map, List.length_range]
    omega
  · rw [hmem, hcnt]
    exact ⟨fun hh => ⟨hh, fun q hq => hfree q hq _⟩, fun hh => hh.1⟩
  · rw [hpq]
    refine List.Nodup.map_on (fun x hx y hy e => ?_) List.nodup_range
    have hxlt := List.mem_range.mp hx
    have hylt := List.mem_range.mp hy
    rw [← toNat_ofNat_handle (h := x) (by omega), e, toNat_ofNat_handle (by omega)]
  · exact absurd ((hmem h).mpr (hcnt ▸ hh)) hnot
  · rw [← s.totalFreq_eq, hpq, List.map_map]
    refine congrArg List.sum (List.ext_getElem (by simp [hlen]) fun i h1 h2 => ?_)
    simp only [List.getElem_map, List.getElem_range, Function.comp_apply, State.weight]
    rw [hnode i (by simpa using h2), State.leafNode]
    have hlt := (s.freqAt (s.presentSyms[i]'(by simpa using h2))).isLt
    rw [BitVec.toNat_setWidth, Nat.mod_eq_of_lt (by omega)]

/-- The arena of a finished BUILD (R123 to R125). -/
theorem buildBody_merging (h : s.presentSyms ≠ []) :
    ∃ t, buildBody s = .done () t ∧ t.Merging s.presentCount s.totalFreq ∧ t.pq = [t.root] ∧
      ∀ h (hh : h < s.presentSyms.length), t.nodeAt (BitVec.ofNat 10 h) = s.leafNode s.presentSyms[h] := by
  have hlen := s.presentSyms_length
  have hpos := List.length_pos_iff.mpr h
  obtain ⟨hcnt, hpq, hnode⟩ := s.leavesAdded_spec
  have hne : s.leavesAdded.pq ≠ [] := by
    rw [hpq]
    exact List.ne_nil_of_length_pos (by simp; omega)
  obtain ⟨hm, hagree, h1⟩ := mergeLoop_merging s.leavesAdded.pq.length s.leavesAdded_merging le_rfl hne s.totalFreq_lt
  obtain ⟨r, hr⟩ := List.length_eq_one_iff.mp h1
  obtain ⟨u, hu⟩ : ∃ u, u = mergeLoop s.leavesAdded.pq.length s.leavesAdded := ⟨_, rfl⟩
  rw [← hu] at hm hagree hr
  refine ⟨{ u with root := r }.setFlag .tValid true, ?_, ?_, hr, fun g hg => ?_⟩
  · unfold buildBody
    dsimp only
    rw [← s.leavesAdded_eq, ← hu]
    simp only [hr]
  · obtain ⟨hcount, hge, hle, hleaf, hmerged, hqueue, hnodup, honce, hsum⟩ := hm
    have hk : u.ncnt.toNat ≤ 517 := by
      rw [hr, List.length_singleton] at hcount
      omega
    exact ⟨hcount, hge, hle, hleaf, fun p hp hn => (hmerged p hp hn).of_agree (fun _ _ => rfl) hp hk, hqueue, hnodup,
      honce, hsum⟩
  · have hk := s.presentCount_le
    exact (hagree _ (by rw [toNat_ofNat_handle (by omega), hcnt]; omega)).trans (hnode g hg)

/-- The machine's list of leaves is that of the tree the arena holds. -/
theorem State.leaves_eq_depths {c : CodeTree} {fuel n d : Nat} {h : Handle} (hc : c.At s.node n h)
    (hf : c.leaves.length ≤ fuel) : s.leaves fuel h d = c.depths d := by
  induction c generalizing fuel d h with
  | leaf x =>
    obtain ⟨-, hleaf, hsym⟩ := hc
    cases fuel with
    | zero => simp [CodeTree.leaves] at hf
    | succ fuel => rw [State.leaves, State.nodeAt, hleaf, if_pos rfl, hsym, CodeTree.depths]
  | node l r ihl ihr =>
    obtain ⟨-, hleaf, hl, hr⟩ := hc
    have hlpos := l.leaves_pos
    have hrpos := r.leaves_pos
    rw [CodeTree.leaves, List.length_append] at hf
    cases fuel with
    | zero => omega
    | succ fuel =>
      rw [State.leaves, State.nodeAt, hleaf, if_neg (by decide), ihl hl (by omega), ihr hr (by omega), CodeTree.depths]

/-- The last node is the root (R123). -/
theorem State.Merging.root_eq {n total : Nat} {r : Handle} (h : s.Merging n total) (hpq : s.pq = [r]) :
    s.ncnt.toNat = 2 * n - 1 ∧ r.toNat = 2 * n - 2 := by
  have hcount := h.count
  have hle := h.le
  have hge := h.ge
  rw [hpq, List.length_singleton] at hcount
  have hlast : BitVec.ofNat 10 (2 * n - 2) ∈ s.pq := (h.queue _).mpr (by
    rw [toNat_ofNat_handle (by omega)]
    refine ⟨by omega, fun q hq hp => ?_⟩
    have := h.lt_of_isParent hq hp
    omega)
  rw [hpq, List.mem_singleton] at hlast
  exact ⟨by omega, by rw [← hlast, toNat_ofNat_handle (by omega)]⟩

theorem State.Merging.arenaOk {n total : Nat} (h : s.Merging n total) (hpq : s.pq = [s.root])
    (hsym : ∀ h < n, (s.nodeAt (BitVec.ofNat 10 h)).sym.toNat < Config.nsym) (hpos : 1 ≤ n) : s.ArenaOk n := by
  obtain ⟨hcnt, hroot⟩ := h.root_eq hpq
  refine ⟨hpos, h.le, hcnt, hroot, fun g hg => ⟨h.leaf g hg, hsym g hg⟩, fun p hp hn => ?_⟩
  have hm := h.merged p (by omega) hn
  exact ⟨hm.inner, hm.left_lt, hm.right_lt⟩

/-- Every node but the root is the child of one node (R125). -/
theorem State.Merging.one_parent {n total : Nat} (h : s.Merging n total) (hpq : s.pq = [s.root]) {g : Nat}
    (hg : g < s.root.toNat) : (List.range s.ncnt.toNat).countP (fun p => decide (s.isParent p g)) = 1 := by
  obtain ⟨hcnt, hroot⟩ := h.root_eq hpq
  have hle := h.le
  have hgn := toNat_ofNat_handle (h := g) (by omega)
  have := h.once (BitVec.ofNat 10 g) (by omega) (by
    rw [hpq, List.mem_singleton]
    rintro e
    rw [← e, hgn] at hg
    omega)
  rwa [hgn] at this

theorem status_built (s : State) :
    ((s.clearFlags chainFromTree).setFlag .tValid true).status = (s.status &&& 0xF83F#16) ||| 0x0040#16 := by
  show statusWith (s.clearFlags chainFromTree).status .tValid true = _
  rw [status_clearFlags, show keepMask chainFromTree = 0xF83F#16 by decide]
  rfl

/-- All that BUILD leaves (R123 to R125). -/
theorem buildBody_tree (h : s.presentSyms ≠ []) :
    ∃ (t : State) (c : CodeTree), buildBody s = .done () t ∧ t.Merging s.presentCount s.totalFreq ∧ t.pq = [t.root] ∧
      (∀ h (hh : h < s.presentSyms.length), t.nodeAt (BitVec.ofNat 10 h) = s.leafNode s.presentSyms[h]) ∧
      t.ArenaOk s.presentCount ∧ c.At t.node t.ncnt.toNat t.root ∧ c.leaves.Perm s.presentSyms ∧
      t = { s with
        node := t.node, ncnt := t.ncnt, root := t.root, pq := t.pq,
        status := (s.status &&& 0xF83F#16) ||| 0x0040#16 } := by
  obtain ⟨t, ht, hm, hpq, hnode⟩ := buildBody_merging h
  obtain ⟨u, c, hu, hc, hleaves, -, hsh⟩ := buildBody_spec h
  rw [ht] at hu
  cases hu
  have hlen := s.presentSyms_length
  have hpos := List.length_pos_iff.mpr h
  refine ⟨t, c, ht, hm, hpq, hnode, hm.arenaOk hpq (fun g hg => ?_) (by omega), hc, hleaves, ?_⟩
  · have hlt := (State.mem_presentSyms.mp (List.getElem_mem (hlen ▸ hg))).1
    rw [hnode g (hlen ▸ hg), State.leafNode, Config.nsym]
    simp only [BitVec.toNat_ofNat]
    omega
  · rw [status_built] at hsh
    exact hsh

/-- Settles O28: the merges' invariant at the end, where the queue holds the root alone. -/
theorem buildMakesTree : Obligations.BuildMakesTree := by
  unfold Obligations.BuildMakesTree
  intro s h ho hpos
  have hlen := s.presentSyms_length
  have hcount := s.presentCount_le
  obtain ⟨t, c, ht, hm, hpq, hnode, harena, hc, hleaves, hsh⟩ :=
    buildBody_tree (s := s) (List.ne_nil_of_length_pos (by omega))
  refine ⟨t, ?_, harena, hpq, hnode, fun p hp hn => ?_, fun p hp hn => ?_, ?_, fun g hg => hm.one_parent hpq hg, ?_,
    hsh⟩
  · rw [exec_of_ready (i := .build) h rfl ho]
    exact congrArg Run.outcome ht
  · exact ⟨(hm.merged p hp hn).freq, (hm.merged p hp hn).ne⟩
  · exact ⟨(hm.merged p hp hn).free, (hm.merged p hp hn).below, (hm.merged p hp hn).least⟩
  · have hsum := hm.sum
    rw [hpq] at hsum
    simpa [State.weight, State.totalFreq] using hsum
  · have hsize := hleaves.length_eq
    rw [State.leaves_eq_depths hc (by omega), c.map_fst_depths]
    exact hleaves

end Sys2Proof.Machine
end

section
/-! WALK (spec R126, R127), and the lengths of BUILD's tree. -/

namespace Sys2Proof.Machine

variable {s t : State} {n : Nat}

/-- Below each node of an arena whose inner nodes are above their children stands a tree (R123, R125). -/
theorem State.ArenaOk.exists_tree (h : s.ArenaOk n) {g : Handle} (hg : g.toNat < 2 * n - 1) :
    ∃ c : CodeTree, c.At s.node s.ncnt.toNat g ∧
      (∀ x ∈ c.leaves, ∃ k < n, (s.nodeAt (BitVec.ofNat 10 k)).sym.toNat = x) ∧
      ∀ fuel d, g.toNat < fuel → s.leaves fuel g d = c.depths d := by
  obtain ⟨hpos, hle, hcnt, hroot, hleaf, hinner⟩ := id h
  obtain ⟨m, hm⟩ : ∃ m, m = g.toNat := ⟨_, rfl⟩
  induction m using Nat.strong_induction_on generalizing g with
  | _ m ih =>
    subst hm
    have hgh := ofNat_toNat_handle g
    rcases Nat.lt_or_ge g.toNat n with hlt | hge
    · obtain ⟨hl, -⟩ := hleaf g.toNat hlt
      rw [hgh] at hl
      refine ⟨.leaf (s.nodeAt g).sym.toNat, ⟨hcnt ▸ hg, hl, rfl⟩, fun x hx => ?_, fun fuel d hf => ?_⟩
      · rw [CodeTree.leaves, List.mem_singleton] at hx
        exact ⟨g.toNat, hlt, by rw [hgh, hx]⟩
      · cases fuel with
        | zero => omega
        | succ fuel => rw [State.leaves, hl, if_pos rfl, CodeTree.depths]
    · obtain ⟨hi, hleft, hright⟩ := hinner g.toNat hg hge
      rw [hgh] at hi hleft hright
      obtain ⟨l, hl, hlsym, hlw⟩ := ih _ hleft (g := (s.nodeAt g).left) (by omega) rfl
      obtain ⟨r, hr, hrsym, hrw⟩ := ih _ hright (g := (s.nodeAt g).right) (by omega) rfl
      refine ⟨.node l r, ⟨hcnt ▸ hg, hi, hl, hr⟩, fun x hx => ?_, fun fuel d hf => ?_⟩
      · rcases List.mem_append.mp hx with hx | hx
        · exact hlsym x hx
        · exact hrsym x hx
      · cases fuel with
        | zero => omega
        | succ fuel =>
          rw [State.leaves, hi, if_neg (by decide), hlw _ _ (by omega), hrw _ _ (by omega), CodeTree.depths]

/-- The tree below the root, where its leaves carry different symbols: at most as many as the arena has leaves. -/
theorem State.ArenaOk.exists_root_tree (h : s.ArenaOk n) (hnd : ((s.leaves 517 s.root 0).map Prod.fst).Nodup) :
    ∃ c : CodeTree, c.At s.node s.ncnt.toNat s.root ∧ s.leaves 517 s.root 0 = c.depths 0 ∧ c.leaves.Nodup ∧
      (∀ x ∈ c.leaves, x < 259) ∧ c.leaves.length ≤ n := by
  obtain ⟨hpos, hle, hcnt, hroot, hleaf, -⟩ := id h
  rw [Config.nsym] at hle
  obtain ⟨c, hc, hsym, hwalk⟩ := h.exists_tree (g := s.root) (by omega)
  have hleaves := hwalk 517 0 (by omega)
  rw [hleaves, c.map_fst_depths] at hnd
  refine ⟨c, hc, hleaves, hnd, fun x hx => ?_, ?_⟩
  · obtain ⟨k, hk, rfl⟩ := hsym x hx
    exact (hleaf k hk).2
  · have hsub : c.leaves ⊆ (List.range n).map fun k => (s.nodeAt (BitVec.ofNat 10 k)).sym.toNat := fun x hx => by
      obtain ⟨k, hk, hx'⟩ := hsym x hx
      exact List.mem_map.mpr ⟨k, List.mem_range.mpr hk, hx'⟩
    simpa using (List.subperm_of_subset hnd hsub).length_le

/-- Every flag after a command of the chain has set its own (R40). -/
theorem flag_chainSet {fs : List Flag} {g : Flag} (hs : t.status = ((s.clearFlags fs).setFlag g true).status)
    (f : Flag) :
    t.flag f = if f = g then true else s.flag f && !decide (f ∈ fs) := by
  rw [State.flag_congr hs, State.flag_setFlag, State.flag_clearFlags]

theorem status_walked (s : State) :
    ((s.clearFlags chainFromLen).setFlag .lValid true).status = (s.status &&& 0xF87F#16) ||| 0x0080#16 := by
  show statusWith (s.clearFlags chainFromLen).status .lValid true = _
  rw [status_clearFlags, show keepMask chainFromLen = 0xF87F#16 by decide]
  rfl

/-- Settles O29: the walk visits the tree below the root. -/
theorem walkGivesDepths : Obligations.WalkGivesDepths := by
  unfold Obligations.WalkGivesDepths
  intro n s h ho harena hnd
  obtain ⟨-, hle, hcnt, -⟩ := id harena
  rw [Config.nsym] at hle
  obtain ⟨c, hc, hleaves, hnd', hsym, hlen⟩ := harena.exists_root_tree hnd
  obtain ⟨t, ht, hdepth, hother, hsh⟩ := walkBody_spec hc (by omega) hnd' hsym (by omega)
  rw [hleaves]
  refine ⟨t, ?_, fun x d hx => ⟨hdepth x d hx, ?_⟩, fun x _ hx => hother x ?_, ?_⟩
  · rw [exec_of_ready (i := .walk) h rfl ho]
    exact congrArg Run.outcome ht
  · have := (CodeTree.depth_bounds hx).2
    omega
  · rwa [c.map_fst_depths] at hx
  · rw [status_walked] at hsh
    exact hsh

theorem State.HasDepths.kraft_eq {c : CodeTree} (h : s.HasDepths c) : kraft s.usedLengths = 2 ^ Config.lmax := by
  have hlens : s.usedLengths.Perm ((c.depths 0).map Prod.snd) := by
    refine (h.alphabet_perm.map _).trans ?_
    rw [← c.map_fst_depths 0, List.map_map]
    exact .of_eq (List.map_congr_left fun p hp => h.depth p.1 p.2 hp)
  have hle := h.le_nsym
  rw [kraft_perm hlens, c.kraft_depths (by rw [Config.lmax]; omega), Nat.sub_zero]

/-- BUILD and WALK one after another, with two symbols at least (R123, R126). -/
theorem buildWalk_spec (h : 2 ≤ s.presentSyms.length) :
    ∃ t u c, buildBody s = .done () t ∧ walkBody t = .done () u ∧ u.HasDepths c ∧ c.leaves.Perm s.presentSyms ∧
      t = { s with
        node := t.node, ncnt := t.ncnt, root := t.root, pq := t.pq, status := (s.status &&& 0xF83F#16) ||| 0x0040#16 } ∧
      u = { t with len := u.len, status := (t.status &&& 0xF87F#16) ||| 0x0080#16 } := by
  obtain ⟨t, c, ht, -, -, -, harena, hc, hleaves, hsht⟩ :=
    buildBody_tree (s := s) (List.ne_nil_of_length_pos (by omega))
  obtain ⟨-, hle, hcnt, -⟩ := harena
  rw [Config.nsym] at hle
  have hlen := hleaves.length_eq
  have hnd : c.leaves.Nodup := hleaves.nodup_iff.mpr s.presentSyms_nodup
  have hlt : ∀ x ∈ c.leaves, x < 259 := fun x hx => (State.mem_presentSyms.mp (hleaves.mem_iff.mp hx)).1
  have hlen' := s.presentSyms_length
  obtain ⟨u, hu, hdepth, hother, hshu⟩ := walkBody_spec hc (by omega) hnd hlt (by omega)
  rw [status_walked] at hshu
  exact ⟨t, u, c, ht, hu, ⟨hdepth, hother, hnd, hlt, by omega, by omega⟩, hleaves, hsht, hshu⟩

theorem canonBody_completes (op : Opcode) (h : s.LengthsOk) (hs : Ready s) :
    ∃ t, canonBody op s = .done () t ∧ Ready t ∧ t.flag .cValid = true ∧ t.hn.toNat = s.alphabet.length := by
  obtain ⟨cc, -, hrun⟩ := canonBody_of_room op h
  refine ⟨_, hrun, ?_, ?_, s.canonHeader_hn.trans s.sortedAlphabet_perm.length_eq⟩
  · show (((s.clearFlags chainFromHeader).setFlag .hValid true).setFlag .cValid true).flag .faulted = false
    rw [State.flag_setFlag, State.flag_setFlag, State.flag_clearFlags, hs]
    rfl
  · rw [State.flag_setFlag]
    rfl

/-- Settles O30: the lengths are the depths of a binary tree, which fill the code space. -/
theorem huffmanLengthsAreComplete : Obligations.HuffmanLengthsAreComplete := by
  unfold Obligations.HuffmanLengthsAreComplete
  intro s h ho htwo
  have hlen := s.presentSyms_length
  obtain ⟨t, u, c, ht, hu, hdepths, hleaves, hsht, hshu⟩ := buildWalk_spec (s := s) (by omega)
  have hst : t.status = (s.status &&& 0xF83F#16) ||| 0x0040#16 := by rw [hsht]
  have hsu : u.status = (t.status &&& 0xF87F#16) ||| 0x0080#16 := by rw [hshu]
  have hft := flag_chainSet (hst.trans (status_built s).symm)
  have hfu := flag_chainSet (hsu.trans (status_walked t).symm)
  have htr : Ready t := (hft .faulted).trans (by rw [h]; rfl)
  have hur : Ready u := (hfu .faulted).trans (by rw [htr]; rfl)
  obtain ⟨v, hv, hvr, hvc, hvn⟩ := canonBody_completes 0x0D#6 hdepths.lengthsOk hur
  refine ⟨t, u, v, ?_, ?_, ?_, hvr, hvc, ?_, hdepths.kraft_eq.trans (by rw [Config.lmax])⟩
  · rw [exec_of_ready (i := .build) h rfl ho]
    exact congrArg Run.outcome ht
  · rw [exec_of_ready (i := .walk) htr rfl (hft .tValid)]
    exact congrArg Run.outcome hu
  · rw [exec_of_ready (i := .canon) hur rfl (hfu .lValid)]
    exact congrArg Run.outcome hv
  · rw [hvn, (hdepths.alphabet_perm.trans hleaves).length_eq, hlen]

end Sys2Proof.Machine
end

section
/-! The tables' invariant (spec R40, R121, R125, R30 to R34, R167) where the tables stay as they are, and after
RESET. -/

namespace Sys2Proof.Machine

variable {i : Instr} {s t u : State}

/-! ### The same tables -/

/-- The encoder's tables and their flags are the same. -/
structure SameEncoder (s t : State) : Prop where
  fValid : t.flag .fValid = s.flag .fValid
  tValid : t.flag .tValid = s.flag .tValid
  lValid : t.flag .lValid = s.flag .lValid
  freq : t.freq = s.freq
  node : t.node = s.node
  ncnt : t.ncnt = s.ncnt
  root : t.root = s.root
  len : t.len = s.len

/-- All tables and validity flags are the same. -/
structure SameTables (s t : State) : Prop extends SameEncoder s t where
  hValid : t.flag .hValid = s.flag .hValid
  cValid : t.flag .cValid = s.flag .cValid
  trValid : t.flag .trValid = s.flag .trValid
  hn : t.hn = s.hn
  ord : t.ord = s.ord
  cntl : t.cntl = s.cntl
  maxl : t.maxl = s.maxl
  cl : t.cl = s.cl
  cc : t.cc = s.cc
  tn : t.tn = s.tn

theorem SameEncoder.refl (s : State) : SameEncoder s s := ⟨rfl, rfl, rfl, rfl, rfl, rfl, rfl, rfl⟩

theorem SameEncoder.trans (h : SameEncoder s t) (h' : SameEncoder t u) : SameEncoder s u :=
  ⟨h'.1.trans h.1, h'.2.trans h.2, h'.3.trans h.3, h'.4.trans h.4, h'.5.trans h.5, h'.6.trans h.6, h'.7.trans h.7,
    h'.8.trans h.8⟩

theorem SameTables.refl (s : State) : SameTables s s := ⟨.refl s, rfl, rfl, rfl, rfl, rfl, rfl, rfl, rfl, rfl, rfl⟩

theorem SameTables.trans (h : SameTables s t) (h' : SameTables t u) : SameTables s u :=
  ⟨h.1.trans h'.1, h'.2.trans h.2, h'.3.trans h.3, h'.4.trans h.4, h'.5.trans h.5, h'.6.trans h.6, h'.7.trans h.7,
    h'.8.trans h.8, h'.9.trans h.9, h'.10.trans h.10, h'.11.trans h.11⟩

/-- Another flag is not of the chain. -/
theorem SameTables.setFlag (h : SameTables s t) {f : Flag} (hf : f ∉ chainFromFreq) (b : Bool) :
    SameTables s (t.setFlag f b) := by
  have hkeep : ∀ g ∈ chainFromFreq, (t.setFlag f b).flag g = t.flag g := fun g hg =>
    (State.flag_setFlag _ _ _ _).trans (if_neg (by rintro rfl; exact hf hg))
  exact h.trans ⟨⟨hkeep _ (by decide), hkeep _ (by decide), hkeep _ (by decide), rfl, rfl, rfl, rfl, rfl⟩,
    hkeep _ (by decide), hkeep _ (by decide), hkeep _ (by decide), rfl, rfl, rfl, rfl, rfl, rfl, rfl⟩

theorem SameTables.of_raise (s : State) (k : FaultKind) (info : BitVec 16) : SameTables s (s.raise k info) := by
  constructor
  · constructor <;> simp
  all_goals simp

/-- A write of a command that writes no table (R20 to R23, R35, R36, R51, R52). -/
theorem OneWrite.sameTables (h : OneWrite i s t) (hi : writesTables i = false) : SameTables s t := by
  have hclash : ∀ {p : Prop}, writesTables i = true → p := fun h => absurd (hi.symm.trans h) (by decide)
  cases h with
  | raise k info => exact .of_raise s k info
  | tables h hi' => exact hclash hi'
  | chainFlag b h hi' => exact hclash hi'
  | clearFlag h hi' =>
    rcases hi' with hf | hi'
    · exact (SameTables.refl s).setFlag hf false
    · exact hclash hi'
  | writeBit b =>
    rw [writeBit_shape]
    exact ⟨⟨rfl, rfl, rfl, rfl, rfl, rfl, rfl, rfl⟩, rfl, rfl, rfl, rfl, rfl, rfl, rfl, rfl, rfl, rfl⟩
  | flush =>
    rw [flush_shape]
    exact ⟨⟨rfl, rfl, rfl, rfl, rfl, rfl, rfl, rfl⟩, rfl, rfl, rfl, rfl, rfl, rfl, rfl, rfl, rfl, rfl⟩
  | openArcW hi h =>
    refine SameTables.setFlag ?_ (by decide) true
    exact ⟨⟨rfl, rfl, rfl, rfl, rfl, rfl, rfl, rfl⟩, rfl, rfl, rfl, rfl, rfl, rfl, rfl, rfl, rfl, rfl⟩
  | openArcR h =>
    refine SameTables.setFlag ?_ (by decide) true
    exact ⟨⟨rfl, rfl, rfl, rfl, rfl, rfl, rfl, rfl⟩, rfl, rfl, rfl, rfl, rfl, rfl, rfl, rfl, rfl, rfl⟩
  | openSrc h hfit =>
    refine SameTables.setFlag ?_ (by decide) true
    exact ⟨⟨rfl, rfl, rfl, rfl, rfl, rfl, rfl, rfl⟩, rfl, rfl, rfl, rfl, rfl, rfl, rfl, rfl, rfl, rfl⟩
  | openDst =>
    refine SameTables.setFlag ?_ (by decide) true
    exact ⟨⟨rfl, rfl, rfl, rfl, rfl, rfl, rfl, rfl⟩, rfl, rfl, rfl, rfl, rfl, rfl, rfl, rfl, rfl, rfl⟩
  | _ => exact ⟨⟨rfl, rfl, rfl, rfl, rfl, rfl, rfl, rfl⟩, rfl, rfl, rfl, rfl, rfl, rfl, rfl, rfl, rfl, rfl⟩

theorem Changes.sameTables (h : Changes i s t) (hi : writesTables i = false) : SameTables s t := by
  induction h with
  | refl => exact .refl s
  | tail _ hw ih => exact ih.trans (hw.sameTables hi)

/-- A stretch with the writes of a command that writes no table. -/
theorem Run.Changes.sameTables {α : Type} {r : Run α} (h : r.Changes i s) (hi : writesTables i = false) :
    r.Ends (SameTables s) (SameTables s) :=
  h.imp (fun _ hc => hc.sameTables hi) fun _ hc => hc.sameTables hi

theorem Run.Changes.tablesInv {α : Type} {r : Run α} (h : r.Changes i s) (hi : writesTables i = false)
    (hs : ∀ t, SameTables s t → TablesInv t) : r.Ends TablesInv TablesInv :=
  (h.sameTables hi).imp (fun t ht => hs t ht) fun t ht => hs t ht

/-! ### The invariant on the same tables -/

theorem State.nodeAt_congr (h : t.node = s.node) : t.nodeAt = s.nodeAt := funext fun g => by
  rw [State.nodeAt, h]
  rfl

theorem State.leaves_congr (h : t.node = s.node) (fuel : Nat) (g : Handle) (d : Nat) :
    t.leaves fuel g d = s.leaves fuel g d := by
  induction fuel generalizing g d with
  | zero => rfl
  | succ fuel ih => rw [State.leaves, State.leaves, State.nodeAt_congr h, ih, ih]

theorem State.freqAt_congr (h : t.freq = s.freq) : t.freqAt = s.freqAt := funext fun x => by
  rw [State.freqAt, h]
  rfl

theorem State.TreeOk.congr (h : s.TreeOk) (hf : t.freq = s.freq) (hn : t.node = s.node) (hc : t.ncnt = s.ncnt)
    (hr : t.root = s.root) : t.TreeOk := by
  simpa only [State.TreeOk, State.ArenaOk, State.presentCount, State.presentSyms, State.isParent,
    State.leaves_congr hn, State.nodeAt_congr hn, State.freqAt_congr hf, hc, hr] using h

theorem EncoderInv.of_same (h : EncoderInv s) (hs : SameEncoder s t) : EncoderInv t := by
  obtain ⟨hf, ht, hl⟩ := h
  refine ⟨fun e => ?_, fun e => ?_, fun e => ?_⟩
  · rw [State.freqAt_congr hs.freq]
    exact hf (hs.fValid ▸ e)
  · obtain ⟨hfv, htree⟩ := ht (hs.tValid ▸ e)
    exact ⟨hs.fValid.trans hfv, htree.congr hs.freq hs.node hs.ncnt hs.root⟩
  · intro x hx
    rw [State.lenAt, hs.len]
    exact hl (hs.lValid ▸ e) x hx

theorem HeaderInv.of_same (h : HeaderInv s) (hs : SameTables s t) : HeaderInv t := by
  simpa only [HeaderInv, State.cntlAt, State.ordAt, State.clAt, State.ccAt, hs.hValid, hs.cValid, hs.hn, hs.ord,
    hs.cntl, hs.maxl, hs.cl, hs.cc] using h

theorem TrieInv.of_same (h : TrieInv s) (hs : SameTables s t) : TrieInv t := by
  simpa only [TrieInv, State.codeAt, State.ordAt, State.clAt, State.ccAt, hs.trValid, hs.cValid, hs.hn, hs.ord, hs.cl,
    hs.cc, hs.tn] using h

theorem TablesInv.of_same (h : TablesInv s) (hs : SameTables s t) : TablesInv t :=
  ⟨h.1.of_same hs.toSameEncoder, h.2.1.of_same hs, h.2.2.of_same hs⟩

/-! ### Flags at 0 -/

/-- The header, its codes and the trie are not valid. -/
def HeaderOff (s : State) : Prop := ∀ f ∈ chainFromHeader, s.flag f = false

theorem HeaderOff.inv (h : HeaderOff s) : HeaderInv s ∧ TrieInv s := by
  have hoff : ∀ {f : Flag} {p : Prop}, f ∈ chainFromHeader → s.flag f = true → p := fun hf e =>
    absurd ((h _ hf).symm.trans e) (by decide)
  exact ⟨⟨hoff (by decide), hoff (by decide)⟩, hoff (by decide)⟩

/-- None of the tables is valid. -/
def ChainOff (s : State) : Prop := ∀ f ∈ chainFromFreq, s.flag f = false

theorem ChainOff.headerOff (h : ChainOff s) : HeaderOff s := fun f hf =>
  h f ((by decide : ∀ g ∈ chainFromHeader, g ∈ chainFromFreq) f hf)

theorem ChainOff.tablesInv (h : ChainOff s) : TablesInv s := by
  have hoff : ∀ {f : Flag} {p : Prop}, f ∈ chainFromFreq → s.flag f = true → p := fun hf e =>
    absurd ((h _ hf).symm.trans e) (by decide)
  exact ⟨⟨hoff (by decide), hoff (by decide), hoff (by decide)⟩, h.headerOff.inv⟩

theorem chainOff_resetCore (s : State) : ChainOff s.resetCore := fun f _ => by simp

/-- Settles O54: every flag is 0 and every buffer empty. -/
theorem resetMeetsInvariants : Obligations.ResetMeetsInvariants := by
  unfold Obligations.ResetMeetsInvariants
  exact ⟨⟨writerOk_of_empty rfl rfl, readerOk_of_empty rfl rfl⟩, statusInv_resetCore State.reset,
    (chainOff_resetCore State.reset).tablesInv, streamsInv_resetCore State.reset⟩

end Sys2Proof.Machine
end

section
/-! How SCAN can end (spec R120, R121): a byte's counter overflows, or the control symbols count 1 each. -/

namespace Sys2Proof.Machine

variable {s t u : State}

/-- SCAN before it comes to the control symbols. -/
structure Counting (s u : State) : Prop where
  status : u.status = (s.clearFlags chainFromFreq).status
  control : ∀ x, 256 ≤ x → u.freqAt x = 0#64

/-- SCAN stopped at a byte whose counter is at its end (R120). -/
def Overflowed (s t : State) : Prop :=
  ∃ (u : State) (x : Nat), u.status = (s.clearFlags chainFromFreq).status ∧ x < 256 ∧ u.freqAt x = BitVec.allOnes 64 ∧
    t = u.raise .countOverflow (overflowInfo x)

/-- A completed SCAN (R120). -/
structure Scanned (s t : State) : Prop where
  status : t.status = ((s.clearFlags chainFromFreq).setFlag .fValid true).status
  freq256 : t.freqAt 256 = 1#64
  freq257 : t.freqAt 257 = 1#64
  freq258 : t.freqAt 258 = 1#64

theorem count_byte_ends {x : Nat} (h : Counting s u) (hx : x < 256) :
    (count x u).Ends (Counting s) (Overflowed s) := by
  obtain ⟨hall, e⟩ | ⟨-, e⟩ := count_cases x u
  · rw [e]
    exact .raise ⟨u, x, h.status, hx, hall, rfl⟩
  · rw [e]
    exact .done ⟨h.status, fun y hy => (tget_tset_ne _ (by omega) _ _).trans (h.control y hy)⟩

theorem countAll_ends (xs : List Byte) (h : Counting s u) : (countAll xs u).Ends (Counting s) (Overflowed s) := by
  induction xs generalizing u with
  | nil => exact .done h
  | cons x xs ih => exact (count_byte_ends h x.isLt).andThen fun v hv => ih hv

/-- What the rounds of a content loop keep, the loop keeps. -/
theorem forSrc_ends {D R : State → Prop} {body : Byte → State → Run Unit} (hbody : ∀ x u, D u → (body x u).Ends D R)
    (hsrc : ∀ (u : State) (p : Nat), D u → D { u with host.srcPos := p }) (n : Nat) {u : State} (h : D u) :
    (forSrc body n u).Ends D R := by
  induction n generalizing u with
  | zero => exact .done h
  | succ n ih =>
    cases hs : u.srcRest with
    | nil =>
      rw [forSrc, memReadSrc_eod hs]
      exact .done h
    | cons x xs =>
      rw [forSrc, (memReadSrc_cons hs).1]
      exact (hbody x _ (hsrc u _ h)).andThen fun v hv => ih hv

theorem count_of_zero {x : Nat} (h : u.freqAt x = 0#64) :
    count x u = .done () { u with freq := tset u.freq x 1#64 } := by
  obtain ⟨hall, -⟩ | ⟨-, e⟩ := count_cases x u
  · rw [h] at hall
    exact absurd hall (by decide)
  · rw [e, h]
    rfl

/-- The control symbols are counted last, each from 0 (R120). -/
theorem countControls_ends (h : Counting s u) :
    ((count Config.filenameEnd u).andThen fun u => (count Config.oneMoreFile u).andThen fun u =>
      (count Config.archiveEnd u).andThen fun u => .done () (u.setFlag .fValid true)).Ends (Scanned s)
        (Overflowed s) := by
  obtain ⟨hstatus, hcontrol⟩ := h
  have h257 : tget (tset u.freq 256 1#64) 257 0#64 = 0#64 :=
      (tget_tset_ne _ (by decide) _ _).trans (hcontrol 257 (by decide))
  have h258 : tget (tset (tset u.freq 256 1#64) 257 1#64) 258 0#64 = 0#64 :=
    (tget_tset_ne _ (by decide) _ _).trans ((tget_tset_ne _ (by decide) _ _).trans (hcontrol 258 (by decide)))
  rw [Config.filenameEnd, Config.oneMoreFile, Config.archiveEnd, count_of_zero (hcontrol 256 le_rfl), Run.andThen_done,
    count_of_zero (x := 257) (u := { u with freq := tset u.freq 256 1#64 }) h257, Run.andThen_done,
    count_of_zero (x := 258) (u := { u with freq := tset (tset u.freq 256 1#64) 257 1#64 }) h258, Run.andThen_done]
  refine .done ⟨?_, ?_, ?_, ?_⟩
  · show statusWith u.status .fValid true = _
    rw [hstatus]
    rfl
  · exact (tget_tset_ne _ (by decide) _ _).trans ((tget_tset_ne _ (by decide) _ _).trans
      (tget_tset_same _ (by decide) _ _))
  · exact (tget_tset_ne _ (by decide) _ _).trans (tget_tset_same _ (by decide) _ _)
  · exact tget_tset_same _ (by decide) _ _

theorem scanBody_ends (s : State) : (scanBody s).Ends (Scanned s) (Overflowed s) := by
  have hstart : Counting s { s.clearFlags chainFromFreq with freq := Vector.replicate 259 0#64 } :=
    ⟨rfl, fun x _ => tget_replicate_default _ _ _⟩
  refine (countAll_ends _ hstart).andThen fun u hu => ?_
  refine (forSrc_ends (fun x v hv => count_byte_ends hv x.isLt) (fun v p hv => ⟨hv.1, hv.2⟩) _ hu).andThen
    fun v hv => ?_
  exact countControls_ends hv

theorem Overflowed.chainOff (h : Overflowed s t) : ChainOff t := by
  obtain ⟨u, x, hstatus, -, -, rfl⟩ := h
  intro f hf
  have hne : f ≠ .faulted := by rintro rfl; exact absurd hf (by decide)
  rw [State.flag_raise, State.flag_congr hstatus, State.flag_clearFlags]
  simp [hf, hne]

theorem Scanned.flag (h : Scanned s t) (f : Flag) :
    t.flag f = if f = .fValid then true else s.flag f && !decide (f ∈ chainFromFreq) := flag_chainSet h.status f

theorem Scanned.tablesInv (h : Scanned s t) : TablesInv t := by
  have hoff : ∀ {f : Flag} {p : Prop}, f ∈ chainFromTree → t.flag f = true → p := fun {f} _ hf e => by
    rw [h.flag, if_neg (by rintro rfl; exact absurd hf (by decide)), Bool.and_eq_true] at e
    have hmem := (by decide : ∀ g ∈ chainFromTree, g ∈ chainFromFreq) f hf
    simp [hmem] at e
  exact ⟨⟨fun _ => ⟨h.freq256, h.freq257, h.freq258⟩, hoff (by decide), hoff (by decide)⟩,
    ⟨hoff (by decide), hoff (by decide)⟩, hoff (by decide)⟩

end Sys2Proof.Machine
end

section
/-! BUILD, WALK, CANON and LDLEN on tables that meet the invariant (spec R121, R125, R30, R142). -/

namespace Sys2Proof.Machine

variable {s t : State}

theorem two_le_presentSyms (h256 : s.freqAt 256 = 1#64) (h257 : s.freqAt 257 = 1#64) : 2 ≤ s.presentSyms.length := by
  have h6 : 256 ∈ s.presentSyms := State.mem_presentSyms.mpr ⟨by decide, by rw [h256]; decide⟩
  have h7 : 257 ∈ s.presentSyms := State.mem_presentSyms.mpr ⟨by decide, by rw [h257]; decide⟩
  exact (List.subperm_of_subset (l₁ := [256, 257]) (by decide) (by simp [h6, h7])).length_le

theorem buildBody_tables (h : TablesInv s) (hf : s.flag .fValid = true) :
    ∃ t, buildBody s = .done () t ∧ TablesInv t ∧ t.flag .tValid = true ∧
      t.status = ((s.clearFlags chainFromTree).setFlag .tValid true).status := by
  obtain ⟨⟨hfreq, -, -⟩, -⟩ := h
  obtain ⟨h256, h257, h258⟩ := hfreq hf
  have htwo := two_le_presentSyms h256 h257
  obtain ⟨t, c, ht, hm, hpq, -, harena, hc, hleaves, hsh⟩ :=
    buildBody_tree (s := s) (List.ne_nil_of_length_pos (by omega))
  have hstatus : t.status = ((s.clearFlags chainFromTree).setFlag .tValid true).status := by
    rw [status_built, hsh]
  have hflag := flag_chainSet hstatus
  have hfreqEq : t.freqAt = s.freqAt := State.freqAt_congr (by rw [hsh])
  have hpresent : t.presentSyms = s.presentSyms := by rw [State.presentSyms, hfreqEq]; rfl
  have hcount : t.presentCount = s.presentCount := by rw [State.presentCount, hfreqEq]; rfl
  have hoff : HeaderOff t := fun f hf => by
    rw [hflag, if_neg (by rintro rfl; exact absurd hf (by decide)),
      decide_eq_true ((by decide : ∀ g ∈ chainFromHeader, g ∈ chainFromTree) f hf), Bool.not_true, Bool.and_false]
  have htree : t.TreeOk := by
    refine ⟨hcount ▸ harena, fun g hg => hm.one_parent hpq hg, ?_⟩
    have hsize := hleaves.length_eq
    have hlen := s.presentSyms_length
    have hle := s.presentCount_le
    rw [State.leaves_eq_depths hc (by omega), c.map_fst_depths, hpresent]
    exact hleaves
  refine ⟨t, ht, ⟨⟨fun _ => ?_, fun _ => ⟨?_, htree⟩, fun e => ?_⟩, hoff.inv⟩, hflag .tValid, hstatus⟩
  · rw [hfreqEq]
    exact ⟨h256, h257, h258⟩
  · rw [hflag, if_neg (by decide), hf]
    rfl
  · rw [hflag, if_neg (by decide), decide_eq_true (by decide), Bool.not_true, Bool.and_false] at e
    cases e

theorem walkBody_tables (h : TablesInv s) (hv : s.flag .tValid = true) :
    ∃ t, walkBody s = .done () t ∧ TablesInv t ∧ t.flag .lValid = true ∧
      t.status = ((s.clearFlags chainFromLen).setFlag .lValid true).status := by
  obtain ⟨⟨hfreq, htree, -⟩, -⟩ := h
  obtain ⟨hf, hok⟩ := htree hv
  obtain ⟨harena, -, hleaves⟩ := id hok
  obtain ⟨-, hle, hcnt, -⟩ := id harena
  rw [Config.nsym] at hle
  obtain ⟨c, hc, hw, hnd, hsym, hlen⟩ := harena.exists_root_tree (State.leaves_nodup_of_treeOk hok)
  obtain ⟨t, ht, hdepth, hother, hsh⟩ := walkBody_spec hc (by omega) hnd hsym (by omega)
  have hstatus : t.status = ((s.clearFlags chainFromLen).setFlag .lValid true).status := by rw [hsh]
  have hflag := flag_chainSet hstatus
  have hoff : HeaderOff t := fun f hf => by
    rw [hflag, if_neg (by rintro rfl; exact absurd hf (by decide)),
      decide_eq_true ((by decide : ∀ g ∈ chainFromHeader, g ∈ chainFromLen) f hf), Bool.not_true, Bool.and_false]
  have hkeep : ∀ f, f ∉ Flag.lValid :: chainFromLen → t.flag f = s.flag f := fun f hf => by
    rw [List.mem_cons, not_or] at hf
    rw [hflag, if_neg hf.1, decide_eq_false hf.2, Bool.not_false, Bool.and_true]
  refine ⟨t, ht, ⟨⟨fun e => ?_, fun e => ⟨?_, ?_⟩, fun _ x hx => ?_⟩, hoff.inv⟩, hflag .lValid, hstatus⟩
  · rw [State.freqAt_congr (t := t) (s := s) (by rw [hsh])]
    exact hfreq hf
  · rw [hkeep _ (by decide), hf]
  · exact hok.congr (by rw [hsh]) (by rw [hsh]) (by rw [hsh]) (by rw [hsh])
  · by_cases hmem : x ∈ c.leaves
    · obtain ⟨d, hd⟩ := CodeTree.exists_depth hmem
      have := (CodeTree.depth_bounds hd).2
      rw [hdepth x d hd, Config.lmax]
      omega
    · rw [hother x hmem]
      exact Nat.zero_le _

end Sys2Proof.Machine
end

section
/-! CANON, LDLEN, RHDR and TBUILD on tables that meet the invariant (spec R30 to R34, R40, R142, R161, R162, R167). -/

namespace Sys2Proof.Machine

variable {s t : State}

/-- The codes while C_VALID is 1 (R33). -/
def State.CodesInRange (s : State) : Prop :=
  (∀ i < s.hn.toNat, 1 ≤ (s.clAt i).toNat ∧ (s.clAt i).toNat ≤ Config.lmax ∧
    (s.ccAt i).toNat < 2 ^ (s.clAt i).toNat) ∧
  ∀ i, i + 1 < s.hn.toNat → (s.clAt i).toNat ≤ (s.clAt (i + 1)).toNat

theorem HeaderInv.of_ranges (h : s.HeaderInRange)
    (hc : s.flag .cValid = true → s.flag .hValid = true ∧ s.CodesInRange) :
    HeaderInv s := ⟨fun _ => h, hc⟩

theorem State.HasHeader.inRange {b : Block} (h : s.HasHeader b) (hb : b.HeaderOk) : s.HeaderInRange := by
  obtain ⟨hhn, hsyms, hcounts, hsum, hlast, -⟩ := hb
  refine ⟨h.hn ▸ hhn, h.maxl ▸ hcounts, ?_, fun hpos => ?_, fun i hi => ?_⟩
  · rw [h.maxl, h.cntl, h.hn, hsum]
  · obtain ⟨m, hm⟩ : ∃ m, s.maxl.toNat = m + 1 := ⟨s.maxl.toNat - 1, by omega⟩
    have hlt : m < b.counts.length := by rw [← h.maxl, hm]; exact Nat.lt_succ_self m
    rw [hm, h.cntlAt hlt]
    rw [List.getLast?_eq_getElem?, ← h.maxl, hm, Nat.add_sub_cancel, List.getElem?_eq_getElem hlt] at hlast
    exact Nat.one_le_iff_ne_zero.mpr fun e => hlast (congrArg some e)
  · rw [h.hn] at hi
    rw [h.ordAt hi]
    exact hsyms _ (List.getElem_mem hi)

/-- The encoder's tables are as before. -/
def KeepsEncoder (s t : State) : Prop :=
  t.freq = s.freq ∧ t.node = s.node ∧ t.ncnt = s.ncnt ∧ t.root = s.root ∧ t.len = s.len

theorem KeepsEncoder.trans {u : State} (h : KeepsEncoder s t) (h' : KeepsEncoder t u) : KeepsEncoder s u := by
  obtain ⟨h1, h2, h3, h4, h5⟩ := h
  obtain ⟨k1, k2, k3, k4, k5⟩ := h'
  exact ⟨k1.trans h1, k2.trans h2, k3.trans h3, k4.trans h4, k5.trans h5⟩

theorem KeepsEncoder.clearFlags (s : State) (fs : List Flag) : KeepsEncoder s (s.clearFlags fs) := by
  rw [State.clearFlags_shape]
  exact ⟨rfl, rfl, rfl, rfl, rfl⟩

theorem KeepsEncoder.same (h : KeepsEncoder s t)
    (hflag : ∀ f, f ∉ chainFromHeader → f ≠ .faulted → t.flag f = s.flag f) :
    SameEncoder s t := by
  obtain ⟨h1, h2, h3, h4, h5⟩ := h
  exact ⟨hflag _ (by decide) (by decide), hflag _ (by decide) (by decide), hflag _ (by decide) (by decide), h1, h2, h3,
    h4, h5⟩

/-- A fault while the header's flags are at 0 leaves the encoder's side. -/
theorem TablesInv.raise_of_cleared {u : State} (h : TablesInv s) (hk : KeepsEncoder s u)
    (hs : u.status = (s.clearFlags chainFromHeader).status) (k : FaultKind) (info : BitVec 16) :
    TablesInv (u.raise k info) := by
  have hflag : ∀ f, f ≠ .faulted → (u.raise k info).flag f = (s.flag f && !decide (f ∈ chainFromHeader)) :=
      fun f hf => by
    rw [State.flag_raise, State.flag_congr hs, State.flag_clearFlags, decide_eq_false hf, Bool.or_false]
  have hraise : KeepsEncoder u (u.raise k info) := by simp [KeepsEncoder]
  have hoff : HeaderOff (u.raise k info) := fun f hf => by
    rw [hflag f (by rintro rfl; exact absurd hf (by decide)), decide_eq_true hf, Bool.not_true, Bool.and_false]
  refine ⟨h.1.of_same ((hk.trans hraise).same fun f hf hne => ?_), hoff.inv⟩
  rw [hflag f hne, decide_eq_false hf, Bool.not_false, Bool.and_true]

/-! ### CANON -/

theorem State.canonHeader_codesInRange {cc : Vector (BitVec 258) 511} (hok : s.LengthsOk)
    (hcc : canonFrom 0 0 0 (s.sortedAlphabet.map fun x => (s.lenAt x).toNat) s.canonHeader =
      .done () { s.canonHeader with cc := cc }) : ({ s.canonHeader with cc := cc } : State).CodesInRange := by
  have hlen := s.sortedAlphabet_length_le
  have hn := s.canonHeader_hn
  obtain ⟨-, hfit, -, -⟩ := canonFrom_values hcc (by simp; omega) fun l hl => by
    obtain ⟨x, hx, rfl⟩ := List.mem_map.mp hl
    exact hok.le_lmax x (State.mem_sortedAlphabet.mp hx).1
  have hcl : ∀ i (hi : i < s.sortedAlphabet.length), s.canonHeader.clAt i = s.lenAt s.sortedAlphabet[i] :=
    fun i hi => State.canonHeader_clAt hi
  refine ⟨fun i hi => ?_, fun i hi => ?_⟩
  · have hi' : i < s.sortedAlphabet.length := hn ▸ hi
    obtain ⟨hlt, hpos⟩ := State.mem_sortedAlphabet.mp (List.getElem_mem hi')
    have hfits := hfit i (by simpa using hi')
    rw [Nat.zero_add, List.getElem_map, ← hcl i hi'] at hfits
    refine ⟨?_, ?_, hfits⟩
    · show 1 ≤ (s.canonHeader.clAt i).toNat
      rw [hcl i hi']
      exact hpos
    · show (s.canonHeader.clAt i).toNat ≤ _
      rw [hcl i hi']
      exact hok.le_lmax _ hlt
  · have hi' : i + 1 < s.sortedAlphabet.length := hn ▸ hi
    show (s.canonHeader.clAt i).toNat ≤ (s.canonHeader.clAt (i + 1)).toNat
    rw [hcl i (by omega), hcl _ hi']
    have hsorted := List.pairwise_map.mp s.sortedAlphabet_lengths_sorted
    exact List.pairwise_iff_getElem.mp hsorted i (i + 1) _ hi' (Nat.lt_succ_self i)

theorem canonBody_tables (op : Opcode) (h : TablesInv s) (hl : s.flag .lValid = true) :
    (canonBody op s).Ends (fun t => TablesInv t ∧ t.flag .cValid = true) TablesInv := by
  have hkeep : KeepsEncoder s s.canonHeader := by
    rw [canonHeader_shape]
    exact ⟨rfl, rfl, rfl, rfl, rfl⟩
  rcases canonBody_cases op (h.1.2.2 hl) with ⟨hok, -⟩ | ⟨-, e⟩ | ⟨cc, e⟩
  · obtain ⟨cc, hcc, e⟩ := canonBody_of_room op hok
    rw [e]
    obtain ⟨u, hu⟩ : ∃ u : State, u = { s.canonHeader with cc := cc } := ⟨_, rfl⟩
    have hheader : u.HeaderInRange := by
      rw [hu]
      exact (hok.canonHeader_hasHeader [] []).inRange (hok.headerOk [] []).2
    have hcodes : u.CodesInRange := by
      rw [hu]
      exact State.canonHeader_codesInRange hok hcc
    have hstatus : u.status = (s.clearFlags chainFromHeader).status := by rw [hu]; rfl
    have hflag : ∀ f, ((u.setFlag .hValid true).setFlag .cValid true).flag f =
        if f = .cValid then true else if f = .hValid then true else s.flag f && !decide (f ∈ chainFromHeader) :=
          fun f => by
      rw [State.flag_setFlag, State.flag_setFlag, State.flag_congr hstatus, State.flag_clearFlags]
    have hkeepu : KeepsEncoder s ((u.setFlag .hValid true).setFlag .cValid true) := by rw [hu]; exact hkeep
    rw [← hu]
    refine .done ⟨⟨h.1.of_same (hkeepu.same fun f hf _ => ?_), .of_ranges hheader fun _ => ⟨hflag .hValid, hcodes⟩,
      fun e => ?_⟩, hflag .cValid⟩
    · rw [hflag, if_neg (by rintro rfl; exact absurd hf (by decide)),
        if_neg (by rintro rfl; exact absurd hf (by decide)), decide_eq_false hf, Bool.not_false, Bool.and_true]
    · rw [hflag, if_neg (by decide), if_neg (by decide), decide_eq_true (by decide), Bool.not_true, Bool.and_false] at e
      cases e
  · rw [e]
    exact .raise (h.raise_of_cleared (u := { s.clearFlags chainFromHeader with hn := 0#10 })
      (KeepsEncoder.clearFlags s chainFromHeader) rfl _ _)
  · rw [e]
    exact .raise (h.raise_of_cleared (u := { s.canonHeader with cc := cc }) hkeep rfl _ _)

/-! ### LDLEN -/

theorem status_ldlen (s : State) :
    ((s.clearFlags chainFromHeader).setFlag .lValid true).status = (s.status &&& 0xF8FF#16) ||| 0x0080#16 := by
  show statusWith (s.clearFlags chainFromHeader).status .lValid true = _
  rw [status_cleared_header]
  rfl

theorem ldlenBody_tables {a : Sym} {l : BitVec 9} (h : TablesInv s) (hl : l.toNat ≤ 258) :
    TablesInv (ldlenBody a l s) := by
  obtain ⟨⟨hf, ht, hlen⟩, -⟩ := h
  have hflag := flag_chainSet (s := s) (t := ldlenBody a l s) (fs := chainFromHeader) (g := .lValid)
    (by rw [ldlenBody_eq, status_ldlen])
  have hkeep : ∀ f, f ∉ Flag.lValid :: chainFromHeader → (ldlenBody a l s).flag f = s.flag f := fun f hf => by
    rw [List.mem_cons, not_or] at hf
    rw [hflag, if_neg hf.1, decide_eq_false hf.2, Bool.not_false, Bool.and_true]
  have hoff : HeaderOff (ldlenBody a l s) := fun f hf => by
    rw [hflag, if_neg (by rintro rfl; exact absurd hf (by decide)), decide_eq_true hf, Bool.not_true, Bool.and_false]
  refine ⟨⟨fun e => ?_, fun e => ?_, fun _ x hx => ?_⟩, hoff.inv⟩
  · rw [State.freqAt_congr (t := ldlenBody a l s) (s := s) (by rw [ldlenBody_eq])]
    exact hf (hkeep .fValid (by decide) ▸ e)
  · obtain ⟨hfv, htree⟩ := ht (hkeep .tValid (by decide) ▸ e)
    exact ⟨(hkeep .fValid (by decide)).trans hfv, htree.congr (by rw [ldlenBody_eq]) (by rw [ldlenBody_eq])
      (by rw [ldlenBody_eq]) (by rw [ldlenBody_eq])⟩
  · rw [ldlenBody_eq]
    show (tget (tset _ _ _) x 0#9).toNat ≤ 258
    rw [tget_tset]
    split
    · exact hl
    · split
      · rename_i hv
        exact hlen hv x hx
      · rw [tget_replicate_default]
        exact Nat.zero_le _

/-! ### RHDR -/

/-- A sequence ends where its second part does; the second part may use how the first one completed. -/
theorem Run.Ends.bind_of_done {α β : Type} {D D' R : State → Prop} {r : Run α} {k : α → State → Run β} (h : r.Ends D R)
    (hk : ∀ a t, r = .done a t → D t → (k a t).Ends D' R) : (r.bind k).Ends D' R := by
  cases h with
  | done h => exact hk _ _ rfl h
  | raised h => exact .raised h
  | stuck => exact .stuck

/-- RHDR under way: the header's flags are 0. -/
def ReadingHeader (s u : State) : Prop := KeepsEncoder s u ∧ u.status = (s.clearFlags chainFromHeader).status

theorem ReadingHeader.moved {u v : State} (h : ReadingHeader s u) (hv : ReaderMoved u v) : ReadingHeader s v := by
  rw [hv]
  exact h

theorem readBits_tables {n : Nat} {u : State} (h : TablesInv s) (hu : ReadingHeader s u) :
    (readBits n u).Ends (ReaderMoved u) TablesInv :=
  (readBits_moves n u).imp (fun _ hv => hv) fun t ht => by
    obtain ⟨v, hv, rfl⟩ := ht
    exact h.raise_of_cleared (hu.moved hv).1 (hu.moved hv).2 _ _

theorem rhdrSymbols_ends (h : TablesInv s) (i k : Nat) {u : State} (hu : ReadingHeader s u) (hik : i + k ≤ 511) :
    (rhdrSymbols i k u).Ends
      (fun v => ReadingHeader s v ∧ v.hn = u.hn ∧ (∀ j < i, v.ordAt j = u.ordAt j) ∧
        ∀ j, i ≤ j → j < i + k → (v.ordAt j).toNat < 259) TablesInv := by
  induction k generalizing i u with
  | zero => exact .done ⟨hu, rfl, fun _ _ => rfl, fun j h1 h2 => by omega⟩
  | succ k ih =>
    refine (readBits_tables h hu).bind fun x v hv => ?_
    have hv' := hu.moved hv
    split
    · exact .raise (h.raise_of_cleared hv'.1 hv'.2 _ _)
    · rename_i hx
      refine (ih (i + 1) (u := { v with ord := tset v.ord i (BitVec.ofNat 9 x) }) hv' (by omega)).imp
        (fun w hw => ?_) fun _ ht => ht
      obtain ⟨hread, hhn, hkeep, hnew⟩ := hw
      refine ⟨hread, hhn.trans (by rw [hv]), fun j hj => ?_, fun j h1 h2 => ?_⟩
      · exact (hkeep j (by omega)).trans ((tget_tset_ne _ (by omega) _ _).trans (by rw [hv]; rfl))
      · rcases Nat.lt_or_ge i j with hlt | hge
        · exact hnew j hlt (by omega)
        · obtain rfl : j = i := by omega
          rw [hkeep j (Nat.lt_succ_self j)]
          show (tget (tset v.ord j _) j 0#9).toNat < 259
          rw [tget_tset_same _ (by omega), BitVec.toNat_ofNat]
          omega

/-- The counts RHDR has read: their sum is at most the size, and reached by the last one only (R160). -/
structure CountsRead (u : State) (sum room : Nat) : Prop where
  read : u.maxl.toNat + room = 258
  total : u.counts.sum = sum
  le : sum ≤ u.hn.toNat
  last : 1 ≤ u.maxl.toNat → sum = u.hn.toNat → 1 ≤ (u.cntlAt u.maxl.toNat).toNat

theorem CountsRead.next {u v : State} {sum room c : Nat} (h : CountsRead u sum (room + 1)) (hlt : sum < u.hn.toNat)
    (hv : ReaderMoved { u with maxl := u.maxl + 1#9 } v) (hc : c < 2 ^ 9) (hle : sum + c ≤ u.hn.toNat) :
    CountsRead { v with cntl := tset v.cntl (v.maxl.toNat - 1) (BitVec.ofNat 9 c) } (sum + c) room := by
  obtain ⟨hroom, hsum, -, -⟩ := h
  have hmaxl : v.maxl.toNat = u.maxl.toNat + 1 := by rw [hv]; dsimp only; bv_omega
  have hhn : v.hn = u.hn := by rw [hv]
  have hcntl : v.cntl = u.cntl := by rw [hv]
  have hval : (BitVec.ofNat 9 c).toNat = c := by rw [BitVec.toNat_ofNat, Nat.mod_eq_of_lt hc]
  refine ⟨by dsimp only; omega, ?_, by dsimp only; rw [hhn]; exact hle, fun _ hreach => ?_⟩
  · show (((tset v.cntl (v.maxl.toNat - 1) (BitVec.ofNat 9 c)).toList.take v.maxl.toNat).map BitVec.toNat).sum = _
    rw [hmaxl, Nat.add_sub_cancel, take_succ_tset _ (by omega), hcntl, List.map_append, List.sum_append,
      List.map_singleton, List.sum_singleton, hval]
    exact congrArg (· + c) hsum
  · show 1 ≤ (tget (tset v.cntl (v.maxl.toNat - 1) (BitVec.ofNat 9 c)) (v.maxl.toNat - 1) 0#9).toNat
    rw [tget_tset_same _ (by omega), hval]
    dsimp only at hreach
    rw [hhn] at hreach
    omega

theorem rhdrCounts_ends (h : TablesInv s) (sum room : Nat) {u : State} (hu : ReadingHeader s u)
    (hc : CountsRead u sum room) :
    (rhdrCounts sum room u).Ends
      (fun v => ReadingHeader s v ∧ v.hn = u.hn ∧ v.ord = u.ord ∧ ∃ room', CountsRead v v.hn.toNat room')
        TablesInv := by
  induction room generalizing sum u with
  | zero =>
    by_cases hlt : sum < u.hn.toNat
    · rw [rhdrCounts, if_pos hlt]
      exact .raise (h.raise_of_cleared hu.1 hu.2 _ _)
    · rw [rhdrCounts_of_not_lt hlt]
      have heq : sum = u.hn.toNat := Nat.le_antisymm hc.le (Nat.le_of_not_lt hlt)
      exact .done ⟨hu, rfl, rfl, 0, heq ▸ hc⟩
  | succ room ih =>
    by_cases hlt : sum < u.hn.toNat
    · rw [rhdrCounts_of_lt hlt]
      refine (readBits_tables (u := { u with maxl := u.maxl + 1#9 }) h hu).bind_of_done fun c v hr hv => ?_
      have hv' : ReadingHeader s v := ReadingHeader.moved (u := { u with maxl := u.maxl + 1#9 }) hu hv
      have hhn : v.hn = u.hn := by rw [hv]
      rw [rhdrCount]
      dsimp only
      split
      · exact .raise (h.raise_of_cleared (u := { v with cntl := tset v.cntl (v.maxl.toNat - 1) (BitVec.ofNat 9 c) })
          hv'.1 hv'.2 _ _)
      · rename_i hle
        rw [hhn] at hle
        refine (ih (sum + c) (u := { v with cntl := tset v.cntl (v.maxl.toNat - 1) (BitVec.ofNat 9 c) }) hv'
          (hc.next hlt hv (readBits_lt hr) (by omega))).imp (fun w hw => ?_) fun _ ht => ht
        obtain ⟨hread, hn, hord, hcounts⟩ := hw
        exact ⟨hread, hn.trans hhn, hord.trans (by rw [hv]), hcounts⟩
    · rw [rhdrCounts_of_not_lt hlt]
      have heq : sum = u.hn.toNat := Nat.le_antisymm hc.le (Nat.le_of_not_lt hlt)
      exact .done ⟨hu, rfl, rfl, _, heq ▸ hc⟩

theorem rhdrBody_tables (h : TablesInv s) :
    (rhdrBody s).Ends (fun t => TablesInv t ∧ t.flag .hValid = true) TablesInv := by
  have hstart : ReadingHeader s (s.clearFlags chainFromHeader) := ⟨.clearFlags s _, rfl⟩
  refine (readBits_tables h hstart).bind_of_done fun n v hr hv => ?_
  have hn : n < 2 ^ 9 := readBits_lt hr
  have hhn : (BitVec.ofNat 10 n).toNat = n := by rw [BitVec.toNat_ofNat, Nat.mod_eq_of_lt (by omega)]
  have hv' : ReadingHeader s v := hstart.moved hv
  refine (rhdrSymbols_ends h 0 n (u := { v with hn := BitVec.ofNat 10 n }) hv' (by omega)).andThen
    fun w hw => ?_
  obtain ⟨hread, hwn, -, hord⟩ := hw
  have hstartCounts : CountsRead { w with cntl := Vector.replicate 258 0#9, maxl := 0#9 } 0 Config.lmax :=
    ⟨rfl, rfl, Nat.zero_le _, fun h1 => absurd h1 (Nat.not_succ_le_zero _)⟩
  refine (rhdrCounts_ends h 0 Config.lmax (u := { w with cntl := Vector.replicate 258 0#9, maxl := 0#9 }) hread
    hstartCounts).andThen fun x hx => .done ?_
  obtain ⟨⟨hkeep, hstatus⟩, hxn, hxo, room, hread, htotal, -, hlast⟩ := hx
  have hsize : x.hn.toNat = n := by rw [hxn]; exact (congrArg BitVec.toNat hwn).trans hhn
  have hflag := flag_chainSet (s := s) (t := x.setFlag .hValid true) (fs := chainFromHeader) (g := .hValid) (by
    show statusWith x.status .hValid true = _
    rw [hstatus]
    rfl)
  have hrange : x.HeaderInRange := by
    refine ⟨by rw [Config.hnMax]; omega, by rw [Config.lmax]; omega, htotal, fun h1 => hlast h1 rfl, fun i hi => ?_⟩
    have := hord i (Nat.zero_le _) (by omega)
    rw [State.ordAt, hxo]
    exact this
  refine ⟨⟨h.1.of_same (KeepsEncoder.same (t := x.setFlag .hValid true) hkeep fun f hf _ => ?_),
    .of_ranges hrange fun e => ?_, fun e => ?_⟩, hflag .hValid⟩
  · rw [hflag, if_neg (by rintro rfl; exact absurd hf (by decide)), decide_eq_false hf, Bool.not_false, Bool.and_true]
  · rw [hflag, if_neg (by decide), decide_eq_true (by decide), Bool.not_true, Bool.and_false] at e
    cases e
  · rw [hflag, if_neg (by decide), decide_eq_true (by decide), Bool.not_true, Bool.and_false] at e
    cases e

/-! ### TBUILD -/

theorem status_tbuilt (s : State) :
    (((s.clearFlags chainFromCodes).setFlag .cValid true).setFlag .trValid true).status =
      (s.status &&& 0xF9FF#16) ||| 0x0600#16 := by
  show statusWith (statusWith (s.clearFlags chainFromCodes).status .cValid true) .trValid true = _
  rw [status_clearFlags, show keepMask chainFromCodes = 0xF9FF#16 by decide,
    show (0x0600#16 : BitVec 16) = 0x0200#16 ||| 0x0400#16 by decide, ← BitVec.or_assoc]
  rfl

theorem State.HasTrie.flag (h : s.HasTrie t) (f : Flag) :
    t.flag f =
      if f = .trValid then true else if f = .cValid then true else s.flag f && !decide (f ∈ chainFromCodes) := by
  rw [State.flag_congr (t := ((s.clearFlags chainFromCodes).setFlag .cValid true).setFlag .trValid true)
    (by rw [status_tbuilt, h.shape]), State.flag_setFlag, State.flag_setFlag, State.flag_clearFlags]

theorem State.HasTrie.flag_of_not_mem (h : s.HasTrie t) {f : Flag} (hf : f ∉ chainFromCodes) : t.flag f = s.flag f := by
  rw [h.flag, if_neg (by rintro rfl; exact hf (by decide)), if_neg (by rintro rfl; exact hf (by decide)),
    decide_eq_false hf, Bool.not_false, Bool.and_true]

theorem State.HeaderInRange.congr (h : s.HeaderInRange) (hn : t.hn = s.hn) (ho : t.ord = s.ord) (hc : t.cntl = s.cntl)
    (hm : t.maxl = s.maxl) : t.HeaderInRange := by
  simpa only [State.HeaderInRange, State.cntlAt, State.ordAt, hn, ho, hc, hm] using h

theorem State.HasTrie.headerInRange (h : s.HasTrie t) (hs : s.HeaderInRange) : t.HeaderInRange := by
  rw [h.shape]
  exact hs.congr rfl rfl rfl rfl

theorem State.HasTrie.hn (h : s.HasTrie t) : t.hn = s.hn := by rw [h.shape]

/-- CL holds the header's lengths (R162). -/
theorem State.HasTrie.clAt (h : s.HasTrie t) (hs : s.HeaderInRange) {i : Nat} (hi : i < s.hn.toNat) :
    ∃ hi' : i < (lengthsFrom 1 s.counts).length, (t.clAt i).toNat = (lengthsFrom 1 s.counts)[i] := by
  have hlen : (lengthsFrom 1 s.counts).length = s.hn.toNat := by rw [lengthsFrom_length]; exact hs.2.2.1
  have hget := List.getElem_of_eq h.lengths (i := i) (by simpa using hi)
  rw [List.getElem_map, List.getElem_range] at hget
  exact ⟨hlen ▸ hi, hget⟩

theorem State.HasTrie.codesInRange (h : s.HasTrie t) (hs : s.HeaderInRange) : t.CodesInRange := by
  refine ⟨fun i hi => ?_, fun i hi => ?_⟩ <;> rw [h.hn] at hi
  · obtain ⟨hi', hcl⟩ := h.clAt hs hi
    obtain ⟨hpos, hle⟩ := hs.lengths_le _ (List.getElem_mem hi')
    exact ⟨hcl ▸ hpos, hcl ▸ hle, h.fits i hi⟩
  · obtain ⟨hi', hcl⟩ := h.clAt hs (Nat.lt_of_succ_lt hi)
    obtain ⟨hi1', hcl1⟩ := h.clAt hs hi
    rw [hcl, hcl1]
    exact List.pairwise_iff_getElem.mp (lengthsFrom_sorted s.counts 1) i (i + 1) hi' hi1' (Nat.lt_succ_self i)

theorem State.HasTrie.trieInv (h : s.HasTrie t) (hs : s.HeaderInRange) : TrieInv t := by
  have hordAt : ∀ i, t.ordAt i = s.ordAt i := fun i => by rw [State.ordAt, show t.ord = s.ord by rw [h.shape]]; rfl
  have hroot : t.tn.lookup [] = none := by
    cases hl : t.tn.lookup [] with
    | none => rfl
    | some x =>
      obtain ⟨i, hi, hcode, -⟩ := h.only _ _ hl
      have hpos := ((h.codesInRange hs).1 i (h.hn ▸ hi)).1
      have hlen := congrArg List.length hcode
      rw [State.codeAt, bitstr_length, List.length_nil] at hlen
      omega
  refine fun _ => ⟨(h.flag _).trans rfl, ?_, hroot, ?_, fun p x => ⟨fun hl => ?_, ?_⟩⟩
  · rcases Nat.eq_zero_or_pos s.hn.toNat with h0 | hpos
    · rw [h.root (BitVec.eq_of_toNat_eq h0)]
      rfl
    · exact Trie.isNil_of_lookup (h.path 0 hpos)
  · rw [h.hn]
    rcases Nat.eq_zero_or_pos s.hn.toNat with h0 | hpos
    · exact .inr ⟨h.root (BitVec.eq_of_toNat_eq h0), BitVec.eq_of_toNat_eq h0⟩
    · exact .inl ⟨h.proper hpos, hpos⟩
  · obtain ⟨i, hi, hp, hx⟩ := h.only p x hl
    exact ⟨i, h.hn ▸ hi, hp, hx.trans (hordAt i).symm⟩
  · rintro ⟨i, hi, rfl, rfl⟩
    rw [hordAt]
    exact h.path i (h.hn ▸ hi)

theorem tbuildBody_tables (h : TablesInv s) (hv : s.flag .hValid = true) :
    (tbuildBody s).Ends (fun t => TablesInv t ∧ t.flag .trValid = true) TablesInv := by
  have hrange : s.HeaderInRange := h.2.1.1 hv
  rcases tbuildBody_cases hrange with ⟨-, t, e, htrie⟩ | ⟨cc, e⟩
  · rw [e]
    have hkeep : KeepsEncoder s t := by
      rw [htrie.shape]
      exact ⟨rfl, rfl, rfl, rfl, rfl⟩
    refine .done ⟨⟨h.1.of_same (hkeep.same fun f hf _ => htrie.flag_of_not_mem fun hmem => hf ?_),
      .of_ranges (htrie.headerInRange hrange) fun _ => ⟨?_, htrie.codesInRange hrange⟩, htrie.trieInv hrange⟩,
      htrie.flag .trValid⟩
    · exact (by decide : ∀ g ∈ chainFromCodes, g ∈ chainFromHeader) f hmem
    · rw [htrie.flag_of_not_mem (by decide), hv]
  · rw [e]
    obtain ⟨u, hu⟩ : ∃ u : State, u = { s.tbuildStart with cc := cc } := ⟨_, rfl⟩
    have hshape := s.tbuildStart_shape
    have hflag : ∀ f, f ≠ .faulted → (u.raise .malformedCode 4#16).flag f =
        (s.flag f && !decide (f ∈ chainFromCodes)) :=
      fun f hf => by
        rw [State.flag_raise, State.flag_congr (t := s.clearFlags chainFromCodes) (by rw [hu]; rfl),
          State.flag_clearFlags, decide_eq_false hf, Bool.or_false]
    have hkeep : KeepsEncoder s (u.raise .malformedCode 4#16) := by
      have : KeepsEncoder s u := by
        rw [hu, hshape]
        exact ⟨rfl, rfl, rfl, rfl, rfl⟩
      exact this.trans (by simp [KeepsEncoder])
    have hrange' : (u.raise .malformedCode 4#16).HeaderInRange :=
      hrange.congr (by rw [State.raise_hn, hu, hshape]) (by rw [State.raise_ord, hu, hshape])
        (by rw [State.raise_cntl, hu, hshape]) (by rw [State.raise_maxl, hu, hshape])
    have hcoff : (u.raise .malformedCode 4#16).flag .cValid = false := by
      rw [hflag _ (by decide), decide_eq_true (by decide), Bool.not_true, Bool.and_false]
    have htoff : (u.raise .malformedCode 4#16).flag .trValid = false := by
      rw [hflag _ (by decide), decide_eq_true (by decide), Bool.not_true, Bool.and_false]
    rw [← hu]
    refine .raise ⟨h.1.of_same (hkeep.same fun f hf hne => ?_), .of_ranges hrange' fun e => ?_, fun e => ?_⟩
    · rw [hflag f hne, decide_eq_false fun hmem => hf ((by decide : ∀ g ∈ chainFromCodes, g ∈ chainFromHeader) f hmem),
        Bool.not_false, Bool.and_true]
    · exact absurd (hcoff.symm.trans e) (by decide)
    · exact absurd (htoff.symm.trans e) (by decide)

end Sys2Proof.Machine
end

section
/-! Every command keeps the tables' invariant (spec R40). -/

namespace Sys2Proof.Machine

variable {i : Instr} {s t : State}

/-- ENCFILE after its four unit bodies makes writes any command may make (R181). -/
theorem writeBlock_changes (op : Opcode) (last : Bool) (s : State) : (writeBlock op last s).Changes i s := by
  refine Run.Changes.after (t := hostRewindSrc (whdrBody s)) ?_ ((whdrBody_changes s).next .rewindSrc)
  refine (putAll_changes op _ _).andThen fun t _ => ?_
  refine (forSrc_changes (fun x t => putSymbol_changes op _ t) _ t).andThen fun t _ => ?_
  exact (putSymbol_changes op _ t).andThen fun t _ => putSymbol_changes op _ t

/-- DECFILE after RHDR and TBUILD (R183 to R186). -/
def readBlock (s : State) : Run Sym :=
  let s := { s with name := [] }
  (nameLoop (s.bitsLeft + 1) s).andThen fun s =>
  (dopenBody s).andThen fun s =>
  (contentLoop (s.bitsLeft + 1) s).andThen fun s =>
  (trailer s).bind fun t s =>
  .done t ((closeDst s).setRes t)

theorem decfileBody_eq (s : State) :
    decfileBody s = (rhdrBody s).andThen fun s => (tbuildBody s).andThen readBlock := rfl

theorem readBlock_changes (hi : writesRes i = true) (s : State) : (readBlock s).Changes i s := by
  refine Run.Changes.after (t := { s with name := [] }) ?_ OneWrite.clearName.changes
  refine (nameLoop_changes _ _).andThen fun t _ => ?_
  refine (dopenBody_changes t).andThen fun t _ => ?_
  refine (contentLoop_changes _ t).andThen fun t _ => ?_
  refine (trailer_changes t).bind fun y t _ => .done ?_
  exact (OneWrite.clearFlag (f := .dOpen) (by decide) (.inl (by decide))).changes.next (.res y hi)

theorem TablesInv.after {α : Type} {r : Run α} (h : TablesInv s) (hr : r.Changes i s) (hi : writesTables i = false) :
    r.Ends TablesInv TablesInv :=
  (hr.sameTables hi).imp (fun _ ht => h.of_same ht) fun _ ht => h.of_same ht

theorem scanBody_tables (s : State) : (scanBody s).Ends (fun t => TablesInv t ∧ t.flag .fValid = true) TablesInv :=
  (scanBody_ends s).imp (fun _ ht => ⟨ht.tablesInv, ht.flag .fValid⟩) fun _ ht => ht.chainOff.tablesInv

/-- BUILD, WALK and CANON one after another where F_VALID is 1. -/
theorem treeBodies_tables (op : Opcode) (h : TablesInv s) (hf : s.flag .fValid = true) :
    ((buildBody s).andThen fun s => (walkBody s).andThen fun s => canonBody op s).Ends
      (fun t => TablesInv t ∧ t.flag .cValid = true) TablesInv := by
  obtain ⟨t, ht, hinv, hv, -⟩ := buildBody_tables h hf
  obtain ⟨u, hu, hinv', hv', -⟩ := walkBody_tables hinv hv
  rw [ht, Run.andThen_done, hu, Run.andThen_done]
  exact canonBody_tables op hinv' hv'

theorem encfileBody_tables (op : Opcode) (last : Bool) (s : State) :
    (encfileBody op last s).Ends TablesInv TablesInv := by
  rw [encfileBody_eq]
  refine Run.Ends.andThen (D := TablesInv) ?_ fun t ht => ht.after (i := .nop) (writeBlock_changes op last t) rfl
  refine (scanBody_tables s).andThen fun t ht => ?_
  exact (treeBodies_tables op ht.1 ht.2).imp (fun _ hu => hu.1) fun _ hu => hu

theorem decfileBody_tables (h : TablesInv s) : (decfileBody s).Ends TablesInv TablesInv := by
  rw [decfileBody_eq]
  refine (rhdrBody_tables h).andThen fun t ht => ?_
  refine (tbuildBody_tables ht.1 ht.2).andThen fun u hu => ?_
  exact hu.1.after (i := .getsym) (readBlock_changes rfl u) rfl

theorem compressLoop_tables (op : Opcode) (j k : Nat) (h : TablesInv s) (ho : s.flag .sOpen = false) :
    (compressLoop op j k s).Ends TablesInv TablesInv := by
  induction k generalizing j s with
  | zero => exact .done h
  | succ k ih =>
    refine (h.after (i := .nop) (sopenBody_changes op _ ho) rfl).andThen fun t _ => ?_
    refine (encfileBody_tables op _ t).andThen fun u hu => ?_
    exact ih _ (hu.of_same ((SameTables.refl u).setFlag (by decide) false)) (State.flag_setFlag u .sOpen .sOpen false)

theorem decompressLoop_tables (fuel : Nat) (h : TablesInv s) : (decompressLoop fuel s).Ends TablesInv TablesInv := by
  induction fuel generalizing s with
  | zero => exact .stuck
  | succ fuel ih =>
    refine (decfileBody_tables h).bind fun y t ht => ?_
    split
    · exact .done ht
    · exact ih ht

theorem closeArc_sameTables (s : State) : SameTables s (closeArc s) :=
  (closeArc_changes (i := .nop) s).sameTables rfl

theorem compressBody_tables (op : Opcode) (n : Nat) (h : TablesInv s) (hc : s.allClosed = true) :
    (compressBody op n s).Ends TablesInv TablesInv := by
  obtain ⟨-, har, hso, -⟩ := s.allClosed_iff.mp hc
  unfold compressBody
  cases hok : s.host.arcWOk with
  | false =>
    rw [aopenwBody_of_refused hok, Run.andThen_raise]
    exact .raise (h.of_same (.of_raise s _ _))
  | true =>
    rw [aopenwBody_of_ok hok, Run.andThen_done]
    have hopen := (OneWrite.openArcW (i := .aopenw) rfl har).sameTables rfl
    refine (compressLoop_tables op 0 n (h.of_same hopen) ?_).andThen fun t ht =>
      .done (ht.of_same (closeArc_sameTables t))
    exact (State.flag_setFlag _ _ _ _).trans hso

theorem decompressBody_tables (h : TablesInv s) (hc : s.allClosed = true) :
    (decompressBody s).Ends TablesInv TablesInv := by
  obtain ⟨haw, -, -, -⟩ := s.allClosed_iff.mp hc
  refine (h.after (i := .nop) (aopenrBody_changes haw) rfl).andThen fun t ht => ?_
  exact (decompressLoop_tables _ ht).andThen fun u hu => .done (hu.of_same (closeArc_sameTables u))

/-- The body of every command but RESET, where its operands and preconditions are good. -/
theorem bodyOf_tables (h : TablesInv s) (hi : i ≠ .reset) (hw : i.wf = true) (hp : preOk i s = true) :
    (bodyOf i s).Ends TablesInv TablesInv := by
  cases ht : writesTables i with
  | false => exact h.after (bodyOf_changes hi hp) ht
  | true =>
    cases i with
    | scan => exact (scanBody_tables s).imp (fun _ hu => hu.1) fun _ hu => hu
    | build =>
      obtain ⟨t, e, hinv, -⟩ := buildBody_tables h hp
      show (buildBody s).Ends _ _
      rw [e]
      exact .done hinv
    | walk =>
      obtain ⟨t, e, hinv, -⟩ := walkBody_tables h hp
      show (walkBody s).Ends _ _
      rw [e]
      exact .done hinv
    | ldlen a l =>
      exact .done (ldlenBody_tables h (of_decide_eq_true ((Bool.and_eq_true _ _).mp hw).2))
    | canon => exact (canonBody_tables _ h hp).imp (fun _ hu => hu.1) fun _ hu => hu
    | rhdr => exact (rhdrBody_tables h).imp (fun _ hu => hu.1) fun _ hu => hu
    | tbuild => exact (tbuildBody_tables h hp).imp (fun _ hu => hu.1) fun _ hu => hu
    | encfile a => exact encfileBody_tables _ _ s
    | decfile => exact (decfileBody_tables h).bind fun _ t ht => .done ht
    | compress idx => exact compressBody_tables _ _ h hp
    | decompress => exact decompressBody_tables h hp
    | _ => cases ht

theorem Run.Ends.of_outcome {P : State → Prop} {r : Run Unit} (h : r.Ends P P) (ho : r.outcome = .next t) : P t := by
  obtain rfl | rfl := Run.outcome_eq_next.mp ho
  · cases h with
    | done h => exact h
  · cases h with
    | raised h => exact h

theorem exec_tables (h : exec i s = .next t) (hs : TablesInv s) : TablesInv t := by
  obtain ⟨-, rfl⟩ | ⟨-, -, rfl⟩ | ⟨-, -, -, rfl⟩ | ⟨-, hw, hp, ht⟩ | ⟨-, ha, ht⟩ := exec_cases h
  · exact hs
  · exact hs.of_same (.of_raise s _ _)
  · exact hs.of_same (.of_raise s _ _)
  · by_cases hi : i = .reset
    · subst hi
      obtain rfl := Host.Outcome.next.inj ht
      exact (chainOff_resetCore s).tablesInv
    · exact (bodyOf_tables hs hi hw hp).of_outcome ht
  · obtain ⟨-, rfl⟩ | ⟨a, -, rfl⟩ := outcome_of_acceptedFaulted ha ht
    · exact (chainOff_resetCore s).tablesInv
    · exact hs.of_same ((OneWrite.res (i := .getsym) _ rfl).sameTables rfl)

/-- Settles O52: a command of the chain makes what its flag promises from what the flags before it promise, and clears
the flags after it. -/
theorem stepKeepsTables : Obligations.StepKeepsTables := by
  unfold Obligations.StepKeepsTables
  intro s t hs h
  refine step_keeps (fun u ws hu => hu.of_same ?_) (fun u k info hu => hu.of_same (.of_raise u k info))
    (fun i u v he hu => exec_tables he hu) h hs
  exact ⟨⟨rfl, rfl, rfl, rfl, rfl, rfl, rfl, rfl⟩, rfl, rfl, rfl, rfl, rfl, rfl, rfl, rfl, rfl, rfl⟩

end Sys2Proof.Machine
end

section
/-! Stretches of pseudocode that do not stop the model (entry 7), and the bits of ARC they take (spec R261). -/

namespace Sys2Proof.Machine

variable {s t : State} {α β : Type} {D D' : State → Prop}

/-- The stretch ends, and has `D` where it completes. -/
inductive Run.Goes (D : State → Prop) : Run α → Prop where
  | done {a : α} {t : State} (h : D t) : Run.Goes D (.done a t)
  | raised {t : State} : Run.Goes D (.raised t)

theorem Run.Goes.raise {k : FaultKind} {info : BitVec 16} : (Run.raise k info s : Run α).Goes D := .raised

theorem Run.Goes.imp {r : Run α} (h : r.Goes D) (hD : ∀ t, D t → D' t) : r.Goes D' := by
  cases h with
  | done h => exact .done (hD _ h)
  | raised => exact .raised

theorem Run.Goes.bind {r : Run α} {k : α → State → Run β} (h : r.Goes D) (hk : ∀ a t, D t → (k a t).Goes D') :
    (r.bind k).Goes D' := by
  cases h with
  | done h => exact hk _ _ h
  | raised => exact .raised

theorem Run.Goes.andThen {r : Run Unit} {k : State → Run β} (h : r.Goes D) (hk : ∀ t, D t → (k t).Goes D') :
    (r.andThen k).Goes D' := h.bind fun _ => hk

/-- What every completed end has can be used, too. -/
theorem Run.Goes.and_ends {R : State → Prop} {r : Run α} (h : r.Goes D) (h' : r.Ends D' R) :
    r.Goes fun t => D t ∧ D' t := by
  cases h with
  | done h =>
    cases h' with
    | done h' => exact .done ⟨h, h'⟩
  | raised => exact .raised

theorem Run.Goes.outcome {r : Run Unit} (h : r.Goes D) : ∃ t, r.outcome = .next t := by
  cases h with
  | done h => exact ⟨_, rfl⟩
  | raised => exact ⟨_, rfl⟩

/-! ### The reader -/

/-- At least `n` bits of the archive are taken. -/
def Takes (n : Nat) (s t : State) : Prop := t.bitsLeft + n ≤ s.bitsLeft

theorem readBit_goes (s : State) : (readBit s).Goes fun t => Takes 1 s t ∧ t.tn = s.tn := by
  unfold readBit
  split
  · rename_i h0
    rcases Nat.lt_or_ge s.host.arcPos s.host.arc.length with hlt | hge
    · rw [memReadArc_some hlt]
      refine .done ⟨?_, rfl⟩
      show (8#4 - 1#4).toNat + 8 * (s.host.arc.length - (s.host.arcPos + 1)) + 1 ≤
          s.rcnt.toNat + 8 * (s.host.arc.length - s.host.arcPos)
      rw [h0, show (8#4 - 1#4).toNat = 7 by decide, show (0#4).toNat = 0 by decide]
      omega
    · rw [memReadArc_eod hge]
      exact .raise
  · rename_i h0
    refine .done ⟨?_, rfl⟩
    show (s.rcnt - 1#4).toNat + 8 * (s.host.arc.length - s.host.arcPos) + 1 ≤
        s.rcnt.toNat + 8 * (s.host.arc.length - s.host.arcPos)
    have : (s.rcnt - 1#4).toNat + 1 = s.rcnt.toNat := by bv_omega
    omega

theorem readBits_goes (n : Nat) (s : State) : (readBits n s).Goes (Takes n s) := by
  induction n generalizing s with
  | zero => exact .done (Nat.le_refl _)
  | succ n ih =>
    refine (readBit_goes s).bind fun b t ht => (ih t).bind fun v u hu => .done ?_
    obtain ⟨ht, -⟩ := ht
    unfold Takes at *
    omega

theorem trieWalk_goes (tr : Trie) (s : State) : (trieWalk tr s).Goes fun t => Takes 0 s t ∧ t.tn = s.tn := by
  induction tr generalizing s with
  | nil => exact .raise
  | node c0 c1 v ih0 ih1 =>
    unfold trieWalk
    split
    · cases v with
      | none => exact .raise
      | some x => exact .done ⟨Nat.le_refl _, rfl⟩
    · refine (readBit_goes s).bind fun b t ht => ?_
      obtain ⟨ht, htn⟩ := ht
      have hafter : ∀ u, Takes 0 t u ∧ u.tn = t.tn → Takes 0 s u ∧ u.tn = s.tn := fun u ⟨hu, hun⟩ => by
        refine ⟨?_, hun.trans htn⟩
        unfold Takes at *
        omega
      split
      · exact (ih1 t).imp hafter
      · exact (ih0 t).imp hafter

/-- A symbol takes a bit at least where the root of the trie has none (R167, R261). -/
theorem getSymbol_goes (h : s.tn.lookup [] = none) : (getSymbol s).Goes fun t => Takes 1 s t ∧ t.tn = s.tn := by
  unfold getSymbol
  split
  · exact .raise
  · cases htn : s.tn with
    | nil => exact .raise
    | node c0 c1 v =>
      rw [htn] at h
      obtain rfl : v = none := h
      unfold trieWalk
      split
      · exact .raise
      · rw [← htn]
        refine (readBit_goes s).bind fun b t ht => ?_
        obtain ⟨ht, htn'⟩ := ht
        have hafter : ∀ u, Takes 0 t u ∧ u.tn = t.tn → Takes 1 s u ∧ u.tn = s.tn := fun u ⟨hu, hun⟩ => by
          refine ⟨?_, hun.trans htn'⟩
          unfold Takes at *
          omega
        split
        · exact (trieWalk_goes _ t).imp hafter
        · exact (trieWalk_goes _ t).imp hafter

theorem nameLoop_goes (fuel : Nat) (h : s.tn.lookup [] = none) (hf : s.bitsLeft < fuel) :
    (nameLoop fuel s).Goes fun t => Takes 0 s t ∧ t.tn = s.tn := by
  induction fuel generalizing s with
  | zero => omega
  | succ fuel ih =>
    refine (getSymbol_goes h).bind fun x t ht => ?_
    obtain ⟨ht, htn⟩ := ht
    unfold Takes at ht
    dsimp only
    split
    · exact .raise
    · split
      · exact .raise
      · split
        · exact .done ⟨by unfold Takes; exact (Nat.le_succ _).trans ht, htn⟩
        · refine (ih (s := { t with name := t.name ++ [x.setWidth 8] }) (by rw [← htn] at h; exact h) ?_).imp
            fun u hu => ?_
          · show t.bitsLeft < fuel
            omega
          · obtain ⟨hu, hun⟩ := hu
            have hu' : u.bitsLeft + 0 ≤ t.bitsLeft := hu
            refine ⟨?_, hun.trans htn⟩
            unfold Takes
            omega

theorem contentLoop_goes (fuel : Nat) (h : s.tn.lookup [] = none) (hf : s.bitsLeft < fuel) :
    (contentLoop fuel s).Goes fun t => Takes 0 s t ∧ t.tn = s.tn := by
  induction fuel generalizing s with
  | zero => omega
  | succ fuel ih =>
    refine (getSymbol_goes h).bind fun x t ht => ?_
    obtain ⟨ht, htn⟩ := ht
    unfold Takes at ht
    split
    · refine (ih (s := memWriteDst t (x.setWidth 8)) (by rw [← htn] at h; exact h) ?_).imp fun u hu => ?_
      · show t.bitsLeft < fuel
        omega
      · obtain ⟨hu, hun⟩ := hu
        have hu' : u.bitsLeft + 0 ≤ t.bitsLeft := hu
        refine ⟨?_, hun.trans htn⟩
        unfold Takes
        omega
    · split
      · exact .done ⟨by unfold Takes; exact (Nat.le_succ _).trans ht, htn⟩
      · exact .raise

end Sys2Proof.Machine
end

section
/-! No step stops the model from a state that meets the invariants (entry 7). -/

namespace Sys2Proof.Machine

variable {i : Instr} {s t u : State}

theorem Takes.trans {m n : Nat} (h : Takes m s t) (h' : Takes n t u) : Takes (m + n) s u := by
  unfold Takes at *
  omega

theorem Takes.mono {m n : Nat} (h : Takes n s t) (hmn : m ≤ n) : Takes m s t := by
  unfold Takes at *
  omega

/-- A stretch after one that takes bits. -/
theorem Run.Goes.after {α : Type} {m n : Nat} {r : Run α} (h : r.Goes (Takes n t)) (ht : Takes m s t) :
    r.Goes (Takes (m + n) s) := h.imp fun _ hu => ht.trans hu

/-! ### The decoder -/

theorem rhdrSymbols_goes (j k : Nat) (s : State) : (rhdrSymbols j k s).Goes (Takes 0 s) := by
  induction k generalizing j s with
  | zero => exact .done (Nat.le_refl _)
  | succ k ih =>
    refine (readBits_goes _ s).bind fun x t ht => ?_
    split
    · exact .raise
    · exact ((ih _ { t with ord := tset t.ord j (BitVec.ofNat 9 x) }).after (ht.mono (Nat.zero_le _)))

theorem rhdrCounts_goes (sum room : Nat) (s : State) : (rhdrCounts sum room s).Goes (Takes 0 s) := by
  induction room generalizing sum s with
  | zero =>
    rw [rhdrCounts]
    split
    · exact .raise
    · exact .done (Nat.le_refl _)
  | succ room ih =>
    by_cases hlt : sum < s.hn.toNat
    · rw [rhdrCounts_of_lt hlt]
      refine (readBits_goes _ { s with maxl := s.maxl + 1#9 }).bind fun c t ht => ?_
      rw [rhdrCount]
      dsimp only
      split
      · exact .raise
      · exact (ih _ { t with cntl := tset t.cntl (t.maxl.toNat - 1) (BitVec.ofNat 9 c) }).after
          (ht.mono (Nat.zero_le _))
    · rw [rhdrCounts_of_not_lt hlt]
      exact .done (Nat.le_refl _)

theorem rhdrBody_goes (s : State) : (rhdrBody s).Goes (Takes 1 s) := by
  have hstart : Takes 0 s (s.clearFlags chainFromHeader) := by
    rw [State.clearFlags_shape]
    exact Nat.le_refl _
  refine (readBits_goes Config.symW (s.clearFlags chainFromHeader)).bind fun n t ht => ?_
  refine Run.Goes.andThen ((rhdrSymbols_goes 0 n { t with hn := BitVec.ofNat 10 n }).after
    (hstart.trans (ht.mono (by decide : 1 ≤ Config.symW)))) fun u hu => ?_
  refine Run.Goes.andThen ((rhdrCounts_goes 0 Config.lmax
    { u with cntl := Vector.replicate 258 0#9, maxl := 0#9 }).after hu) fun v hv => .done ?_
  exact hv

theorem canonFrom_goes (ls : List Nat) (j prev code : Nat) (s : State) :
    (canonFrom j prev code ls s).Goes (Takes 0 s) := by
  induction ls generalizing j prev code s with
  | nil => exact .done (Nat.le_refl _)
  | cons l ls ih =>
    by_cases h : code * 2 ^ (l - prev) < 2 ^ l
    · rw [canonFrom_cons_of_lt h]
      exact ih _ _ _ { s with cc := tset s.cc j (BitVec.ofNat 258 (code * 2 ^ (l - prev))) }
    · rw [canonFrom_cons_of_le (Nat.le_of_not_lt h)]
      exact .raise

theorem tbuildBody_goes (s : State) : (tbuildBody s).Goes (Takes 0 s) := by
  rw [tbuildBody_eq]
  have hstart : Takes 0 s s.tbuildStart := by
    rw [s.tbuildStart_shape]
    exact Nat.le_refl _
  refine Run.Goes.andThen ((canonFrom_goes _ _ _ _ s.tbuildStart).after hstart) fun t ht => .done ht

theorem dopenBody_goes (s : State) : (dopenBody s).Goes fun t => Takes 0 s t ∧ t.tn = s.tn := by
  cases hok : s.host.dst.ok s.name with
  | true =>
    rw [dopenBody_of_ok hok]
    exact .done ⟨Nat.le_refl _, rfl⟩
  | false =>
    rw [dopenBody_of_refused hok]
    exact .raise

theorem trailer_goes (h : s.tn.lookup [] = none) : (trailer s).Goes (Takes 0 s) := by
  refine (getSymbol_goes h).bind fun x t ht => ?_
  split
  · exact .raise
  · exact .done (ht.1.mono (Nat.zero_le _))

theorem readBlock_goes (h : s.tn.lookup [] = none) : (readBlock s).Goes (Takes 0 s) := by
  refine (nameLoop_goes (s := { s with name := [] }) _ h (Nat.lt_succ_self _)).andThen fun t ht => ?_
  obtain ⟨ht, htn⟩ := ht
  refine (dopenBody_goes t).andThen fun u hu => ?_
  obtain ⟨hu, hun⟩ := hu
  have hlook : u.tn.lookup [] = none := by rw [hun, htn]; exact h
  refine (contentLoop_goes _ hlook (Nat.lt_succ_self _)).andThen fun v hv => ?_
  obtain ⟨hv, hvn⟩ := hv
  refine (trailer_goes (by rw [hvn]; exact hlook)).bind fun y w hw => .done ?_
  exact Takes.trans (s := s) ht (hu.trans (hv.trans hw))

/-- DECFILE ends, and takes a bit at least (R261). -/
theorem decfileBody_goes (h : TablesInv s) : (decfileBody s).Goes fun t => Takes 1 s t ∧ TablesInv t := by
  refine Run.Goes.and_ends ?_ (decfileBody_tables h)
  rw [decfileBody_eq]
  refine ((rhdrBody_goes s).and_ends (rhdrBody_tables h)).andThen fun t ht => ?_
  obtain ⟨ht, hinv, hv⟩ := ht
  refine ((tbuildBody_goes t).and_ends (tbuildBody_tables hinv hv)).andThen fun u hu => ?_
  obtain ⟨hu, ⟨-, -, htrie⟩, hv'⟩ := hu
  obtain ⟨-, -, hlook, -⟩ := htrie hv'
  exact ((readBlock_goes hlook).after hu).after ht

theorem decompressLoop_goes (fuel : Nat) (h : TablesInv s) (hf : s.bitsLeft < fuel) :
    (decompressLoop fuel s).Goes fun _ => True := by
  induction fuel generalizing s with
  | zero => omega
  | succ fuel ih =>
    refine (decfileBody_goes h).bind fun y t ht => ?_
    obtain ⟨ht, hinv⟩ := ht
    unfold Takes at ht
    split
    · exact .done trivial
    · exact ih hinv (by omega)

/-! ### The encoder -/

theorem count_goes (x : Nat) (s : State) : (count x s).Goes fun _ => True := by
  obtain ⟨-, e⟩ | ⟨-, e⟩ := count_cases x s
  · exact e ▸ .raise
  · exact e ▸ .done trivial

theorem forSrc_goes {body : Byte → State → Run Unit} (hbody : ∀ x u, (body x u).Goes fun _ => True) (n : Nat)
    (s : State) :
    (forSrc body n s).Goes fun _ => True := by
  induction n generalizing s with
  | zero => exact .done trivial
  | succ n ih =>
    rw [forSrc]
    split
    · exact .done trivial
    · exact (hbody _ _).andThen fun t _ => ih t

theorem countAll_goes (xs : List Byte) (s : State) : (countAll xs s).Goes fun _ => True := by
  induction xs generalizing s with
  | nil => exact .done trivial
  | cons x xs ih => exact (count_goes _ s).andThen fun t _ => ih t

theorem scanBody_goes (s : State) : (scanBody s).Goes fun _ => True := by
  refine (countAll_goes _ _).andThen fun t _ => ?_
  refine (forSrc_goes (fun x u => count_goes _ u) _ t).andThen fun t _ => ?_
  exact (count_goes _ t).andThen fun t _ => (count_goes _ t).andThen fun t _ => (count_goes _ t).andThen fun t _ =>
    .done trivial

theorem canonBody_goes (op : Opcode) (s : State) : (canonBody op s).Goes fun _ => True := by
  by_cases h : s.sortedAlphabet = []
  · rw [canonBody_of_empty op h]
    exact .raise
  · rw [canonBody_of_nonempty op h]
    exact (canonFrom_goes _ _ _ _ _).andThen fun t _ => .done trivial

theorem putSymbol_goes (op : Opcode) (x : Sym) (s : State) : (putSymbol op x s).Goes fun _ => True := by
  obtain ⟨-, e⟩ | ⟨j, -, e⟩ := putSymbol_cases op x s
  · exact e ▸ .raise
  · exact e ▸ .done trivial

theorem putAll_goes (op : Opcode) (xs : List Byte) (s : State) : (putAll op xs s).Goes fun _ => True := by
  induction xs generalizing s with
  | nil => exact .done trivial
  | cons x xs ih => exact (putSymbol_goes op _ s).andThen fun t _ => ih t

theorem writeBlock_goes (op : Opcode) (last : Bool) (s : State) : (writeBlock op last s).Goes fun _ => True := by
  refine (putAll_goes op _ _).andThen fun t _ => ?_
  refine (forSrc_goes (fun x u => putSymbol_goes op _ u) _ t).andThen fun t _ => ?_
  exact (putSymbol_goes op _ t).andThen fun t _ => putSymbol_goes op _ t

theorem encfileBody_goes (op : Opcode) (last : Bool) (s : State) : (encfileBody op last s).Goes fun _ => True := by
  rw [encfileBody_eq]
  refine Run.Goes.andThen (D := fun _ => True) ?_ fun t _ => writeBlock_goes op last t
  refine ((scanBody_goes s).and_ends (scanBody_tables s)).andThen fun t ht => ?_
  obtain ⟨-, hinv, hf⟩ := ht
  obtain ⟨u, hu, hinv', hv, -⟩ := buildBody_tables hinv hf
  obtain ⟨v, hv', -⟩ := walkBody_tables hinv' hv
  rw [hu, Run.andThen_done, hv', Run.andThen_done]
  exact canonBody_goes op v

theorem sopenBody_goes (op : Opcode) (idx : BitVec 16) (s : State) : (sopenBody op idx s).Goes fun _ => True := by
  obtain ⟨-, e⟩ | ⟨name, content, -, ⟨-, e⟩ | ⟨-, e⟩⟩ := sopenBody_cases op idx s
  · exact e ▸ .raise
  · exact e ▸ .raise
  · exact e ▸ .done trivial

theorem compressLoop_goes (op : Opcode) (j k : Nat) (s : State) : (compressLoop op j k s).Goes fun _ => True := by
  induction k generalizing j s with
  | zero => exact .done trivial
  | succ k ih =>
    refine (sopenBody_goes op _ s).andThen fun t _ => ?_
    exact (encfileBody_goes op _ t).andThen fun u _ => ih _ _

theorem aopenwBody_goes (s : State) : (aopenwBody s).Goes fun _ => True := by
  cases hok : s.host.arcWOk with
  | true => rw [aopenwBody_of_ok hok]; exact .done trivial
  | false => rw [aopenwBody_of_refused hok]; exact .raise

theorem aopenrBody_goes (s : State) : (aopenrBody s).Goes fun _ => True := by
  cases hok : s.host.arcROk with
  | true => rw [aopenrBody_of_ok hok]; exact .done trivial
  | false => rw [aopenrBody_of_refused hok]; exact .raise

theorem getSymbol_halts (s : State) : (getSymbol s).Goes fun _ => True := by
  unfold getSymbol
  split
  · exact .raise
  · exact (trieWalk_goes _ s).imp fun _ _ => trivial

/-! ### All commands -/

theorem bodyOf_goes (h : TablesInv s) (hp : preOk i s = true) : (bodyOf i s).Goes fun _ => True := by
  cases i with
  | rbit => exact (readBit_goes s).bind fun _ _ _ => .done trivial
  | rbits n => exact (readBits_goes _ s).bind fun _ _ _ => .done trivial
  | rint n => exact (readBits_goes _ s).bind fun _ _ _ => .done trivial
  | scan => exact scanBody_goes s
  | build =>
    obtain ⟨t, e, -⟩ := buildBody_tables h hp
    show (buildBody s).Goes _
    rw [e]
    exact .done trivial
  | walk =>
    obtain ⟨t, e, -⟩ := walkBody_tables h hp
    show (walkBody s).Goes _
    rw [e]
    exact .done trivial
  | canon => exact canonBody_goes _ s
  | rdcode a =>
    show (rdcodeBody _ a s).Goes _
    unfold rdcodeBody
    split
    · exact .raise
    · exact .done trivial
  | rhdr => exact (rhdrBody_goes s).imp fun _ _ => trivial
  | tbuild => exact (tbuildBody_goes s).imp fun _ _ => trivial
  | getsym => exact (getSymbol_halts s).bind fun _ _ _ => .done trivial
  | wsym a => exact putSymbol_goes _ a s
  | encfile a => exact encfileBody_goes _ _ s
  | decfile => exact (decfileBody_goes h).bind fun _ _ _ => .done trivial
  | compress idx =>
    refine (aopenwBody_goes s).andThen fun t _ => ?_
    exact (compressLoop_goes _ _ _ t).andThen fun u _ => .done trivial
  | decompress =>
    obtain ⟨haw, -, -, -⟩ := s.allClosed_iff.mp hp
    refine ((aopenrBody_goes s).and_ends (h.after (i := .nop) (aopenrBody_changes haw) rfl)).andThen fun t ht => ?_
    exact (decompressLoop_goes _ ht.2 (Nat.lt_succ_self _)).andThen fun u _ => .done trivial
  | aopenw => exact aopenwBody_goes s
  | aopenr => exact aopenrBody_goes s
  | sopen idx => exact sopenBody_goes _ idx s
  | dopen => exact (dopenBody_goes s).imp fun _ _ => trivial
  | _ => exact .done trivial

theorem exec_goes (i : Instr) (h : TablesInv s) : ∃ t, exec i s = .next t := by
  rw [exec_eq]
  obtain ⟨-, e⟩ | ⟨-, e | e⟩ | ⟨-, hp, -, e⟩ | ⟨-, hex, -, hp⟩ :=
    runCommand_cases i.opcode (exemptFaulted i) i.wf (preOk i s) (bodyOf i) s
  · exact ⟨_, e⟩
  · exact ⟨_, e⟩
  · exact ⟨_, e⟩
  · rw [e]
    exact (bodyOf_goes h hp).outcome
  · exact absurd (hp.symm.trans (preOk_of_exemptFaulted hex s)) (by decide)

/-- Settles O55: the loops of the decoder are bounded by the bits left, each round taking one at least; BUILD and WALK
find the tables their flags promise. -/
theorem stepNeverStops : Obligations.StepNeverStops := by
  unfold Obligations.StepNeverStops
  rintro s ⟨-, -, htables, -⟩
  cases hc : s.host.cmds with
  | nil => exact ⟨s, by simp only [step, (fetch_none_iff s).mpr hc]⟩
  | cons w rest =>
    have htables' : TablesInv { s with host.cmds := rest } := htables.of_same
      ⟨⟨rfl, rfl, rfl, rfl, rfl, rfl, rfl, rfl⟩, rfl, rfl, rfl, rfl, rfl, rfl, rfl, rfl, rfl, rfl⟩
    simp only [step, fetch_of_cmds hc]
    cases hd : decode w with
    | ok i => exact exec_goes i htables'
    | reservedOpcode op | mustBeZero op => exact ⟨_, rfl⟩

end Sys2Proof.Machine
end

section
/-! The faults each stretch of pseudocode can record (spec R220, R221, R223), from any state without a fault. -/

namespace Sys2Proof.Machine

variable {s t u : State} {α β : Type} {P Q : State → Nat → Nat → Prop}

/-- The stretch completes without a fault, or records one whose kind and FINFO have `P`. -/
abbrev Run.Faults (P : State → Nat → Nat → Prop) (r : Run α) : Prop :=
  r.Ends Ready fun t => t.flag .faulted = true ∧ P t t.fault.toNat t.finfo.toNat

theorem State.flag_raise_faulted (s : State) (k : FaultKind) (info : BitVec 16) :
    (s.raise k info).flag .faulted = true := by
  rw [State.flag_raise, decide_eq_true rfl, Bool.or_true]

theorem Run.Faults.raise {k : FaultKind} {info : BitVec 16} (h : Ready s)
    (hp : P (s.raise k info) k.code.toNat info.toNat) : (Run.raise k info s : Run α).Faults P := by
  refine .raised ⟨State.flag_raise_faulted s k info, ?_⟩
  rw [State.raise_eq h] at hp ⊢
  exact hp

theorem Run.Faults.imp {r : Run α} (h : r.Faults P) (hpq : ∀ t f x, P t f x → Q t f x) : r.Faults Q :=
  Run.Ends.imp h (fun _ ht => ht) fun _ ⟨hf, ht⟩ => ⟨hf, hpq _ _ _ ht⟩

theorem Run.Faults.bind {r : Run α} {k : α → State → Run β} (h : r.Faults Q) (hqp : ∀ t f x, Q t f x → P t f x)
    (hk : ∀ a t, Ready t → (k a t).Faults P) : (r.bind k).Faults P := Run.Ends.bind (h.imp hqp) hk

theorem Run.Faults.andThen {r : Run Unit} {k : State → Run β} (h : r.Faults Q) (hqp : ∀ t f x, Q t f x → P t f x)
    (hk : ∀ t, Ready t → (k t).Faults P) : (r.andThen k).Faults P := h.bind hqp fun _ => hk

theorem Ready.setFlag (h : Ready s) {f : Flag} (hf : f ≠ .faulted) (b : Bool) : Ready (s.setFlag f b) :=
  (State.flag_setFlag _ _ _ _).trans ((if_neg (Ne.symm hf)).trans h)

theorem Ready.clearFlags (h : Ready s) (fs : List Flag) : Ready (s.clearFlags fs) := by
  rw [Ready, State.flag_clearFlags, h]
  rfl

theorem ReaderMoved.ready (h : Ready s) (ht : ReaderMoved s t) : Ready t := by
  rw [ht]
  exact h

theorem toNat_illegalInfo (op : Opcode) (sub : BitVec 4) : (illegalInfo op sub).toNat = op.toNat * 256 + sub.toNat := by
  have hop := op.isLt
  have hsub := sub.isLt
  rw [illegalInfo, BitVec.toNat_or, BitVec.toNat_shiftLeft, BitVec.toNat_setWidth, BitVec.toNat_setWidth,
    Nat.mod_eq_of_lt (a := op.toNat) (by omega), Nat.mod_eq_of_lt (a := sub.toNat) (by omega), Nat.shiftLeft_eq,
    Nat.mod_eq_of_lt (by omega), Nat.mul_comm op.toNat, ← Nat.two_pow_add_eq_or_of_lt (by omega) op.toNat]

/-! ### The kinds of faults -/

/-- CountOverflow: FINFO holds a byte's value whose counter is at its end (R120, R221). -/
def IsOverflow (t : State) (f x : Nat) : Prop :=
  f = 6 ∧ x % 128 = 0 ∧ x / 128 < 256 ∧ (t.freqAt (x / 128)).toNat = 2 ^ 64 - 1

/-- UnexpectedEndOfStream (R221). -/
def IsEnd (f x : Nat) : Prop := f = 2 ∧ x = 0

/-- MalformedCode with a sub-code from `lo` to `hi` (R221). -/
def IsMalformed (lo hi f x : Nat) : Prop := f = 3 ∧ lo ≤ x ∧ x ≤ hi

/-- IllegalOperation(`sub`) of the command (R221). -/
def IsIllegal (op : Opcode) (sub f x : Nat) : Prop := f = 5 ∧ x = op.toNat * 256 + sub

/-- OpenFailure of the stream (R221). -/
def IsOpen (stream f x : Nat) : Prop := f = 1 ∧ x = stream

/-- What DECFILE can record (R223). -/
def IsDecode (f x : Nat) : Prop :=
  IsEnd f x ∨ IsMalformed 1 6 f x ∨ (f = 4 ∧ 1 ≤ x ∧ x ≤ 4) ∨ IsOpen 3 f x

/-! ### The reader -/

theorem faults_of_moves {r : Run α} (h : Ready s) (hr : r.Ends (ReaderMoved s) (CutShort s)) :
    r.Faults fun _ f x => IsEnd f x := by
  refine Run.Ends.imp hr (fun t ht => ht.ready h) fun t ht => ?_
  obtain ⟨u, hu, rfl⟩ := ht
  refine ⟨State.flag_raise_faulted u _ _, ?_⟩
  rw [State.raise_eq (hu.ready h)]
  exact ⟨rfl, rfl⟩

theorem readBit_faults (h : Ready s) : (readBit s).Faults fun _ f x => IsEnd f x := faults_of_moves h (readBit_moves s)

theorem readBits_faults (n : Nat) (h : Ready s) : (readBits n s).Faults fun _ f x => IsEnd f x :=
  faults_of_moves h (readBits_moves n s)

theorem trieWalk_faults (tr : Trie) (h : Ready s) :
    (trieWalk tr s).Faults fun _ f x => IsEnd f x ∨ IsMalformed 5 6 f x := by
  induction tr generalizing s with
  | nil => exact .raise h (.inr ⟨rfl, by decide, by decide⟩)
  | node c0 c1 v ih0 ih1 =>
    unfold trieWalk
    split
    · cases v with
      | none => exact .raise h (.inr ⟨rfl, by decide, by decide⟩)
      | some x => exact .done h
    · refine (readBit_faults h).bind (fun _ _ _ e => .inl e) fun b t ht => ?_
      split
      · exact ih1 ht
      · exact ih0 ht

theorem getSymbol_faults (h : Ready s) :
    (getSymbol s).Faults fun _ f x => IsEnd f x ∨ IsMalformed 5 6 f x := by
  unfold getSymbol
  split
  · exact .raise h (.inr ⟨rfl, by decide, by decide⟩)
  · exact trieWalk_faults _ h

theorem getSymbol_isDecode (h : Ready s) : (getSymbol s).Faults fun _ f x => IsDecode f x :=
  (getSymbol_faults h).imp fun _ f x e => e.imp id fun ⟨h3, h5, h6⟩ => .inl ⟨h3, by omega, h6⟩

/-! ### Header, codes and trie -/

theorem rhdrSymbols_faults (j k : Nat) (h : Ready s) :
    (rhdrSymbols j k s).Faults fun _ f x => IsEnd f x ∨ IsMalformed 1 3 f x := by
  induction k generalizing j s with
  | zero => exact .done h
  | succ k ih =>
    refine (readBits_faults _ h).bind (fun _ _ _ e => .inl e) fun x t ht => ?_
    split
    · exact .raise ht (.inr ⟨rfl, by decide, by decide⟩)
    · exact ih _ (s := { t with ord := tset t.ord j (BitVec.ofNat 9 x) }) ht

theorem rhdrCounts_faults (sum room : Nat) (h : Ready s) :
    (rhdrCounts sum room s).Faults fun _ f x => IsEnd f x ∨ IsMalformed 1 3 f x := by
  induction room generalizing sum s with
  | zero =>
    rw [rhdrCounts]
    split
    · exact .raise h (.inr ⟨rfl, by decide, by decide⟩)
    · exact .done h
  | succ room ih =>
    by_cases hlt : sum < s.hn.toNat
    · rw [rhdrCounts_of_lt hlt]
      refine (readBits_faults (s := { s with maxl := s.maxl + 1#9 }) _ h).bind (fun _ _ _ e => .inl e) fun c t ht => ?_
      rw [rhdrCount]
      dsimp only
      split
      · exact .raise ht (.inr ⟨rfl, by decide, by decide⟩)
      · exact ih _ (s := { t with cntl := tset t.cntl (t.maxl.toNat - 1) (BitVec.ofNat 9 c) }) ht
    · rw [rhdrCounts_of_not_lt hlt]
      exact .done h

theorem rhdrBody_hValid (h : rhdrBody s = .done () t) : t.flag .hValid = true := by
  obtain ⟨_, u, -, h⟩ := Run.bind_eq_done h
  obtain ⟨_, v, -, h⟩ := Run.bind_eq_done h
  obtain ⟨_, w, -, h⟩ := Run.bind_eq_done h
  cases h
  exact (State.flag_setFlag w _ _ _).trans (if_pos rfl)

theorem rhdrBody_faults (h : Ready s) : (rhdrBody s).Faults fun _ f x => IsEnd f x ∨ IsMalformed 1 3 f x := by
  have hstart : Ready (s.clearFlags chainFromHeader) := h.clearFlags _
  refine (readBits_faults _ hstart).bind (fun _ _ _ e => .inl e) fun n t ht => ?_
  refine Run.Ends.andThen (rhdrSymbols_faults 0 n (s := { t with hn := BitVec.ofNat 10 n }) ht) fun u hu => ?_
  refine Run.Ends.andThen (rhdrCounts_faults 0 Config.lmax
    (s := { u with cntl := Vector.replicate 258 0#9, maxl := 0#9 }) hu) fun v hv => ?_
  exact .done (hv.setFlag (by decide) true)

theorem canonFrom_faults (ls : List Nat) (j prev code : Nat) (h : Ready s) :
    (canonFrom j prev code ls s).Faults fun _ f x => IsMalformed 4 4 f x := by
  induction ls generalizing j prev code s with
  | nil => exact .done h
  | cons l ls ih =>
    by_cases hlt : code * 2 ^ (l - prev) < 2 ^ l
    · rw [canonFrom_cons_of_lt hlt]
      exact ih _ _ _ (s := { s with cc := tset s.cc j (BitVec.ofNat 258 (code * 2 ^ (l - prev))) }) h
    · rw [canonFrom_cons_of_le (Nat.le_of_not_lt hlt)]
      exact .raise h ⟨rfl, by decide, by decide⟩

theorem tbuildBody_faults (h : Ready s) : (tbuildBody s).Faults fun _ f x => IsMalformed 4 4 f x := by
  rw [tbuildBody_eq]
  have hstart : Ready s.tbuildStart := h.clearFlags chainFromCodes
  refine Run.Ends.andThen (canonFrom_faults _ _ _ _ hstart) fun t ht => .done ?_
  exact Ready.setFlag (Ready.setFlag (s := { t with tn := t.headerTrie }) ht (by decide) true) (by decide) true

theorem canonBody_faults (op : Opcode) (h : Ready s) :
    (canonBody op s).Faults fun _ f x => IsIllegal op 6 f x ∨ IsMalformed 4 4 f x := by
  have hclear : Ready (s.clearFlags chainFromHeader) := h.clearFlags _
  by_cases hs : s.sortedAlphabet = []
  · rw [canonBody_of_empty op hs]
    exact .raise hclear (.inl ⟨rfl, toNat_illegalInfo op 6#4⟩)
  · rw [canonBody_of_nonempty op hs]
    refine (canonFrom_faults _ _ _ _ (s := s.canonHeader) hclear).andThen (fun _ _ _ e => .inr e) fun t ht => ?_
    exact .done ((ht.setFlag (by decide) true).setFlag (by decide) true)

/-! ### Decoding a block -/

theorem nameLoop_faults (fuel : Nat) (h : Ready s) : (nameLoop fuel s).Faults fun _ f x => IsDecode f x := by
  induction fuel generalizing s with
  | zero => exact .stuck
  | succ fuel ih =>
    refine (getSymbol_isDecode h).bind (fun _ _ _ e => e) fun x t ht => ?_
    dsimp only
    split
    · exact .raise ht (.inr (.inr (.inl ⟨rfl, by decide, by decide⟩)))
    · split
      · exact .raise ht (.inr (.inr (.inl ⟨rfl, by decide, by decide⟩)))
      · split
        · exact .done ht
        · exact ih (s := { t with name := t.name ++ [x.setWidth 8] }) ht

theorem contentLoop_faults (fuel : Nat) (h : Ready s) : (contentLoop fuel s).Faults fun _ f x => IsDecode f x := by
  induction fuel generalizing s with
  | zero => exact .stuck
  | succ fuel ih =>
    refine (getSymbol_isDecode h).bind (fun _ _ _ e => e) fun x t ht => ?_
    split
    · exact ih (s := memWriteDst t (x.setWidth 8)) ht
    · split
      · exact .done ht
      · exact .raise ht (.inr (.inr (.inl ⟨rfl, by decide, by decide⟩)))

theorem trailer_faults (h : Ready s) : (trailer s).Faults fun _ f x => IsDecode f x := by
  refine (getSymbol_isDecode h).bind (fun _ _ _ e => e) fun x t ht => ?_
  split
  · exact .raise ht (.inr (.inr (.inl ⟨rfl, by decide, by decide⟩)))
  · exact .done ht

theorem dopenBody_faults (h : Ready s) : (dopenBody s).Faults fun _ f x => IsOpen 3 f x := by
  cases hok : s.host.dst.ok s.name with
  | true =>
    rw [dopenBody_of_ok hok]
    exact .done (Ready.setFlag (s := { s with host.outputs := _ }) h (by decide) true)
  | false =>
    rw [dopenBody_of_refused hok]
    exact .raise h ⟨rfl, rfl⟩

theorem readBlock_faults (h : Ready s) : (readBlock s).Faults fun _ f x => IsDecode f x := by
  refine Run.Ends.andThen (nameLoop_faults _ (s := { s with name := [] }) h) fun t ht => ?_
  refine (dopenBody_faults ht).andThen (fun _ _ _ e => .inr (.inr (.inr e))) fun u hu => ?_
  refine Run.Ends.andThen (contentLoop_faults _ hu) fun v hv => ?_
  refine Run.Ends.bind (trailer_faults hv) fun y w hw => .done ?_
  exact Ready.setFlag hw (by decide) false

theorem decfileBody_faults (h : Ready s) : (decfileBody s).Faults fun _ f x => IsDecode f x := by
  rw [decfileBody_eq]
  refine (rhdrBody_faults h).andThen (fun _ f x e =>
    e.imp id fun ⟨h3, h1, h3'⟩ => .inl ⟨h3, h1, by omega⟩) fun t ht => ?_
  refine (tbuildBody_faults ht).andThen (fun _ f x ⟨h3, h4, h4'⟩ =>
    .inr (.inl ⟨h3, by omega, by omega⟩)) fun u hu => ?_
  exact readBlock_faults hu

theorem decompressLoop_faults (fuel : Nat) (h : Ready s) :
    (decompressLoop fuel s).Faults fun _ f x => IsDecode f x := by
  induction fuel generalizing s with
  | zero => exact .stuck
  | succ fuel ih =>
    refine Run.Ends.bind (decfileBody_faults h) fun y t ht => ?_
    split
    · exact .done ht
    · exact ih ht

/-! ### The encoder -/

theorem status_clearFlags_ready (h : Ready s) {fs : List Flag} (ht : t.status = (s.clearFlags fs).status) : Ready t :=
  (State.flag_congr ht _).trans (h.clearFlags fs)

/-- What ENCFILE can record (R223). -/
def IsEncode (op : Opcode) (t : State) (f x : Nat) : Prop := IsOverflow t f x ∨ IsIllegal op 5 f x

theorem scanBody_faults (h : Ready s) : (scanBody s).Faults IsOverflow := by
  refine (scanBody_ends s).imp (fun t ht => ?_) fun t ht => ?_
  · rw [Ready, ht.flag, if_neg (by decide), h]
    rfl
  · obtain ⟨u, x, hstatus, hx, hall, rfl⟩ := ht
    have hfin : (overflowInfo x).toNat = x * 128 := by
      rw [overflowInfo_eq, BitVec.toNat_ofNat]
      omega
    refine ⟨State.flag_raise_faulted u _ _, ?_⟩
    have hfreq : ((u.raise .countOverflow (overflowInfo x)).freqAt x).toNat = 2 ^ 64 - 1 := by
      rw [State.freqAt_congr (State.raise_freq u _ _), hall]
      rfl
    rw [State.raise_eq (status_clearFlags_ready h hstatus)] at hfreq ⊢
    dsimp only at hfreq ⊢
    rw [hfin]
    exact ⟨rfl, by omega, by omega, by rw [Nat.mul_div_cancel _ (by decide)]; exact hfreq⟩

theorem putSymbol_faults (op : Opcode) (x : Sym) (h : Ready s) :
    (putSymbol op x s).Faults fun _ f x => IsIllegal op 5 f x := by
  obtain ⟨-, e⟩ | ⟨j, -, e⟩ := putSymbol_cases op x s
  · rw [e]
    exact .raise h ⟨rfl, toNat_illegalInfo op 5#4⟩
  · rw [e]
    refine .done ?_
    rw [writeBitList_shape]
    exact h

theorem putAll_faults (op : Opcode) (xs : List Byte) (h : Ready s) :
    (putAll op xs s).Faults fun _ f x => IsIllegal op 5 f x := by
  induction xs generalizing s with
  | nil => exact .done h
  | cons x xs ih => exact (putSymbol_faults op _ h).andThen (fun _ _ _ e => e) fun t ht => ih ht

theorem writeBlock_faults (op : Opcode) (last : Bool) (h : Ready s) :
    (writeBlock op last s).Faults fun _ f x => IsIllegal op 5 f x := by
  have hstart : Ready (hostRewindSrc (whdrBody s)) := by
    rw [whdrBody_eq_writeBitList, writeBitList_shape]
    exact h
  refine (putAll_faults op _ hstart).andThen (fun _ _ _ e => e) fun t ht => ?_
  refine Run.Faults.andThen (forSrc_ends (fun x u hu => putSymbol_faults op (x.setWidth 9) hu) (fun u p hu => hu) _ ht)
    (fun _ _ _ e => e) fun u hu => ?_
  exact (putSymbol_faults op _ hu).andThen (fun _ _ _ e => e) fun v hv => putSymbol_faults op _ hv

/-- After SCAN the other three unit bodies complete (R121, R125, R142). -/
theorem treeBodies_of_scanned (op : Opcode) (h : Scanned s t) (hs : Ready s) :
    ∃ u, ((buildBody t).andThen fun s => (walkBody s).andThen fun s => canonBody op s) = .done () u ∧ Ready u := by
  have hready : Ready t := by
    rw [Ready, h.flag, if_neg (by decide), hs]
    rfl
  obtain ⟨u, v, c, hu, hv, hdepths, -, hshu, hshv⟩ := buildWalk_spec (two_le_presentSyms h.freq256 h.freq257)
  have hru : Ready u := by
    rw [Ready, flag_chainSet (s := t) (fs := chainFromTree) (g := .tValid) (by rw [status_built, hshu]),
      if_neg (by decide), hready]
    rfl
  have hrv : Ready v := by
    rw [Ready, flag_chainSet (s := u) (fs := chainFromLen) (g := .lValid) (by rw [status_walked, hshv]),
      if_neg (by decide), hru]
    rfl
  obtain ⟨w, hw, hrw, -⟩ := canonBody_completes op hdepths.lengthsOk hrv
  exact ⟨w, by rw [hu, Run.andThen_done, hv, Run.andThen_done, hw], hrw⟩

theorem encfileBody_faults (op : Opcode) (last : Bool) (h : Ready s) :
    (encfileBody op last s).Faults (IsEncode op) := by
  rw [encfileBody_eq]
  refine Run.Faults.andThen (Q := IsOverflow) ?_ (fun _ _ _ e => .inl e) fun t ht =>
    (writeBlock_faults op last ht).imp fun _ _ _ e => .inr e
  refine Run.Ends.bind_of_done (scanBody_faults h) fun _ t hr _ => ?_
  obtain ⟨u, hu, hru⟩ := treeBodies_of_scanned op ((scanBody_ends s).of_done hr) h
  show Run.Faults IsOverflow ((buildBody t).andThen _)
  rw [hu]
  exact .done hru

/-! ### Streams -/

theorem aopenwBody_faults (h : Ready s) : (aopenwBody s).Faults fun _ f x => IsOpen 0 f x := by
  cases hok : s.host.arcWOk with
  | true =>
    rw [aopenwBody_of_ok hok]
    exact .done (Ready.setFlag (s := { s with wbuf := 0#8, wcnt := 0#4, host.arc := [] }) h (by decide) true)
  | false =>
    rw [aopenwBody_of_refused hok]
    exact .raise h ⟨rfl, rfl⟩

theorem aopenrBody_faults (h : Ready s) : (aopenrBody s).Faults fun _ f x => IsOpen 1 f x := by
  cases hok : s.host.arcROk with
  | true =>
    rw [aopenrBody_of_ok hok]
    exact .done (Ready.setFlag (s := { s with rbuf := 0#8, rcnt := 0#4, host.arcPos := 0 }) h (by decide) true)
  | false =>
    rw [aopenrBody_of_refused hok]
    exact .raise h ⟨rfl, rfl⟩

theorem sopenBody_faults (op : Opcode) (idx : BitVec 16) (h : Ready s) :
    (sopenBody op idx s).Faults fun _ f x => IsOpen 2 f x ∨ IsIllegal op 3 f x := by
  obtain ⟨-, e⟩ | ⟨name, content, -, ⟨-, e⟩ | ⟨-, e⟩⟩ := sopenBody_cases op idx s
  · rw [e]
    exact .raise (s := { s with sidx := idx }) h (.inl ⟨rfl, rfl⟩)
  · rw [e]
    exact .raise (s := { s with sidx := idx, host.srcPos := 0 }) h (.inr ⟨rfl, toNat_illegalInfo op 3#4⟩)
  · rw [e]
    exact .done (Ready.setFlag (s := { s with sidx := idx, name := name, host.srcPos := 0 }) h (by decide) true)

theorem compressLoop_faults (op : Opcode) (j k : Nat) (h : Ready s) :
    (compressLoop op j k s).Faults fun t f x => (IsOpen 2 f x ∨ IsIllegal op 3 f x) ∨ IsEncode op t f x := by
  induction k generalizing j s with
  | zero => exact .done h
  | succ k ih =>
    refine (sopenBody_faults op _ h).andThen (fun _ _ _ e => .inl e) fun t ht => ?_
    refine (encfileBody_faults op _ ht).andThen (fun _ _ _ e => .inr e) fun u hu => ?_
    exact ih _ (Ready.setFlag hu (by decide) false)

/-! ### All commands -/

/-- The execution faults of each command (R223). -/
def CanRecord (i : Instr) (t : State) (f x : Nat) : Prop :=
  match i with
  | .rbit | .rbits _ | .rint _ => IsEnd f x
  | .scan => IsOverflow t f x
  | .canon => IsIllegal 0x0D#6 6 f x ∨ IsMalformed 4 4 f x
  | .rdcode _ => IsIllegal 0x0F#6 5 f x
  | .wsym _ => IsIllegal 0x14#6 5 f x
  | .rhdr => IsEnd f x ∨ IsMalformed 1 3 f x
  | .tbuild => IsMalformed 4 4 f x
  | .getsym => IsEnd f x ∨ IsMalformed 5 6 f x
  | .aopenw => IsOpen 0 f x
  | .aopenr => IsOpen 1 f x
  | .sopen _ => IsOpen 2 f x ∨ IsIllegal 0x1D#6 3 f x
  | .dopen => IsOpen 3 f x
  | .encfile _ => IsEncode 0x15#6 t f x
  | .decfile => IsDecode f x
  | .compress _ => IsOpen 0 f x ∨ (IsOpen 2 f x ∨ IsIllegal 0x17#6 3 f x) ∨ IsEncode 0x17#6 t f x
  | .decompress => IsOpen 1 f x ∨ IsDecode f x
  | _ => False

theorem buildBody_faults (h : Ready s) : (buildBody s).Faults fun _ _ _ => False := by
  unfold buildBody
  dsimp only
  split
  · exact .stuck
  · refine .done (Ready.setFlag (f := .tValid) ((h.clearFlags chainFromTree).of_status ?_) (by decide) true)
    dsimp only
    rw [mergeLoop_shape, foldl_addLeaf_shape]

theorem visit_faults (n : Nat) (g : Handle) (d : Nat) (h : Ready s) : (visit n g d s).Faults fun _ _ _ => False := by
  induction n generalizing g d s with
  | zero => exact .stuck
  | succ n ih =>
    unfold visit
    dsimp only
    split
    · split
      · exact .done h
      · exact (ih _ _ h).andThen (fun _ _ _ e => e) fun t ht => ih _ _ ht
    · exact .stuck

theorem walkBody_faults (h : Ready s) : (walkBody s).Faults fun _ _ _ => False := by
  refine (visit_faults _ _ _ (s := { s.clearFlags chainFromLen with len := Vector.replicate 259 0#9 })
    (h.clearFlags chainFromLen)).andThen (fun _ _ _ e => e) fun t ht => .done (ht.setFlag (by decide) true)

theorem ldlenBody_ready (h : Ready s) (a : Sym) (l : BitVec 9) : Ready (ldlenBody a l s) := by
  rw [Ready, flag_chainSet (s := s) (fs := chainFromHeader) (g := .lValid) (by rw [ldlenBody_eq, status_ldlen]),
    if_neg (by decide), h]
  rfl

theorem bodyOf_faults (i : Instr) (h : Ready s) : (bodyOf i s).Faults (CanRecord i) := by
  cases i with
  | nop => exact .done h
  | wbits n v => exact .done (by rw [writeBits, writeBitList_shape]; exact h)
  | wint n v => exact .done (by rw [writeBits, writeBitList_shape]; exact h)
  | wflush => exact .done (by rw [flush_shape]; exact h)
  | rbit => exact (readBit_faults h).bind (fun _ _ _ e => e) fun _ t ht => .done ht
  | rbits n => exact (readBits_faults _ h).bind (fun _ _ _ e => e) fun _ t ht => .done ht
  | rint n => exact (readBits_faults _ h).bind (fun _ _ _ e => e) fun _ t ht => .done ht
  | scan => exact scanBody_faults h
  | build => exact (buildBody_faults h).imp fun _ _ _ e => e.elim
  | walk => exact (walkBody_faults h).imp fun _ _ _ e => e.elim
  | rdfreq a => exact .done h
  | ldlen a l => exact .done (ldlenBody_ready h a l)
  | canon => exact canonBody_faults _ h
  | rdlen a => exact .done h
  | rdcode a =>
    show (rdcodeBody _ a s).Faults _
    unfold rdcodeBody
    split
    · exact .raise h ⟨rfl, toNat_illegalInfo 0x0F#6 5#4⟩
    · exact .done h
  | whdr => exact .done (by rw [whdrBody_eq_writeBitList, writeBitList_shape]; exact h)
  | rhdr => exact rhdrBody_faults h
  | tbuild => exact tbuildBody_faults h
  | getsym => exact (getSymbol_faults h).bind (fun _ _ _ e => e) fun _ t ht => .done ht
  | wsym a => exact putSymbol_faults _ a h
  | encfile a => exact encfileBody_faults _ _ h
  | decfile => exact (decfileBody_faults h).bind (fun _ _ _ e => e) fun _ t ht => .done ht
  | compress idx =>
    refine (aopenwBody_faults h).andThen (fun _ _ _ e => .inl e) fun t ht => ?_
    exact (compressLoop_faults _ _ _ ht).andThen (fun _ _ _ e => .inr e) fun u hu => .done (closeArc_ready hu)
  | decompress =>
    refine (aopenrBody_faults h).andThen (fun _ _ _ e => .inl e) fun t ht => ?_
    exact (decompressLoop_faults _ ht).andThen (fun _ _ _ e => .inr e) fun u hu => .done (closeArc_ready hu)
  | reset => exact .done (by simp [Ready])
  | rdsr a => exact .done h
  | aopenw => exact aopenwBody_faults h
  | aopenr => exact aopenrBody_faults h
  | sopen idx => exact sopenBody_faults _ idx h
  | srewind => exact .done h
  | dopen => exact dopenBody_faults h
  | close a =>
    refine .done ?_
    unfold closeBody
    split
    · exact closeArc_ready h
    · exact h.setFlag (by decide) false
    · exact h.setFlag (by decide) false

/-- A body that ends with a fault has recorded one it can record. -/
theorem canRecord_of_outcome {i : Instr} (h : Ready s) (ho : (bodyOf i s).outcome = .next t)
    (ht : t.flag .faulted = true) : CanRecord i t t.fault.toNat t.finfo.toNat := by
  have hf := bodyOf_faults i h
  obtain e | e := Run.outcome_eq_next.mp ho <;> rw [e] at hf
  · cases hf with
    | done hr => exact absurd (hr.symm.trans ht) (by decide)
  · cases hf with
    | raised hp => exact hp.2

/-- Settles O59: the checks record 3 and 4, and each body is a sequence of stretches with known faults. -/
theorem faultsOfEachCommand : Obligations.FaultsOfEachCommand := by
  unfold Obligations.FaultsOfEachCommand
  intro i s t h he ht
  have hlive : ¬ s.flag .faulted = true := by rw [h]; decide
  have hinfo : ∀ k : BitVec 4, (s.raise .illegalOperation (illegalInfo i.opcode k)).fault.toNat = 5 ∧
      (s.raise .illegalOperation (illegalInfo i.opcode k)).finfo.toNat = i.opcode.toNat * 256 + k.toNat := fun k => by
    rw [State.raise_eq h]
    exact ⟨rfl, toNat_illegalInfo _ _⟩
  obtain ⟨hf, -⟩ | ⟨-, hw, rfl⟩ | ⟨-, hw, hp, rfl⟩ | ⟨-, hw, hp, ho⟩ | ⟨hf, -⟩ := exec_cases he
  · exact absurd hf hlive
  · exact .inl ⟨(hinfo 3).1, (hinfo 3).2, hw⟩
  · exact .inr (.inl ⟨(hinfo 4).1, (hinfo 4).2, hw, hp⟩)
  · refine .inr (.inr ⟨hw, hp, ?_⟩)
    have hcan := canRecord_of_outcome h ho ht
    have hfour : ∀ {f x}, IsMalformed 4 4 f x → f = 3 ∧ x = 4 := fun ⟨h3, h4, h4'⟩ => ⟨h3, by omega⟩
    cases i with
    | canon => exact hcan.imp id hfour
    | tbuild => exact hfour hcan
    | compress idx =>
      obtain ⟨h1, h0⟩ | (⟨h1, h2⟩ | ⟨h5, h3⟩) | hover | ⟨h5, h5'⟩ := hcan
      · exact .inl ⟨h1, .inl h0⟩
      · exact .inl ⟨h1, .inr h2⟩
      · exact .inr (.inr ⟨h5, .inl h3⟩)
      · exact .inr (.inl hover)
      · exact .inr (.inr ⟨h5, .inr h5'⟩)
    | decompress =>
      obtain ⟨h1, h1'⟩ | hend | hmal | hframe | ⟨h1, h3⟩ := hcan
      · exact .inr (.inr (.inr ⟨h1, .inl h1'⟩))
      · exact .inl hend
      · exact .inr (.inl hmal)
      · exact .inr (.inr (.inl hframe))
      · exact .inr (.inr (.inr ⟨h1, .inr h3⟩))
    | _ => exact hcan
  · exact absurd hf hlive

end Sys2Proof.Machine
end

section
/-! ENCFILE's block against the unit commands run one after another (spec R181), and what it leaves of the input. -/

namespace Sys2Proof.Machine

variable {s t u : State} {b : Block} {bits : List Bool}

/-- The effect of CANON on STATUS (R142, R40). -/
theorem status_canon (s : State) :
    (((s.clearFlags chainFromHeader).setFlag .hValid true).setFlag .cValid true).status =
      (s.status &&& 0xF8FF#16) ||| 0x0300#16 := by
  show statusWith (statusWith (s.clearFlags chainFromHeader).status .hValid true) .cValid true = _
  rw [status_cleared_header, show (0x0300#16 : BitVec 16) = 0x0100#16 ||| 0x0200#16 by decide, ← BitVec.or_assoc]
  rfl

/-- Where CANON completes, the caller's opcode plays no part. -/
theorem canonBody_opcode (op op' : Opcode) (h : s.LengthsOk) : canonBody op s = canonBody op' s :=
  (canonBody_eq op h).trans (canonBody_eq op' h).symm

/-- The header's fields, entry by entry (R31, R32). -/
theorem State.HasHeader.entries (h : s.HasHeader b) (hok : b.HeaderOk) :
    b.syms = (List.range s.hn.toNat).map (fun i => (s.ordAt i).toNat) ∧
      b.counts = (List.range s.maxl.toNat).map fun k => (s.cntlAt (k + 1)).toNat := by
  obtain ⟨hsize, -, hcounts, -⟩ := hok
  rw [h.hn, h.maxl, map_ordAt_range s hsize]
  exact ⟨h.ord.symm, h.cntl.symm.trans (map_take_eq _ hcounts 0#9 _)⟩

/-- SCAN, BUILD, WALK and CANON from `s` complete in `u`, with the header and the codes of the block. -/
structure UnitCommands (op : Opcode) (s u : State) (b : Block) : Prop where
  bodies : unitBodies op s = .done () u
  encodedBy : b.EncodedBy s u
  headerOk : b.HeaderOk
  header : u.HasHeader b
  codes : u.HasCodes b
  listed : ∀ x ∈ blockSymbols s.name s.srcContent, x ∈ b.syms
  shape : u = { s with
    freq := u.freq, node := u.node, ncnt := u.ncnt, root := u.root, pq := u.pq, len := u.len, hn := u.hn, ord := u.ord,
    cntl := u.cntl, maxl := u.maxl, cl := u.cl, cc := u.cc, status := (s.status &&& 0xF81F#16) ||| 0x03E0#16,
    host.srcPos := u.host.srcPos }

/-- The four commands complete one after another on an input at its start, as their bodies do in ENCFILE (R181). -/
theorem unitCommands_spec (op : Opcode) (h : Ready s) (ho : s.flag .sOpen = true) (hpos : s.host.srcPos = 0)
    (hlen : s.name.length + s.srcContent.length < 2 ^ 64) : ∃ u b, UnitCommands op s u b := by
  have hrest : s.srcRest = s.srcContent := by rw [State.srcRest, hpos, List.drop_zero]
  rw [← hrest] at hlen
  obtain ⟨u1, h1, hsh1⟩ := scanBody_spec hlen
  have hpresent : ∀ x ∈ blockSymbols s.name s.srcRest, x ∈ u1.presentSyms := fun x hx =>
    List.mem_filter.mpr ⟨List.mem_range.mpr ((noOverflow_blockSymbols hlen).1 x hx),
      by simpa using freqAt_ne_zero_of_scanned hlen (by rw [hsh1]) hx⟩
  have hctl := (scanBody_ends s).of_done h1
  obtain ⟨u2, u3, c, h2, h3, hdepths, hperm, hsh2, hsh3⟩ := buildWalk_spec
    (two_le_presentSyms hctl.freq256 hctl.freq257)
  have hok := hdepths.lengthsOk
  obtain ⟨u, h4, hheader, hcodes, hsh4⟩ := canonBody_spec 0x0D#6 hok s.name s.srcRest
  have hsyms : (u3.canonBlock s.name s.srcRest).syms.Perm u1.presentSyms :=
    (u3.sortedAlphabet_perm.trans hdepths.alphabet_perm).trans hperm
  have hst1 : u1.status = (s.status &&& 0xF81F#16) ||| 0x0020#16 := by rw [hsh1, ← status_scanned]
  have hst2 : u2.status = (u1.status &&& 0xF83F#16) ||| 0x0040#16 := by rw [hsh2]
  have hst3 : u3.status = (u2.status &&& 0xF87F#16) ||| 0x0080#16 := by rw [hsh3]
  have hst4 : u.status = (u3.status &&& 0xF8FF#16) ||| 0x0300#16 := by rw [hsh4, ← status_canon]
  have hf1 := flag_chainSet (hst1.trans (status_scanned s).symm)
  have hf2 := flag_chainSet (hst2.trans (status_built u1).symm)
  have hf3 := flag_chainSet (hst3.trans (status_walked u2).symm)
  have hr1 : Ready u1 := (hf1 .faulted).trans (by rw [h]; rfl)
  have hr2 : Ready u2 := (hf2 .faulted).trans (by rw [hr1]; rfl)
  have hr3 : Ready u3 := (hf3 .faulted).trans (by rw [hr2]; rfl)
  have hr : Ready u := (flag_of_chain_pair (s := u3) (by rw [hsh4]) (by decide) (by decide)).trans hr3
  have hheaderOk := (hok.headerOk s.name s.srcRest).2
  refine ⟨u, u3.canonBlock s.name s.srcRest, ?_, ⟨hpos, rfl, hrest, ⟨u1, u2, u3, ?_, ?_, ?_, ?_, hr, ?_⟩,
    hheader.entries hheaderOk⟩, hheaderOk, hheader, hcodes, fun x hx => ?_, ?_⟩
  · simp only [unitBodies, h1, h2, h3, Run.andThen_done]
    rw [canonBody_opcode op 0x0D#6 hok, h4]
  · rw [exec_of_ready (i := .scan) h rfl ho]
    exact congrArg Run.outcome h1
  · rw [exec_of_ready (i := .build) hr1 rfl (hf1 .fValid)]
    exact congrArg Run.outcome h2
  · rw [exec_of_ready (i := .walk) hr2 rfl (hf2 .tValid)]
    exact congrArg Run.outcome h3
  · rw [exec_of_ready (i := .canon) hr3 rfl (hf3 .lValid)]
    exact congrArg Run.outcome h4
  · rw [hsyms.length_eq, State.presentSyms_length]
  · rw [← hrest] at hx
    exact hsyms.mem_iff.mpr (hpresent x hx)
  · have hst : u.status = (s.status &&& 0xF81F#16) ||| 0x03E0#16 := by
      rw [hst4, hst3, hst2, hst1, and_or_and_or, and_or_and_or, and_or_and_or]
      rfl
    rw [← hst, hsh4, hsh3, hsh2, hsh1]

/-! ### The input after ENCFILE -/

/-- `PutSymbol` leaves SRC alone (R166). -/
theorem putSymbol_src {op : Opcode} {x : Sym} (h : putSymbol op x s = .done () t) :
    t.srcContent = s.srcContent ∧ t.host.srcPos = s.host.srcPos := by
  obtain ⟨-, e⟩ | ⟨i, -, e⟩ := putSymbol_cases op x s <;> rw [e] at h <;> cases h
  rw [writeBitList_shape]
  exact ⟨rfl, rfl⟩

/-- ENCFILE reads SRC to its end (R181). -/
theorem writeBlock_srcRest {op : Opcode} {last : Bool} (h : writeBlock op last s = .done () t) : t.srcRest = [] := by
  obtain ⟨_, s1, -, h⟩ := Run.bind_eq_done h
  obtain ⟨_, s2, h2, h⟩ := Run.bind_eq_done h
  obtain ⟨_, s3, h3, h4⟩ := Run.bind_eq_done h
  obtain ⟨hc2, hp2⟩ := forSrc_srcPos (fun x s t hx => putSymbol_src hx) h2
  obtain ⟨hc3, hp3⟩ := putSymbol_src h3
  obtain ⟨hc4, hp4⟩ := putSymbol_src h4
  exact srcRest_eq_nil_of_srcPos (hc4.trans (hc3.trans hc2)) (hp4.trans (hp3.trans hp2))

/-! ### ENCFILE -/

/-- ENCFILE from `s` leaves `t`: the block's bits are written, and the encoder's tables are those of `u`, where the unit
commands end (R181). -/
structure BlockWritten (last : Bool) (s t u : State) (b : Block) (bits : List Bool) : Prop where
  headerOk : b.HeaderOk
  encodedBy : b.EncodedBy s u
  tables : t.SameEncoder u
  blockBits : b.bits (trailerSymbol last) = some bits
  written : t.written = s.written ++ bits
  writerOk : WriterOk t
  srcRest : t.srcRest = []
  shape : t = { s with
    wbuf := t.wbuf, wcnt := t.wcnt, freq := t.freq, node := t.node, ncnt := t.ncnt, root := t.root, pq := t.pq,
    len := t.len, hn := t.hn, ord := t.ord, cntl := t.cntl, maxl := t.maxl, cl := t.cl, cc := t.cc,
    status := (s.status &&& 0xF81F#16) ||| 0x03E0#16, host.arc := t.host.arc, host.srcPos := t.host.srcPos }

/-- The block's symbols all have codes: SCAN counted each of them. -/
theorem UnitCommands.exists_bits {op : Opcode} (h : UnitCommands op s u b) (last : Bool) :
    ∃ bits, b.bits (trailerSymbol last) = some bits := by
  obtain ⟨-, hname, hcontent, -⟩ := h.encodedBy
  have hctl : ∀ last : Bool, ∀ x ∈ [Config.filenameEnd, trailerSymbol last],
      x ∈ [Config.filenameEnd, Config.oneMoreFile, Config.archiveEnd] := by decide
  obtain ⟨codes, hcodes⟩ := h.headerOk.exists_symBits
    (xs := (b.name ++ b.content).map BitVec.toNat ++ [Config.filenameEnd, trailerSymbol last]) fun x hx => by
      rw [hname, hcontent] at hx
      refine h.listed x ?_
      rcases List.mem_append.mp hx with hx | hx
      · exact List.mem_append_left _ hx
      · exact List.mem_append_right _ (hctl last x hx)
  exact ⟨b.headerBits ++ codes, by rw [Block.bits, hcodes]; rfl⟩

theorem encfileBody_writes (op : Opcode) (last : Bool) (h : Ready s) (ho : s.flag .sOpen = true) (hs : WriterOk s)
    (hpos : s.host.srcPos = 0) (hlen : s.name.length + s.srcContent.length < 2 ^ 64) :
    ∃ t u b bits, encfileBody op last s = .done () t ∧ BlockWritten last s t u b bits := by
  obtain ⟨u, b, hu⟩ := unitCommands_spec op h ho hpos hlen
  obtain ⟨bits, hbits⟩ := hu.exists_bits last
  obtain ⟨-, hname, hcontent, -⟩ := id hu.encodedBy
  have hsh := hu.shape
  obtain ⟨t, ht, hw⟩ := writeBlock_writes op last (s := u) (by rw [hsh]; exact hs) ⟨hu.header, hu.codes⟩
    (by rw [hname, hsh]) (by rw [hcontent, hsh]; rfl) hbits
  refine ⟨t, u, b, bits, by rw [encfileBody_eq, hu.bodies, Run.andThen_done, ht], hu.headerOk, hu.encodedBy, ?_, hbits,
    ?_, hw.writerOk, writeBlock_srcRest ht, ?_⟩
  · rw [hw.shape]
    exact State.SameEncoder_refl u
  · rw [hw.written, hsh]
    rfl
  · rw [hw.shape, hsh]

/-- Settles O44: ENCFILE is the four unit bodies, which are those of the commands, and then the writes of one block. -/
theorem encfileWritesBlock : Obligations.EncfileWritesBlock := by
  unfold Obligations.EncfileWritesBlock
  intro a s h haw hso hs hpos hlen ha
  obtain ⟨t, u, b, bits, ht, hb⟩ := encfileBody_writes 0x15#6 (a == 1#9) h hso hs hpos hlen
  have hexec : exec (.encfile a) s = .next t := by
    rw [exec_of_ready (i := .encfile a) h (decide_eq_true ha) (by rw [preOk, haw, hso]; rfl)]
    exact congrArg Run.outcome ht
  have htrailer : trailerSymbol (a == 1#9) = if a.toNat = 1 then 258 else 257 := by
    simp only [trailerSymbol, beq_iff_eq, ← BitVec.toNat_inj]
    rfl
  obtain ⟨harc, -⟩ := streamsAreAppendOnly _ _ _ hexec
  have hgrew : s.host.arc <+: t.host.arc := by simpa using harc
  obtain ⟨-, hname, hcontent, -⟩ := id hb.encodedBy
  exact ⟨t, u, b, bits, hexec, hb.headerOk, hname, hcontent, hb.encodedBy, hb.tables, htrailer ▸ hb.blockBits,
    hb.written, hb.writerOk, hgrew, hb.srcRest, hb.shape⟩

end Sys2Proof.Machine
end

section
/-! A block's codes as the paths of a trie (spec R163, R164, R167). -/

namespace Sys2Proof.Machine

variable {s t : State} {b : Block} {tr c d : Trie} {p q rest : List Bool} {x : Sym}

/-! ### Paths of a trie -/

theorem Trie.subtrie_append (h : tr.subtrie p = some c) (q : List Bool) : tr.subtrie (p ++ q) = c.subtrie q := by
  induction p generalizing tr with
  | nil =>
    rw [Trie.subtrie_nil_path] at h
    split at h
    · cases h
    · rw [List.nil_append, Option.some.inj h]
  | cons a p ih =>
    rw [Trie.subtrie_cons] at h
    rw [List.cons_append, Trie.subtrie_cons, ih h]

theorem Trie.lookup_append (h : tr.subtrie p = some c) (q : List Bool) : tr.lookup (p ++ q) = c.lookup q := by
  induction p generalizing tr with
  | nil =>
    rw [Trie.subtrie_nil_path] at h
    split at h
    · cases h
    · rw [List.nil_append, Option.some.inj h]
  | cons a p ih =>
    rw [Trie.subtrie_cons] at h
    rw [List.cons_append, Trie.lookup_cons, ih h]

/-- On the path to a symbol there are only nodes. -/
theorem Trie.exists_subtrie (h : tr.lookup (p ++ q) = some x) : ∃ c, tr.subtrie p = some c := by
  induction p generalizing tr with
  | nil => exact ⟨tr, by rw [Trie.subtrie_nil_path, Trie.isNil_of_lookup h]; rfl⟩
  | cons a p ih =>
    rw [List.cons_append, Trie.lookup_cons] at h
    rw [Trie.subtrie_cons]
    exact ih h

theorem Trie.proper_child (h : tr.proper = true) (a : Bool) : (tr.child a).proper = true := by
  cases tr with
  | nil => rfl
  | node c0 c1 v =>
    rw [Trie.proper] at h
    split at h
    · rename_i hnil
      cases c0 <;> cases c1 <;> simp [Trie.isNil] at hnil
      cases a <;> rfl
    · simp only [Bool.and_eq_true] at h
      cases a
      · exact h.1.2
      · exact h.2

theorem Trie.proper_subtrie (h : tr.proper = true) (hs : tr.subtrie p = some c) : c.proper = true := by
  induction p generalizing tr with
  | nil =>
    rw [Trie.subtrie_nil_path] at hs
    split at hs
    · cases hs
    · rwa [← Option.some.inj hs]
  | cons a p ih =>
    rw [Trie.subtrie_cons] at hs
    exact ih (Trie.proper_child h a) hs

/-- Below every node of a proper trie stands a symbol. -/
theorem Trie.exists_lookup (h : tr.proper = true) (hn : tr.isNil = false) : ∃ q x, tr.lookup q = some x := by
  induction tr with
  | nil => cases hn
  | node c0 c1 v ih0 ih1 =>
    have hprop := Trie.proper_child h
    by_cases h0 : c0.isNil = false
    · obtain ⟨q, x, hq⟩ := ih0 (hprop false) h0
      exact ⟨false :: q, x, by rw [Trie.lookup_cons]; exact hq⟩
    by_cases h1 : c1.isNil = false
    · obtain ⟨q, x, hq⟩ := ih1 (hprop true) h1
      exact ⟨true :: q, x, by rw [Trie.lookup_cons]; exact hq⟩
    rw [Trie.proper, if_pos (by simpa using And.intro h0 h1)] at h
    obtain ⟨x, hx⟩ := Option.isSome_iff_exists.mp h
    exact ⟨[], x, hx⟩

/-! ### The trie of a block -/

/-- The trie's paths to symbols are the block's codes (R163, R167). -/
structure Trie.Decodes (tr : Trie) (b : Block) : Prop where
  proper : b.syms ≠ [] → tr.proper = true
  symbol : ∀ x code, b.code x = some code → ∃ y : Sym, y.toNat = x ∧ tr.lookup code = some y
  path : ∀ code ∈ b.codes, ∃ y, tr.lookup code = some y
  only : ∀ p y, tr.lookup p = some y → p ∈ b.codes
  root : b.syms = [] → tr = .node .nil .nil none

theorem Block.HeaderOk.ne_nil_of_code_mem (hb : b.HeaderOk) {code : List Bool} (h : code ∈ b.codes) : b.syms ≠ [] := by
  intro e
  have hlen := hb.codes_length
  rw [e, List.length_nil, List.length_eq_zero_iff] at hlen
  rw [hlen] at h
  cases h

/-- Bits inside a code lead to an inner node (R164). -/
theorem Trie.Decodes.inner (h : tr.Decodes b) (hin : b.InsideCode p) :
    ∃ c a, tr.subtrie p = some c ∧ (c.subtrie [a]).isSome = true := by
  obtain ⟨code, hmem, ⟨q, rfl⟩, hne⟩ := hin
  obtain ⟨y, hy⟩ := h.path _ hmem
  obtain ⟨c, hc⟩ := Trie.exists_subtrie hy
  cases q with
  | nil => exact absurd (List.append_nil p).symm hne
  | cons a q =>
    rw [Trie.lookup_append hc] at hy
    obtain ⟨d, hd⟩ := Trie.exists_subtrie (p := [a]) (q := q) hy
    exact ⟨c, a, hc, by rw [hd]; rfl⟩

/-- A bit that no code goes on with leads to no child (R164, R167). -/
theorem Trie.Decodes.missing (h : tr.Decodes b) (hprop : tr.proper = true) (hc : tr.subtrie p = some c) {a : Bool}
    (hno : ∀ code ∈ b.codes, ¬ (p ++ [a]) <+: code) : c.subtrie [a] = none := by
  cases hd : c.subtrie [a] with
  | none => rfl
  | some d =>
    have hpath := (Trie.subtrie_append hc [a]).trans hd
    have hdn : d.isNil = false := by
      rw [Trie.subtrie_cons, Trie.subtrie_nil_path] at hd
      split at hd
      · cases hd
      · rename_i hn
        rw [← Option.some.inj hd]
        simpa using hn
    obtain ⟨q, y, hy⟩ := Trie.exists_lookup (Trie.proper_subtrie hprop hpath) hdn
    rw [← Trie.lookup_append hpath] at hy
    exact absurd ⟨q, rfl⟩ (hno _ (h.only _ _ hy))

theorem State.HasHeader.counts_eq (h : s.HasHeader b) : s.counts = b.counts := by
  rw [State.counts, h.maxl, h.cntl]

/-- A completed TBUILD leaves the trie of the header's codes (R167). -/
theorem State.HasTrie.decodes (ht : s.HasTrie t) (h : s.HasHeader b) (hb : b.HeaderOk) : t.tn.Decodes b := by
  have hcodes : (List.range b.syms.length).map t.codeAt = b.codes := by
    rw [← h.hn, ht.codes, h.counts_eq]
    rfl
  have hat : ∀ {i code}, b.codes[i]? = some code → i < s.hn.toNat ∧ t.codeAt i = code := fun {i code} hi => by
    obtain ⟨hlt, hget⟩ := List.getElem?_eq_some_iff.mp hi
    rw [hb.codes_length, ← h.hn] at hlt
    refine ⟨hlt, ?_⟩
    rw [← hget, List.getElem_of_eq hcodes.symm, List.getElem_map, List.getElem_range]
  have hpos : b.syms ≠ [] → 1 ≤ s.hn.toNat := fun hne => h.hn ▸ List.length_pos_iff.mpr hne
  refine ⟨fun hne => ht.proper (hpos hne), fun x code hx => ?_, fun code hmem => ?_, fun p y hp => ?_, fun e => ?_⟩
  · obtain ⟨i, hi, hsym, hcode⟩ := Block.exists_of_code_eq_some hx
    obtain ⟨hlt, hci⟩ := hat hcode
    exact ⟨s.ordAt i, (h.ordAt hi).trans hsym, hci ▸ ht.path i hlt⟩
  · obtain ⟨i, hi⟩ := List.mem_iff_getElem?.mp hmem
    obtain ⟨hlt, hci⟩ := hat hi
    exact ⟨s.ordAt i, hci ▸ ht.path i hlt⟩
  · obtain ⟨i, hi, rfl, -⟩ := ht.only p y hp
    rw [← hcodes]
    exact List.mem_map.mpr ⟨i, List.mem_range.mpr (h.hn ▸ hi), rfl⟩
  · refine ht.root (BitVec.eq_of_toNat_eq (h.hn.trans ?_))
    rw [e]
    rfl

end Sys2Proof.Machine
end

section
/-! The phases of DECFILE on the bits of a block (spec R183 to R186). -/

namespace Sys2Proof.Machine

variable {s t : State} {b : Block} {name xs : List Byte} {flags : BitVec 16} {new : List (List Byte × List Byte)}
  {code bits rest part : List Bool} {x : Nat}

/-- DECFILE, begun in `s`, has made the block's trie, taken `name` and made the outputs `new`; the bits `rest`
follow. -/
structure Decoding (s t : State) (b : Block) (name : List Byte) (flags : BitVec 16)
    (new : List (List Byte × List Byte)) (rest : List Bool) : Prop where
  trie : t.tn.Decodes b
  pending : t.pending = rest
  readerOk : ReaderOk t
  shape : t = { s with
    rbuf := t.rbuf, rcnt := t.rcnt, hn := t.hn, ord := t.ord, cntl := t.cntl, maxl := t.maxl, cl := t.cl, cc := t.cc,
    tn := t.tn, name := name, status := (s.status &&& 0xF8FF#16) ||| flags, host.arcPos := t.host.arcPos,
    host.outputs := s.host.outputs ++ new }

theorem Decoding.name_eq (h : Decoding s t b name flags new rest) : t.name = name := by rw [h.shape]

theorem Decoding.nameMax_eq (h : Decoding s t b name flags new rest) : t.nameMax = s.nameMax := by rw [h.shape]

theorem Decoding.dst_eq (h : Decoding s t b name flags new rest) : t.host.dst = s.host.dst := by rw [h.shape]

theorem Decoding.outputs_eq (h : Decoding s t b name flags new rest) : t.host.outputs = s.host.outputs ++ new := by
  rw [h.shape]

theorem Decoding.bitsLeft_eq (h : Decoding s t b name flags new rest) : t.bitsLeft = rest.length := by
  rw [State.bitsLeft_eq, h.pending]

theorem Decoding.ready (h : Decoding s t b name flags new rest) (hs : Ready s) (hf : flags.getLsbD 0 = false) :
    Ready t := by
  have hst : t.status = (s.status &&& 0xF8FF#16) ||| flags := by rw [h.shape]
  have hbit : s.status.getLsbD 0 = false := hs
  show t.status.getLsbD 0 = false
  rw [hst, BitVec.getLsbD_or, BitVec.getLsbD_and, hbit, hf]
  rfl

/-- A read of bits takes them, and leaves the rest of DECFILE's state. -/
theorem Decoding.moved {u : State} {left : List Bool} (h : Decoding s t b name flags new rest)
    (hu : ReaderMoved t u) (hp : u.pending = left) (hok : ReaderOk u) : Decoding s u b name flags new left := by
  have hsh := h.shape
  rw [ReaderMoved] at hu
  refine ⟨?_, hp, hok, ?_⟩
  · rw [hu]; exact h.trie
  · rw [hu, hsh]

/-! ### One symbol -/

theorem Decoding.symbol (h : Decoding s t b name flags new (code ++ rest)) (hc : b.code x = some code) :
    ∃ y u, getSymbol t = .done y u ∧ y.toNat = x ∧ Decoding s u b name flags new rest := by
  obtain ⟨y, u, hu, hy, hp, hok, hsh⟩ :=
    getSymbol_spec h.readerOk ⟨h.trie.proper (Block.ne_nil_of_code hc), h.trie.symbol⟩ hc h.pending
  exact ⟨y, u, hu, hy, h.moved hsh hp hok⟩

/-- A stretch of DECFILE records a fault, with the bits `left` not yet taken. -/
def Run.StopsDecoding {α : Type} (r : Run α) (k : FaultKind) (info : BitVec 16) (s : State) (b : Block)
    (name : List Byte) (flags : BitVec 16) (new : List (List Byte × List Byte)) (left : List Bool) : Prop :=
  ∃ t, r = .raise k info t ∧ Decoding s t b name flags new left

theorem Run.StopsDecoding.bind {α β : Type} {r : Run α} {k : FaultKind} {info : BitVec 16} {left : List Bool}
    (h : r.StopsDecoding k info s b name flags new left) (g : α → State → Run β) :
    (r.bind g).StopsDecoding k info s b name flags new left := by
  obtain ⟨t, rfl, ht⟩ := h
  exact ⟨t, rfl, ht⟩

/-- The archive ends before or inside a code (R164). -/
theorem Decoding.symbol_end (h : Decoding s t b name flags new part) (hin : b.InsideCode part) :
    (getSymbol t).StopsDecoding .unexpectedEndOfStream 0#16 s b name flags new [] := by
  obtain ⟨c, a, hc, ha⟩ := h.trie.inner hin
  obtain ⟨u, hu, hp, hok, hsh⟩ := trieWalk_end h.readerOk hc ha h.pending
  exact ⟨u, by rw [getSymbol_eq (Trie.isNil_of_subtrie hc), hu], h.moved hsh hp hok⟩

/-- A bit leads from inside a code to none (R164). -/
theorem Decoding.symbol_missing {bit : Bool} (h : Decoding s t b name flags new (part ++ bit :: rest)) (hb : b.HeaderOk)
    (hin : b.InsideCode part) (hno : ∀ code ∈ b.codes, ¬ (part ++ [bit]) <+: code) :
    (getSymbol t).StopsDecoding .malformedCode 5#16 s b name flags new rest := by
  obtain ⟨c, a, hc, ha⟩ := h.trie.inner hin
  obtain ⟨code, hmem, -⟩ := hin
  have hmiss := h.trie.missing (h.trie.proper (hb.ne_nil_of_code_mem hmem)) hc hno
  obtain ⟨u, hu, hp, hok, hsh⟩ := trieWalk_missing h.readerOk hc ha hmiss h.pending
  exact ⟨u, by rw [getSymbol_eq (Trie.isNil_of_subtrie hc), hu], h.moved hsh hp hok⟩

/-- An empty header has no code (R164). -/
theorem Decoding.symbol_root (h : Decoding s t b name flags new rest) (he : b.syms = []) :
    (getSymbol t).StopsDecoding .malformedCode 6#16 s b name flags new rest :=
  ⟨t, getSymbol_root (h.trie.root he), h⟩

/-! ### The name -/

theorem nameLoop_bind (fuel : Nat) (t : State) :
    nameLoop (fuel + 1) t = (getSymbol t).bind fun x s =>
      if x.toNat ≥ 256 then .raise .framingError 1#16 s
      else if s.nameFull then .raise .framingError 4#16 s
      else if nameComplete (s.name ++ [x.setWidth 8]) then .done () { s with name := s.name ++ [x.setWidth 8] }
      else nameLoop fuel { s with name := s.name ++ [x.setWidth 8] } := rfl

/-- A byte of the name that fits is taken (R184). -/
theorem Decoding.nameByte {a : Byte} {fuel : Nat} (h : Decoding s t b name flags new (code ++ rest))
    (hc : b.code a.toNat = some code) (hfit : s.nameFits (name ++ [a])) :
    ∃ u, nameLoop (fuel + 1) t = (if nameComplete (name ++ [a]) then .done () u else nameLoop fuel u) ∧
      Decoding s u b (name ++ [a]) flags new rest := by
  obtain ⟨y, u, hu, hy, hdec⟩ := h.symbol hc
  have hlt : ¬ y.toNat ≥ 256 := by have := a.isLt; omega
  have hfull : u.nameFull = false := by
    refine nameFull_of_nameFits (ext := [a]) (by simp) ?_
    rw [hdec.name_eq, State.nameFits, State.nameTooLong, hdec.nameMax_eq]
    exact hfit
  have hsh := hdec.shape
  refine ⟨{ u with name := name ++ [a] }, ?_, hdec.trie, hdec.pending, hdec.readerOk, by rw [hsh]⟩
  rw [nameLoop_bind, hu, Run.bind_done, if_neg hlt, hfull, if_neg (by decide), hdec.name_eq, setWidth_eq_of_toNat_eq hy]

theorem nameFits_of_append {ys : List Byte} (h : s.nameFits (xs ++ ys)) : s.nameFits xs := by
  unfold State.nameFits State.nameTooLong at h ⊢
  split at h
  · rfl
  · simp only [List.length_append, decide_eq_false_iff_not] at h ⊢
    omega

/-- The bytes of a name that stays open are taken (R184). -/
theorem Decoding.nameBytes {ys : List Byte} (fuel : Nat) (h : Decoding s t b name flags new (bits ++ rest))
    (hbits : b.symBits (ys.map BitVec.toNat) = some bits) (hopen : NameOpen (name ++ ys))
    (hfit : s.nameFits (name ++ ys)) :
    ∃ u, nameLoop (fuel + ys.length) t = nameLoop fuel u ∧ Decoding s u b (name ++ ys) flags new rest := by
  induction ys generalizing name t bits with
  | nil =>
    obtain rfl : [] = bits := Option.some.inj hbits
    exact ⟨t, rfl, by rwa [List.append_nil]⟩
  | cons a ys ih =>
    obtain ⟨code, more, hcode, hmore, rfl⟩ := Block.exists_of_symBits_cons hbits
    rw [List.append_assoc] at h
    rw [show name ++ a :: ys = name ++ [a] ++ ys by simp] at hopen hfit ⊢
    obtain ⟨u, hu, hdec⟩ := h.nameByte (fuel := fuel + ys.length) hcode (nameFits_of_append hfit)
    obtain ⟨v, hv, hdec'⟩ := ih hdec hmore hopen hfit
    have hc := hopen (name ++ [a]).length (by simp)
    rw [List.take_left] at hc
    refine ⟨v, ?_, hdec'⟩
    rw [List.length_cons, ← Nat.add_assoc, hu, hc, if_neg (by decide), hv]

/-! ### The content -/

theorem contentLoop_bind (fuel : Nat) (t : State) :
    contentLoop (fuel + 1) t = (getSymbol t).bind fun x s =>
      if x.toNat < 256 then contentLoop fuel (memWriteDst s (x.setWidth 8))
      else if x.toNat = Config.filenameEnd then .done () s
      else .raise .framingError 2#16 s := rfl

/-- The bytes of the content are taken and written (R185). -/
theorem Decoding.contentBytes {o : List Byte} (fuel : Nat) (h : Decoding s t b name flags [(name, o)] (bits ++ rest))
    (hbits : b.symBits (xs.map BitVec.toNat) = some bits) :
    ∃ u, contentLoop (fuel + xs.length) t = contentLoop fuel u ∧ Decoding s u b name flags [(name, o ++ xs)] rest := by
  induction xs generalizing o t bits with
  | nil =>
    obtain rfl : [] = bits := Option.some.inj hbits
    exact ⟨t, rfl, by rwa [List.append_nil]⟩
  | cons a xs ih =>
    obtain ⟨code, more, hcode, hmore, rfl⟩ := Block.exists_of_symBits_cons hbits
    rw [List.append_assoc] at h
    obtain ⟨y, u, hu, hy, hdec⟩ := h.symbol hcode
    have hlt : y.toNat < 256 := hy ▸ a.isLt
    have hwrite : memWriteDst u a = { u with host.outputs := s.host.outputs ++ [(name, o ++ [a])] } := by
      rw [memWriteDst, hdec.outputs_eq, appendToLast_concat]
    have hdec' : Decoding s (memWriteDst u a) b name flags [(name, o ++ [a])] (more ++ rest) := by
      have hsh := hdec.shape
      rw [hwrite]
      exact ⟨hdec.trie, hdec.pending, hdec.readerOk, by rw [hsh]⟩
    obtain ⟨v, hv, hdone⟩ := ih hdec' hmore
    refine ⟨v, ?_, by rwa [List.append_assoc] at hdone⟩
    rw [List.length_cons, ← Nat.add_assoc, contentLoop_bind, hu, Run.bind_done, if_pos hlt, setWidth_eq_of_toNat_eq hy,
      hv]

/-! ### The phases one after another -/

/-- DECFILE from the trailer on (R186). -/
def trailerPhase (s : State) : Run Sym := (trailer s).bind fun y s => .done y ((closeDst s).setRes y)

/-- DECFILE from the content on (R185). -/
def contentPhase (s : State) : Run Sym := (contentLoop (s.bitsLeft + 1) s).andThen trailerPhase

/-- DECFILE from a complete name on (R184). -/
def namedPhase (s : State) : Run Sym := (dopenBody s).andThen contentPhase

theorem readBlock_eq (s : State) :
    readBlock s = (nameLoop (s.bitsLeft + 1) { s with name := [] }).andThen namedPhase := rfl

/-- RHDR and TBUILD on the bits of an acceptable header (R183). -/
theorem decfileBody_head (hb : b.HeaderOk) (h : ReaderOk s) (hp : s.pending = b.headerBits ++ rest) :
    ∃ t, decfileBody s = (nameLoop (rest.length + 1) t).andThen namedPhase ∧
      Decoding s t b [] 0x0700#16 [] rest := by
  obtain ⟨u, hu, hheader, hpu, hok, hshu⟩ := rhdrBody_spec hb h hp
  obtain ⟨t, ht, htrie⟩ := tbuildBody_of_room (hheader.inRange hb) (hheader.counts_eq ▸ hb.2.2.2.2.2)
  have hsht := htrie.shape
  have hpt : t.pending = rest := by rw [hsht, ← hpu]; rfl
  have hst : t.status = (s.status &&& 0xF8FF#16) ||| 0x0700#16 := by
    rw [hsht]
    dsimp only
    rw [hshu]
    show (statusWith (s.clearFlags chainFromHeader).status .hValid true &&& _) ||| _ = _
    rw [status_cleared_header]
    exact and_or_and_or _ _ 0x0100#16 _ _
  refine ⟨{ t with name := [] }, ?_, htrie.decodes hheader hb, hpt, ?_, ?_⟩
  · rw [decfileBody_eq, hu, Run.andThen_done, ht, Run.andThen_done, readBlock_eq, State.bitsLeft_eq, hpt]
  · show ReaderOk t
    rw [hsht]
    exact hok
  · rw [← hst, hsht, hshu, List.append_nil]

/-- Where the name is not yet complete: DECFILE waits for its next symbol (R184). -/
theorem decfileBody_name (hb : b.HeaderOk) (h : ReaderOk s) (hopen : NameOpen b.name) (hfit : s.nameFits b.name)
    (hbits : b.symBits (b.name.map BitVec.toNat) = some bits) (hp : s.pending = b.headerBits ++ (bits ++ rest)) :
    ∃ t fuel, decfileBody s = (nameLoop (fuel + 1) t).andThen namedPhase ∧ Decoding s t b b.name 0x0700#16 [] rest := by
  obtain ⟨t, ht, hdec⟩ := decfileBody_head hb h hp
  have hlen := hb.length_le_symBits hbits
  rw [List.length_map] at hlen
  obtain ⟨fuel, hfuel⟩ : ∃ fuel, (bits ++ rest).length + 1 = fuel + 1 + b.name.length :=
    ⟨(bits ++ rest).length - b.name.length, by rw [List.length_append]; omega⟩
  obtain ⟨u, hu, hdec'⟩ := hdec.nameBytes (fuel + 1) hbits hopen hfit
  exact ⟨u, fuel, by rw [ht, hfuel, hu], hdec'⟩

/-- Where the name is complete (R184). -/
theorem decfileBody_named (hb : b.HeaderOk) (h : ReaderOk s) (hgood : GoodName b.name) (hfit : s.nameFits b.name)
    (hbits : b.symBits (b.name.map BitVec.toNat) = some bits) (hp : s.pending = b.headerBits ++ (bits ++ rest)) :
    ∃ t, decfileBody s = namedPhase t ∧ Decoding s t b b.name 0x0700#16 [] rest := by
  obtain ⟨t, ht, hdec⟩ := decfileBody_head hb h hp
  have hne := ne_nil_of_goodName hgood
  have hsyms : b.syms ≠ [] := by
    obtain ⟨a, ys, hys⟩ := List.exists_cons_of_ne_nil hne
    rw [hys] at hbits
    obtain ⟨code, more, hcode, -⟩ := Block.exists_of_symBits_cons hbits
    exact Block.ne_nil_of_code hcode
  have hlen := hb.length_le_symBits hbits
  rw [List.length_map] at hlen
  have hfits : t.nameFits b.name := by
    rw [State.nameFits, State.nameTooLong, hdec.nameMax_eq]
    exact hfit
  obtain ⟨u, hu, hname, hpu, hok, hshu⟩ := nameLoop_spec b.name (fuel := (bits ++ rest).length + 1) (s := t) hne
    hdec.readerOk ⟨hdec.trie.proper hsyms, hdec.trie.symbol⟩ (by rwa [hdec.name_eq]) (by rwa [hdec.name_eq])
    (by rw [List.length_append]; omega) hbits hdec.pending
  rw [hdec.name_eq, List.nil_append] at hname
  have hsh := hdec.shape
  refine ⟨u, by rw [ht, hu, Run.andThen_done], ?_, hpu, hok, ?_⟩
  · rw [hshu]; exact hdec.trie
  · rw [← hname, hshu, hsh]

/-- Where the content is being read (R185). -/
theorem decfileBody_content (hb : b.HeaderOk) (h : ReaderOk s) (hgood : GoodName b.name) (hfit : s.nameFits b.name)
    (hdst : s.host.dst.ok b.name = true)
    (hbits : b.symBits (b.name.map BitVec.toNat ++ b.content.map BitVec.toNat) = some bits)
    (hp : s.pending = b.headerBits ++ (bits ++ rest)) :
    ∃ t fuel, decfileBody s = (contentLoop (fuel + 1) t).andThen trailerPhase ∧
      Decoding s t b b.name 0x0710#16 [(b.name, b.content)] rest := by
  obtain ⟨n, c, hn, hc, rfl⟩ := Block.exists_of_symBits_append hbits
  rw [List.append_assoc] at hp
  obtain ⟨t, ht, hdec⟩ := decfileBody_named hb h hgood hfit hn hp
  have hopen := dopenBody_of_ok (s := t) (by rw [hdec.dst_eq, hdec.name_eq]; exact hdst)
  have hsh := hdec.shape
  obtain ⟨u, hu⟩ : ∃ u, u = { t with host.outputs := t.host.outputs ++ [(t.name, [])] }.setFlag .dOpen true := ⟨_, rfl⟩
  have hst : statusWith t.status .dOpen true = (s.status &&& 0xF8FF#16) ||| 0x0710#16 := by
    rw [show t.status = (s.status &&& 0xF8FF#16) ||| 0x0700#16 by rw [hsh]]
    exact BitVec.or_assoc _ _ _
  have hdecu : Decoding s u b b.name 0x0710#16 [(b.name, [])] (c ++ rest) := by
    refine ⟨hu ▸ hdec.trie, by rw [hu, ← hdec.pending]; rfl, by rw [hu]; exact hdec.readerOk, ?_⟩
    rw [← hst, hu, hdec.outputs_eq, hdec.name_eq, List.append_nil, State.setFlag]
    dsimp only
    generalize statusWith t.status .dOpen true = st
    rw [hsh]
  have hlen := hb.length_le_symBits hc
  rw [List.length_map] at hlen
  obtain ⟨fuel, hfuel⟩ : ∃ fuel, (c ++ rest).length + 1 = fuel + 1 + b.content.length :=
    ⟨(c ++ rest).length - b.content.length, by rw [List.length_append]; omega⟩
  obtain ⟨v, hv, hdecv⟩ := hdecu.contentBytes (fuel + 1) hc
  refine ⟨v, fuel, ?_, hdecv⟩
  rw [ht, namedPhase, hopen, Run.andThen_done, ← hu, contentPhase, hdecu.bitsLeft_eq, hfuel, hv]

/-- Where the trailer is due (R186). -/
theorem decfileBody_trailer (hb : b.HeaderOk) (h : ReaderOk s) (hgood : GoodName b.name) (hfit : s.nameFits b.name)
    (hdst : s.host.dst.ok b.name = true)
    (hbits : b.symBits (b.name.map BitVec.toNat ++ b.content.map BitVec.toNat ++ [Config.filenameEnd]) = some bits)
    (hp : s.pending = b.headerBits ++ (bits ++ rest)) :
    ∃ t, decfileBody s = trailerPhase t ∧ Decoding s t b b.name 0x0710#16 [(b.name, b.content)] rest := by
  obtain ⟨n, c, hn, hc, rfl⟩ := Block.exists_of_symBits_append hbits
  obtain ⟨code, more, hcode, hmore, rfl⟩ := Block.exists_of_symBits_cons hc
  obtain rfl : [] = more := Option.some.inj hmore
  rw [List.append_nil, List.append_assoc] at hp
  obtain ⟨t, fuel, ht, hdec⟩ := decfileBody_content hb h hgood hfit hdst hn hp
  obtain ⟨y, u, hu, hy, hdec'⟩ := hdec.symbol hcode
  refine ⟨u, ?_, hdec'⟩
  rw [ht, contentLoop_bind, hu, Run.bind_done, if_neg (by rw [hy]; decide), if_pos hy, Run.andThen_done]

end Sys2Proof.Machine
end

section
/-! DECFILE as a command: a good block, and the faults of each phase (spec R183 to R186, R236). -/

namespace Sys2Proof.Machine

variable {s t u : State} {b : Block} {name : List Byte} {flags info : BitVec 16} {new : List (List Byte × List Byte)}
  {bits left rest part : List Bool} {k : FaultKind} {x : Nat}

theorem exec_decfile_eq (h : Ready s) (ho : s.flag .arOpen = true) (hd : s.flag .dOpen = false) :
    exec .decfile s = ((decfileBody s).bind fun _ s => .done () s).outcome :=
  exec_of_ready h rfl (show (s.flag .arOpen && !s.flag .dOpen) = true by rw [ho, hd]; rfl)

theorem Block.exists_of_symBits_concat {xs : List Nat} (h : b.symBits (xs ++ [x]) = some bits) :
    ∃ n code, b.symBits xs = some n ∧ b.code x = some code ∧ bits = n ++ code := by
  obtain ⟨n, c, hn, hc, rfl⟩ := Block.exists_of_symBits_append h
  obtain ⟨code, more, hcode, hmore, rfl⟩ := Block.exists_of_symBits_cons hc
  obtain rfl : [] = more := Option.some.inj hmore
  exact ⟨n, code, hn, hcode, by rw [List.append_nil]⟩

/-! ### A good block -/

/-- DECFILE on the bits of a block, with the state it leaves (R183). -/
theorem decfileBody_block {last : Nat} (hb : b.HeaderOk) (hgood : GoodName b.name) (hfit : s.nameFits b.name)
    (hdst : s.host.dst.ok b.name = true) (hlast : last = 257 ∨ last = 258)
    (hbits : b.bits last = some bits) (h : ReaderOk s) (hp : s.pending = bits ++ rest) :
    ∃ y t, decfileBody s = .done y t ∧ y.toNat = last ∧ t.res = BitVec.ofNat 258 last ∧ t.pending = rest ∧
      ReaderOk t ∧
      t = { s with
        rbuf := t.rbuf, rcnt := t.rcnt, res := t.res, hn := t.hn, ord := t.ord, cntl := t.cntl, maxl := t.maxl,
        cl := t.cl, cc := t.cc, tn := t.tn, name := b.name, status := (s.status &&& 0xF8EF#16) ||| 0x0700#16,
        host.arcPos := t.host.arcPos, host.outputs := s.host.outputs ++ [(b.name, b.content)] } := by
  obtain ⟨codes, hcodes, rfl⟩ := Option.map_eq_some_iff.mp hbits
  rw [show (b.name ++ b.content).map BitVec.toNat ++ [Config.filenameEnd, last] =
    b.name.map BitVec.toNat ++ b.content.map BitVec.toNat ++ [Config.filenameEnd] ++ [last] by simp] at hcodes
  obtain ⟨n, code, hn, hcode, rfl⟩ := Block.exists_of_symBits_concat hcodes
  rw [List.append_assoc, List.append_assoc] at hp
  obtain ⟨t, ht, hdec⟩ := decfileBody_trailer hb h hgood hfit hdst hn hp
  obtain ⟨y, u, hu, hy, hdec'⟩ := hdec.symbol hcode
  have hlegal : ¬ (y.toNat ≠ Config.oneMoreFile ∧ y.toNat ≠ Config.archiveEnd) := by
    rw [hy, Config.oneMoreFile, Config.archiveEnd]
    omega
  have hdone : trailerPhase t = .done y ((closeDst u).setRes y) := by
    rw [trailerPhase, trailer, hu, Run.bind_done, if_neg hlegal, Run.bind_done]
  have hsh := hdec'.shape
  have hst : (closeDst u).status = (s.status &&& 0xF8EF#16) ||| 0x0700#16 := by
    show u.status &&& 0xFFEF#16 = _
    rw [show u.status = (s.status &&& 0xF8FF#16) ||| 0x0710#16 by rw [hsh], ← BitVec.or_zero (x := _ &&& _),
      and_or_and_or]
    rfl
  refine ⟨y, _, ht.trans hdone, hy, ?_, hdec'.pending, hdec'.readerOk, ?_⟩
  · show y.setWidth 258 = _
    rw [← hy, BitVec.ofNat_toNat]
  · rw [← hst]
    show (closeDst u).setRes y = _
    rw [closeDst, State.setFlag]
    dsimp only
    generalize statusWith u.status .dOpen false = st
    rw [hsh]
    rfl

/-- Settles O45: the phases take the name, the content and the trailer one after another. -/
theorem decfileReadsBlock : Obligations.DecfileReadsBlock := by
  unfold Obligations.DecfileReadsBlock
  intro b trailer bits rest s h ho hd hok hb hgood hfit hdst htrailer hbits hp
  obtain ⟨y, t, ht, -, hres, hpt, hokt, hsh⟩ := decfileBody_block hb hgood hfit hdst htrailer hbits hok hp
  exact ⟨t, by rw [exec_decfile_eq h ho hd, ht]; rfl, hres, hpt, hokt, hsh⟩

/-! ### Faults of the phases -/

/-- DECFILE that stops with a fault has its state so far and the fault (R225). -/
theorem exec_decfile_of_stops (hs : Ready s) (ho : s.flag .arOpen = true) (hd : s.flag .dOpen = false)
    (hf : flags.getLsbD 0 = false) (h : (decfileBody s).StopsDecoding k info s b name flags new left) :
    ∃ t, exec .decfile s = .next t ∧ t.pending = left ∧ ReaderOk t ∧
      t = { s with
        rbuf := t.rbuf, rcnt := t.rcnt, hn := t.hn, ord := t.ord, cntl := t.cntl, maxl := t.maxl, cl := t.cl,
        cc := t.cc, tn := t.tn, name := name, fault := k.code, finfo := info,
        status := (s.status &&& 0xF8FF#16) ||| (flags ||| 1#16), host.arcPos := t.host.arcPos,
        host.outputs := s.host.outputs ++ new } := by
  obtain ⟨u, hu, hdec⟩ := h
  have hraise := State.raise_eq (hdec.ready hs hf) k info
  have hsh := hdec.shape
  refine ⟨u.raise k info, by rw [exec_decfile_eq hs ho hd, hu]; rfl, ?_, ?_, ?_⟩
  · rw [hraise]; exact hdec.pending
  · rw [hraise]; exact hdec.readerOk
  · rw [hraise, ← BitVec.or_assoc, ← show u.status = (s.status &&& 0xF8FF#16) ||| flags by rw [hsh]]
    dsimp only
    generalize u.status ||| 1#16 = st
    rw [hsh]

/-- DECFILE waits for a symbol, with the bits `left` to come (R164). -/
def AwaitsSymbol (s : State) (b : Block) (flags : BitVec 16) (new : List (List Byte × List Byte)) (left : List Bool) :
    Prop :=
  ∃ t g, decfileBody s = (getSymbol t).bind g ∧ Decoding s t b b.name flags new left

/-- Where the archive ends before or inside the code of the symbol. -/
theorem AwaitsSymbol.stops_end (h : AwaitsSymbol s b flags new part) (hin : b.InsideCode part) :
    (decfileBody s).StopsDecoding .unexpectedEndOfStream 0#16 s b b.name flags new [] := by
  obtain ⟨t, g, e, hdec⟩ := h
  rw [e]
  exact (hdec.symbol_end hin).bind g

/-- Where a bit leads from inside a code to none. -/
theorem AwaitsSymbol.stops_missing {bit : Bool} (h : AwaitsSymbol s b flags new (part ++ bit :: rest)) (hb : b.HeaderOk)
    (hin : b.InsideCode part) (hno : ∀ code ∈ b.codes, ¬ (part ++ [bit]) <+: code) :
    (decfileBody s).StopsDecoding .malformedCode 5#16 s b b.name flags new rest := by
  obtain ⟨t, g, e, hdec⟩ := h
  rw [e]
  exact (hdec.symbol_missing hb hin hno).bind g

section
variable (hb : b.HeaderOk) (h : ReaderOk s) (hfit : s.nameFits b.name)
include hb h hfit

theorem awaitsSymbol_name (hopen : NameOpen b.name) (hbits : b.symBits (b.name.map BitVec.toNat) = some bits)
    (hp : s.pending = b.headerBits ++ (bits ++ left)) : AwaitsSymbol s b 0x0700#16 [] left := by
  obtain ⟨t, fuel, ht, hdec⟩ := decfileBody_name hb h hopen hfit hbits hp
  rw [nameLoop_bind] at ht
  exact ⟨t, _, ht.trans (Run.bind_assoc _ _ _), hdec⟩

theorem awaitsSymbol_content (hgood : GoodName b.name) (hdst : s.host.dst.ok b.name = true)
    (hbits : b.symBits (b.name.map BitVec.toNat ++ b.content.map BitVec.toNat) = some bits)
    (hp : s.pending = b.headerBits ++ (bits ++ left)) : AwaitsSymbol s b 0x0710#16 [(b.name, b.content)] left := by
  obtain ⟨t, fuel, ht, hdec⟩ := decfileBody_content hb h hgood hfit hdst hbits hp
  rw [contentLoop_bind] at ht
  exact ⟨t, _, ht.trans (Run.bind_assoc _ _ _), hdec⟩

theorem awaitsSymbol_trailer (hgood : GoodName b.name) (hdst : s.host.dst.ok b.name = true)
    (hbits : b.symBits (b.name.map BitVec.toNat ++ b.content.map BitVec.toNat ++ [Config.filenameEnd]) = some bits)
    (hp : s.pending = b.headerBits ++ (bits ++ left)) : AwaitsSymbol s b 0x0710#16 [(b.name, b.content)] left := by
  obtain ⟨t, ht, hdec⟩ := decfileBody_trailer hb h hgood hfit hdst hbits hp
  rw [trailerPhase, trailer] at ht
  exact ⟨t, _, ht.trans (Run.bind_assoc _ _ _), hdec⟩

/-- A control symbol in the name (R184). -/
theorem stops_name_control (hopen : NameOpen b.name) (hx : 256 ≤ x)
    (hbits : b.symBits (b.name.map BitVec.toNat ++ [x]) = some bits)
    (hp : s.pending = b.headerBits ++ (bits ++ rest)) :
    (decfileBody s).StopsDecoding .framingError 1#16 s b b.name 0x0700#16 [] rest := by
  obtain ⟨n, code, hn, hcode, rfl⟩ := Block.exists_of_symBits_concat hbits
  rw [List.append_assoc] at hp
  obtain ⟨t, fuel, ht, hdec⟩ := decfileBody_name hb h hopen hfit hn hp
  obtain ⟨y, u, hu, hy, hdec'⟩ := hdec.symbol hcode
  exact ⟨u, by rw [ht, nameLoop_control fuel hu (hy ▸ hx)]; rfl, hdec'⟩

/-- A byte more than NAME_MAX in the name (R184). -/
theorem stops_name_full (hopen : NameOpen b.name) (hx : x < 256) (hmax : s.nameMax = some b.name.length)
    (hbits : b.symBits (b.name.map BitVec.toNat ++ [x]) = some bits)
    (hp : s.pending = b.headerBits ++ (bits ++ rest)) :
    (decfileBody s).StopsDecoding .framingError 4#16 s b b.name 0x0700#16 [] rest := by
  obtain ⟨n, code, hn, hcode, rfl⟩ := Block.exists_of_symBits_concat hbits
  rw [List.append_assoc] at hp
  obtain ⟨t, fuel, ht, hdec⟩ := decfileBody_name hb h hopen hfit hn hp
  obtain ⟨y, u, hu, hy, hdec'⟩ := hdec.symbol hcode
  have hfull : u.nameFull = true := nameFull_of_length (hdec'.nameMax_eq.trans hmax) (by rw [hdec'.name_eq])
  exact ⟨u, by rw [ht, nameLoop_full fuel hu (hy ▸ hx) hfull]; rfl, hdec'⟩

/-- A name the host refuses (R184, R213). -/
theorem stops_name_refused (hgood : GoodName b.name) (hdst : s.host.dst.ok b.name = false)
    (hbits : b.symBits (b.name.map BitVec.toNat) = some bits) (hp : s.pending = b.headerBits ++ (bits ++ rest)) :
    (decfileBody s).StopsDecoding .openFailure 3#16 s b b.name 0x0700#16 [] rest := by
  obtain ⟨t, ht, hdec⟩ := decfileBody_named hb h hgood hfit hbits hp
  refine ⟨t, ?_, hdec⟩
  rw [ht, namedPhase, dopenBody_of_refused (by rw [hdec.dst_eq, hdec.name_eq]; exact hdst)]
  rfl

/-- A trailer symbol in the content (R185). -/
theorem stops_content_control (hgood : GoodName b.name) (hdst : s.host.dst.ok b.name = true) (hx : x = 257 ∨ x = 258)
    (hbits : b.symBits (b.name.map BitVec.toNat ++ b.content.map BitVec.toNat ++ [x]) = some bits)
    (hp : s.pending = b.headerBits ++ (bits ++ rest)) :
    (decfileBody s).StopsDecoding .framingError 2#16 s b b.name 0x0710#16 [(b.name, b.content)] rest := by
  obtain ⟨n, code, hn, hcode, rfl⟩ := Block.exists_of_symBits_concat hbits
  rw [List.append_assoc] at hp
  obtain ⟨t, fuel, ht, hdec⟩ := decfileBody_content hb h hgood hfit hdst hn hp
  obtain ⟨y, u, hu, hy, hdec'⟩ := hdec.symbol hcode
  exact ⟨u, by rw [ht, contentLoop_control fuel hu (hy ▸ hx)]; rfl, hdec'⟩

/-- No trailer symbol after the content (R186). -/
theorem stops_trailer (hgood : GoodName b.name) (hdst : s.host.dst.ok b.name = true) (hx : x ≤ 256)
    (hbits : b.symBits (b.name.map BitVec.toNat ++ b.content.map BitVec.toNat ++ [256, x]) = some bits)
    (hp : s.pending = b.headerBits ++ (bits ++ rest)) :
    (decfileBody s).StopsDecoding .framingError 3#16 s b b.name 0x0710#16 [(b.name, b.content)] rest := by
  rw [show ∀ ys : List Nat, ys ++ [256, x] = ys ++ [Config.filenameEnd] ++ [x] by simp [Config.filenameEnd]] at hbits
  obtain ⟨n, code, hn, hcode, rfl⟩ := Block.exists_of_symBits_concat hbits
  rw [List.append_assoc] at hp
  obtain ⟨t, ht, hdec⟩ := decfileBody_trailer hb h hgood hfit hdst hn hp
  obtain ⟨y, u, hu, hy, hdec'⟩ := hdec.symbol hcode
  exact ⟨u, by rw [ht, trailerPhase, trailer_of_le hu (hy ▸ hx)]; rfl, hdec'⟩

end

/-- An empty header: the name phase takes no bit (R164). -/
theorem stops_root (hb : b.HeaderOk) (h : ReaderOk s) (he : b.syms = []) (hn : b.name = [])
    (hp : s.pending = b.headerBits ++ rest) :
    (decfileBody s).StopsDecoding .malformedCode 6#16 s b b.name 0x0700#16 [] rest := by
  obtain ⟨t, ht, hdec⟩ := decfileBody_head hb h hp
  rw [ht, nameLoop_bind, hn]
  exact ((hdec.symbol_root he).bind _).bind _

/-! ### Faults of the header -/

/-- A body that ends with a fault was cut short there. -/
theorem Run.Faults.eq_raised {P : State → Nat → Nat → Prop} {r : Run Unit} (h : r.Faults P) (ho : r.outcome = .next t)
    (ht : t.flag .faulted = true) : r = .raised t := by
  obtain e | e := Run.outcome_eq_next.mp ho
  · rw [e] at h
    cases h with
    | done hr => exact absurd (hr.symm.trans ht) (by decide)
  · exact e

/-- A body that ends without a fault completed. -/
theorem Run.Faults.eq_done {P : State → Nat → Nat → Prop} {r : Run Unit} (h : r.Faults P) (ho : r.outcome = .next t)
    (ht : Ready t) : r = .done () t := by
  obtain e | e := Run.outcome_eq_next.mp ho
  · exact e
  · rw [e] at h
    cases h with
    | raised hr => exact absurd (ht.symm.trans hr.1) (by decide)

/-- Settles O60: DECFILE stops where its phase does, in the state the phases before have left. -/
theorem decfileFaults : Obligations.DecfileFaults := by
  unfold Obligations.DecfileFaults
  intro s hs ho hd
  have hrhdr : exec .rhdr s = (rhdrBody s).outcome := exec_of_ready hs rfl ho
  refine ⟨fun t he ht => ?_, fun u t he hu he' ht => ?_, fun b bits rest x hok hb hfit => ?_⟩
  · have hr := (rhdrBody_faults hs).eq_raised (hrhdr.symm.trans he) ht
    rw [exec_decfile_eq hs ho hd, decfileBody_eq, hr]
    rfl
  · have hr := (rhdrBody_faults hs).eq_done (hrhdr.symm.trans he) hu
    have htbuild : exec .tbuild u = (tbuildBody u).outcome := exec_of_ready hu rfl (rhdrBody_hValid hr)
    have hr' := (tbuildBody_faults hu).eq_raised (htbuild.symm.trans he') ht
    rw [exec_decfile_eq hs ho hd, decfileBody_eq, hr, Run.andThen_done, hr']
    rfl
  have hname := fun {k info left} => exec_decfile_of_stops (k := k) (info := info) (left := left) (b := b)
    (name := b.name) (flags := 0x0700#16) (new := []) hs ho hd rfl
  have hout := fun {k info left} => exec_decfile_of_stops (k := k) (info := info) (left := left) (b := b)
    (name := b.name) (flags := 0x0710#16) (new := [(b.name, b.content)]) hs ho hd rfl
  refine ⟨?_, ?_, ?_, ?_, ?_, ?_, fun hopen part hin => ⟨?_, fun bit hno => ?_⟩,
    fun ⟨hgood, hdst⟩ part hin => ⟨?_, fun bit hno => ?_⟩, fun ⟨hgood, hdst⟩ part hin => ⟨?_, fun bit hno => ?_⟩⟩
  · rintro hopen hx ⟨hbits, hp⟩
    exact hname (stops_name_control hb hok hfit hopen hx hbits hp)
  · rintro hopen hx hmax ⟨hbits, hp⟩
    exact hname (stops_name_full hb hok hfit hopen hx hmax hbits hp)
  · rintro he hn ⟨hbits, hp⟩
    obtain rfl : [] = bits := Option.some.inj hbits
    exact hname (stops_root hb hok he hn hp)
  · rintro hgood hdst ⟨hbits, hp⟩
    exact hname (stops_name_refused hb hok hfit hgood hdst hbits hp)
  · rintro ⟨hgood, hdst⟩ hx ⟨hbits, hp⟩
    exact hout (stops_content_control hb hok hfit hgood hdst hx hbits hp)
  · rintro ⟨hgood, hdst⟩ hx ⟨hbits, hp⟩
    exact hout (stops_trailer hb hok hfit hgood hdst hx hbits hp)
  · rintro ⟨hbits, hp⟩
    exact hname ((awaitsSymbol_name hb hok hfit hopen hbits hp).stops_end hin)
  · rintro ⟨hbits, hp⟩
    exact hname ((awaitsSymbol_name hb hok hfit hopen hbits hp).stops_missing hb hin hno)
  · rintro ⟨hbits, hp⟩
    exact hout ((awaitsSymbol_content hb hok hfit hgood hdst hbits hp).stops_end hin)
  · rintro ⟨hbits, hp⟩
    exact hout ((awaitsSymbol_content hb hok hfit hgood hdst hbits hp).stops_missing hb hin hno)
  · rintro ⟨hbits, hp⟩
    exact hout ((awaitsSymbol_trailer hb hok hfit hgood hdst hbits hp).stops_end hin)
  · rintro ⟨hbits, hp⟩
    exact hout ((awaitsSymbol_trailer hb hok hfit hgood hdst hbits hp).stops_missing hb hin hno)

end Sys2Proof.Machine
end

section
/-! The bits of several blocks (spec R70, R77, R78), and STATUS with all streams closed (spec R40, R188, R189). -/

namespace Sys2Proof.Machine

variable {s t u : State} {b : Block} {bs blocks : List Block} {bits rest : List Bool}

theorem openBits_concat (bs : List Block) (b : Block) :
    openBits (bs ++ [b]) = (openBits bs).bind fun x => (b.bits Config.oneMoreFile).map fun y => x ++ y := by
  induction bs with
  | nil =>
    rw [List.nil_append, openBits_cons]
    cases b.bits Config.oneMoreFile <;> simp
  | cons a bs ih =>
    rw [List.cons_append, openBits_cons, ih, openBits_cons]
    cases a.bits Config.oneMoreFile <;> cases openBits bs <;> cases b.bits Config.oneMoreFile <;> simp

/-- An archive is blocks that each have another one after them, and the last one (R70, R78). -/
theorem archiveBits_concat (bs : List Block) (b : Block) :
    archiveBits (bs ++ [b]) = (openBits bs).bind fun x => (b.bits Config.archiveEnd).map fun y => x ++ y := by
  induction bs with
  | nil => cases h : b.bits Config.archiveEnd <;> simp [archiveBits, h]
  | cons a bs ih =>
    have hstep : archiveBits (a :: (bs ++ [b])) =
        (a.bits Config.oneMoreFile).bind fun x => (archiveBits (bs ++ [b])).map fun y => x ++ y := by
      cases bs <;> rfl
    rw [List.cons_append, hstep, ih, openBits_cons]
    cases a.bits Config.oneMoreFile <;> cases openBits bs <;> cases b.bits Config.archiveEnd <;> simp

theorem exists_of_openBits_concat (h : openBits (bs ++ [b]) = some bits) :
    ∃ x y, openBits bs = some x ∧ b.bits Config.oneMoreFile = some y ∧ bits = x ++ y := by
  rw [openBits_concat] at h
  obtain ⟨x, hx, h⟩ := Option.bind_eq_some_iff.mp h
  obtain ⟨y, hy, rfl⟩ := Option.map_eq_some_iff.mp h
  exact ⟨x, y, hx, hy, rfl⟩

theorem exists_of_archiveBits (h : archiveBits blocks = some bits) :
    ∃ bs b x y, blocks = bs ++ [b] ∧ openBits bs = some x ∧ b.bits Config.archiveEnd = some y ∧ bits = x ++ y := by
  rcases List.eq_nil_or_concat blocks with rfl | ⟨bs, b, rfl⟩
  · cases h
  · rw [List.concat_eq_append, archiveBits_concat] at h
    obtain ⟨x, hx, h⟩ := Option.bind_eq_some_iff.mp h
    obtain ⟨y, hy, rfl⟩ := Option.map_eq_some_iff.mp h
    exact ⟨bs, b, x, y, List.concat_eq_append, hx, hy, rfl⟩

theorem length_le_openBits (h : openBits bs = some bits) : bs.length ≤ bits.length := by
  induction bs generalizing bits with
  | nil => exact Nat.zero_le _
  | cons b bs ih =>
    rw [openBits_cons] at h
    obtain ⟨x, hx, h⟩ := Option.bind_eq_some_iff.mp h
    obtain ⟨y, hy, rfl⟩ := Option.map_eq_some_iff.mp h
    have hpos := Block.length_pos_of_bits hx
    have hle := ih hy
    rw [List.length_cons, List.length_append]
    omega

/-! ### STATUS -/

/-- Writing the value a flag has changes nothing. -/
theorem State.setFlag_of_flag {f : Flag} {v : Bool} (h : s.flag f = v) : s.setFlag f v = s := by
  have hst : statusWith s.status f v = s.status := BitVec.eq_of_getLsbD_eq fun j _ => by
    rw [statusWith_getLsbD]
    split
    · rename_i hj
      rw [hj, ← h]
      rfl
    · rfl
  rw [State.setFlag, hst]

/-- With all streams closed the four bits of STATUS are 0 (R40). -/
theorem status_of_allClosed (h : s.allClosed = true) : s.status &&& 0xFFE1#16 = s.status := by
  obtain ⟨haw, har, hso, hdo⟩ := s.allClosed_iff.mp h
  have hclear : s.clearFlags [.awOpen, .arOpen, .sOpen, .dOpen] = s := by
    simp only [State.clearFlags, List.foldl_cons, List.foldl_nil, State.setFlag_of_flag, haw, har, hso, hdo]
  have hst := status_clearFlags [.awOpen, .arOpen, .sOpen, .dOpen] s
  rw [hclear] at hst
  exact hst.symm

/-- With all streams closed only the other bits of a mask count. -/
theorem status_and_of_allClosed (h : s.allClosed = true) {k k' : BitVec 16} (hk : 0xFFE1#16 &&& k = 0xFFE1#16 &&& k') :
    s.status &&& k = s.status &&& k' := by
  rw [← status_of_allClosed h, BitVec.and_assoc, hk, BitVec.and_assoc]

end Sys2Proof.Machine
end

section
/-! DECOMPRESS (spec R189): the blocks that have another one after them, and what follows. -/

namespace Sys2Proof.Machine

variable {s t u : State} {b : Block} {bs blocks : List Block} {bits rest : List Bool}

/-- DECOMPRESS's loop, begun in `s`, has made the outputs of the blocks; the bits `rest` follow (R189). -/
structure Decompressed (s t : State) (bs : List Block) (rest : List Bool) : Prop where
  pending : t.pending = rest
  readerOk : ReaderOk t
  shape : t = { s with
    rbuf := t.rbuf, rcnt := t.rcnt, res := if bs = [] then s.res else 257#258, hn := t.hn, ord := t.ord, cntl := t.cntl,
    maxl := t.maxl, cl := t.cl, cc := t.cc, tn := t.tn, name := (bs.getLast?.map Block.name).getD s.name,
    status := if bs = [] then s.status else (s.status &&& 0xF8EF#16) ||| 0x0700#16, host.arcPos := t.host.arcPos,
    host.outputs := s.host.outputs ++ bs.map fun b => (b.name, b.content) }

theorem Decompressed.refl (h : ReaderOk s) (hp : s.pending = rest) : Decompressed s s [] rest :=
  ⟨hp, h, by rw [if_pos rfl, if_pos rfl, List.map_nil, List.append_nil]; rfl⟩

theorem Decompressed.accepts (h : Decompressed s t bs rest) (hb : s.Accepts b) : t.Accepts b :=
  hb.of_eq (by rw [h.shape]) (by rw [h.shape])

/-- STATUS after one block more. -/
theorem Decompressed.status (h : Decompressed s t bs rest) :
    (t.status &&& 0xF8EF#16) ||| 0x0700#16 = (s.status &&& 0xF8EF#16) ||| 0x0700#16 := by
  rw [h.shape]
  dsimp only
  split
  · rfl
  · exact and_or_and_or _ _ _ _ _

theorem Decompressed.flag (h : Decompressed s t bs rest) (f : Flag) :
    t.flag f = if bs = [] then s.flag f else (s.flag f && (0xF8EF#16).getLsbD f.bit || (0x0700#16).getLsbD f.bit) := by
  have hst : t.status = if bs = [] then s.status else (s.status &&& 0xF8EF#16) ||| 0x0700#16 := by rw [h.shape]
  rw [State.flag, hst]
  split
  · rfl
  · rw [BitVec.getLsbD_or, BitVec.getLsbD_and]
    rfl

/-- The block after the others leaves its name, its trailer and its output (R183). -/
theorem Decompressed.block {last : Nat} (h : Decompressed s t bs (bits ++ rest)) (hb : s.Accepts b)
    (hlast : last = 257 ∨ last = 258) (hbits : b.bits last = some bits) :
    ∃ y u, decfileBody t = .done y u ∧ y.toNat = last ∧ u.res = BitVec.ofNat 258 last ∧ u.pending = rest ∧ ReaderOk u ∧
      u = { s with
        rbuf := u.rbuf, rcnt := u.rcnt, res := u.res, hn := u.hn, ord := u.ord, cntl := u.cntl, maxl := u.maxl,
        cl := u.cl, cc := u.cc, tn := u.tn, name := b.name, status := (s.status &&& 0xF8EF#16) ||| 0x0700#16,
        host.arcPos := u.host.arcPos,
        host.outputs := s.host.outputs ++ (bs ++ [b]).map fun b => (b.name, b.content) } := by
  have hacc := h.accepts hb
  obtain ⟨y, u, hu, hy, hres, hp, hok, hsh⟩ :=
    decfileBody_block hacc.header hacc.goodName hacc.fits hacc.dst_ok hlast hbits h.readerOk h.pending
  refine ⟨y, u, hu, hy, hres, hp, hok, ?_⟩
  have houts : t.host.outputs ++ [(b.name, b.content)] =
      s.host.outputs ++ (bs ++ [b]).map fun b => (b.name, b.content) := by
    rw [h.shape, List.map_append, List.append_assoc]
    rfl
  have hsht := h.shape
  rw [h.status, houts] at hsh
  generalize s.host.outputs ++ (bs ++ [b]).map (fun b => (b.name, b.content)) = outs at hsh ⊢
  rw [hsh, hsht]

/-- The blocks that have another one after them: the loop goes on behind them (R189). -/
theorem decompressLoop_blocks (h : ReaderOk s) (hb : ∀ b ∈ bs, s.Accepts b) (hbits : openBits bs = some bits)
    (hp : s.pending = bits ++ rest) (fuel : Nat) :
    ∃ t, decompressLoop (fuel + bs.length) s = decompressLoop fuel t ∧ Decompressed s t bs rest := by
  induction bs using List.reverseRecOn generalizing bits rest fuel with
  | nil =>
    obtain rfl : [] = bits := Option.some.inj hbits
    exact ⟨s, rfl, .refl h hp⟩
  | append_singleton bs b ih =>
    obtain ⟨x, y, hx, hy, rfl⟩ := exists_of_openBits_concat hbits
    rw [List.append_assoc] at hp
    obtain ⟨t, ht, hdec⟩ := ih (fun c hc => hb c (List.mem_append_left _ hc)) hx hp (fuel + 1)
    obtain ⟨z, u, hu, hz, hres, hpu, hok, hsh⟩ := hdec.block (hb b (by simp)) (.inl rfl) hy
    have hmore : ¬ z.toNat = Config.archiveEnd := by rw [hz]; decide
    refine ⟨u, ?_, hpu, hok, ?_⟩
    · rw [List.length_append, List.length_singleton, Nat.add_comm bs.length, ← Nat.add_assoc, ht, decompressLoop, hu,
        Run.bind_done, if_neg hmore]
    · rw [if_neg (by simp), if_neg (by simp), List.getLast?_concat]
      exact hsh.trans (by rw [hres]; rfl)

/-- The archive just opened (R189, R203). -/
def openedArchive (s : State) : State := { s with rbuf := 0#8, rcnt := 0#4, host.arcPos := 0 }.setFlag .arOpen true

theorem openedArchive_readerOk (s : State) : ReaderOk (openedArchive s) := readerOk_of_empty rfl rfl

theorem openedArchive_pending (s : State) : (openedArchive s).pending = streamBits s.host.arc :=
  State.pending_of_rcnt_zero rfl

theorem decompressBody_of_ok (h : s.host.arcROk = true) :
    decompressBody s = (decompressLoop ((streamBits s.host.arc).length + 1) (openedArchive s)).andThen fun s =>
      .done () (closeArc s) := by
  rw [decompressBody, aopenrBody_of_ok h, Run.andThen_done, ← openedArchive, State.bitsLeft_eq, openedArchive_pending]

/-- The blocks that have another one after them: DECOMPRESS goes on behind them (R189). -/
theorem decompressBody_blocks (harc : s.host.arcROk = true) (hb : ∀ b ∈ bs, s.Accepts b)
    (hbits : openBits bs = some bits) (hstream : streamBits s.host.arc = bits ++ rest) :
    ∃ t fuel, decompressBody s = (decompressLoop (fuel + 1) t).andThen (fun s => .done () (closeArc s)) ∧
      Decompressed (openedArchive s) t bs rest := by
  have hlen := length_le_openBits hbits
  obtain ⟨fuel, hfuel⟩ : ∃ fuel, (streamBits s.host.arc).length + 1 = fuel + 1 + bs.length :=
    ⟨(bits ++ rest).length - bs.length, by rw [hstream, List.length_append]; omega⟩
  obtain ⟨t, ht, hdec⟩ := decompressLoop_blocks (openedArchive_readerOk s)
    (fun b hmem => (hb b hmem).of_eq rfl rfl) hbits
    ((openedArchive_pending s).trans hstream) (fuel + 1)
  exact ⟨t, fuel, by rw [decompressBody_of_ok harc, hfuel, ht], hdec⟩

theorem openedArchive_status (s : State) : (openedArchive s).status = s.status ||| 0x0004#16 := rfl

theorem openedArchive_flag (s : State) (f : Flag) : (openedArchive s).flag f = if f = .arOpen then true else s.flag f :=
  State.flag_setFlag _ _ _ _

/-- With the archive open and a fault of DECFILE to come, DECOMPRESS ends where DECFILE does (R189, R225). -/
theorem decompressLoop_of_decfile_fault {fuel : Nat} (h : Ready s) (ho : s.flag .arOpen = true)
    (hd : s.flag .dOpen = false)
    (he : exec .decfile s = .next t) (ht : t.flag .faulted = true) : decompressLoop (fuel + 1) s = .raised t := by
  rw [exec_decfile_eq h ho hd] at he
  have hr := Run.Faults.eq_raised ((decfileBody_faults h).bind (fun _ _ _ e => e) fun _ u hu => .done hu) he ht
  cases hb : decfileBody s with
  | done y u => rw [hb] at hr; cases hr
  | raised u =>
    rw [hb] at hr
    cases hr
    rw [decompressLoop, hb]
    rfl
  | stuck f => rw [hb] at hr; cases hr

/-- STATUS with the archive open, after one block or more. -/
theorem status_decompressed (h : s.allClosed = true) :
    ((openedArchive s).status &&& 0xF8EF#16) ||| 0x0700#16 = (s.status &&& 0xF8FF#16) ||| 0x0704#16 := by
  rw [openedArchive_status, BitVec.and_or_distrib_right, BitVec.or_assoc,
    status_and_of_allClosed h (k' := 0xF8FF#16) (by decide)]
  rfl

/-- STATUS after CLOSE 0. -/
theorem status_decompress (h : s.allClosed = true) :
    (((s.status &&& 0xF8FF#16) ||| 0x0704#16) &&& 0xFFF9#16) = (s.status &&& 0xF8FF#16) ||| 0x0700#16 := by
  rw [BitVec.and_or_distrib_right, BitVec.and_assoc, status_and_of_allClosed h (k' := 0xF8FF#16) (by decide)]
  rfl

/-- DECOMPRESS of an archive, whatever follows it (R189). -/
theorem decompressBody_archive (hclosed : s.allClosed = true) (harc : s.host.arcROk = true)
    (hacc : ∀ b ∈ blocks, s.Accepts b) (hbits : archiveBits blocks = some bits)
    (hstream : streamBits s.host.arc = bits ++ rest) :
    ∃ t, decompressBody s = .done () t ∧ t.res = 258#258 ∧
      t = { s with
        rbuf := 0#8, rcnt := 0#4, res := t.res, hn := t.hn, ord := t.ord, cntl := t.cntl, maxl := t.maxl, cl := t.cl,
        cc := t.cc, tn := t.tn, name := t.name, status := (s.status &&& 0xF8FF#16) ||| 0x0700#16,
        host.arcPos := t.host.arcPos,
        host.outputs := s.host.outputs ++ blocks.map fun b => (b.name, b.content) } := by
  obtain ⟨bs, b, x, y, rfl, hx, hy, rfl⟩ := exists_of_archiveBits hbits
  rw [List.append_assoc] at hstream
  obtain ⟨u, fuel, hu, hdec⟩ := decompressBody_blocks harc (fun c hc => hacc c (List.mem_append_left _ hc)) hx hstream
  obtain ⟨z, v, hv, hz, hres, -, -, hsh⟩ := hdec.block ((hacc b (by simp)).of_eq rfl rfl) (.inr rfl) hy
  rw [status_decompressed hclosed] at hsh
  have hst : v.status = (s.status &&& 0xF8FF#16) ||| 0x0704#16 := by rw [hsh]
  have hvaw : v.flag .awOpen = false := by
    have haw : s.status.getLsbD 1 = false := (s.allClosed_iff.mp hclosed).1
    show v.status.getLsbD 1 = false
    rw [hst, BitVec.getLsbD_or, BitVec.getLsbD_and, haw]
    rfl
  have hlast : z.toNat = Config.archiveEnd := hz
  have hclose := closeArc_of_not_awOpen hvaw
  rw [hst, status_decompress hclosed] at hclose
  refine ⟨closeArc v, ?_, ?_, ?_⟩
  · rw [hu, decompressLoop, hv, Run.bind_done, if_pos hlast]
    rfl
  · rw [hclose]
    exact hres
  · rw [hclose]
    dsimp only
    generalize (s.status &&& 0xF8FF#16) ||| 0x0700#16 = st
    rw [hsh]
    rfl

/-- DECOMPRESS of blocks that have another one after them, and a DECFILE that faults behind them (R189, R225). -/
theorem exec_decompress_blocks (h : Ready s) (hclosed : s.allClosed = true) (harc : s.host.arcROk = true)
    (hacc : ∀ b ∈ bs, s.Accepts b) (hbits : openBits bs = some bits) (hstream : streamBits s.host.arc = bits ++ rest) :
    ∃ u, Decompressed (openedArchive s) u bs rest ∧
      ∀ t, exec .decfile u = .next t → t.flag .faulted = true → exec .decompress s = .next t := by
  obtain ⟨u, fuel, hu, hdec⟩ := decompressBody_blocks harc hacc hbits hstream
  obtain ⟨-, -, -, hdo⟩ := s.allClosed_iff.mp hclosed
  have hfaulted : (openedArchive s).flag .faulted = false := (openedArchive_flag s _).trans h
  have harOpen : (openedArchive s).flag .arOpen = true := openedArchive_flag s _
  have hdOpen : (openedArchive s).flag .dOpen = false := (openedArchive_flag s _).trans hdo
  have hready : Ready u := by
    rw [Ready, hdec.flag, hfaulted]
    split <;> rfl
  have hopen : u.flag .arOpen = true := by
    rw [hdec.flag, harOpen]
    split <;> rfl
  have hno : u.flag .dOpen = false := by
    rw [hdec.flag, hdOpen]
    split <;> rfl
  refine ⟨u, hdec, fun t he ht => ?_⟩
  rw [exec_of_ready (i := .decompress) h rfl hclosed]
  show (decompressBody s).outcome = _
  rw [hu, decompressLoop_of_decfile_fault hready hopen hno he ht]
  rfl

/-- Settles O48: the blocks but the last one after another, then the last one or a DECFILE that faults. -/
theorem decompressReadsArchive : Obligations.DecompressReadsArchive := by
  unfold Obligations.DecompressReadsArchive
  intro s h hclosed
  have hexec : exec .decompress s = (decompressBody s).outcome := exec_of_ready h rfl hclosed
  refine ⟨fun hno => ?_, fun blocks bits rest harc hb hstream => ?_⟩
  · rw [hexec, decompressBody, aopenrBody_of_refused hno]
    rfl
  have hacc : ∀ b ∈ blocks, s.Accepts b := fun b hmem => let ⟨h1, h2, h3, h4⟩ := hb b hmem; ⟨h1, h2, h3, h4⟩
  refine ⟨fun hbits => ?_, fun hbits => ?_⟩
  · obtain ⟨t, ht, hres, hsh⟩ := decompressBody_archive hclosed harc hacc hbits hstream
    exact ⟨t, by rw [hexec, ht]; rfl, hres, hsh⟩
  · obtain ⟨u, hdec, hfault⟩ := exec_decompress_blocks h hclosed harc hacc hbits hstream
    have hsh := hdec.shape
    rw [status_decompressed hclosed, openedArchive_status] at hsh
    exact ⟨u, hdec.pending, hdec.readerOk, hsh, hfault⟩

end Sys2Proof.Machine
end

section
/-! COMPRESS (spec R188): the blocks of the first inputs, and the input after them. -/

namespace Sys2Proof.Machine

variable {s t u v : State} {b : Block} {bs : List Block} {bits more : List Bool} {f : FileData} {fs : List FileData}
  {op : Opcode}

/-! ### One input -/

/-- COMPRESS on input `i`, the file `f`, begun in `t`: `v` is where the input is closed again (R188). -/
structure RoundDone (last : Bool) (i : Nat) (f : FileData) (t v : State) (b : Block) (bits : List Bool) : Prop where
  file : (b.name, b.content) = f
  headerOk : b.HeaderOk
  encoded : ∃ u w, b.EncodedBy u w ∧ v.SameEncoder w
  blockBits : b.bits (trailerSymbol last) = some bits
  written : v.written = t.written ++ bits
  writerOk : WriterOk v
  shape : v = { t with
    wbuf := v.wbuf, wcnt := v.wcnt, freq := v.freq, node := v.node, ncnt := v.ncnt, root := v.root, pq := v.pq,
    len := v.len, hn := v.hn, ord := v.ord, cntl := v.cntl, maxl := v.maxl, cl := v.cl, cc := v.cc,
    status := (t.status &&& 0xF817#16) ||| 0x03E0#16, name := f.1, sidx := BitVec.ofNat 16 i,
    host.arc := v.host.arc, host.srcPos := v.host.srcPos }

/-- The input opened (R205). -/
def openedInput (s : State) (i : Nat) (f : FileData) : State :=
  { s with sidx := BitVec.ofNat 16 i, name := f.1, host.srcPos := 0 }.setFlag .sOpen true

theorem openedInput_srcContent {i : Nat} (hi : i < 2 ^ 16) (hin : s.host.inputs[i]? = some (.file f.1 f.2)) :
    (openedInput s i f).srcContent = f.2 := by
  refine srcContent_of_input (s := openedInput s i f) (f := .file f.1 f.2) ?_
  show s.host.inputs[(BitVec.ofNat 16 i).toNat]? = _
  rwa [BitVec.toNat_ofNat, Nat.mod_eq_of_lt hi]

/-- An input that opens, with a name that fits, gives its block (R188). -/
theorem compressRound_done (op : Opcode) (last : Bool) {i : Nat} (hi : i < 2 ^ 16) (h : Ready t) (hs : WriterOk t)
    (hin : t.host.inputs[i]? = some (.file f.1 f.2)) (hfit : t.nameFits f.1) (hlen : f.1.length + f.2.length < 2 ^ 64) :
    ∃ v b bits, (∀ k, (k == 0) = last → compressLoop op i (k + 1) t = compressLoop op (i + 1) k v) ∧
      RoundDone last i f t v b bits := by
  have hopen : sopenBody op (BitVec.ofNat 16 i) t = .done () (openedInput t i f) :=
    sopenBody_of_file op (by rwa [BitVec.toNat_ofNat, Nat.mod_eq_of_lt hi]) hfit
  have hcontent := openedInput_srcContent hi hin
  have hready : Ready (openedInput t i f) :=
    Ready.setFlag (s := { t with sidx := BitVec.ofNat 16 i, name := f.1, host.srcPos := 0 }) h (by decide) true
  have hso : (openedInput t i f).flag .sOpen = true := (State.flag_setFlag _ _ _ _).trans (if_pos rfl)
  obtain ⟨u, w, b, bits, hu, hb⟩ := encfileBody_writes op last hready hso hs rfl (by rwa [hcontent])
  obtain ⟨-, hname, hcont, -⟩ := id hb.encodedBy
  have hst : u.status &&& 0xFFF7#16 = (t.status &&& 0xF817#16) ||| 0x03E0#16 := by
    rw [hb.shape]
    show ((((t.status ||| 0x0008#16) &&& 0xF81F#16) ||| 0x03E0#16) &&& 0xFFF7#16) = _
    rw [BitVec.and_or_distrib_right, BitVec.and_or_distrib_right, BitVec.and_or_distrib_right, BitVec.or_assoc,
      BitVec.and_assoc]
    rfl
  refine ⟨closeSrc u, b, bits, fun k hk => ?_, ?_, hb.headerOk, ⟨_, w, hb.encodedBy, hb.tables⟩, hb.blockBits,
    hb.written, hb.writerOk, ?_⟩
  · rw [compressLoop, hopen, Run.andThen_done, hk, hu, Run.andThen_done]
  · rw [hname, hcont, hcontent]
    rfl
  · have hsh := hb.shape
    show { u with status := u.status &&& 0xFFF7#16 } = _
    rw [hst]
    generalize (t.status &&& 0xF817#16) ||| 0x03E0#16 = st
    rw [hsh]
    rfl

/-! ### The first inputs -/

/-- COMPRESS's loop, begun in `s`, has written the blocks of the files, each with another one to come (R188). -/
structure Compressed (s t : State) (bs : List Block) (fs : List FileData) (bits : List Bool) : Prop where
  encodes : EncodesFiles bs fs t
  openBits : openBits bs = some bits
  written : t.written = s.written ++ bits
  writerOk : WriterOk t
  tables : fs = [] → t.SameEncoder s
  shape : t = { s with
    wbuf := t.wbuf, wcnt := t.wcnt, freq := t.freq, node := t.node, ncnt := t.ncnt, root := t.root, pq := t.pq,
    len := t.len, hn := t.hn, ord := t.ord, cntl := t.cntl, maxl := t.maxl, cl := t.cl, cc := t.cc,
    status := if fs = [] then s.status else (s.status &&& 0xF817#16) ||| 0x03E0#16,
    name := (fs.getLast?.map Prod.fst).getD s.name, sidx := t.sidx, host.arc := t.host.arc,
    host.srcPos := t.host.srcPos }

theorem Compressed.refl (h : WriterOk s) : Compressed s s [] [] [] :=
  ⟨⟨rfl, fun _ hb => absurd hb List.not_mem_nil, fun _ hb => absurd hb (by simp)⟩, rfl, (List.append_nil _).symm, h,
    fun _ => State.SameEncoder_refl s, by rw [if_pos rfl]; rfl⟩

theorem Compressed.flag (h : Compressed s t bs fs bits) (g : Flag) :
    t.flag g = if fs = [] then s.flag g else (s.flag g && (0xF817#16).getLsbD g.bit || (0x03E0#16).getLsbD g.bit) := by
  have hst : t.status = if fs = [] then s.status else (s.status &&& 0xF817#16) ||| 0x03E0#16 := by rw [h.shape]
  rw [State.flag, hst]
  split
  · rfl
  · rw [BitVec.getLsbD_or, BitVec.getLsbD_and]
    rfl

theorem Compressed.ready (h : Compressed s t bs fs bits) (hs : Ready s) : Ready t := by
  rw [Ready, h.flag, hs]
  split <;> rfl

/-- STATUS after one input more. -/
theorem Compressed.status (h : Compressed s t bs fs bits) :
    (t.status &&& 0xF817#16) ||| 0x03E0#16 = (s.status &&& 0xF817#16) ||| 0x03E0#16 := by
  rw [h.shape]
  dsimp only
  split
  · rfl
  · exact and_or_and_or _ _ _ _ _

theorem Compressed.inputs_eq (h : Compressed s t bs fs bits) : t.host.inputs = s.host.inputs := by rw [h.shape]

theorem Compressed.nameMax_eq (h : Compressed s t bs fs bits) : t.nameMax = s.nameMax := by rw [h.shape]

/-- The files of the blocks and of one more (R188). -/
theorem Compressed.encodesFiles {last : Bool} {i : Nat} (h : Compressed s t bs fs bits)
    (hr : RoundDone last i f t v b more) : EncodesFiles (bs ++ [b]) (fs ++ [f]) v := by
  obtain ⟨hmap, hall, -⟩ := h.encodes
  obtain ⟨u, w, henc, hsame⟩ := hr.encoded
  refine ⟨by rw [List.map_append, hmap, List.map_singleton, hr.file], fun c hc => ?_, fun c hc => ?_⟩
  · rcases List.mem_append.mp hc with hc | hc
    · exact hall c hc
    · rw [List.mem_singleton.mp hc]
      exact ⟨hr.headerOk, u, w, henc⟩
  · rw [List.getLast?_concat] at hc
    rw [← Option.some.inj hc]
    exact ⟨u, w, henc, hsame⟩

/-- What the round after the others has changed since the loop's start. -/
theorem Compressed.roundShape {last : Bool} {i : Nat} (h : Compressed s t bs fs bits)
    (hr : RoundDone last i f t v b more) : v = { s with
      wbuf := v.wbuf, wcnt := v.wcnt, freq := v.freq, node := v.node, ncnt := v.ncnt, root := v.root, pq := v.pq,
      len := v.len, hn := v.hn, ord := v.ord, cntl := v.cntl, maxl := v.maxl, cl := v.cl, cc := v.cc,
      status := (s.status &&& 0xF817#16) ||| 0x03E0#16, name := f.1, sidx := BitVec.ofNat 16 i,
      host.arc := v.host.arc, host.srcPos := v.host.srcPos } := by
  have hsh := hr.shape
  have hsht := h.shape
  rw [h.status] at hsh
  generalize (s.status &&& 0xF817#16) ||| 0x03E0#16 = st at hsh ⊢
  rw [hsh, hsht]

/-- COMPRESS's next input is a file that opens, with a name that fits (R188, R205). -/
theorem Compressed.round (last : Bool) (h : Compressed s t bs fs bits) (hs : Ready s) (hi : fs.length < 2 ^ 16)
    (hin : s.host.inputs[fs.length]? = some (.file f.1 f.2)) (hfit : s.nameFits f.1)
    (hlen : f.1.length + f.2.length < 2 ^ 64) :
    ∃ v b more, (∀ k, (k == 0) = last → compressLoop op fs.length (k + 1) t = compressLoop op (fs.length + 1) k v) ∧
      RoundDone last fs.length f t v b more :=
  compressRound_done op last hi (h.ready hs) h.writerOk (by rwa [h.inputs_eq])
    (by rwa [State.nameFits, State.nameTooLong, h.nameMax_eq]) hlen

/-- The host has the files, in order from the first input on, and their names and contents are not too long. -/
def HasFiles (s : State) (fs : List FileData) : Prop :=
  s.host.inputs.take fs.length = fs.map (fun f => .file f.1 f.2) ∧
    ∀ f ∈ fs, s.nameFits f.1 ∧ f.1.length + f.2.length < 2 ^ 64

theorem HasFiles.concat (h : HasFiles s (fs ++ [f])) :
    HasFiles s fs ∧ s.host.inputs[fs.length]? = some (.file f.1 f.2) ∧ s.nameFits f.1 ∧
      f.1.length + f.2.length < 2 ^ 64 := by
  obtain ⟨hin, hall⟩ := h
  refine ⟨⟨?_, fun g hg => hall g (List.mem_append_left _ hg)⟩, ?_, hall f (by simp)⟩
  · have htake := congrArg (List.take fs.length) hin
    rw [List.take_take, List.length_append, Nat.min_eq_left (Nat.le_add_right _ _), List.map_append,
      List.take_left' (List.length_map _)] at htake
    exact htake
  · have hget := congrArg (fun l => l[fs.length]?) hin
    rw [List.getElem?_take, List.length_append, if_pos (by simp), List.map_append,
      List.getElem?_append_right (by simp), List.length_map, Nat.sub_self] at hget
    exact hget

/-- The files that another input follows: the loop goes on behind them (R188). -/
theorem compressLoop_files (op : Opcode) (hs : Ready s) (h : WriterOk s) (hfs : HasFiles s fs)
    (hi : fs.length ≤ 2 ^ 16) :
    ∃ t bs bits, (∀ k, 1 ≤ k → compressLoop op 0 (fs.length + k) s = compressLoop op fs.length k t) ∧
      Compressed s t bs fs bits := by
  induction fs using List.reverseRecOn with
  | nil => exact ⟨s, [], [], fun k _ => by rw [List.length_nil, Nat.zero_add], .refl h⟩
  | append_singleton fs f ih =>
    obtain ⟨hfs', hin, hfit, hlen⟩ := hfs.concat
    rw [List.length_append, List.length_singleton] at hi ⊢
    obtain ⟨t, bs, bits, hrun, hcomp⟩ := ih hfs' (by omega)
    obtain ⟨v, b, more, hround, hdone⟩ := hcomp.round (op := op) false hs (by omega) hin hfit hlen
    refine ⟨v, bs ++ [b], bits ++ more, fun k hk => ?_, hcomp.encodesFiles hdone, ?_, ?_, hdone.writerOk,
      fun e => absurd e (by simp), ?_⟩
    · rw [Nat.add_assoc, Nat.add_comm 1 k, hrun (k + 1) (by omega), hround k (beq_eq_false_iff_ne.mpr (by omega))]
    · rw [openBits_concat, hcomp.openBits, Option.bind_some,
        show b.bits Config.oneMoreFile = some more from hdone.blockBits]
      rfl
    · rw [hdone.written, hcomp.written, List.append_assoc]
    · have hsh := hcomp.roundShape hdone
      have hsidx : v.sidx = BitVec.ofNat 16 fs.length := by rw [hsh]
      rw [← hsidx] at hsh
      rw [if_neg (by simp), List.getLast?_concat]
      exact hsh

end Sys2Proof.Machine
end

section
/-! COMPRESS as a command (spec R188): an archive of all the inputs, or the input it stops at. -/

namespace Sys2Proof.Machine

variable {s t u v : State} {b : Block} {bs : List Block} {bits more : List Bool} {f : FileData} {fs : List FileData}
  {idx : BitVec 16}

/-- The archive just opened for writing (R188, R202). -/
def emptiedArchive (s : State) : State := { s with wbuf := 0#8, wcnt := 0#4, host.arc := [] }.setFlag .awOpen true

theorem emptiedArchive_status (s : State) : (emptiedArchive s).status = s.status ||| 0x0002#16 := rfl

theorem emptiedArchive_written (s : State) : (emptiedArchive s).written = [] := State.written_of_wcnt_zero rfl

theorem emptiedArchive_writerOk (s : State) : WriterOk (emptiedArchive s) := writerOk_of_empty rfl rfl

theorem emptiedArchive_ready (h : Ready s) : Ready (emptiedArchive s) :=
  Ready.setFlag (s := { s with wbuf := 0#8, wcnt := 0#4, host.arc := [] }) h (by decide) true

theorem compressBody_of_ok (op : Opcode) (n : Nat) (h : s.host.arcWOk = true) :
    compressBody op n s = (compressLoop op 0 n (emptiedArchive s)).andThen fun s => .done () (closeArc s) := by
  rw [compressBody, aopenwBody_of_ok h, Run.andThen_done]
  rfl

theorem exec_compress_eq (h : Ready s) (hclosed : s.allClosed = true) (hidx : idx ≠ 0#16) :
    exec (.compress idx) s = (compressBody 0x17#6 idx.toNat s).outcome := by
  have hpos : idx.toNat ≠ 0 := fun e => hidx (BitVec.eq_of_toNat_eq e)
  exact exec_of_ready (i := .compress idx) h (decide_eq_true (by omega)) hclosed

/-! ### The end of an archive -/

theorem wbuf_of_wcnt_zero (h : WriterOk s) (h0 : s.wcnt = 0#4) : s.wbuf = 0#8 := by
  obtain ⟨-, hz⟩ := h
  refine BitVec.eq_of_getLsbD_eq fun i hi => ?_
  rw [hz i hi (by simp [h0]), BitVec.getLsbD_zero]

/-- CLOSE 0 on an archive open for writing, with the padding it adds (R208). -/
theorem closeArc_archive (h : WriterOk s) (ho : s.flag .awOpen = true) :
    ∃ pad < 8, streamBits (closeArc s).host.arc = s.written ++ List.replicate pad false ∧
      closeArc s = { s with
        wbuf := 0#8, wcnt := 0#4, rbuf := 0#8, rcnt := 0#4, status := s.status &&& 0xFFF9#16,
        host.arc := (closeArc s).host.arc } := by
  obtain ⟨hw, hcnt, hok⟩ := flush_spec h
  have hbuf := wbuf_of_wcnt_zero hok hcnt
  have hclose := closeArc_of_awOpen ho
  have hflush := flush_shape s
  rw [State.written_of_wcnt_zero hcnt] at hw
  refine ⟨(8 - s.wcnt.toNat) % 8, Nat.mod_lt _ (by decide), ?_, ?_⟩
  · rw [hclose]
    exact hw
  · rw [hcnt, hbuf] at hflush
    rw [hclose, hflush]

/-- STATUS at the end of COMPRESS. -/
theorem status_compress (h : s.allClosed = true) :
    ((((emptiedArchive s).status &&& 0xF817#16) ||| 0x03E0#16) &&& 0xFFF9#16) =
      (s.status &&& 0xF81F#16) ||| 0x03E0#16 := by
  rw [emptiedArchive_status, BitVec.and_or_distrib_right, BitVec.and_or_distrib_right, BitVec.and_or_distrib_right,
    BitVec.or_assoc, BitVec.and_assoc, status_and_of_allClosed h (k' := 0xF81F#16) (by decide)]
  rfl

/-- COMPRESS of all the inputs (R188, R70). -/
theorem compressBody_archive (op : Opcode) (hs : Ready s) (hclosed : s.allClosed = true) (harc : s.host.arcWOk = true)
    (hfs : HasFiles s (fs ++ [f])) (hi : fs.length < 2 ^ 16) :
    ∃ t bs bits pad, compressBody op (fs.length + 1) s = .done () t ∧ EncodesFiles bs (fs ++ [f]) t ∧
      archiveBits bs = some bits ∧ streamBits t.host.arc = bits ++ List.replicate pad false ∧ pad < 8 ∧
      t.sidx = BitVec.ofNat 16 fs.length ∧ t.name = f.1 ∧ t.srcContent = f.2 ∧
      t = { s with
        wbuf := 0#8, wcnt := 0#4, rbuf := 0#8, rcnt := 0#4, freq := t.freq, node := t.node, ncnt := t.ncnt,
        root := t.root, pq := t.pq, len := t.len, hn := t.hn, ord := t.ord, cntl := t.cntl, maxl := t.maxl, cl := t.cl,
        cc := t.cc, status := (s.status &&& 0xF81F#16) ||| 0x03E0#16, name := t.name, sidx := t.sidx,
        host.arc := t.host.arc, host.srcPos := t.host.srcPos } := by
  have hready := emptiedArchive_ready hs
  obtain ⟨hfs', hin, hfit, hlen⟩ := HasFiles.concat (s := emptiedArchive s) hfs
  obtain ⟨t, bs, bits, hrun, hcomp⟩ := compressLoop_files op hready (emptiedArchive_writerOk s) hfs' hi.le
  obtain ⟨v, b, more, hround, hdone⟩ := hcomp.round (op := op) true hready hi hin hfit hlen
  have hsh := hcomp.roundShape hdone
  have hvst : v.status = ((emptiedArchive s).status &&& 0xF817#16) ||| 0x03E0#16 := by rw [hsh]
  have hvaw : v.flag .awOpen = true := by
    show v.status.getLsbD 1 = true
    rw [hvst, emptiedArchive_status, BitVec.getLsbD_or, BitVec.getLsbD_and, BitVec.getLsbD_or]
    simp
  have hwritten : v.written = bits ++ more := by
    rw [hdone.written, hcomp.written, emptiedArchive_written, List.nil_append]
  have hcontent : v.srcContent = f.2 := by
    refine srcContent_of_input (s := v) (f := .file f.1 f.2) ?_
    rw [hsh]
    show s.host.inputs[(BitVec.ofNat 16 fs.length).toNat]? = _
    rw [BitVec.toNat_ofNat, Nat.mod_eq_of_lt hi]
    exact hin
  obtain ⟨pad, hpad, hstream, hclose⟩ := closeArc_archive hdone.writerOk hvaw
  rw [hvst, status_compress hclosed] at hclose
  rw [hwritten] at hstream
  have hencodes := hcomp.encodesFiles hdone
  refine ⟨closeArc v, bs ++ [b], bits ++ more, pad, ?_, ?_, ?_, hstream, hpad, ?_, ?_, ?_, ?_⟩
  · rw [compressBody_of_ok op _ harc, hrun 1 le_rfl, hround 0 rfl, compressLoop, Run.andThen_done]
  · obtain ⟨hmap, hall, hlast⟩ := hencodes
    refine ⟨hmap, hall, fun c hc => ?_⟩
    rw [hclose]
    exact hlast c hc
  · rw [archiveBits_concat, hcomp.openBits, Option.bind_some,
      show b.bits Config.archiveEnd = some more from hdone.blockBits]
    rfl
  · rw [hclose, hsh]
  · rw [hclose, hsh]
  · rw [hclose, ← hcontent]
    rfl
  · rw [hclose]
    dsimp only
    generalize (s.status &&& 0xF81F#16) ||| 0x03E0#16 = st
    generalize (closeArc v).host.arc = arc
    rw [hsh]
    rfl

/-! ### An input that does not open -/

/-- STATUS where COMPRESS stops. -/
theorem status_compress_stopped (h : s.allClosed = true) :
    (if fs = [] then (emptiedArchive s).status else ((emptiedArchive s).status &&& 0xF817#16) ||| 0x03E0#16) ||| 1#16 =
      if fs = [] then s.status ||| 0x0003#16 else (s.status &&& 0xF81F#16) ||| 0x03E3#16 := by
  rw [emptiedArchive_status]
  split
  · exact BitVec.or_assoc _ _ _
  · rw [BitVec.and_or_distrib_right, BitVec.or_assoc, BitVec.or_assoc,
      status_and_of_allClosed h (k' := 0xF81F#16) (by decide)]
    rfl

/-- COMPRESS stopped at the input after the files (R188, R225). -/
theorem exec_compress_stops {k : FaultKind} {info : BitVec 16} (hs : Ready s) (hclosed : s.allClosed = true)
    (harc : s.host.arcWOk = true) (hfs : HasFiles s fs) (hi : fs.length < idx.toNat)
    (hstop : ∀ t, t.host.inputs = s.host.inputs → t.nameMax = s.nameMax →
      ∃ p, sopenBody 0x17#6 (BitVec.ofNat 16 fs.length) t =
        .raise k info { t with sidx := BitVec.ofNat 16 fs.length, host.srcPos := p }) :
    ∃ t bs bits, exec (.compress idx) s = .next t ∧ EncodesFiles bs fs t ∧ openBits bs = some bits ∧ t.written = bits ∧
      WriterOk t ∧ (fs = [] → t.SameEncoder s) ∧
      t = { s with
        wbuf := t.wbuf, wcnt := t.wcnt, freq := t.freq, node := t.node, ncnt := t.ncnt, root := t.root, pq := t.pq,
        len := t.len, hn := t.hn, ord := t.ord, cntl := t.cntl, maxl := t.maxl, cl := t.cl, cc := t.cc,
        fault := k.code, finfo := info,
        status := if fs = [] then s.status ||| 0x0003#16 else (s.status &&& 0xF81F#16) ||| 0x03E3#16,
        name := (fs.getLast?.map Prod.fst).getD s.name, sidx := BitVec.ofNat 16 fs.length, host.arc := t.host.arc,
        host.srcPos := t.host.srcPos } := by
  have hready := emptiedArchive_ready hs
  obtain ⟨t, bs, bits, hrun, hcomp⟩ :=
    compressLoop_files (s := emptiedArchive s) 0x17#6 hready (emptiedArchive_writerOk s) hfs (by omega)
  obtain ⟨p, hp⟩ := hstop t hcomp.inputs_eq hcomp.nameMax_eq
  obtain ⟨m, hm⟩ : ∃ m, idx.toNat = fs.length + (m + 1) := ⟨idx.toNat - fs.length - 1, by omega⟩
  have hidx : idx ≠ 0#16 := by
    rintro rfl
    exact absurd hi (Nat.not_lt_zero _)
  have hwritten : t.written = bits := by rw [hcomp.written, emptiedArchive_written, List.nil_append]
  have hraise := State.raise_eq (s := { t with sidx := BitVec.ofNat 16 fs.length, host.srcPos := p })
    (hcomp.ready hready) k info
  obtain ⟨u, hu⟩ : ∃ u, u = State.raise { t with sidx := BitVec.ofNat 16 fs.length, host.srcPos := p } k info :=
    ⟨_, rfl⟩
  rw [hraise] at hu
  refine ⟨u, bs, bits, ?_, ?_, hcomp.openBits, ?_, ?_, fun e => ?_, ?_⟩
  · rw [exec_compress_eq hs hclosed hidx, compressBody_of_ok _ _ harc, hm, hrun (m + 1) (by omega), compressLoop,
      hp, hu, ← hraise]
    rfl
  · obtain ⟨hmap, hall, hlast⟩ := hcomp.encodes
    refine ⟨hmap, hall, fun c hc => ?_⟩
    rw [hu]
    exact hlast c hc
  · rw [hu, ← hwritten]
    rfl
  · rw [hu]
    exact hcomp.writerOk
  · rw [hu]
    exact hcomp.tables e
  · have hst : t.status = if fs = [] then (emptiedArchive s).status
        else ((emptiedArchive s).status &&& 0xF817#16) ||| 0x03E0#16 := by rw [hcomp.shape]
    have hsh := hcomp.shape
    rw [← status_compress_stopped hclosed, ← hst]
    rw [← hst] at hsh
    rw [hu]
    dsimp only
    generalize t.status ||| 1#16 = st
    rw [hsh]
    rfl

/-- Settles O47: the blocks of the first inputs, and then the last one or the input the loop stops at. -/
theorem compressWritesArchive : Obligations.CompressWritesArchive := by
  unfold Obligations.CompressWritesArchive
  intro idx s h hclosed hidx
  have hexec := exec_compress_eq h hclosed hidx
  refine ⟨fun hno => ?_, fun files harc hin hall => ?_⟩
  · rw [hexec, compressBody, aopenwBody_of_refused hno]
    rfl
  have hfs : HasFiles s files := ⟨hin, hall⟩
  have hget : files.length < idx.toNat → (BitVec.ofNat 16 files.length).toNat = files.length := fun hlt => by
    rw [BitVec.toNat_ofNat, Nat.mod_eq_of_lt (hlt.trans idx.isLt)]
  refine ⟨fun hlen => ?_, fun hlt hmiss => ?_, fun name content m hlt hfile hmax hlong => ?_⟩
  · obtain rfl | ⟨fs, f, rfl⟩ := List.eq_nil_or_concat files
    · exact absurd (BitVec.eq_of_toNat_eq hlen.symm) hidx
    rw [List.concat_eq_append] at hfs hlen ⊢
    have hn : fs.length + 1 = idx.toNat := by simpa using hlen
    have hi : fs.length < 2 ^ 16 := by have := idx.isLt; omega
    obtain ⟨t, bs, bits, pad, ht, henc, hbits, hstream, hpad, hsidx, hname, hcontent, hsh⟩ :=
      compressBody_archive 0x17#6 h hclosed harc hfs hi
    refine ⟨t, bs, bits, pad, by rw [hexec, ← hn, ht]; rfl, henc, hbits, hstream, hpad, ?_, ?_, hsh⟩
    · rw [hsidx, BitVec.toNat_ofNat, Nat.mod_eq_of_lt hi, hn]
    · rw [List.getLast?_concat, hname, hcontent]
  · refine exec_compress_stops (k := .openFailure) h hclosed harc hfs hlt fun t hinputs _ => ⟨t.host.srcPos, ?_⟩
    exact sopenBody_of_no_file _ (by rwa [hget hlt, hinputs])
  · refine exec_compress_stops (k := .illegalOperation) h hclosed harc hfs hlt fun t hinputs hmax' => ⟨0, ?_⟩
    exact sopenBody_of_long_name _ (by rwa [hget hlt, hinputs]) (nameTooLong_of_lt (hmax'.trans hmax) hlong)

end Sys2Proof.Machine
end
